-- ==== Sys2Proof/Word.lean ====
section
/-! DEFINITION. The word types of the DK9 and their plainest helpers (00_scope R6: access sizes byte, half, word, quad). -/

namespace Sys2Proof

abbrev Byte := BitVec 8
abbrev Half := BitVec 16
abbrev Word := BitVec 32
abbrev Quad := BitVec 64

/-- Bits `hi:lo` of a word as a number (R8). -/
abbrev bitsOf {n : Nat} (x : BitVec n) (hi lo : Nat) : Nat := (x.extractLsb' lo (hi - lo + 1)).toNat

end Sys2Proof
end

