-- ==== Sys2Proof/Config.lean ====
section
/-! DEFINITION. What one implementation of the DK9 fixes and the free values: opaque constants with no body, so that no
proof can see a value of them. Each is named in the assumption log. -/

namespace Sys2Proof.Config

/-- A free 64-bit value for the n-th place the manual leaves a value open (assumption 1). -/
opaque freeQuad : Nat → Quad

/-- What a read of a byte of device memory finds while it is a frame of a declared page range, or once that range has been
released: step number and address (R75, R78; assumption 77). -/
opaque openByte : Nat → Nat → Byte

/-- The approximations of R318: only the bound of R318 constrains them (assumption 3). -/
opaque frsq : Word → Word
opaque fexp2 : Word → Word
opaque flog2 : Word → Word
opaque fsin : Word → Word
opaque fcos : Word → Word
opaque ftanh : Word → Word

/-- Stepping of the part, bits 63:48 of `sc_id` (R513; assumption 7). -/
opaque stepping : BitVec 16

/-- SHA3-256 as the firmware and attestation rules use it (R526-R528; assumption 10): uninterpreted. -/
opaque sha3 : List Byte → BitVec 256
/-- ML-DSA-44 verification: key, message digest, signature (R526; assumption 10). -/
opaque mldsaVerify : List Byte → BitVec 256 → List Byte → Bool
/-- The signature of 2,420 bytes that the device's identity key makes over a digest (R527, R528; assumption 10). -/
opaque identitySign : BitVec 256 → BitVec 19360
/-- The device's identity public key, 1,312 bytes (R527; assumption 10). -/
opaque identityKey : BitVec 10496
/-- The digest of the Mbaxel public key in the boot ROM (R526; assumption 10). -/
opaque romKeyDigest : BitVec 256
/-- The fused minimum firmware version (R526; assumption 10). -/
opaque fusedMinVersion : Nat
/-- The firmware image of the boot device, header and payload (R526; assumption 10). -/
opaque bootImage : List Byte
/-- The hash of a 192-byte line number that picks one link of a route (R522; assumption 11). -/
opaque sergeHash : Nat → Nat

/-- Entries that a core's store buffer has room for before it stops the stores of its gangs (R127; assumption 95). -/
opaque storeRoom : Nat

/-- The version of save images that this device writes and takes (R483; assumption 26). -/
opaque imageVersion : Quad

/-- Quad k of a section of a save image, by the section's content: the layout inside a section is the device's own (R483; assumption 26). -/
opaque imageLayout : List Nat → Nat → Quad

/-- Blocks of a range that one leaf page of its fill-state table describes, less one (R80, R514; assumption 102). -/
opaque fillSpan : Nat

/-- Records the queue memory of the device can hold (R457 status 3, R514: 768 MiB of 64-byte records). -/
def queueRecords : Nat := 768 * 1024 * 1024 / 64

/-- Fill-state leaf pages of the Felt pool (R514: 3 GiB of 12 KiB pages). -/
def poolPages : Nat := 3 * 1024 * 1024 * 1024 / 12288

end Sys2Proof.Config
end

