-- ==== Sys2Proof/Syntax.lean ====
section
/-! DEFINITION. The instructions of the DK9 (08 R242-R266) and the steps of its other agents (95, opcode table), one
constructor of `Instr` per row of spec/opcode_table.json. -/

namespace Sys2Proof

/-- A predicate field of an instruction word: index and negate (R246), or a predicate field `pq` (R278). -/
structure Pred where
  neg : Bool
  idx : BitVec 3
  deriving DecidableEq, Repr, Inhabited

/-- A source specifier (R249). A literal carries the payload of the extension word it names (R253). -/
inductive Src where
  | vec (r : BitVec 6) (perm : BitVec 5) (ea : Bool)
  | scal (r : BitVec 6) (ea : Bool)
  | const (code : BitVec 6)
  | lit (idx : BitVec 6) (y : BitVec 62)
  deriving DecidableEq, Repr, Inhabited

/-- A destination specifier (R247). -/
inductive Dst where
  | vec (r : BitVec 6)
  | scal (r : BitVec 6)
  | pred (p : BitVec 3)
  | file (n : BitVec 6)
  deriving DecidableEq, Repr, Inhabited

/-- The integer modifier `im` (R277). -/
structure IntMod where
  q : Bool
  sat : Bool
  u : Bool
  deriving DecidableEq, Repr, Inhabited

/-- Rounding codes 0 to 3 of R223. -/
inductive Rnd where
  | rne | rtz | rup | rdn
  deriving DecidableEq, Repr, Inhabited

/-- The float modifier `fm` (R309). -/
structure FMod where
  sat : Bool
  rnd : Rnd
  deriving DecidableEq, Repr, Inhabited

/-- The memory modifier `mo` (R332). Ordering and scope stay raw: R138 judges them at issue. -/
structure MemMod where
  ord : BitVec 3
  sco : BitVec 3
  hint : BitVec 2
  size : BitVec 2
  sx : Bool
  w : Bool
  deriving DecidableEq, Repr, Inhabited

/-- Operations of an atomic (R341). -/
inductive AOp where
  | add | sub | min | max | and | or | xor | exch | cas | inc | dec
  deriving DecidableEq, Repr, Inhabited

/-- Types of an atomic (R341). -/
inductive ATy where
  | i32 | n32 | i64 | n64 | f32 | f16x2 | bf16x2
  deriving DecidableEq, Repr, Inhabited

/-- The atomic modifier `am` (R341). -/
structure AtomMod where
  ord : BitVec 3
  sco : BitVec 3
  op : AOp
  ty : ATy
  deriving DecidableEq, Repr, Inhabited

/-- VOTE modes (R290). -/
inductive VoteMode where
  | any | all | ballot
  deriving DecidableEq, Repr, Inhabited

/-- SHFL modes (R290). -/
inductive ShflMode where
  | idx | up | down | xor
  deriving DecidableEq, Repr, Inhabited

/-- Comparison types of PSET (R295). -/
inductive CmpTy where
  | i32 | n32 | i64 | n64 | f32 | f16 | bf16
  deriving DecidableEq, Repr, Inhabited

/-- Comparisons of PSET (R295). -/
inductive Cmp where
  | eq | ne | lt | le | gt | ge | num | nan
  deriving DecidableEq, Repr, Inhabited

/-- The three modes of PMOV (R298). -/
inductive PmovOp where
  | move (d : Dst) (a : Pred)
  | pack (d : Dst)
  | unpack (a : Src)
  deriving DecidableEq, Repr, Inhabited

/-- The width modifier of CVTW (R306). -/
structure CvtwMod where
  sat : Bool
  du : Bool
  dw : Bool
  su : Bool
  sw : BitVec 2
  deriving DecidableEq, Repr, Inhabited

/-- Float types named by CVTI and FCLASS (R313, R323). -/
inductive FTy where
  | f32 | f16 | bf16
  deriving DecidableEq, Repr, Inhabited

/-- Integer types named by CVTI (R323). -/
inductive ITy where
  | i32 | n32 | i64 | n64 | i8 | q4
  deriving DecidableEq, Repr, Inhabited

/-- The modifier of CVTI (R323). -/
structure CvtiMod where
  rnd : Rnd
  toFloat : Bool
  it : ITy
  ft : FTy
  sat : Bool
  deriving DecidableEq, Repr, Inhabited

/-- Scale operand forms of SCALE (R329). -/
inductive ScaleForm where
  | exp | e8m0 | sc10
  deriving DecidableEq, Repr, Inhabited

/-- Destination formats of SRND (R331). -/
inductive SrndFmt where
  | f16 | bf16 | f8e4 | f8e5 | f4e2
  deriving DecidableEq, Repr, Inhabited

/-- The engine classes (R156, R355). -/
inductive EngClass where
  | copy | matrix | drain | peer
  deriving DecidableEq, Repr, Inhabited

/-- TILEQ's three modes (R358); outside `.def` the B position is a source that holds inline constant 0 (R248). -/
inductive TileqOp where
  | deff (t desc : Src)
  | rel (t e : Src)
  | rd (d : Dst) (t e : Src)
  deriving DecidableEq, Repr, Inhabited

/-- A tensor shape record's four payload words S0 to S3 (R262), as the extension words hold them. -/
structure Shape where
  s0 : BitVec 62
  s1 : BitVec 62
  s2 : BitVec 62
  s3 : BitVec 62
  deriving DecidableEq, Repr, Inhabited

/-- Cull codes of RASTQ and RAYX (R440, R441). -/
inductive Cull where
  | none | back | front
  deriving DecidableEq, Repr, Inhabited

/-- P-form operations (R260). -/
inductive POp where
  | nop | mov | iadd | isub | imul | imin | imax | and | or | xor | andn | shl | shr | sar
  | fadd | fsub | fmul | fmin | fmax | hadd2 | hmul2 | badd2
  deriving DecidableEq, Repr, Inhabited

/-- One half of a P-form word (R258). -/
structure PHalf where
  op : POp
  pi : BitVec 3
  scalarDst : Bool
  d : BitVec 6
  src : Src
  deriving DecidableEq, Repr, Inhabited

/-- Identity of a 192-byte line (R47, R63, R79): a device line, a host line by its key, or a line of a procedural block. -/
inductive LineKey where
  | dev (pl : Nat)
  | host (key : Nat)
  | proc (rn bix lib : Nat)
  deriving DecidableEq, Repr, Inhabited

/-- The kinds of an access that arrives from a peer part (R523). -/
inductive PeerKind where
  | read | write | atomic
  deriving DecidableEq, Repr, Inhabited

/-- An access of a peer part to this part's memory (R523). -/
structure PeerIn where
  src : Nat
  kind : PeerKind
  pa : Nat
  bytes : List Byte
  len : Nat
  op : AOp
  ty : ATy
  deriving DecidableEq, Repr, Inhabited

/-- What a peer part answers (R37). -/
inductive PeerAnswer where
  | data (bytes : List Byte)
  | ack
  | refusal
  deriving DecidableEq, Repr, Inhabited

/-- A memory access of an application-processor thread (R132). -/
inductive ApAccess where
  | load (pa len : Nat)
  | store (pa : Nat) (bytes : List Byte)
  deriving DecidableEq, Repr, Inhabited

/-- Who asks for a start (R525). -/
inductive Asker where
  | apps | host
  deriving DecidableEq, Repr, Inhabited

/-- A place a deferred binding waits at (R516). -/
inductive BindSlot where
  | mailbox (n : Nat)
  | twill (n : Nat)
  deriving DecidableEq, Repr, Inhabited

/-- Instructions and the steps of the other agents, one constructor per row of the opcode table. A program instruction
begins with its predicate prefix; the arguments of a step of another agent name the pending thing it acts on, or hold
what comes from outside the device. -/
inductive Instr where
  -- 0x01-0x16: control and predicates (chapter 09)
  | nop (p : Pred)
  | bra (p : Pred) (off : BitVec 28)
  | jmps (p : Pred) (a : Src)
  | call (p : Pred) (k : BitVec 5) (off : BitVec 28)
  | calls (p : Pred) (a : Src) (k : BitVec 5)
  | ret (p : Pred) (a : Src) (k : BitVec 5)
  | reconv (p : Pred) (off : BitVec 28)
  | parkTimeout (team gang lead : Nat)
  | exit (p : Pred)
  | fork (p : Pred) (d : Dst) (a : Src) (off : BitVec 28)
  | fend (p : Pred)
  | yield (p : Pred)
  | brkpt (p : Pred) (code : BitVec 12)
  | gbar (p : Pred)
  | vote (p : Pred) (d : Dst) (a : Src) (m : VoteMode)
  | rfl (p : Pred) (d : Dst) (a : Src) (q : Bool)
  | shfl (p : Pred) (d : Dst) (a b : Src) (q : Bool) (pd : BitVec 3) (m : ShflMode)
  | pset (p : Pred) (d : Dst) (a b : Src) (ty : CmpTy) (c : Cmp)
  | pand (p : Pred) (d : Dst) (a b : Pred)
  | por (p : Pred) (d : Dst) (a b : Pred)
  | pxor (p : Pred) (d : Dst) (a b : Pred)
  | pnot (p : Pred) (d : Dst) (a : Pred)
  | pmov (p : Pred) (op : PmovOp)
  -- 0x20-0x3F: integers (chapter 09)
  | iadd (p : Pred) (d : Dst) (a b : Src) (m : IntMod)
  | isub (p : Pred) (d : Dst) (a b : Src) (m : IntMod)
  | imul (p : Pred) (d : Dst) (a b : Src)
  | imulh (p : Pred) (d : Dst) (a b : Src) (m : IntMod)
  | imad (p : Pred) (d : Dst) (a b c : Src)
  | imadw (p : Pred) (d : Dst) (a b : Src) (m : IntMod)
  | iabs (p : Pred) (d : Dst) (a : Src) (m : IntMod)
  | ineg (p : Pred) (d : Dst) (a : Src) (m : IntMod)
  | imin (p : Pred) (d : Dst) (a b : Src) (m : IntMod)
  | imax (p : Pred) (d : Dst) (a b : Src) (m : IntMod)
  | isad (p : Pred) (d : Dst) (a b c : Src)
  | and (p : Pred) (d : Dst) (a b : Src) (m : IntMod)
  | or (p : Pred) (d : Dst) (a b : Src) (m : IntMod)
  | xor (p : Pred) (d : Dst) (a b : Src) (m : IntMod)
  | andn (p : Pred) (d : Dst) (a b : Src) (m : IntMod)
  | not (p : Pred) (d : Dst) (a : Src) (m : IntMod)
  | shl (p : Pred) (d : Dst) (a b : Src) (m : IntMod)
  | shr (p : Pred) (d : Dst) (a b : Src) (m : IntMod)
  | sar (p : Pred) (d : Dst) (a b : Src) (m : IntMod)
  | rot (p : Pred) (d : Dst) (a b : Src) (m : IntMod)
  | funnel (p : Pred) (d : Dst) (a b c : Src)
  | bfe (p : Pred) (d : Dst) (a b : Src) (m : IntMod)
  | bfi (p : Pred) (d : Dst) (a b c : Src)
  | popc (p : Pred) (d : Dst) (a : Src) (m : IntMod)
  | clz (p : Pred) (d : Dst) (a : Src) (m : IntMod)
  | brev (p : Pred) (d : Dst) (a : Src) (m : IntMod)
  | sel (p : Pred) (d : Dst) (a b : Src) (c : Pred) (q : Bool)
  | mov (p : Pred) (d : Dst) (a : Src) (m : IntMod)
  | movi (p : Pred) (d : Dst) (a b : Src)
  | lea (p : Pred) (d : Dst) (a b : Src) (sh : BitVec 3) (u : Bool)
  | iadd64 (p : Pred) (d : Dst) (a b : Src) (sub : Bool)
  | cvtw (p : Pred) (d : Dst) (a : Src) (m : CvtwMod)
  -- 0x40-0x6A: floats and narrow formats (chapter 10)
  | fadd (p : Pred) (d : Dst) (a b : Src) (m : FMod)
  | fsub (p : Pred) (d : Dst) (a b : Src) (m : FMod)
  | fmul (p : Pred) (d : Dst) (a b : Src) (m : FMod)
  | ffma (p : Pred) (d : Dst) (a b c : Src)
  | fmin (p : Pred) (d : Dst) (a b : Src) (np : Bool)
  | fmax (p : Pred) (d : Dst) (a b : Src) (np : Bool)
  | fclass (p : Pred) (d : Dst) (a : Src) (ty : FTy)
  | frnd (p : Pred) (d : Dst) (a : Src) (r : Rnd)
  | ffrac (p : Pred) (d : Dst) (a : Src)
  | frcp (p : Pred) (d : Dst) (a : Src)
  | frsq (p : Pred) (d : Dst) (a : Src)
  | fsqrt (p : Pred) (d : Dst) (a : Src)
  | fexp2 (p : Pred) (d : Dst) (a : Src)
  | flog2 (p : Pred) (d : Dst) (a : Src)
  | fsin (p : Pred) (d : Dst) (a : Src)
  | fcos (p : Pred) (d : Dst) (a : Src)
  | ftanh (p : Pred) (d : Dst) (a : Src)
  | hadd2 (p : Pred) (d : Dst) (a b : Src) (m : FMod)
  | hmul2 (p : Pred) (d : Dst) (a b : Src) (m : FMod)
  | hfma2 (p : Pred) (d : Dst) (a b c : Src)
  | badd2 (p : Pred) (d : Dst) (a b : Src) (m : FMod)
  | bfma2 (p : Pred) (d : Dst) (a b c : Src)
  | cvtf (p : Pred) (d : Dst) (a c : Src) (slot si di : BitVec 3)
  | cvti (p : Pred) (d : Dst) (a : Src) (m : CvtiMod)
  | pack (p : Pred) (d : Dst) (a : Src) (slot : BitVec 3)
  | unpack (p : Pred) (d : Dst) (a : Src) (slot : BitVec 3)
  | dp4i8 (p : Pred) (d : Dst) (a b : Src) (au bu : Bool)
  | dp8q4 (p : Pred) (d : Dst) (a b : Src)
  | dp4f8 (p : Pred) (d : Dst) (a b : Src) (ae be : Bool)
  | dp2f16 (p : Pred) (d : Dst) (a b : Src) (bf : Bool)
  | scale (p : Pred) (d : Dst) (a b : Src) (sf : ScaleForm) (m : FMod)
  | rng (p : Pred) (d : Dst) (a : Src)
  | srnd (p : Pred) (d : Dst) (a b : Src) (di : BitVec 3) (sat : Bool) (f : SrndFmt)
  | pFormPair (h0 h1 : PHalf)
  -- 0x80-0x8A and 0xA0-0xAD: memory and synchronisation (chapter 11)
  | ld (p : Pred) (d : Dst) (a b : Src) (m : MemMod)
  | st (p : Pred) (d : Dst) (a b : Src) (m : MemMod)
  | lds (p : Pred) (d : Dst) (a b : Src) (m : MemMod)
  | sts (p : Pred) (d : Dst) (a b : Src) (m : MemMod)
  | ldc (p : Pred) (d : Dst) (a b : Src) (m : MemMod)
  | pref (p : Pred) (a b : Src) (l2 : Bool)
  | loadReply (id : Nat)
  | storeTranslate (core id : Nat)
  | storeFaultEnter (core id : Nat)
  | stfault (team gang : Nat)
  | atom (p : Pred) (d : Dst) (a b : Src) (m : AtomMod)
  | atomsc (p : Pred) (d : Dst) (a b : Src) (op : AOp) (ty : ATy)
  | red (p : Pred) (a b : Src) (m : AtomMod)
  | atomicReply (id : Nat)
  | scTicketGrant
  | fence (p : Pred) (ord sco : BitVec 3)
  | bar (p : Pred) (n : BitVec 3)
  | wbar (p : Pred) (n : BitVec 3)
  | boinit (p : Pred) (a b : Src) (ord sco : BitVec 3)
  | boarr (p : Pred) (a b : Src) (ord sco : BitVec 3) (e : Bool)
  | bowait (p : Pred) (d : Dst) (a : Src) (sco : BitVec 3)
  | sdrain (p : Pred)
  | waitcnt (p : Pred) (c : EngClass) (n : BitVec 6)
  | stashmap (p : Pred) (a b : Src) (n : BitVec 4)
  | stashwb (p : Pred) (n : BitVec 4) (first count : Src)
  | stashinv (p : Pred) (n : BitVec 4) (first count : Src)
  | stashFillReply (team entry line : Nat)
  | stashRecall (team entry line : Nat)
  | tileq (p : Pred) (op : TileqOp)
  | tilewait (p : Pred) (d : Dst) (t : Src)
  | procq (p : Pred) (d : Dst) (sr : BitVec 6) (nb : Bool)
  | procqDeliver (team gang : Nat)
  | procdone (p : Pred) (i : Src)
  | procfail (p : Pred) (i code : Src)
  -- 0xAE-0xB1 and 0xC0-0xC7: engines and matrices (chapter 12)
  | cpygo (p : Pred) (a : Src)
  | cpyq (p : Pred) (d : Dst)
  | guardset (p : Pred) (d : Dst) (a : Pred)
  | guardclr (p : Pred) (d : Dst)
  | mma16 (p : Pred) (d : Dst) (a b m : Src)
  | mma16sp (p : Pred) (d : Dst) (a b m : Src)
  | gangset (p : Pred) (a : Src)
  | mtile (p : Pred) (d : Dst) (ta tb : BitVec 6) (sc : Src) (g : BitVec 4) (ge z : Bool) (sco : BitVec 3) (rel : Bool) (ra rb : Shape)
  | mtilesp (p : Pred) (d : Dst) (ta tb : BitVec 6) (sc : Src) (g : BitVec 4) (ge z : Bool) (sco : BitVec 3) (rel : Bool) (ra rb : Shape)
  | accz (p : Pred) (d : Dst)
  | accld (p : Pred) (d : Dst) (t : BitVec 6) (r : Shape)
  | accdrain (p : Pred) (d : Dst) (add z : Bool) (g : BitVec 4) (ge : Bool) (sco : BitVec 3) (rel : Bool) (r : Shape)
  | engineCommandStart (team gang : Nat) (c : EngClass)
  | engineSegment (id seg : Nat)
  | engineCompletion (id : Nat)
  -- 0xC8-0xD2: sampler, intersection unit, Jersey (chapter 13)
  | sample (p : Pred) (d : Dst) (a b c : Src)
  | sampleg (p : Pred) (d : Dst) (a b c : Src)
  | fetch (p : Pred) (d : Dst) (a b c : Src)
  | nsample (p : Pred) (d : Dst) (a b c : Src)
  | samplerResult (id fib : Nat)
  | wpin (p : Pred) (d : Dst) (a : Src)
  | wunpin (p : Pred) (a : Src)
  | winv (p : Pred) (a : Src) (all : Bool)
  | rastq (p : Pred) (d : Dst) (a b : Src) (cull : Cull)
  | rastqDone (id fib : Nat)
  | rayx (p : Pred) (d : Dst) (a b : Src) (first ah : Bool) (cull : Cull)
  | traversalStop (team gang fib : Nat)
  | rayhit (p : Pred) (d : Dst) (acc : Bool)
  | repack (p : Pred)
  -- 0xE0-0xEF: system and control pool (chapter 12)
  | srd (p : Pred) (d : Dst) (n : BitVec 6)
  | swr (p : Pred) (n : BitVec 6) (a : Src)
  | trap (p : Pred) (code : BitVec 12)
  | tret (p : Pred) (skip : Bool)
  | teamkill (p : Pred)
  | mbwait (p : Pred) (d : Dst) (mb : BitVec 6) (nb : Bool) (pd : BitVec 3)
  | mbsend (p : Pred) (mb sa : BitVec 6)
  | pipedeclDeclare (p : Pred) (d : Dst) (a : Src)
  | pipedeclRelease (p : Pred) (d : Dst) (a : Src)
  | pipelineReleaseDone (ctx h : Nat)
  | qpush (p : Pred) (q : BitVec 4) (a h : Src) (nb : Bool) (pd : BitVec 3)
  | qpop (p : Pred) (d : Dst) (q : BitVec 4) (nb : Bool) (h : Src) (pd : BitVec 3)
  | launch (p : Pred) (d : Dst) (a : Src)
  | semsig (p : Pred) (a b : Src) (sco : BitVec 3)
  | semwait (p : Pred) (a b : Src) (sco : BitVec 3)
  | procdeclDeclare (p : Pred) (d : Dst) (a : Src)
  | procdeclAttach (p : Pred) (d : Dst) (a : Src)
  | procdeclRelease (p : Pred) (d : Dst) (a : Src)
  | rangeReleaseDone (rn : Nat)
  | procreset (p : Pred) (d : Dst) (a b : Src) (all : Bool)
  | tlbinv (p : Pred) (a b : Src) (ctx : Bool)
  -- translation, faults, Felt, home slices, host and peers
  | tlbinvComplete (id : Nat)
  | pageWalkStep (id : Nat)
  | firstTouch
  | runAheadEnd (team gang : Nat)
  | faultRecordWrite
  | faultReplyRetry (tag : Nat)
  | faultReplyDeliver (tag : Nat)
  | xlInv (v : Quad)
  | xlInvstRead
  | procTouch (id : Nat)
  | touchResend (id : Nat)
  | publication (id : Nat)
  | fillFailure (id : Nat)
  | procReplay (id : Nat)
  | l2Eviction (k : LineKey)
  | writeBackDone (k : LineKey)
  | cxlCacheResponse (g : Nat) (err : Bool)
  | snpInv (g : Nat)
  | snpData (g : Nat)
  | snpCur (g : Nat)
  | hostMemRead (pa len : Nat)
  | hostMemWrite (pa : Nat) (bytes : List Byte) (poisoned : Bool)
  | backInvalidateResponse (pl : Nat)
  | peerAccessIn (a : PeerIn)
  | peerReply (id : Nat) (ans : PeerAnswer)
  | linkChange (link : Nat) (up : Bool)
  -- the launch unit, scheduling and pre-emption
  | launchDequeue (ctx : Nat)
  | boundWaitDone (ctx : Nat)
  | blockFreed (x y : Nat)
  | teamStart (id : Nat)
  | bindingComplete (team : Nat)
  | launchComplete (id : Nat)
  | passoverLimit (team gang lead : Nat)
  | preemptSave (weave : Nat)
  | restore (ctx entry : Nat)
  | scPreemptSave (v : Quad)
  | scPreemptRestore (v : Quad)
  | energyUpdate (cluster : Nat) (charges : List (Nat × Nat × Nat))
  | enRoll (v : Quad)
  | ctxCreate (n : Nat)
  | ctxDestroy (n : Nat)
  | mbInPush (n : Nat) (agent : Nat)
  | mbOutPop (n : Nat)
  | mbStatRead (n : Nat)
  | bindingTakesEffect (b : BindSlot)
  | scNoteClear (v : Quad)
  | attestRequest (a : Quad)
  | startWarm (who : Asker)
  | startCold (who : Asker)
  | startStepTimeout
  | mgmtStatus (signed : Bool)
  | mgmtStartWarm (signed : Bool)
  | mgmtStartCold (signed : Bool)
  | mgmtLoadRecovery (signed : Bool) (image : List Byte)
  | mgmtAttest (signed : Bool) (nonce : List Byte)
  | ratioApply (cluster : Nat)
  | passCountChange (cluster : Nat) (raise : Bool)
  | heatRefresh (heat : List Nat)
  | netStepChange (region step : Nat)
  | registerWrite (off : Nat) (v : Quad)
  | applicationProcessorAccess (proc : Nat) (acc : ApAccess)
  | illegalInstruction (cause sub : Nat)
  | cxlLinkChange (port width : Nat)
  | startStepComplete (ok : Bool)
  | attestationReportDone
  deriving DecidableEq, Repr, Inhabited

end Sys2Proof
end

