-- ==== Sys2Proof/Machine/State.lean ====
section
/-! DEFINITION. The state of the DK9 as plain data: everything the spec gives the machine, the reasons a step can stop,
and the state after reset. INVENTORY.md lists each piece with its rule. -/

namespace Sys2Proof.Machine

/-- Why the machine stops. -/
inductive Fault where
  /-- Raised by a program instruction when the state has no fragment that issues it (no team runs, or `sched.cur` names a
  fragment that does not exist). No hardware issues an instruction without a fragment (R183, R463). Safe. -/
  | noFragment
  deriving DecidableEq, Repr, Inhabited

/-- Why a step has no meaning in the model. -/
inductive Refusal where
  /-- An instruction of the table whose meaning the model does not hold. Raised by exec's refused arms. Safe. -/
  | notModelled (mnemonic : String)
  deriving DecidableEq, Repr, Inhabited

/-- Bytes by address in canonical form: addresses strictly rising, no entry equal to zero, which an unlisted address
reads as (device memory and scratchpads: R524 step 5, R44; host memory: assumption 2). -/
abbrev Memory := List Host.Cell

/-- Full/empty state (R196, R197). `failed` keeps the delivered cause and PFAIL code (R97, R473). `unknown` marks a value
that run-ahead does not know (R117); only shadow registers of a run-ahead hold it. -/
inductive Fe where
  | full | empty | failed (cause : Byte) (code : Half) | unknown
  deriving DecidableEq, Repr, Inhabited

/-- A register: value, full/empty state, a parity error not yet found, and whether a good copy is kept (R200). -/
structure Reg where
  val : Word := 0
  fe : Fe := .full
  bad : Bool := false
  copy : Bool := false
  deriving DecidableEq, Repr, Inhabited

/-- Registers by position; an unlisted one holds 0 and is FULL (R181). -/
abbrev RegFile := List (Nat × Reg)

/-- One committed or reported hit of a ray (R431-R433). -/
structure Hit where
  t : Rat
  u : Rat
  v : Rat
  id : Nat
  shx : Nat
  back : Bool
  deriving DecidableEq, Repr, Inhabited

/-- An entry of the traversal stack (R432): a node, or a leaf with its first triangle and triangle count. -/
inductive TravItem where
  | node (off : Nat)
  | leaf (off cnt : Nat)
  deriving DecidableEq, Repr, Inhabited

/-- What a touch of a procedural block brought a unit: the block's bytes when the home served it, or the policy, cause and
code of its failure (R84, R97). -/
structure Snap where
  rn : Nat
  bix : Nat
  failed : Option (Nat × Nat × Nat)
  data : Memory
  /-- The gang held the block's right: it reads its own stores, and nothing of them enters a cache (R90, R166). -/
  own : Bool := false
  /-- The line of the block that a sampler operation asked for (R508). -/
  lib : Nat := 0
  deriving DecidableEq, Repr, Inhabited

/-- A fibre's traversal, running or suspended at a candidate (R432-R434). -/
structure Trav where
  ipc : Quad
  vd : Nat
  hdr : Nat
  ray : List Word
  first : Bool
  ah : Bool
  cull : Cull
  suspended : Bool
  begun : Bool
  stack : List TravItem
  leaf : Option (Nat × Nat × Nat)
  tb : Rat
  best : Option Hit
  cand : Option Hit
  visits : Nat
  bads : Nat
  dropped : Bool
  /-- The header as the RAYX read it, and the flags of bad children and of the budget (R427, R433). -/
  head : Nat
  badChild : Bool
  overBudget : Bool
  /-- Logical number of the run's first register (R193): the window base at the RAYX and the register named there. -/
  pos : Nat
  deriving DecidableEq, Repr, Inhabited

/-- A fibre slot (R180). p7 is not stored: `preds` bit 7 reads as true wherever predicates are read. -/
structure Fibre where
  preds : BitVec 8 := 0
  wb : Nat := 0
  lo : Nat := 0
  regs : RegFile := []
  pidx : Word := 0
  live : Bool := false
  trav : Option Trav := none
  deriving DecidableEq, Repr, Inhabited

/-- Fragment states of R188; HELD is the flag `Frag.held`, which keeps the state held before. -/
inductive FragSt where
  | running | parked | waitgang
  deriving DecidableEq, Repr, Inhabited

/-- What a fragment that has arrived somewhere waits for (R348, R436, R369). -/
inductive FragWait where
  | none | bar (n : Nat) | wbar (n : Nat) | repack | gbar | mma | latch | regang
  /-- A release (R78, R459) or an invalidation (R112) of the fragment's instruction is under way. -/
  | release (id : Nat) | inv (id : Nat)
  /-- The fragment waits for its ACCLD to complete (R377). -/
  | cmd (id : Nat)
  /-- The fragment's instruction has passed its checks and waits; a save lets it complete (R481). -/
  | settle
  deriving DecidableEq, Repr, Inhabited

/-- A fragment (R183, R186, R188, R464). -/
structure Frag where
  pc : Quad
  mask : BitVec 64
  stack : List (Quad × Nat) := []
  st : FragSt := .running
  held : Bool := false
  wait : FragWait := .none
  passed : Nat := 0
  young : Bool := false
  /-- It has been passed over in 64 consecutive cycles and ranks as oldest until it issues (R464). -/
  oldest : Bool := false
  /-- It has executed YIELD in this front-end cycle and is no candidate in the next (R464). -/
  rest : Bool := false
  /-- The fragment has reached TRET and waits for the handler's other fragments (R476). -/
  atTret : Bool := false
  /-- `skip` of the TRET it stands at. -/
  tretSkip : Bool := false
  /-- The SC ticket state of an instruction that waits at the sequencer (R154, R155): requested, granted. -/
  sc : Nat := 0
  /-- The acquire fence the fragment stands at has done its invalidations and waits for its release (R149, R150). -/
  inval : Bool := false
  deriving DecidableEq, Repr, Inhabited

/-- The fragment that a handler will resume, and what trap entry kept (R474): predicates by fibre, and the full/empty states of spilled
registers by fibre and logical register. -/
structure Handler where
  frag : Frag
  preds : List (Nat × BitVec 8)
  fes : List (Nat × Nat × Fe)
  cause : Nat
  deriving DecidableEq, Repr, Inhabited

/-- A trap to take (R470, R473). -/
structure TrapInfo where
  cause : Nat
  sub : Nat := 0
  fib : Nat := 0
  tcode : Nat := 0
  addr : Quad := 0
  /-- The resume point is the instruction after the trapping one (BRKPT, TRAP). -/
  after : Nat := 0
  /-- Every fill right of the gang fails with the cause before the handler runs (R93, R96). -/
  fails : Bool := false
  deriving DecidableEq, Repr, Inhabited

/-- A fill right (R89): the record of R88 it was granted with. -/
structure Right where
  rn : Nat
  bix : Nat
  dep : Nat
  chain : List (Nat × Nat)
  cctx : Nat
  deriving DecidableEq, Repr, Inhabited

/-- One page of a run-ahead batch (R119): page number, `w`, `fz`. -/
structure PageSlot where
  pn : Nat
  w : Bool
  fz : Bool
  deriving DecidableEq, Repr, Inhabited

/-- What run-ahead works on (R116, R117): shadow copies of the gang's scalar registers and fibres, the fragment that runs
ahead, unknown predicates, and the batch. The gang's own registers stay as the checkpoint. -/
structure RunAhead where
  sregs : RegFile
  fibres : List (Nat × Fibre)
  frag : Frag
  lead : Nat
  unkPred : List (Nat × BitVec 8)
  count : Nat
  pages : List PageSlot
  ipc : Quad
  fva : Quad
  ffib : Nat
  reason : Nat
  deriving DecidableEq, Repr, Inhabited

/-- How one touched block answered a generator's touch (R92, R93). -/
structure GenTouch where
  lead : Nat
  rn : Nat
  bix : Nat
  fib : Nat
  ipc : Quad
  asked : Bool
  ans : Option Nat
  data : Memory := []
  /-- Policy, cause and code of a failed block (R97). -/
  failed : Option (Nat × Nat × Nat) := none
  /-- Its answer came as a replay (R164). -/
  replayed : Bool := false
  /-- The fibres that touch the block, each with its offset in the range as it was translated; is the range of class page? -/
  fibs : List (Nat × Nat) := []
  page : Bool := false
  /-- Bytes of each access, and its hint. -/
  n : Nat := 0
  hint : Nat := 0
  deriving DecidableEq, Repr, Inhabited

/-- A shape record after substitution (R262-R265): base as a generic address. -/
structure Box where
  base : Nat
  ext0 : Nat
  ext1 : Nat
  ext2 : Nat
  stride1 : Nat
  stride2 : Nat
  box0 : Nat
  box1 : Nat
  box2 : Nat
  slot : Nat
  nd : Nat
  esel : Nat
  tr : Bool
  sp : Nat
  deriving DecidableEq, Repr, Inhabited

/-- A gang that waits at a rendezvous latch (R369): the set it names, the fragment, and the operands that must be equal. -/
structure Latch where
  gset : BitVec 16
  lead : Nat
  instr : Instr
  boxA : Box
  boxB : Box
  scales : Nat
  ipc : Quad
  broken : Bool
  deriving DecidableEq, Repr, Inhabited

/-- A gang (R182). -/
structure Gang where
  sregs : RegFile := []
  gstat : Word := 0
  gset : BitVec 16 := 0
  frags : List Frag := []
  fibres : List (Nat × Fibre) := []
  rights : List (Nat × Right) := []
  tcause : Word := 0
  tpc : Quad := 0
  taddr : Quad := 0
  tres : Quad := 0
  handler : Option Handler := none
  /-- A trap that has been taken and whose spills are under way (R474): the fibres of the fragment, the trap. -/
  entry : Option (BitVec 64 × TrapInfo) := none
  ra : Option RunAhead := none
  /-- Reply tag of the fault record the gang is held for (R120). -/
  heldFor : Option Nat := none
  /-- A deliver reply has arrived: the instruction takes the page-fault trap with this address and fibre (R120). -/
  deliver : Option (Quad × Nat) := none
  /-- Engine counters by class and the issue-order lists of operation ids, each with its done mark and scope (R157, R158). -/
  ops : List (EngClass × List (Nat × Bool × Nat)) := []
  /-- Operations that have retired and that no WAITCNT of their class has named yet, in issue order: identifier and scope (R158). -/
  retired : List (EngClass × List (Nat × Nat)) := []
  /-- Pending PROCQs in issue order: destination run, right register, `.nb` (R361). -/
  procq : List (Nat × Nat × Bool) := []
  genTouches : List GenTouch := []
  /-- Objects on peer pages that a BOWAIT or a SEMWAIT has asked for: instruction, fibre, content once it has come (R354, R397). -/
  peeks : List (Quad × Nat × Option Nat) := []
  latch : Option Latch := none
  gslot : Nat := 0
  age : Nat := 0
  nextTag : Nat := 0
  stPending : Bool := false
  deriving DecidableEq, Repr, Inhabited

/-- Who made an access, for the records it may lead to (R119, R467, R491): the agent, its core's number, the gang's slot and the team's
slot. -/
structure Origin where
  agent : Nat := 0
  core : Nat := 0
  gslot : Nat := 0
  tslot : Nat := 0
  deriving DecidableEq, Repr, Inhabited

/-- Tile states of R57 and line states of R53. -/
inductive TileSt where
  | empty | filling | ready | draining
  deriving DecidableEq, Repr, Inhabited

/-- A tile-table entry (R57). -/
structure Tile where
  st : TileSt := .empty
  err : Bool := false
  nl : Nat := 0
  soff : Nat := 0
  promised : Nat := 0
  arrived : Nat := 0
  deriving DecidableEq, Repr, Inhabited

inductive StashSt where
  | absent | filling | clean | modified
  deriving DecidableEq, Repr, Inhabited

/-- What waits for a stash line (R53): an instruction held at issue, by its team, gang and pc; an access that has been issued, by its
identifier; an engine command. -/
inductive StashW where
  | instr (team gang : Nat) (ipc : Quad)
  | acc (id : Nat)
  | cmd (id : Nat)
  deriving DecidableEq, Repr, Inhabited

/-- A stash line that is not ABSENT: its state, the line it maps, the frame its fill translated, an event waiting (R53). -/
structure StashLine where
  st : StashSt
  key : LineKey := .dev 0
  pa : Nat := 0
  /-- The access that started the fill (R55): its team, gang and instruction; and the cause its fill met. -/
  team : Nat := 0
  gang : Nat := 0
  ipc : Quad := 0
  bad : Option Nat := none
  /-- FILLING, and the home has recorded this core as the line's owner (R54). -/
  owned : Bool := false
  /-- FILLING, and the fill has translated and left for the home: its place in the order of the core's requests (R53, R71). -/
  sent : Option Nat := none
  /-- What waits for the fill, in issue order (R53). -/
  waiters : List StashW := []
  deriving DecidableEq, Repr, Inhabited

/-- A valid stash map entry (R51) with its lines that are not ABSENT. -/
structure Stash where
  gva : Nat
  soff : Nat
  nl : Nat
  lines : List (Nat × StashLine) := []
  deriving DecidableEq, Repr, Inhabited

/-- Guard states of R385. -/
inductive Guard where
  | unresolved | isTrue | isFalse
  deriving DecidableEq, Repr, Inhabited

/-- Where a team runs: a main-array core 16y + x, or a Twill hardware context 4c + h. -/
inductive Place where
  | main (n : Nat)
  | twill (h : Nat)
  deriving DecidableEq, Repr, Inhabited

/-- A team (R182, R446, R450, R483). `lrec` is the launch record it was started from (R445). -/
structure Team where
  ctx : Nat
  launch : Nat
  num : Nat
  weave : Nat
  member : Nat
  place : Place
  tslot : Nat
  linear : Nat
  gang0 : Nat
  lrec : BitVec 1536
  pipe : Option (Nat × Nat) := none
  generator : Bool := false
  cbase : Quad := 0
  tvec : Quad := 0
  spad : Memory := []
  stash : List (Nat × Stash) := []
  tiles : List (Nat × Tile) := []
  accs : List (Nat × Memory) := []
  /-- Words of the scratchpad (offset / 4) and of accumulators (tile, word) whose error no read has met yet; each reads as zero
  (R489). -/
  spadBad : List Nat := []
  accBad : List (Nat × Nat) := []
  guards : List (Nat × Guard) := []
  gangs : List (Nat × Gang) := []
  /-- Transform bindings not yet complete: the team does not start until none is left (R450). -/
  bindings : List Nat := []
  reqs : List (BitVec 512) := []
  started : Bool := false
  ended : Bool := false
  /-- DORMANT slots that a REPACK moved with replies to come: the next identifier then, and where each slot went (R199, R436). -/
  moves : List (Nat × List ((Nat × Nat) × (Nat × Nat))) := []
  deriving DecidableEq, Repr, Inhabited

/-- A line of an L1: its key and its sectors' bytes, each absent or 48 bytes (R47, R48). -/
structure L1Line where
  key : LineKey
  sectors : List (Nat × List Byte)
  deriving DecidableEq, Repr, Inhabited

/-- A block of the weight cache (R419). -/
structure WBlock where
  ctx : Nat
  hdr : Nat
  gen : Nat
  pinned : Bool
  lines : Nat
  bytes : List Byte
  deriving DecidableEq, Repr, Inhabited

/-- A leaf translation (R105, R107): page type, level, base address of the frame, permissions. -/
inductive Leaf where
  | normal (frame : Nat) (lv : Nat) (w x : Bool)
  | proc (rn : Nat)
  | host (h : Nat) (w : Bool)
  | peer (part frame : Nat) (lv : Nat) (w : Bool)
  deriving DecidableEq, Repr, Inhabited

/-- A TLB entry (R110): context, level (page size) and page number at that size. -/
structure TlbEnt where
  ctx : Nat
  lv : Nat
  pn : Nat
  leaf : Leaf
  deriving DecidableEq, Repr, Inhabited

/-- The byte an access names, past translation: device memory, host memory (key of its line and offset, R63), a procedural
range (device range number and offset), a peer part's memory, or a scratchpad of a team. -/
inductive Target where
  | dev (pa : Nat)
  | host (key off : Nat)
  | proc (rn off : Nat)
  | peer (part pa : Nat)
  | spad (team off : Nat)
  deriving DecidableEq, Repr, Inhabited

/-- One fibre of a store: its generic address as issued, the global address that it translates as, its data. -/
structure StoreFib where
  fib : Nat
  ga : Quad
  va : Nat
  val : Quad
  deriving DecidableEq, Repr, Inhabited

/-- A store instruction's part on one 12 KiB page, in the core's store buffer until it is performed (R126): its fibres with
address and data. `cause` is set once it has faulted and waits for room in the store-fault queue (R127). -/
structure StoreEnt where
  id : Nat
  ctx : Nat
  team : Nat
  gang : Nat
  org : Origin := {}
  ipc : Quad
  n : Nat
  rel : Option Nat
  hint : Nat
  fibs : List StoreFib
  cause : Option Nat := none
  ended : Bool := false
  /-- Which store instruction the entry is a part of (R338). -/
  inst : Nat := 0
  /-- Set once the store has translated and left for its home (R126, R71): its place in the order of the core's requests; the
  fibres it performs there, each with its target. -/
  sent : Option Nat := none
  tgts : List (StoreFib × Target) := []
  /-- Targets that another page's part of the same instruction has written already, with the fibre: a lower fibre's bytes do not
  replace them (R42). -/
  shadow : List (Target × Nat) := []
  deriving DecidableEq, Repr, Inhabited

/-- A store-fault record (R127) of a gang, as its 256 bits. -/
structure SfRec where
  team : Nat
  gang : Nat
  bits : BitVec 256
  deriving DecidableEq, Repr, Inhabited

/-- What a core holds beside its teams (R39-R50, R61, R110, R126, R127, R419). -/
structure Core where
  part : Nat := 0
  l1 : List L1Line := []
  texel : List L1Line := []
  weights : List WBlock := []
  tlb : List TlbEnt := []
  sbuf : List StoreEnt := []
  sfq : List SfRec := []
  sfSeq : Nat := 0
  deriving DecidableEq, Repr, Inhabited

/-- A cluster: its TLB, pass count, and clock ratio in force (R110, R191, R529). -/
structure Cluster where
  tlb : List TlbEnt := []
  pass : Nat := 1
  ratio : Quad := 0
  /-- Energy measured and not yet added (R486): context, account of the launch's own context, amount in parts of a millijoule. -/
  spent : List (Nat × Option Nat × Nat) := []
  deriving DecidableEq, Repr, Inhabited

/-- Granule states of a host line (R129). -/
inductive Gran where
  | i | s | e | m
  deriving DecidableEq, Repr, Inhabited

/-- A line held by its home slice (R64): sector valid and dirty bits, bytes by offset, stash owner (core and team), pins,
granule states of a host line, and the sectors of a write-back in flight (R66). -/
structure L2Line where
  valid : BitVec 4 := 0
  dirty : BitVec 4 := 0
  data : Memory := []
  owner : Option (Nat × Nat) := none
  pins : Nat := 0
  gran : List (Nat × Gran) := []
  wb : Option (BitVec 4 × Memory) := none
  /-- A recall of the owner's stash line is asked for (R54). -/
  recalled : Bool := false
  /-- Order in which the set's stash lines were filled (R64). -/
  ownAt : Nat := 0
  /-- A `.na` or `.by` store merged while the write-back was in flight: the next write-back starts when it ends (R65, R66). -/
  again : Bool := false
  deriving DecidableEq, Repr, Inhabited

/-- A CXL.cache request for a granule (R129): the state asked for (`.i`: RdCurr; `.e` with `noData`: RdOwnNoData); `pref` while
nothing but prefetches wait for it; the accesses that wait for it, by identifier, and the lines that asked. -/
structure CxlReq where
  g : Nat
  want : Gran
  pref : Bool := false
  noData : Bool := false
  asks : List Nat := []
  keys : List Nat := []
  /-- The CXL port that it uses; none while every port is down (R519). -/
  port : Option Nat := none
  deriving DecidableEq, Repr, Inhabited

/-- Memory behind the cores. -/
structure MemSys where
  dram : Memory := []
  host : Memory := []
  l2 : List (LineKey × L2Line) := []
  /-- Sectors (address / 48) whose stored code words hold an error that ECC cannot correct (R489). -/
  eccBad : List Nat := []
  /-- Sectors of L2 lines that hold such an error (R489). -/
  eccL2 : List (LineKey × Nat) := []
  /-- Device lines of which the host may hold a copy, and those a back-invalidation is in flight for (R168). -/
  hostHeld : List Nat := []
  backInv : List Nat := []
  /-- Device lines the application processors' cache holds (R132). -/
  apHeld : List Nat := []
  /-- CXL.cache requests that the host has not answered (R129). -/
  cxl : List CxlReq := []
  /-- Bytes that RdCurr has brought: the load they are for, the granule, the bytes (R129). -/
  curr : List (Nat × Nat × List Byte) := []
  /-- CXL accesses that failed: the granule, and the access that waits for it (R108 HOSTERR). -/
  cxlErr : List (Nat × Nat) := []
  /-- Bytes of unspecified value: the destinations of transforming requests that have not completed (R123): first byte, count,
  command. -/
  unset : List (Target × Nat × Nat) := []
  deriving DecidableEq, Repr, Inhabited

/-- Where a walk stands (R107, R115). -/
inductive WalkSt where
  | reading | firstTouch (e : Quad)
  deriving DecidableEq, Repr, Inhabited

/-- A walk in flight: context, the cores that wait for it, each with whether it asked in run-ahead (R111, R117), global address,
the level and node it reads next. -/
structure Walk where
  id : Nat
  ctx : Nat
  cores : List (Nat × Bool)
  va : Nat
  lv : Nat
  node : Nat
  st : WalkSt
  deriving DecidableEq, Repr, Inhabited

/-- What a walk that failed found (R107): cause and whether the entry was first-touch (`fz`). -/
structure XlFault where
  ctx : Nat
  core : Nat
  pn : Nat
  cause : Nat
  fz : Bool
  /-- Only a run-ahead sees it: it met a first-touch entry that it does not have served (cause 0, R117). -/
  ahead : Bool := false
  deriving DecidableEq, Repr, Inhabited

/-- Whom a fault record holds: a gang, an engine command, a sampler operation, a binding, a stash fill (R119). -/
inductive RecFor where
  | gang (team gang : Nat)
  | cmd (id : Nat)
  | sample (id : Nat)
  /-- A stash fill: the entry's team, the entry, the line, and the team and gang of the access that started it. -/
  | stash (team entry line sTeam sGang : Nat)
  deriving DecidableEq, Repr, Inhabited

/-- A fault record that waits for ring room or, once written, for its reply (R119, R120). -/
structure FaultRec where
  tag : Nat
  who : RecFor
  ipc : Quad
  fva : Quad
  ctx : Nat
  core : Nat
  gslot : Nat
  src : Nat
  ra : Nat
  ffib : Nat
  ovf : Bool
  pages : List PageSlot
  written : Bool := false
  /-- The agent that makes the record (R467, R468). -/
  agent : Nat := 0
  deriving DecidableEq, Repr, Inhabited

/-- A translation invalidation in progress (R112, R113): what it covers, who waits, the walks it must see end. -/
structure TlbInv where
  id : Nat
  ctx : Nat
  all : Bool
  pn : Nat
  cnt : Nat
  who : Option (Nat × Nat × Nat)
  deriving DecidableEq, Repr, Inhabited

/-- Translation state outside the TLBs. -/
structure Xl where
  walks : List Walk := []
  faults : List XlFault := []
  hold : Option Nat := none
  recs : List FaultRec := []
  invs : List TlbInv := []
  deriving DecidableEq, Repr, Inhabited

/-- How far one fibre's part of a load has come. -/
inductive PartSt where
  | ready
  | touching
  | waiting
  | failed (pol : Nat) (cause : Nat) (code : Nat)
  /-- Recorded by a save and issued again at the restore: the address is translated anew (R101, R482). -/
  | again
  deriving DecidableEq, Repr, Inhabited

/-- One fibre's access of a load: fibre, generic address, target, and the value where it is already bound. -/
structure LoadPart where
  fib : Nat
  /-- Ring position of the fibre's destination (R193), for a vector destination. -/
  pos : Nat
  ga : Quad
  tgt : Target
  val : Option Quad := none
  st : PartSt := .ready
  /-- Its place in the order of the core's requests, once it has left for the home (R71). -/
  sent : Option Nat := none
  /-- A store or an atomic of the core has touched the sector meanwhile: its fill installs nothing (R151). -/
  noInstall : Bool := false
  deriving DecidableEq, Repr, Inhabited

/-- A load between issue and reply (R337). -/
structure PendLoad where
  id : Nat
  core : Nat
  ctx : Nat
  team : Nat
  gang : Nat
  ipc : Quad
  dst : Dst
  wide : Bool
  n : Nat
  sx : Bool
  hint : Nat
  acq : Option Nat
  noInstall : Bool
  replayed : Bool
  const : Bool
  parts : List LoadPart
  org : Origin := {}
  deriving DecidableEq, Repr, Inhabited

/-- One fibre's part of an atomic: fibre, ring position of its destination, generic address, data and compare values. -/
structure AtomPart where
  fib : Nat
  pos : Nat
  ga : Quad
  val : Quad
  cmp : Quad
  /-- The value it returns, once performed. -/
  ret : Option Quad := none
  deriving DecidableEq, Repr, Inhabited

/-- What an atomic access does at its location: an operation of R343, a barrier object's BOINIT or BOARR (R353), or a
semaphore signal (R397). -/
inductive AtomDo where
  | op (o : AOp) (t : ATy)
  | boInit
  | boArr (err : Bool)
  | sem
  deriving DecidableEq, Repr, Inhabited

/-- A combined atomic request (R68, R69), or a barrier-object or semaphore access, between issue and reply. -/
structure PendAtom where
  id : Nat
  core : Nat
  ctx : Nat
  team : Nat
  gang : Nat
  ipc : Quad
  dst : Option Dst
  act : AtomDo
  tgt : Target
  fibs : List AtomPart
  rel : Option Nat
  acq : Option Nat
  /-- Sequentially consistent: 0 no, 1 its ticket is not requested yet, 2 requested, 3 granted (R154). -/
  sc : Nat
  /-- Its place in the order of the core's requests, once its release has let it leave (R71, R149). -/
  sent : Option Nat := none
  org : Origin := {}
  deriving DecidableEq, Repr, Inhabited

/-- Kinds of sampler operation (R437, R440). -/
inductive SampKind where
  | sample | sampleg | fetch | nsample | rastq
  /-- Fibres whose traversal runs: of a RAYX, or of a RAYHIT that resumed it (R434). -/
  | rayx
  /-- A WPIN that fetches its block (R419). -/
  | wpin
  deriving DecidableEq, Repr, Inhabited

/-- One fibre of a sampler or raster operation: header address, source run, ring position of the destination's first
register, whether its result has been written. -/
structure SampFib where
  fib : Nat
  hdr : Nat
  src : List Word
  pos : Nat
  done : Bool := false
  /-- A RASTQ's writes as atomic accesses: the first identifier, the first behind them, the count of R440. -/
  writes : Option (Nat × Nat × Nat) := none
  /-- The failed block that its reads met (R97). -/
  blk : Option (Nat × Nat × Nat) := none
  deriving DecidableEq, Repr, Inhabited

/-- A sampler or raster operation between issue and result: each fibre with its header address and source run. -/
structure PendSample where
  id : Nat
  core : Nat
  ctx : Nat
  team : Nat
  gang : Nat
  ipc : Quad
  kind : SampKind
  ctl : Quad
  nc : Nat
  cull : Cull
  /-- The destination's first register, as the instruction names it (R485). -/
  dst : Nat := 0
  fibs : List SampFib
  /-- Abandoned accesses, each a fibre and an address, whose reads supply zeros; and those that wait for the reply to a record, with its
  page (R401). -/
  zeroAt : List (Nat × Nat) := []
  waitAt : List (Nat × Nat × Nat) := []
  snaps : List Snap := []
  /-- A failed block has been counted (R98). For the counts at the end: the lowest fibre's abandoned access, its cause and
  address (R401); the lowest fibre's malformed header (R402). -/
  blockFail : Bool := false
  abandoned : Option (Nat × Nat × Nat) := none
  badHdr : Option (Nat × Nat) := none
  /-- What a WPIN found, once known. -/
  answer : Option Bool := none
  /-- The instruction of a generator gang is held at issue until its touches have been answered (R93): the fibres whose reads have
  been tried, the blocks that they asked for, the depth or cycle error (cause, sub-cause, fibre), what it will write (fibre, position,
  registers, flags, overflows), and the traversals that it replaced. -/
  held : Bool := false
  tried : List Nat := []
  asks : List (Nat × Nat × Nat) := []
  genErr : Option (Nat × Nat × Nat) := none
  outs : List (Nat × Nat × List Reg) := []
  outFlags : Word := 0
  outOvf : Nat := 0
  olds : List (Nat × Option Trav) := []
  org : Origin := {}
  /-- The core's texel cache has been invalidated since: what the operation has obtained is not installed (R95). -/
  quiet : Bool := false
  /-- Lines as they stood before a later store or atomic of the gang was performed there (R146 rule 3). -/
  seen : List (LineKey × Memory) := []
  deriving DecidableEq, Repr, Inhabited

/-- A request of this part to a peer part (R37): a load part, an atomic, a store, an engine segment. -/
inductive PeerFor where
  | load (id fib : Nat)
  | atom (id : Nat)
  /-- A store: context, team, gang, fibre, and the store's own identifier (R149). -/
  | store (ctx team gang n ent : Nat)
  | cmd (id seg : Nat)
  /-- What a BOWAIT or a SEMWAIT looks at (R354, R397): team, gang, instruction, fibre. -/
  | peek (team gang : Nat) (ipc : Quad) (fib : Nat)
  deriving DecidableEq, Repr, Inhabited

structure PendPeer where
  id : Nat
  who : PeerFor
  ctx : Nat
  core : Nat
  part : Nat
  pa : Nat
  ga : Nat
  link : Nat
  kind : PeerKind
  n : Nat
  bytes : List Byte
  /-- Who made the access, for a refusal's record (R37). -/
  org : Origin := {}
  deriving DecidableEq, Repr, Inhabited

/-- Who touches a procedural block (R85): a load, an engine segment, a sampler operation, a prefetch, or a generator's
probe (R93). -/
inductive Toucher where
  | load (id : Nat)
  | cmd (id seg : Nat)
  /-- A sampler operation, with the line of the block that it reads (R508). -/
  | sample (id lib : Nat)
  | prefetch
  /-- A held touch of the fragment with lowest fibre `lead`. -/
  | probe (team gang lead : Nat)
  deriving DecidableEq, Repr, Inhabited

/-- A touch on its way to a block's home (R82). `refusedAt` is the step it was last refused at (R87). -/
structure Touch where
  id : Nat
  who : Toucher
  ctx : Nat
  rn : Nat
  bix : Nat
  gen : Option (Nat × List (Nat × Nat) × Nat)
  refusedAt : Option Nat
  deriving DecidableEq, Repr, Inhabited

/-- A replay (R91) or policy answer (R97) on its way to a waiter's unit: policy, cause and code of a failure; the block's
bytes; the home's stamp (R468). -/
structure Replay where
  id : Nat
  who : Toucher
  rn : Nat
  bix : Nat
  failed : Option (Nat × Nat × Nat)
  data : Memory
  evc : Nat
  deriving DecidableEq, Repr, Inhabited

/-- A PROCDONE or a failure on its way to the block's home (R91, R96): the failure's cause and code. -/
structure PubMsg where
  id : Nat
  core : Nat
  team : Nat
  gang : Nat
  rn : Nat
  bix : Nat
  fail : Option (Nat × Nat)
  /-- Pending accesses the publication follows: ids below this one of the gang (R91 step 1). -/
  after : Nat
  stamp : Nat × Nat
  deriving DecidableEq, Repr, Inhabited

/-- A prefetch of a line on its way (R339). -/
structure PendPref where
  id : Nat
  core : Nat
  ctx : Nat
  key : LineKey
  l2 : Bool
  noInstall : Bool := false
  deriving DecidableEq, Repr, Inhabited

/-- A scratchpad store whose stash lines are being filled (R53): the fibres it has still to write, each with the team and offset that it
writes and its data. -/
structure PendSpad where
  id : Nat
  core : Nat
  team : Nat
  gang : Nat
  n : Nat
  parts : List (Nat × Nat × Quad)
  deriving DecidableEq, Repr, Inhabited

/-- Transactions between issue and completion. -/
structure Pend where
  loads : List PendLoad := []
  prefs : List PendPref := []
  atoms : List PendAtom := []
  spads : List PendSpad := []
  samples : List PendSample := []
  peers : List PendPeer := []
  touches : List Touch := []
  replays : List Replay := []
  pubs : List PubMsg := []
  deriving DecidableEq, Repr, Inhabited

/-- Fill states of R80. -/
inductive FillSt where
  | unfilled | filling | filled | faulted
  deriving DecidableEq, Repr, Inhabited

/-- A block that is not UNFILLED: state, frame of a page block, order of publication, cause and code of a failure. -/
structure Block where
  st : FillSt
  frame : Option Nat := none
  pubAt : Nat := 0
  cause : Nat := 0
  code : Nat := 0
  deriving DecidableEq, Repr, Inhabited

/-- A merge entry (R85). `frec` is the fill record (R88); `taken` is the gang that holds the fill right. -/
structure Merge where
  slice : Nat
  ent : Nat
  rn : Nat
  bix : Nat
  dep : Nat
  frec : BitVec 512
  waiters : List (Toucher × Nat)
  taken : Option (Nat × Nat)
  /-- The toucher of the entry's first touch, with its context (R85). -/
  first : Option (Toucher × Nat) := none
  deriving DecidableEq, Repr, Inhabited

/-- A procedural range (R73-R78). -/
structure Range where
  owner : Nat
  base : Nat
  attached : List (Nat × Nat)
  npg : Nat
  page : Bool
  frames : List Nat
  freeFrames : List Nat
  mdep : Nat
  pol : Nat
  pipe : Nat
  stage : Nat
  skey : Nat
  releasing : Bool := false
  relId : Nat := 0
  /-- Contexts that have been detached, with the base each had: units that had joined or been served read on (R78). -/
  detached : List (Nat × Nat) := []
  deriving DecidableEq, Repr, Inhabited

/-- Felt (chapter 03). -/
structure Felt where
  ranges : List (Nat × Range) := []
  blocks : List ((Nat × Nat) × Block) := []
  merges : List Merge := []
  poolUsed : List (Nat × Nat) := []
  pubSeq : Nat := 0
  /-- Entry addresses of kernels declared with `.generator` (R74; assumption 22). -/
  generators : List Nat := []
  deriving DecidableEq, Repr, Inhabited

/-- What an engine command does. -/
inductive CmdKind where
  /-- A copy request (R379), its 512 bits. -/
  | copy (req : BitVec 512)
  /-- A matrix operation (R368-R373): accumulator, operands, scale array, and its member gangs. -/
  | mtile (sp : Bool) (acc : Nat) (z : Bool) (ra rb : Box) (ta tb : Nat) (sc : Nat) (gangs : List Nat)
  /-- An accumulator drain (R378). -/
  | drain (acc : Nat) (add z : Bool) (r : Box)
  /-- An accumulator load (R377). -/
  | accld (acc : Nat) (r : Box) (t : Nat)
  /-- ACCZ behind earlier operations of its tile (R375, R377). -/
  | accz (acc : Nat)
  /-- A transform binding of a team start (R450): binding index and its request. -/
  | binding (k : Nat) (req : BitVec 512)
  deriving DecidableEq, Repr, Inhabited

inductive CmdSt where
  | queued | running | waitReply | complete
  deriving DecidableEq, Repr, Inhabited

/-- An engine command of a gang (R157, R381). -/
structure Cmd where
  id : Nat
  ctx : Nat
  team : Nat
  gang : Nat
  core : Nat
  ipc : Quad
  cls : EngClass
  kind : CmdKind
  guard : Option Nat
  scope : Nat
  st : CmdSt := .queued
  /-- Segments done, segments on the fix-up list (with their page and whether first-touch), segments abandoned (R122-R124). -/
  segsDone : List Nat := []
  /-- Segments whose peer requests have been sent; source bytes read of a sector expansion (R380). -/
  sent : List Nat := []
  readTo : Nat := 0
  /-- A failed block has been counted for the request (R98). -/
  counted : Bool := false
  fixups : List (Nat × Nat × Bool) := []
  abandoned : List Nat := []
  overflowed : Bool := false
  /-- Bytes read so far, by position in the operand space. -/
  buf : Memory := []
  snaps : List Snap := []
  /-- The accumulator or tile has been read (R378). -/
  readDone : Bool := false
  /-- Destination segments that translate, while their bytes are not known yet (R122, R123); segments that a retry processes again,
  in list order (R122). -/
  probed : List Nat := []
  redo : List Nat := []
  /-- Lines that the tile fetch unit has pinned and not yet consumed (R373). -/
  pins : List LineKey := []
  /-- A transform's source has changed since it was read: its destination takes unspecified bytes (R123). -/
  stale : Bool := false
  /-- What a transform's source held at the start and at each read, with the runs of bytes that this covers (R123). -/
  prior : Memory := []
  priorAt : List (Nat × Nat) := []
  cause : Nat := 0
  failed : Bool := false
  flags : Word := 0
  org : Origin := {}
  deriving DecidableEq, Repr, Inhabited

/-- A weave (R22): its aligned rectangle and its member teams. -/
structure Weave where
  ctx : Nat
  launch : Nat
  w : Nat
  h : Nat
  x0 : Nat
  y0 : Nat
  teams : List Nat
  /-- A save of this weave is under way: its fragments stop (R480). Its guarded commands that had not started, withdrawn. -/
  saving : Bool := false
  withdrawn : List Cmd := []
  deriving DecidableEq, Repr, Inhabited

/-- Where a launch in the launch unit stands (R444-R455). -/
inductive LaunchSt where
  | bound | placing | running
  deriving DecidableEq, Repr, Inhabited

/-- A launch between dequeue and completion (R444-R455), or a stage's stream of teams, or a control program. -/
structure Launch where
  id : Nat
  ctx : Nat
  num : Nat
  lrec : BitVec 1536
  gx : Nat
  gy : Nat
  x0 : Nat
  y0 : Nat
  w : Nat
  h : Nat
  next : Nat
  st : LaunchSt
  began : Nat
  live : List Nat
  stage : Option (Nat × Nat)
  control : Bool
  /-- The transform bindings' copy requests, as the dequeue read and checked them (R447, R450). -/
  reqs : List (BitVec 512) := []
  /-- Every team that it has started (R451). -/
  teams : List Nat := []
  deriving DecidableEq, Repr, Inhabited

/-- A stage of a pipeline (R456): record, successors, sorted mark, pool, depth, queue with stamps, teams started so far. -/
structure Stage where
  lrec : BitVec 1536
  succ : BitVec 16
  srt : Bool
  twill : Bool
  qd : Nat
  queue : List (BitVec 512 × (Nat × Nat))
  started : Nat
  launch : Nat
  /-- The step at which it began to wait for a block (R462). -/
  began : Nat := 0
  /-- A save for it has been refused: it waits for a block to free (R484). -/
  barred : Bool := false
  /-- The block that a save for it has freed (R461). -/
  due : Option Place := none
  deriving DecidableEq, Repr, Inhabited

/-- A pipeline (R456-R461). -/
structure Pipeline where
  ctx : Nat
  h : Nat
  x0 : Nat
  y0 : Nat
  w : Nat
  hh : Nat
  pri : Nat
  began : Nat
  stages : List Stage
  releasing : Bool := false
  relId : Nat := 0
  deriving DecidableEq, Repr, Inhabited

/-- A context (R11, R387, R444, R518). -/
structure Ctx where
  errcnt : Quad := 0
  wincnt : Quad := 0
  pbpcnt : Quad := 0
  ovfcnt : Quad := 0
  energy : Quad := 0
  seq : Word := 0
  nrecs : Nat := 0
  queue : List (Nat × Nat) := []
  nextLaunch : Nat := 0
  destroying : Bool := false
  deriving DecidableEq, Repr, Inhabited

/-- A saved weave (R480-R485): its directory entry and the content of its image. -/
structure Saved where
  ctx : Nat
  entry : Nat
  off : Nat
  size : Nat
  weave : Weave
  teams : List (Nat × Team)
  loads : List PendLoad
  samples : List PendSample
  cmds : List Cmd
  sfrecs : List SfRec
  part : Nat
  /-- Saved for a starved stage (R461): the launch unit restores it. -/
  unit : Bool
  deriving DecidableEq, Repr, Inhabited

/-- A pre-emption request of the operating system, the launch unit or a quota (R479, R513). -/
structure SaveReq where
  ctx : Nat
  weaves : List Nat
  restoreEntries : Option (List Nat)
  /-- Every weave of the context; for an exhausted quota; for a starved stage. -/
  whole : Bool := false
  quota : Bool := false
  unit : Bool := false
  refused : Bool := false
  /-- The starved stage that the launch unit makes room for: pipeline and index (R461). -/
  forStage : Option (Nat × Nat) := none
  deriving DecidableEq, Repr, Inhabited

/-- A mailbox (R206, R516): inbound and outbound queues with stamps, the refused mark, and the staging bytes by writer. -/
structure Mailbox where
  inq : List (List Byte × (Nat × Nat)) := []
  outq : List (List Byte × (Nat × Nat)) := []
  refused : Bool := false
  staged : List (Nat × Memory) := []
  deriving DecidableEq, Repr, Inhabited

/-- A start in progress (R524, R525): cold or warm, its step, whether a recovery image is loaded. -/
structure Start where
  cold : Bool
  step : Nat
  image : Option (List Byte)
  deriving DecidableEq, Repr, Inhabited

/-- The registers of the device register space (R512-R530, R104, R487). Arrays are tables with 0 for an unlisted entry. -/
structure Sys where
  scPart : Quad := 0
  /-- The firmware image that runs: that of the boot device, or a recovery image (R526). -/
  image : Option (List Byte) := none
  state : Nat := 0
  warmFails : Nat := 0
  coldFails : Nat := 0
  /-- The trims of HBM training, which a warm start uses again, and the SHA3-256 digest that retained state is held with (R524). -/
  trims : Quad := 0
  digest : BitVec 256 := 0
  /-- The retained-state digest that the last start has recorded (R527). -/
  measured : BitVec 256 := 0
  lastStep : Nat := 0
  ignored : Nat := 0
  pstatBusy : Bool := false
  pstatRefused : Bool := false
  pstatCtx : Nat := 0
  note : Quad := 0
  erBase : Quad := 0
  erSize : Quad := 0
  devSeq : Nat := 0
  devRecs : Nat := 0
  attest : Option Nat := none
  ctxCmds : List (Nat × Nat) := []
  ctxst : Quad := 0
  save : List (Nat × Quad) := []
  xlRoot : List (Nat × Quad) := []
  fzBase : Quad := 0
  fzSize : Quad := 0
  fzHead : Word := 0
  fzTail : Word := 0
  fzLow : Quad := 0
  fqBase : Quad := 0
  fqSize : Quad := 0
  fqHead : Word := 0
  fqTail : Word := 0
  invDone : Word := 0
  invLost : Bool := false
  invBusy : Bool := false
  enUsed : List (Nat × Quad) := []
  enQuota : List (Nat × Quad) := []
  enAcct : Quad := 0
  ctxErBase : List (Nat × Quad) := []
  ctxErSize : List (Nat × Quad) := []
  cpRec : List (Nat × Quad) := []
  mbBind : List (Nat × Quad) := []
  mbBindNow : List (Nat × Quad) := []
  mbox : List (Nat × Mailbox) := []
  twBind : List (Nat × Quad) := []
  twBindNow : List (Nat × Quad) := []
  sgRoute : List (Nat × Quad) := []
  sgExp : List (Nat × Quad) := []
  sgLink : List (Nat × Quad) := []
  pwRatio : List (Nat × Quad) := []
  pwHeat : List (Nat × Quad) := []
  pwLimit : Quad := 0
  pwNet : List (Nat × Quad) := []
  cxlPort : List (Nat × Nat) := [(0, 16), (1, 16)]
  start : Option Start := none
  /-- What the last read from outside returned (the model's own: a step returns no value). -/
  lastRead : List Byte := []
  /-- The last access of a peer part was refused (R523). -/
  lastRefused : Bool := false
  deriving DecidableEq, Repr, Inhabited

/-- One turn of the agenda: a fragment issues, an agent takes a step of the table, or something the manual leaves to the
implementation or to the world outside happens (assumption 4). -/
inductive Turn where
  | issue (team gang lead : Nat)
  | agent (i : Instr)
  /-- The host stores to its own memory (R167), where the device holds no granule of it. -/
  | hostStore (ha : Nat) (bytes : List Byte)
  /-- A core's or cluster's TLB drops its n-th entry; an L1, a texel cache or a weight cache drops one (R47, R61, R110, R419). -/
  | dropTlb (core n : Nat)
  | dropClusterTlb (cluster n : Nat)
  | dropL1 (core n : Nat)
  | dropTexel (core n : Nat)
  | dropWeights (core n : Nat)
  /-- A register's parity goes bad, with or without a good copy kept (R200); a memory sector's code word does (R489). -/
  | upsetReg (team gang fib pos : Nat) (copy : Bool)
  | upsetSector (n : Nat)
  /-- So does a sector of an L2 line, a scratchpad word, an accumulator word (R489). -/
  | upsetL2 (k : LineKey) (sec : Nat)
  | upsetSpad (team word : Nat)
  | upsetAcc (team acc word : Nat)
  /-- The saved HBM trims change, so that retained state does not match its digest (R524). -/
  | upsetTrims (v : Quad)
  /-- The loader tells Felt that the kernel at an entry address was declared with `.generator` (R74; assumption 22). -/
  | markKernel (entry : Nat)
  /-- The device goes on with the context command or the pre-emption request in progress (R513, R518). -/
  | service
  /-- Error records and account additions that wait for their lines are tried again (R132, R452, R492). -/
  | records
  /-- A gang has spent energy, in microjoules: its cluster measures it (R99, R486). -/
  | spend (team gang uj : Nat)
  deriving DecidableEq, Repr, Inhabited

/-- Which fragment issues: team, gang, and the fibre slot that names the fragment (a fibre of its mask). -/
structure Cur where
  team : Nat := 0
  gang : Nat := 0
  lead : Nat := 0
  deriving DecidableEq, Repr, Inhabited

/-- The front-end cycle of a quad (R463): the slice pipes and, as bit 8, the scalar unit that the instructions of the cycle use, and the
fragments that have issued in it. -/
structure FrontCycle where
  agent : Nat
  quad : Nat
  pipes : BitVec 9 := 0
  issued : List (Nat × Nat × BitVec 64) := []
  deriving DecidableEq, Repr, Inhabited

/-- The model's own bookkeeping: the turns to come, the issuing fragment, the free-value counter (assumption 1), the
number of steps taken, the next fresh identifier. -/
structure Sched where
  agenda : List Turn := []
  cur : Cur := {}
  free : Nat := 0
  now : Nat := 0
  nextId : Nat := 1
  front : List FrontCycle := []
  deriving DecidableEq, Repr, Inhabited

/-- What an error record holds (R491). -/
structure ErrInfo where
  agent : Nat
  core : Nat := 0
  gslot : Nat := 0
  tslot : Nat := 0
  fib : Nat := 0
  cause : Nat
  sub : Nat := 0
  kind : Nat := 0
  addr : Nat := 0
  aux : Nat := 0
  deriving DecidableEq, Repr, Inhabited

/-- An error record on its way to a context's ring or to the device ring (`ctx` none), with its sequence number and event count
(R491, R492): it is written once the lines it touches are obtained (R132). -/
structure QRec where
  ctx : Option Nat
  e : ErrInfo
  seq : Nat
  evc : Nat
  deriving DecidableEq, Repr, Inhabited

/-- A ticket request (R153): of an atomic request, or of a fragment's FENCE.sc. -/
inductive ScReq where
  | atom (id : Nat)
  | fence (team gang lead : Nat)
  deriving DecidableEq, Repr, Inhabited

/-- The sequencer (R153): requests in order, and the holder that has not reported. -/
structure Sequencer where
  queue : List ScReq := []
  holder : Option Nat := none
  nextTicket : Nat := 0
  deriving DecidableEq, Repr, Inhabited

/-- The state of the machine. -/
structure State where
  sched : Sched := {}
  sys : Sys := {}
  mem : MemSys := {}
  xl : Xl := {}
  cores : List (Nat × Core) := []
  clusters : List (Nat × Cluster) := []
  /-- Event counters by agent identity (R466, R467). -/
  evcnt : List (Nat × Nat) := []
  /-- Cycle counters by agent identity (R466). -/
  cycles : List (Nat × Nat) := []
  noted47 : Bool := false
  teams : List (Nat × Team) := []
  weaves : List (Nat × Weave) := []
  ctxs : List (Nat × Ctx) := []
  launches : List (Nat × Launch) := []
  pipes : List Pipeline := []
  cmds : List Cmd := []
  pend : Pend := {}
  felt : Felt := {}
  seq : Sequencer := {}
  saved : List Saved := []
  saveReqs : List SaveReq := []
  /-- Error records that wait for the lines of their ring (R132, R492). -/
  recq : List QRec := []
  /-- Additions to accounts that wait for the lines of the table (R132, R452): account, millijoules. -/
  acctq : List (Nat × Nat) := []
  deriving DecidableEq, Repr, Inhabited

/-- Retained state (R524): trims, `sc_part`, `sg_route`, `sg_exp`, failure counts. -/
def Sys.retained (y : Sys) : List Quad :=
  [y.trims, y.scPart] ++ (List.range 64).map (fun n => (y.sgRoute.lookup n).getD 0) ++ (List.range 32).map (fun n => (y.sgExp.lookup n).getD 0)
    ++ [BitVec.ofNat 64 y.warmFails, BitVec.ofNat 64 y.coldFails]
/-- Its SHA3-256 digest. -/
def Sys.retainedDigest (y : Sys) : BitVec 256 :=
  Config.sha3 (y.retained.flatMap (fun q => (List.range 8).map (fun k => q.extractLsb' (8 * k) 8)))

/-- The machine right after a successful cold start (R524, R525): RUN, both failure counts 0, no context, device memory
zero, every cache, queue, TLB, event counter and register cleared, the Twill and main-array cores idle. -/
def State.reset : State := { sys := { digest := ({} : Sys).retainedDigest, measured := ({} : Sys).retainedDigest } }

end Sys2Proof.Machine
end

