-- ==== Sys2Proof/Machine/Maps.lean ====
section
/-! DEFINITION. Tables by number in rising order, bytes of memory in canonical form, and the fields and byte orders of
words (R6, R8). -/

namespace Sys2Proof.Machine

variable {α : Type}

/-- The entry of key k. -/
def mapGet (k : Nat) : List (Nat × α) → Option α
  | [] => none
  | (i, v) :: t => if i = k then some v else mapGet k t

/-- Enter v under k, keys rising. -/
def mapPut (k : Nat) (v : α) : List (Nat × α) → List (Nat × α)
  | [] => [(k, v)]
  | (i, w) :: t => if i < k then (i, w) :: mapPut k v t else if i = k then (k, v) :: t else (k, v) :: (i, w) :: t

/-- Remove the entry of k. -/
def mapDel (k : Nat) : List (Nat × α) → List (Nat × α)
  | [] => []
  | (i, w) :: t => if i = k then mapDel k t else (i, w) :: mapDel k t

/-- Change the entry of k if there is one. -/
def mapMod (k : Nat) (f : α → α) (l : List (Nat × α)) : List (Nat × α) :=
  l.map (fun e => if e.1 = k then (e.1, f e.2) else e)

/-- A table whose unlisted entries hold d. -/
def mapGetD (d : α) (k : Nat) (l : List (Nat × α)) : α := (mapGet k l).getD d
def mapPutD [DecidableEq α] (d : α) (k : Nat) (v : α) (l : List (Nat × α)) : List (Nat × α) :=
  if v = d then mapDel k l else mapPut k v l

/-- Keys strictly rising. -/
def keysRise : List (Nat × α) → Bool
  | [] => true
  | [_] => true
  | a :: b :: t => decide (a.1 < b.1) && keysRise (b :: t)

/-- The canonical form of a memory: addresses strictly rising, no entry 0. -/
def Memory.wf (m : Memory) : Bool := keysRise m && m.all (fun c => c.2 != 0)

/-- One byte: 0 where nothing is listed. -/
def memGet (m : Memory) (a : Nat) : Byte := mapGetD 0 a m
def memPut (m : Memory) (a : Nat) (b : Byte) : Memory := mapPutD 0 a b m

/-- n bytes from a. -/
def memBytes (m : Memory) (a n : Nat) : List Byte := (List.range n).map (fun i => memGet m (a + i))

/-- Bytes from a on. -/
def memPutBytes (m : Memory) (a : Nat) : List Byte → Memory
  | [] => m
  | b :: t => memPutBytes (memPut m a b) (a + 1) t

/-- The number that bytes give, the first the lowest (R6). -/
def leNat : List Byte → Nat
  | [] => 0
  | b :: t => b.toNat + 256 * leNat t

/-- The n low bytes of a number, the lowest first (R6). -/
def leBytes (n x : Nat) : List Byte := (List.range n).map (fun i => BitVec.ofNat 8 (x >>> (8 * i)))

def memNat (m : Memory) (a n : Nat) : Nat := leNat (memBytes m a n)

/-- The low n bits of x as a signed number (`sext` of R8). -/
def sextNat (x n : Nat) : Int := if x % 2 ^ n < 2 ^ (n - 1) then (x % 2 ^ n : Nat) else ((x % 2 ^ n : Nat) : Int) - (2 ^ n : Nat)

/-- Two words as a quad, and a quad's words (R252). -/
def quadOf (lo hi : Word) : Quad := hi ++ lo
def loWord (q : Quad) : Word := q.extractLsb' 0 32
def hiWord (q : Quad) : Word := q.extractLsb' 32 32

/-- Field `hi:lo` of a number. -/
def natBits (x hi lo : Nat) : Nat := (x >>> lo) % 2 ^ (hi + 1 - lo)

/-- Add with an upper limit. -/
def satAdd (x y top : Nat) : Nat := min top (x + y)
def satQuad (x : Quad) (n : Nat) : Quad := BitVec.ofNat 64 (satAdd x.toNat n (2 ^ 64 - 1))

/-- Elements in rising order, kept so by insertion. -/
def insertBy (lt : α → α → Bool) (x : α) : List α → List α
  | [] => [x]
  | y :: t => if lt y x then y :: insertBy lt x t else x :: y :: t
def sortBy (lt : α → α → Bool) : List α → List α
  | [] => []
  | x :: t => insertBy lt x (sortBy lt t)

/-- The bits set in a mask, rising. -/
def maskList (m : BitVec 64) : List Nat := (List.range 64).filter (fun i => m.getLsbD i)
def maskOf (l : List Nat) : BitVec 64 := l.foldl (fun m i => m ||| BitVec.ofNat 64 (2 ^ i)) 0

end Sys2Proof.Machine
end

