-- ==== Sys2Proof/Machine/Flags.lean ====
section
/-! DEFINITION. The flags of `gstat` (R220) and how an instruction sets them (R221). -/

namespace Sys2Proof.Machine

/-- Flags as bits of `gstat` (R220). -/
def fDZ : Word := 0x01
def fNX : Word := 0x02
def fUF : Word := 0x04
def fOF : Word := 0x08
def fNV : Word := 0x10
def fMOVF : Word := 0x20
def fSNAN : Word := 0x40
def fQRES : Word := 0x80

/-- A flag if a condition holds. -/
def flagIf (b : Bool) (f : Word) : Word := if b then f else 0

/-- Setting flags is an OR (R221). -/
def Gang.setFlags (g : Gang) (f : Word) : Gang := { g with gstat := g.gstat ||| (f &&& 0xFF) }

/-- CVTW saturation: bounds of its destination type and the clamped value (R306). -/
def clampInt (lo hi x : Int) : Int := if x < lo then lo else if hi < x then hi else x
def intLo (signed : Bool) (w : Nat) : Int := if signed then -(2 ^ (w - 1) : Nat) else 0
def intHi (signed : Bool) (w : Nat) : Int := if signed then (2 ^ (w - 1) : Nat) - 1 else (2 ^ w : Nat) - 1

end Sys2Proof.Machine
end

