-- ==== Sys2Proof/Machine/Numbers.lean ====
section
/-! DEFINITION. Number formats and rounding (chapter 07): values as exact rationals, one rounding to a format with its
overflow and special cases, stochastic rounding, scale formats, and the approximations of R318 with their bounds. -/

namespace Sys2Proof.Machine

/-- The value a float code holds (R212, R213). -/
inductive FV where
  | nan (signalling : Bool)
  | inf (neg : Bool)
  | fin (neg : Bool) (mag : Rat)
  deriving DecidableEq, Repr

/-- The float formats of R210. -/
inductive Fmt where
  | f32 | f16 | bf16 | f8e4 | f8e5 | f4e2 | f64
  deriving DecidableEq, Repr

/-- Width, exponent bits, fraction bits, bias (R212). -/
def Fmt.width : Fmt → Nat | .f32 => 32 | .f16 | .bf16 => 16 | .f8e4 | .f8e5 => 8 | .f4e2 => 4 | .f64 => 64
def Fmt.mbits : Fmt → Nat | .f32 => 23 | .f16 => 10 | .bf16 => 7 | .f8e4 => 3 | .f8e5 => 2 | .f4e2 => 1 | .f64 => 52
def Fmt.ebits (f : Fmt) : Nat := f.width - 1 - f.mbits
def Fmt.bias : Fmt → Nat | .f32 | .bf16 => 127 | .f16 | .f8e5 => 15 | .f8e4 => 7 | .f4e2 => 1 | .f64 => 1023
/-- Is the all-ones exponent reserved for infinity and NaN (R213)? -/
def Fmt.ieee : Fmt → Bool | .f8e4 | .f4e2 => false | _ => true

/-- 2 to an integer power. -/
def pow2 (e : Int) : Rat := if 0 ≤ e then ((2 ^ e.toNat : Nat) : Rat) else 1 / ((2 ^ (-e).toNat : Nat) : Rat)

/-- floor(log2 q) of a positive q. -/
def floorLog2 (q : Rat) : Int :=
  let e : Int := (Nat.log2 q.num.natAbs : Int) - (Nat.log2 q.den : Int)
  if pow2 e ≤ q then (if pow2 (e + 1) ≤ q then e + 1 else e) else e - 1

def FV.neg? : FV → Bool | .nan _ => false | .inf n => n | .fin n _ => n
def FV.isNan : FV → Bool | .nan _ => true | _ => false
def FV.isSnan : FV → Bool | .nan s => s | _ => false
def FV.isZero : FV → Bool | .fin _ m => m == 0 | _ => false
/-- The real number of a finite value. -/
def FV.rat : FV → Rat | .fin n m => if n then -m else m | _ => 0
def FV.flip : FV → FV | .nan s => .nan s | .inf n => .inf (!n) | .fin n m => .fin (!n) m
/-- A rational as a value; n is the sign of a zero. -/
def FV.ofRat (n : Bool) (x : Rat) : FV := if x = 0 then .fin n 0 else if x < 0 then .fin true (-x) else .fin false x

/-- The value of a code (R212, R213, R215). -/
def Fmt.value (f : Fmt) (x : Nat) : FV :=
  let m := f.mbits
  let neg := x.testBit (f.width - 1)
  let M := x % 2 ^ m
  let E := (x >>> m) % 2 ^ f.ebits
  let top := 2 ^ f.ebits - 1
  if E = top ∧ f.ieee then
    if M = 0 then .inf neg else .nan (decide (M < 2 ^ (m - 1)) && f != .f8e5)
  else if f = .f8e4 ∧ E = top ∧ M = 7 then .nan false
  else if E = 0 then .fin neg ((M : Rat) * pow2 (1 - (f.bias : Int) - m))
  else .fin neg (((2 ^ m + M : Nat) : Rat) * pow2 ((E : Int) - f.bias - m))

/-- Default NaN (R213). -/
def Fmt.dnan : Fmt → Nat
  | .f32 => 0x7FC00000 | .f16 => 0x7E00 | .bf16 => 0x7FC0 | .f8e4 => 0x7F | .f8e5 => 0x7E | .f4e2 => 0 | .f64 => 0x7FF8000000000000
/-- Code of the largest finite value. -/
def Fmt.maxCode : Fmt → Nat
  | .f32 => 0x7F7FFFFF | .f16 => 0x7BFF | .bf16 => 0x7F7F | .f8e4 => 0x7E | .f8e5 => 0x7B | .f4e2 => 7 | .f64 => 0x7FEFFFFFFFFFFFFF
def Fmt.maxFin (f : Fmt) : Rat := match f.value f.maxCode with | .fin _ m => m | _ => 0
def Fmt.minNormal (f : Fmt) : Rat := pow2 (1 - (f.bias : Int))
def Fmt.infCode (f : Fmt) : Nat := (2 ^ f.ebits - 1) * 2 ^ f.mbits
def Fmt.signBit (f : Fmt) (neg : Bool) : Nat := if neg then 2 ^ (f.width - 1) else 0

/-- Does a discarded part round the magnitude up? `n` is the kept integer, `r` the discarded fraction in [0, 1). -/
def roundsUp (d : Rnd) (neg : Bool) (n : Nat) (r : Rat) : Bool :=
  match d with
  | .rne => decide (1 / 2 < r) || (r == 1 / 2 && n % 2 == 1)
  | .rtz => false
  | .rup => r != 0 && !neg
  | .rdn => r != 0 && neg

/-- A code and flags. -/
structure Rounded where
  code : Nat
  flags : Word := 0
  deriving DecidableEq, Repr

/-- The result of an overflow (R224) whose direction away from zero is `away`. -/
def Fmt.overflow (f : Fmt) (neg sat away : Bool) : Nat :=
  f.signBit neg + (if f = .f4e2 ∨ sat ∨ !away then f.maxCode else if f = .f8e4 then 0x7F else f.infCode)

/-- Does an overflow under a rounding go away from zero (R224)? -/
def rndAway (d : Rnd) (neg : Bool) : Bool :=
  match d with | .rne => true | .rtz => false | .rup => !neg | .rdn => neg

/-- Code of magnitude n · 2^(e - m), with n below 2^(m + 1) or equal to it after a carry. -/
def Fmt.encodeMag (f : Fmt) (n : Nat) (e : Int) : Nat :=
  let m := f.mbits
  let (n, e) := if n = 2 ^ (m + 1) then (2 ^ m, e + 1) else (n, e)
  if n < 2 ^ m then n else (e + f.bias).toNat * 2 ^ m + (n - 2 ^ m)

/-- Magnitude as integer and exponent at the format's precision: exponent at least the smallest normal's. -/
def Fmt.split (f : Fmt) (x : Rat) : Int × Nat × Rat :=
  let e := max (floorLog2 x) (1 - (f.bias : Int))
  let q := x * pow2 ((f.mbits : Int) - e)
  (e, q.floor.toNat, q - q.floor)

/-- Is x tiny after rounding with unbounded exponent (R214)? -/
def Fmt.tiny (f : Fmt) (d : Rnd) (neg : Bool) (x : Rat) : Bool :=
  let e := floorLog2 x
  let q := x * pow2 ((f.mbits : Int) - e)
  let n := q.floor.toNat
  let n' := if roundsUp d neg n (q - q.floor) then n + 1 else n
  decide ((n' : Rat) * pow2 (e - f.mbits) < f.minNormal)

/-- Round a finite non-zero magnitude (R223, R224, R214). -/
def Fmt.roundMag (f : Fmt) (d : Rnd) (sat neg : Bool) (x : Rat) : Rounded :=
  let (e, n, r) := f.split x
  let n' := if roundsUp d neg n r then n + 1 else n
  let v : Rat := (n' : Rat) * pow2 (e - f.mbits)
  if f.maxFin < v then ⟨f.overflow neg sat (rndAway d neg), fOF ||| fNX⟩
  else ⟨f.signBit neg + f.encodeMag n' e, flagIf (r != 0) fNX ||| flagIf (r != 0 && f.tiny d neg x) fUF⟩

/-- Convert a value to a format (R223-R225).. -/
def Fmt.round (f : Fmt) (d : Rnd) (sat : Bool) (v : FV) : Rounded :=
  match v with
  | .nan s => ⟨f.dnan, flagIf (s || f == .f4e2) fNV⟩
  | .inf neg =>
      if f = .f8e4 then ⟨f.signBit neg + (if sat then f.maxCode else 0x7F), fOF⟩
      else if f = .f4e2 then ⟨f.signBit neg + f.maxCode, fOF⟩
      else ⟨f.signBit neg + f.infCode, 0⟩
  | .fin neg x => if x = 0 then ⟨f.signBit neg, 0⟩ else f.roundMag d sat neg x

/-- Stochastic rounding by the random word r (R227). DESIGN CHOICE: UF is judged on the delivered result (R214; assumption 90). -/
def Fmt.srnd (f : Fmt) (sat : Bool) (v : FV) (r : Word) : Rounded :=
  match v with
  | .fin neg x =>
      if x = 0 then ⟨f.signBit neg, 0⟩ else
      let (e, n, fr) := f.split x
      if fr = 0 then f.roundMag .rne sat neg x else
      -- d of R227 measures from the lower neighbour: for a negative x the greater magnitude is the lower one
      let dd : Rat := if neg then 1 - fr else fr
      let hi := decide (((r &&& 0xFFFFFF).toNat : Int) < (dd * (2 ^ 24 : Nat)).floor)
      let n' := if hi != neg then n + 1 else n
      let y : Rat := (n' : Rat) * pow2 (e - f.mbits)
      if f.maxFin < y then ⟨f.overflow neg sat true, fOF ||| fNX⟩
      else ⟨f.signBit neg + f.encodeMag n' e, fNX ||| flagIf (decide (y < f.minNormal)) fUF⟩
  | _ => f.round .rne sat v

/-- An exact result with the invalid-operation mark (R310). -/
structure Exact where
  v : FV
  nv : Bool := false
  deriving DecidableEq, Repr

/-- The zero of an exact zero sum (R310). -/
def zeroSum (d : Rnd) (a b : Bool) : FV := .fin (if a = b then a else d == .rdn) 0

/-- a + b (R310). -/
def addFV (d : Rnd) (a b : FV) : Exact :=
  match a, b with
  | .nan s, .nan t => ⟨.nan false, s || t⟩
  | .nan s, _ => ⟨.nan false, s⟩
  | _, .nan t => ⟨.nan false, t⟩
  | .inf m, .inf n => if m = n then ⟨.inf m, false⟩ else ⟨.nan false, true⟩
  | .inf m, _ => ⟨.inf m, false⟩
  | _, .inf n => ⟨.inf n, false⟩
  | .fin m x, .fin n y =>
      if x = 0 ∧ y = 0 then ⟨zeroSum d m n, false⟩
      else
        let z := FV.rat (.fin m x) + FV.rat (.fin n y)
        ⟨if z = 0 then .fin (d == .rdn) 0 else FV.ofRat false z, false⟩

/-- a × b (R310). -/
def mulFV (a b : FV) : Exact :=
  match a, b with
  | .nan s, .nan t => ⟨.nan false, s || t⟩
  | .nan s, _ => ⟨.nan false, s⟩
  | _, .nan t => ⟨.nan false, t⟩
  | .inf m, .inf n => ⟨.inf (m != n), false⟩
  | .inf m, .fin n y => if y = 0 then ⟨.nan false, true⟩ else ⟨.inf (m != n), false⟩
  | .fin m x, .inf n => if x = 0 then ⟨.nan false, true⟩ else ⟨.inf (m != n), false⟩
  | .fin m x, .fin n y => ⟨.fin (m != n) (x * y), false⟩

/-- a × b + c with one rounding to come (R310, R311). -/
def fmaFV (a b c : FV) : Exact :=
  let p := mulFV a b
  let r := addFV .rne p.v c
  ⟨r.v, p.nv || r.nv⟩

def Fmt.finish (f : Fmt) (d : Rnd) (sat : Bool) (e : Exact) : Rounded :=
  let r := f.round d sat e.v
  ⟨r.code, r.flags ||| flagIf e.nv fNV⟩

/-- The element formats of R210 by code; none for an illegal one. `q4` and `i8` and `i32` are integers. -/
inductive Elem where
  | flt (f : Fmt) | q4 | i8 | i32
  deriving DecidableEq, Repr

def elemOf (n : Nat) : Option Elem :=
  match n with
  | 0 => some (.flt .f32) | 1 => some (.flt .f16) | 2 => some (.flt .bf16) | 3 => some (.flt .f8e4)
  | 4 => some (.flt .f8e5) | 5 => some (.flt .f4e2) | 6 => some .q4 | 7 => some .i8 | 8 => some .i32
  | 9 => some (.flt .f64)
  | _ => none

/-- Element format of a slot's field, f32 for an illegal code. -/
def elemFmt (n : Nat) : Elem := (elemOf n).getD (.flt .f32)

def Elem.width : Elem → Nat | .flt f => f.width | .q4 => 4 | .i8 => 8 | .i32 => 32

/-- A q4 code as an integer; the reserved code is 0 with QRES (R216). -/
def q4Value (x : Nat) : Int × Word := if x % 16 = 8 then (0, fQRES) else (sextNat x 4, 0)

/-- Value of an element code, with QRES of a reserved q4 code. -/
def Elem.value (e : Elem) (x : Nat) : FV × Word :=
  match e with
  | .flt f => (f.value x, 0)
  | .q4 => let (v, w) := q4Value x; (FV.ofRat false v, w)
  | .i8 => (FV.ofRat false (sextNat x 8), 0)
  | .i32 => (FV.ofRat false (sextNat x 32), 0)

/-- Round a rational to an integer (R223). -/
def roundInt (d : Rnd) (neg : Bool) (mag : Rat) : Int :=
  let n := mag.floor.toNat
  let n' := if roundsUp d neg n (mag - mag.floor) then n + 1 else n
  if neg then -(n' : Int) else n'

/-- Conversion to an integer range (R226). -/
def toIntRange (d : Rnd) (lo hi : Int) (v : FV) : Int × Word :=
  match v with
  | .nan _ => (0, fNV)
  | .inf neg => (if neg then lo else hi, fOF)
  | .fin neg m =>
      let n := roundInt d neg m
      let c := clampInt lo hi n
      (c, if c != n then fOF ||| fNX else flagIf ((n : Rat) != FV.rat v) fNX)

/-- Convert a value to an element format (R223-R226). -/
def Elem.convert (e : Elem) (d : Rnd) (sat : Bool) (v : FV) : Rounded :=
  match e with
  | .flt f => f.round d sat v
  | .q4 => let (n, w) := toIntRange d (-7) 7 v; ⟨(n % 16).toNat, w⟩
  | .i8 => let (n, w) := toIntRange d (-128) 127 v; ⟨(n % 256).toNat, w⟩
  | .i32 => let (n, w) := toIntRange d (intLo true 32) (intHi true 32) v; ⟨(n % 2 ^ 32).toNat, w⟩

/-- Value of an e8m0 scale (R218); none for NaN. -/
def e8m0Value (x : Nat) : Option Rat := if x % 256 = 255 then none else some (pow2 ((x % 256 : Nat) - 127))
/-- Value of an sc10 scale (R218); none for NaN. -/
def sc10Value (x : Nat) : Option Rat :=
  let E := x % 1024 / 4
  let F := x % 4
  if E = 255 ∧ F = 3 then none else some (pow2 ((E : Int) - 127) * (1 + (F : Rat) / 4))

/-- Slot scale format of R237: 1 e8m0, 2 sc10. -/
def scaleValue (sfmt x : Nat) : Option Rat := if sfmt = 1 then e8m0Value x else sc10Value x

/-! High-precision references for R318, as integers at 2^320: near enough to the exact value Y that a bound around them and the bound
around Y admit the same f32 values. -/

def fxOne : Nat := 2 ^ 320
def fxPi : Rat := (6710401180212168915155840974220003240804194089427148950727106424351713218671805380099500388914039 : Rat) / (fxOne : Rat)
def fxLn2 : Rat := (1480553391661173448385607439722553250922680800745876974795605978609098082859138712941075737848984 : Rat) / (fxOne : Rat)
def fxLog2e : Rat := (3081577904126213121686167198097690134163479766071396094403848907535455306605342191083616308484524 : Rat) / (fxOne : Rat)
/-- Truncate to 320 fraction bits. -/
def fx (x : Rat) : Rat := ((x * (fxOne : Rat)).floor : Rat) / (fxOne : Rat)

/-- n terms of the series whose next term is the last times z over (k·(k+step-1)...), from the k-th on. -/
def series (z : Rat) (t : Rat) (k step : Nat) : Nat → Rat
  | 0 => 0
  | n + 1 =>
      let den : Nat := if step = 1 then k else k * (k + 1)
      t + series z (fx (t * z / (den : Rat))) (k + step) step n

/-- e^x for |x| at most 1. -/
def expRef (x : Rat) : Rat := series x 1 1 1 72
/-- sin x and cos x for |x| at most 3.2. -/
def sinRef (x : Rat) : Rat := x * series (fx (-(x * x))) 1 2 2 56
def cosRef (x : Rat) : Rat := series (fx (-(x * x))) 1 1 2 56
/-- 2^a. -/
def exp2Ref (a : Rat) : Rat := pow2 a.floor * expRef (fx ((a - a.floor) * fxLn2))

def log2Bits (y : Rat) (w : Rat) : Nat → Rat
  | 0 => 0
  | n + 1 =>
      let y2 := fx (y * y)
      if 2 ≤ y2 then w + log2Bits (y2 / 2) (w / 2) n else log2Bits y2 (w / 2) n

/-- log2 a of a positive a. -/
def log2Ref (a : Rat) : Rat :=
  let e := floorLog2 a
  (e : Rat) + log2Bits (fx (a * pow2 (-e))) (1 / 2) 140

/-- Turns reduced to within half a turn. -/
def reduceTurn (a : Rat) : Rat := a - (roundInt .rne (decide (a < 0)) (if a < 0 then -a else a) : Rat)

def sinTurn (a : Rat) : Rat := sinRef (2 * fxPi * reduceTurn a)
def cosTurn (a : Rat) : Rat := cosRef (2 * fxPi * reduceTurn a)

/-- tanh of a non-negative a. -/
def tanhRef (a : Rat) : Rat :=
  if 100 < a then 1 - 1 / (fxOne : Rat)
  else
    let q := exp2Ref (-(2 * a * fxLog2e))
    (1 - q) / (1 + q)

/-- Integer square root by bits. -/
def isqrtBits (n r : Nat) : Nat → Nat
  | 0 => r
  | k + 1 =>
      let t := r + 2 ^ k
      isqrtBits n (if t * t ≤ n then t else r) k
def isqrt (n : Nat) : Nat := isqrtBits n 0 (Nat.log2 n / 2 + 1)

/-- A rational within 2^-120 relative of the square root of x > 0, equal to it where x is an exact square of that form; its
rounding to f32 is that of the square root. -/
def sqrtRef (x : Rat) : Rat :=
  let e := floorLog2 x / 2
  let m := x * pow2 (256 - 2 * e)
  let n := m.floor.toNat
  let r := isqrt n
  (if m = ((r * r : Nat) : Rat) then (r : Rat) else (r : Rat) + 1 / 4) * pow2 (e - 128)

/-- One ulp of Y (R318). -/
def ulp (y : Rat) : Rat := pow2 (max (floorLog2 (if y < 0 then -y else y)) (-126) - 23)

def ratAbs (x : Rat) : Rat := if x < 0 then -x else x

/-- The result of an approximation: the implementation's value `cand` where the bound of R318 admits it, else the rounded
reference (assumption 3). DESIGN CHOICE: for an FSIN or FTANH whose result is subnormal no f32 value may meet the relative bound; the result is
then the rounded reference (assumption 109). -/
def boundedApprox (cand : Word) (ref bound : Rat) : Nat :=
  match Fmt.f32.value cand.toNat with
  | .fin n m => if ratAbs (FV.rat (.fin n m) - ref) ≤ bound then cand.toNat else (Fmt.f32.round .rne false (FV.ofRat false ref)).code
  | _ => (Fmt.f32.round .rne false (FV.ofRat false ref)).code

/-- f32 operand and result helpers. -/
def f32 (w : Word) : FV := Fmt.f32.value w.toNat

end Sys2Proof.Machine
end

