-- ==== Sys2Proof/Machine/OperandRules.lean ====
section
/-! DEFINITION. What each instruction's entry accepts: the class of its destination, the class and width of its sources,
its fixed register runs and its field values (steps 5 and 7 of R270). -/

namespace Sys2Proof

/-- Cause and sub-cause of a decoding error (R269). -/
structure DErr where
  cause : Nat
  sub : Nat
  deriving DecidableEq, Repr, Inhabited

def DErr.illinst (n : Nat) : DErr := ⟨0x0C, n⟩
def DErr.illopnd (n : Nat) : DErr := ⟨0x0D, n⟩

/-- What an entry accepts as destination (R247). -/
inductive DstKind where
  | vs | v | s | p | acc | guard | queue | mb | special
  deriving DecidableEq, Repr

/-- What an entry accepts as a source: any class, vectors only, no vectors (sub-cause 0 or 3), or a register run. -/
inductive SrcKind where
  | any | vec | noVec (sub : Nat) | reg
  deriving DecidableEq, Repr

/-- Bits of the destination or source that SRD or SWR uses for special register n: 64 (a pair) or one register of 32; none
when n is unassigned (R387, R472). `evcnt`, 48 bits wide, is below 64 bits and takes one register (DEDUCED, assumption 12). -/
def specialWidth (n : Nat) : Option Nat :=
  if n = 3 ∨ n = 6 ∨ (8 ≤ n ∧ n ≤ 15) ∨ n = 17 ∨ n = 27 ∨ (29 ≤ n ∧ n ≤ 31) ∨ (40 ≤ n ∧ n ≤ 43) then some 64
  else if n ≤ 26 ∨ n = 28 ∨ (32 ≤ n ∧ n ≤ 39) then some 32
  else none

/-- One source of an instruction: what its entry accepts, whether it is a 64-bit operand, the specifier. -/
structure SrcUse where
  kind : SrcKind
  wide : Bool
  src : Src
  deriving DecidableEq, Repr

/-- The operand rules of one instruction: destination with its width; sources; runs as first vector register and length;
whether a scalar destination admits vector sources; whether every field value is legal. -/
structure Sig where
  dst : Option (DstKind × Bool × Dst) := none
  srcs : List SrcUse := []
  runs : List (Nat × Nat) := []
  vecOk : Bool := false
  ok : Bool := true
  shapes : List Shape := []
  deriving DecidableEq, Repr

def Src.any (s : Src) : SrcUse := ⟨.any, false, s⟩
def Src.wideIf (q : Bool) (s : Src) : SrcUse := ⟨.any, q, s⟩
def Src.noVec (s : Src) : SrcUse := ⟨.noVec 0, false, s⟩
def Src.noVecWide (s : Src) : SrcUse := ⟨.noVec 0, true, s⟩
def Src.vecOnly (s : Src) : SrcUse := ⟨.vec, false, s⟩

/-- A fixed run of n registers that starts at a vector source or destination (R270 step 7). -/
def Src.run (s : Src) (n : Nat) : List (Nat × Nat) := match s with | .vec r _ _ => [(r.toNat, n)] | _ => []
def Dst.run (d : Dst) (n : Nat) : List (Nat × Nat) := match d with | .vec r => [(r.toNat, n)] | _ => []

/-- `im` with only the named bits set (R277). -/
def IntMod.accepts (m : IntMod) (u sat q : Bool) : Bool := (u || !m.u) && (sat || !m.sat) && (q || !m.q)

def CmpTy.wide : CmpTy → Bool | .i64 | .n64 => true | _ => false
def ITy.wide : ITy → Bool | .i64 | .n64 => true | _ => false
def ATy.wide : ATy → Bool | .i64 | .n64 => true | _ => false
def MemMod.quad (m : MemMod) : Bool := m.size == 1

/-- Legal operation and type pairs of R341. -/
def AOp.legal (o : AOp) (t : ATy) : Bool :=
  match o with
  | .add | .min | .max => true
  | .sub | .and | .or | .xor => t == .i32 || t == .n32 || t == .i64 || t == .n64
  | .exch | .cas => t == .i32 || t == .n32 || t == .i64 || t == .n64 || t == .f32
  | .inc | .dec => t == .n32

/-- `sx` only with a byte or half load (R332); hint 3 is illegal. -/
def MemMod.okLoad (m : MemMod) (w : Bool) : Bool :=
  m.hint != 3 && (!m.sx || m.size == 2 || m.size == 3) && (w || !m.w)
def MemMod.okStore (m : MemMod) (w : Bool) : Bool := m.hint != 3 && !m.sx && (w || !m.w)

/-- Elements per word of an SRND format (R322, R331). -/
def SrndFmt.perWord : SrndFmt → Nat | .f16 | .bf16 => 2 | .f8e4 | .f8e5 => 4 | .f4e2 => 8

/-- Field i of a shape record by R264's numbering: its value and the dimension it belongs to. -/
def Shape.field (r : Shape) (i : Nat) : Nat × Nat :=
  match i with
  | 0 => (bitsOf r.s0 49 0, 0)
  | 1 => (bitsOf r.s1 19 0, 0)
  | 2 => (bitsOf r.s1 39 20, 1)
  | 3 => (bitsOf r.s1 59 40, 2)
  | 4 => (bitsOf r.s2 30 0, 1)
  | 5 => (bitsOf r.s2 61 31, 2)
  | 6 => (bitsOf r.s3 9 0, 0)
  | 7 => (bitsOf r.s3 19 10, 1)
  | 8 => (bitsOf r.s3 29 20, 2)
  | _ => (bitsOf r.s3 47 45, 0)

def Shape.sub (r : Shape) (i : Nat) : Bool := r.s0.getLsbD (52 + i)
def Shape.sp (r : Shape) : Nat := bitsOf r.s0 51 50
def Shape.nd (r : Shape) : Nat := bitsOf r.s3 44 43
def Shape.esel (r : Shape) : Nat := bitsOf r.s3 42 41
def Shape.tr (r : Shape) : Bool := r.s3.getLsbD 40

/-- Field i of the record breaks no rule of R263 and R264. DESIGN CHOICE: nor is the smask bit of a field of an unused dimension set
(assumption 92). -/
def Shape.fieldOk (r : Shape) (i : Nat) : Bool :=
  let (v, dim) := r.field i
  if r.nd < dim then v == 0 && !r.sub i
  else if r.sub i then decide (v < 64)
  else !(i == 4 || i == 5) || v % 4 == 0

/-- A shape record with no illegal field value (R262-R264). -/
def Shape.ok (r : Shape) : Bool :=
  r.sp != 3 && r.nd != 3 && r.esel != 3 && bitsOf r.s1 61 60 == 0 && bitsOf r.s3 61 48 == 0
    && bitsOf r.s3 39 30 == 0 && (List.range 10).all r.fieldOk
    && (if r.sub 0 then r.sp == 0
        else if r.sp == 1 then bitsOf r.s0 49 20 == 0 else r.sp != 2 || bitsOf r.s0 49 24 == 0)

/-- A half of no operation is all zero (R260). -/
def PHalf.ok (h : PHalf) : Bool :=
  h.op != .nop || (h.pi == 0 && !h.scalarDst && h.d == 0 && h.src == .vec 0 0 false)

def PHalf.dst (h : PHalf) : Dst := if h.scalarDst then .scal h.d else .vec h.d

/-- Does the second half's source name register d? -/
def Src.names (s : Src) (d : Dst) : Bool :=
  match s, d with
  | .vec r _ _, .vec n => r == n
  | .scal r _, .scal n => r == n
  | _, _ => false

/-- The pairing rules of R261. -/
def pairBroken (a b : PHalf) : Bool :=
  a.op != .nop && b.op != .nop
    && (b.src.names a.dst || a.dst == b.dst
        || (!a.scalarDst && !b.scalarDst && a.d.toNat % 4 == b.d.toNat % 4))

/-- The operand rules of the instructions of chapters 09 to 13, from their encoding tables (R279-R443). The release and
attach rows of PIPEDECL and PROCDECL share the word of the declare row; a step of another agent has no word. -/
def sig (i : Instr) : Sig :=
  match i with
  | .nop _ | .bra _ _ | .reconv _ _ | .exit _ | .fend _ | .yield _ | .brkpt _ _ | .gbar _ | .fence _ _ _
  | .bar _ _ | .wbar _ _ | .sdrain _ | .waitcnt _ _ _ | .repack _ | .trap _ _ | .tret _ _ | .teamkill _ => {}
  | .jmps _ a => { srcs := [a.noVecWide] }
  | .call _ k _ => { ok := decide (k.toNat ≤ 16) }
  | .calls _ a k => { srcs := [a.noVecWide], ok := decide (k.toNat ≤ 16) }
  | .ret _ a k => { srcs := [a.wideIf true], ok := decide (k.toNat ≤ 16) }
  | .fork _ d a _ => { dst := some (.s, true, d), srcs := [⟨.noVec 3, true, a⟩] }
  | .vote _ d a m =>
      { dst := some (if m = .ballot then .vs else .p, m = .ballot, d), srcs := [a.any], vecOk := true }
  | .rfl _ d a q => { dst := some (.vs, q, d), srcs := [a.wideIf q], vecOk := true }
  | .shfl _ d a b q _ _ => { dst := some (.v, q, d), srcs := [⟨.vec, q, a⟩, b.any] }
  | .pset _ d a b ty _ => { dst := some (.p, false, d), srcs := [a.wideIf ty.wide, b.wideIf ty.wide] }
  | .pand _ d _ _ | .por _ d _ _ | .pxor _ d _ _ | .pnot _ d _ => { dst := some (.p, false, d) }
  | .pmov _ (.move d _) => { dst := some (.p, false, d) }
  | .pmov _ (.pack d) => { dst := some (.v, false, d) }
  | .pmov _ (.unpack a) => { srcs := [a.any] }
  | .iadd _ d a b m | .isub _ d a b m =>
      { dst := some (.vs, false, d), srcs := [a.any, b.any], ok := m.accepts true true false }
  | .imul _ d a b => { dst := some (.vs, false, d), srcs := [a.any, b.any] }
  | .imulh _ d a b m => { dst := some (.vs, false, d), srcs := [a.any, b.any], ok := m.accepts true false false }
  | .imad _ d a b c | .isad _ d a b c | .funnel _ d a b c | .bfi _ d a b c =>
      { dst := some (.vs, false, d), srcs := [a.any, b.any, c.any] }
  | .imadw _ d a b m => { dst := some (.vs, true, d), srcs := [a.any, b.any], ok := m.accepts true false false }
  | .iabs _ d a m | .ineg _ d a m =>
      { dst := some (.vs, false, d), srcs := [a.any], ok := m.accepts false true false }
  | .imin _ d a b m | .imax _ d a b m =>
      { dst := some (.vs, m.q, d), srcs := [a.wideIf m.q, b.wideIf m.q], ok := m.accepts true false true }
  | .and _ d a b m | .or _ d a b m | .xor _ d a b m | .andn _ d a b m =>
      { dst := some (.vs, m.q, d), srcs := [a.wideIf m.q, b.wideIf m.q], ok := m.accepts false false true }
  | .not _ d a m | .brev _ d a m | .mov _ d a m =>
      { dst := some (.vs, m.q, d), srcs := [a.wideIf m.q], ok := m.accepts false false true }
  | .shl _ d a b m | .shr _ d a b m | .sar _ d a b m | .rot _ d a b m =>
      { dst := some (.vs, m.q, d), srcs := [a.wideIf m.q, b.any], ok := m.accepts false false true }
  | .bfe _ d a b m => { dst := some (.vs, false, d), srcs := [a.any, b.any], ok := m.accepts true false false }
  | .popc _ d a m | .clz _ d a m =>
      { dst := some (.vs, false, d), srcs := [a.wideIf m.q], ok := m.accepts false false true }
  | .sel _ d a b _ q => { dst := some (.v, q, d), srcs := [a.wideIf q, b.wideIf q] }
  | .movi _ d a b => { dst := some (.vs, true, d), srcs := [a.any, b.any] }
  | .lea _ d a b _ _ => { dst := some (.vs, true, d), srcs := [a.wideIf true, b.any] }
  | .iadd64 _ d a b _ => { dst := some (.vs, true, d), srcs := [a.wideIf true, b.wideIf true] }
  | .cvtw _ d a m => { dst := some (.vs, m.dw, d), srcs := [a.wideIf (m.sw == 3)] }
  | .fadd _ d a b _ | .fsub _ d a b _ | .fmul _ d a b _ | .hadd2 _ d a b _ | .hmul2 _ d a b _ | .badd2 _ d a b _ =>
      { dst := some (.vs, false, d), srcs := [a.any, b.any] }
  | .fmin _ d a b _ | .fmax _ d a b _ => { dst := some (.vs, false, d), srcs := [a.any, b.any] }
  | .ffma _ d a b c | .hfma2 _ d a b c | .bfma2 _ d a b c =>
      { dst := some (.vs, false, d), srcs := [a.any, b.any, c.any] }
  | .fclass _ d a _ => { dst := some (.vs, false, d), srcs := [a.any] }
  | .frnd _ d a _ => { dst := some (.vs, false, d), srcs := [a.any] }
  | .ffrac _ d a | .frcp _ d a | .frsq _ d a | .fsqrt _ d a | .fexp2 _ d a | .flog2 _ d a | .fsin _ d a | .fcos _ d a
  | .ftanh _ d a => { dst := some (.vs, false, d), srcs := [a.any] }
  -- a position C of 0 that names v0 stands for an omitted c, which CVTF does not read unless its slot has `rnd` 4 (R321, R322)
  | .cvtf _ d a c _ _ _ =>
      { dst := some (.vs, false, d)
        srcs := a.any :: (match c, d with | .vec 0 0 false, .scal _ => [] | _, _ => [c.any]) }
  | .cvti _ d a m =>
      { dst := some (.vs, !m.toFloat && m.it.wide, d), srcs := [a.wideIf (m.toFloat && m.it.wide)] }
  | .pack _ d a _ | .unpack _ d a _ => { dst := some (.v, false, d), srcs := [a.vecOnly] }
  | .dp4i8 _ d a b _ _ | .dp4f8 _ d a b _ _ => { dst := some (.vs, false, d), srcs := [a.any, b.any] }
  | .dp8q4 _ d a b => { dst := some (.vs, false, d), srcs := [a.any, b.any] }
  | .dp2f16 _ d a b _ => { dst := some (.vs, false, d), srcs := [a.any, b.any] }
  | .scale _ d a b _ _ => { dst := some (.vs, false, d), srcs := [a.any, b.any] }
  | .rng _ d a => { dst := some (.v, false, d), srcs := [a.any] }
  | .srnd _ d a b di _ f =>
      { dst := some (.vs, false, d), srcs := [a.any, b.any], ok := decide (di.toNat < f.perWord) }
  | .pFormPair h0 h1 => { ok := h0.ok && h1.ok }
  | .ld _ d a b m => { dst := some (.vs, m.quad, d), srcs := [a.wideIf true, b.any], ok := m.okLoad false }
  | .st _ d a b m =>
      { dst := some (.vs, m.quad, d), srcs := [a.wideIf true, b.any], ok := m.okStore false, vecOk := true }
  | .lds _ d a b m => { dst := some (.vs, m.quad, d), srcs := [a.any, b.any], ok := m.okLoad true }
  | .sts _ d a b m => { dst := some (.vs, m.quad, d), srcs := [a.any, b.any], ok := m.okStore true, vecOk := true }
  | .ldc _ d a b m =>
      { dst := some (.vs, m.quad, d), srcs := [a.any, b.any], ok := m.okLoad false && m.ord == 0 && m.sco == 0 }
  | .pref _ a b _ => { srcs := [a.wideIf true, b.any] }
  | .atom _ d a b m =>
      { dst := some (.vs, m.ty.wide, d), srcs := [a.wideIf true, b.wideIf m.ty.wide], ok := m.op.legal m.ty }
  | .atomsc _ d a b op ty =>
      { dst := some (.vs, ty.wide, d), srcs := [a.wideIf true, b.wideIf ty.wide], ok := op.legal ty }
  | .red _ a b m =>
      { srcs := [a.wideIf true, b.wideIf m.ty.wide], ok := m.op.legal m.ty && m.op != .exch && m.op != .cas }
  | .boinit _ a b _ _ => { srcs := [a.wideIf true, b.any] }
  | .boarr _ a b _ _ _ => { srcs := [a.wideIf true, b.any] }
  | .bowait _ d a _ => { dst := some (.p, false, d), srcs := [a.wideIf true] }
  | .stashmap _ a b _ => { srcs := [a.noVecWide, b.noVecWide] }
  | .stashwb _ _ a b | .stashinv _ _ a b => { srcs := [a.noVec, b.noVec] }
  | .tileq _ (.deff t desc) => { srcs := [t.noVec, desc.noVec] }
  | .tileq _ (.rel t e) => { srcs := [t.noVec, e.noVec] }
  | .tileq _ (.rd d t e) => { dst := some (.vs, false, d), srcs := [t.noVec, e.noVec] }
  | .tilewait _ d t => { dst := some (.p, false, d), srcs := [t.noVec] }
  | .procq _ d _ _ => { dst := some (.s, false, d) }
  | .procdone _ i => { srcs := [i.noVec] }
  | .procfail _ i c => { srcs := [i.noVec, c.noVec] }
  | .cpygo _ a => { srcs := [a.noVec] }
  | .cpyq _ d => { dst := some (.vs, false, d) }
  | .guardset _ d _ => { dst := some (.guard, false, d) }
  | .guardclr _ d => { dst := some (.guard, false, d) }
  | .mma16 _ d a b m =>
      { dst := some (.v, false, d), srcs := [a.vecOnly, b.vecOnly, m.noVecWide], runs := d.run 4 ++ a.run 2 ++ b.run 2 }
  | .mma16sp _ d a b m =>
      { dst := some (.v, false, d), srcs := [a.vecOnly, b.vecOnly, m.noVecWide], runs := d.run 4 ++ a.run 3 ++ b.run 4 }
  | .gangset _ a => { srcs := [a.noVec] }
  | .mtile _ d _ _ sc _ _ _ _ _ ra rb | .mtilesp _ d _ _ sc _ _ _ _ _ ra rb =>
      { dst := some (.acc, false, d), srcs := [sc.noVecWide], shapes := [ra, rb] }
  | .accz _ d => { dst := some (.acc, false, d) }
  | .accld _ d _ r => { dst := some (.acc, false, d), shapes := [r] }
  | .accdrain _ d _ _ _ _ _ _ r => { dst := some (.acc, false, d), shapes := [r] }
  | .sample _ d a b c | .sampleg _ d a b c | .nsample _ d a b c =>
      { dst := some (.v, true, d), srcs := [a.wideIf true, b.vecOnly, c.noVecWide] }
  | .fetch _ d a b c =>
      { dst := some (.v, true, d), srcs := [a.wideIf true, b.vecOnly, c.noVecWide], runs := b.run 4 }
  | .wpin _ d a => { dst := some (.p, false, d), srcs := [a.noVecWide] }
  | .wunpin _ a => { srcs := [a.noVecWide] }
  -- a form whose position holds inline constant 0 has no pair there (R248)
  | .winv _ a all => { srcs := [⟨.noVec 0, !all, a⟩] }
  | .rastq _ d a b _ => { dst := some (.v, false, d), srcs := [a.noVecWide, b.vecOnly], runs := b.run 10 }
  | .rayx _ d a b _ _ _ =>
      { dst := some (.v, false, d), srcs := [a.wideIf true, b.vecOnly], runs := d.run 6 ++ b.run 8 }
  | .rayhit _ d _ => { dst := some (.v, false, d), runs := d.run 6 }
  | .srd _ d n => { dst := some (.vs, specialWidth n.toNat == some 64, d) }
  | .swr _ n a => { srcs := [⟨.noVec 3, specialWidth n.toNat == some 64, a⟩] }
  | .mbwait _ d _ _ _ => { dst := some (.s, false, d) }
  | .mbsend _ _ _ => {}
  | .pipedeclDeclare _ d a | .procdeclDeclare _ d a => { dst := some (.s, false, d), srcs := [a.any] }
  | .launch _ d a => { dst := some (.s, false, d), srcs := [a.wideIf true] }
  | .qpush _ _ a h _ _ => { srcs := [⟨.reg, false, a⟩, h.any], runs := a.run 16 }
  | .qpop _ d _ _ h _ => { dst := some (.vs, false, d), srcs := [h.any], runs := d.run 16 }
  | .semsig _ a b _ => { srcs := [a.noVecWide, b.any] }
  | .semwait _ a b _ => { srcs := [a.noVecWide, b.wideIf true] }
  | .procreset _ d a b _ => { dst := some (.s, false, d), srcs := [a.any, b.wideIf true] }
  | .tlbinv _ a b ctx => { srcs := [a.wideIf (!ctx), b.any] }
  | _ => { ok := false }

/-- Is the class of d one that the entry accepts (R247)? -/
def DstKind.accepts (k : DstKind) (d : Dst) : Bool :=
  match k, d with
  | .vs, .vec _ | .vs, .scal _ | .v, .vec _ | .s, .scal _ | .p, .pred _ => true
  | .acc, .file _ | .guard, .file _ | .queue, .file _ | .mb, .file _ | .special, .file _ => true
  | _, _ => false

def Dst.isScalar : Dst → Bool | .scal _ => true | _ => false
def Src.isVec : Src → Bool | .vec _ _ _ => true | _ => false
def Src.isLit : Src → Bool | .lit _ _ => true | _ => false

/-- Number of the register a specifier names, for the pair rule of R252. -/
def Src.regNo : Src → Option Nat | .vec r _ _ | .scal r _ => some r.toNat | _ => none
def Dst.regNo : Dst → Option Nat | .vec r | .scal r => some r.toNat | _ => none
def oddReg (r : Option Nat) : Bool := match r with | some n => n % 2 == 1 | none => false

/-- ILLOPND sub-causes of a destination (R269 step 7). -/
def dstErrs (k : DstKind) (wide : Bool) (d : Dst) : List Nat :=
  (if k.accepts d then [] else [0])
    ++ (match k, d with
        | .acc, .file n | .guard, .file n | .queue, .file n => if n.toNat < 16 then [] else [1]
        | .special, .file n => if (specialWidth n.toNat).isSome then [] else [1]
        | _, _ => [])
    ++ (if wide && oddReg d.regNo then [2] else [])

/-- ILLOPND sub-causes of a source. -/
def srcErrs (u : SrcUse) : List Nat :=
  (match u.kind with
   | .any => []
   | .vec => if u.src.isVec then [] else [0]
   | .noVec n => if u.src.isVec then [n] else []
   | .reg => match u.src with | .vec _ _ _ | .scal _ _ => [] | _ => [0])
    ++ (if u.wide && oddReg u.src.regNo then [2] else [])

/-- A special register that SRD or SWR names without a number in the table (R387); a quad at an address that a 32-bit register gives
(R340). -/
def specialErrs (i : Instr) : List Nat :=
  match i with
  | .srd _ _ n | .swr _ n _ => if (specialWidth n.toNat).isSome then [] else [1]
  | .lds _ _ a _ m | .sts _ _ a _ m | .ldc _ _ a _ m => if m.quad && a.regNo.isSome then [2] else []
  | _ => []

/-- A half with a scalar destination and a vector source (R252, R259). -/
def pairErrs (i : Instr) : List Nat :=
  match i with
  | .pFormPair a b =>
      if (a.op != .nop && a.scalarDst && a.src.isVec) || (b.op != .nop && b.scalarDst && b.src.isVec) then [3] else []
  | _ => []

/-- All ILLOPND sub-causes 0 to 3 of an instruction (R270 step 7). -/
def opndErrs (i : Instr) : List Nat :=
  let g := sig i
  (match g.dst with
   | none => []
   | some (k, w, d) =>
       dstErrs k w d
         ++ (if d.isScalar && !g.vecOk && g.srcs.any (fun u => u.src.isVec) then [3] else []))
    ++ g.srcs.flatMap srcErrs
    ++ (if g.runs.any (fun r => decide (64 < r.1 + r.2)) then [1] else [])
    ++ g.shapes.flatMap (fun r => if r.sub 0 && r.s0.getLsbD 0 then [2] else [])
    ++ specialErrs i ++ pairErrs i

/-- A source whose width the word alone does not tell, or that is a pair in the entry's other forms: a literal there may have a
64-bit payload. CVTF's source is 64 bits wide under a slot with `afmt` f64 (R322); the others are those of R248. -/
def mayBeWide (i : Instr) (x : Src) : Bool :=
  match i with
  | .cvtf _ _ a _ _ _ _ | .winv _ a _ | .tlbinv _ a _ _ => a == x
  | _ => false

/-- Distinct literal indices that the sources name, with the payload each names (R253). -/
def litUses (i : Instr) : List (Nat × BitVec 62 × Bool) :=
  (sig i).srcs.filterMap (fun u => match u.src with | .lit k y => some (k.toNat, y, u.wide || mayBeWide i u.src) | _ => none)

/-- Literal indices 0 to L - 1 with L at most 2 (sub-cause 7). -/
def litIndicesOk (i : Instr) : Bool :=
  let ks := (litUses i).map (·.1)
  ks.all (fun k => decide (k < 2)) && (!ks.contains 1 || ks.contains 0)

/-- y[61:32] of a literal without a 64-bit reader is 0 (R253). -/
def litHighOk (i : Instr) : Bool :=
  (litUses i).all fun u =>
    bitsOf u.2.1 61 32 == 0 || (litUses i).any (fun v => v.1 == u.1 && v.2.2)

/-- Two readers of one literal word hold one payload. -/
def litSame (i : Instr) : Bool :=
  (litUses i).all fun u => (litUses i).all fun v => u.1 != v.1 || u.2.1 == v.2.1

/-- Sources of an instruction with their permutation code legal (R254). -/
def permOk (i : Instr) : Bool :=
  let ok := fun (s : Src) => match s with | .vec _ p _ => decide (p.toNat < 20) | _ => true
  match i with
  | .pFormPair a b => ok a.src && ok b.src
  | _ => (sig i).srcs.all (fun u => ok u.src)

/-- Is a source of a P-form half one of the three classes it may have (R258)? -/
def pairLitOk (i : Instr) : Bool :=
  match i with | .pFormPair a b => !a.src.isLit && !b.src.isLit | _ => true

/-- Sub-cause 5 of ILLINST. -/
def pairingOk (i : Instr) : Bool := match i with | .pFormPair a b => !pairBroken a b | _ => true

end Sys2Proof
end

