-- ==== Sys2Proof/WellFormed.lean ====
section
/-! DEFINITION. The well-formed instructions: those a word of memory can hold and that pass every check of decoding
(R270 steps 1 to 7). The steps of other agents are not in memory, so none of them is well-formed. -/

namespace Sys2Proof

/-- The field values, literals and shape records are legal (ILLINST sub-causes 3, 6 and 7). -/
def fieldsOk (i : Instr) : Bool :=
  (sig i).ok && (sig i).shapes.all (fun r => r.ok) && litIndicesOk i && litHighOk i && permOk i && pairLitOk i

/-- A well-formed instruction. -/
def WF (i : Instr) : Bool :=
  fieldsOk i && litSame i && pairingOk i && (opndErrs i).isEmpty

end Sys2Proof
end

