-- ==== Sys2Proof/Decode.lean ====
section
/-! DEFINITION. Instruction words (08 R242-R270): the fields of a word, the decoder, total on any words and rejecting by
cause and sub-cause, and after it the encoder, from the same tables. -/

namespace Sys2Proof

/-- The two pools of R204. -/
inductive Pool where
  | main | twill
  deriving DecidableEq, Repr

abbrev Field := BitVec 14

/-- The fields of an F-form word (R245) with the payloads of its literal words and its shape records. -/
structure Raw where
  op : BitVec 8
  pn : Bool
  pi : BitVec 3
  dst : BitVec 8
  sa : Field
  sb : Field
  sc : Field
  lits : List (BitVec 62) := []
  recs : List Shape := []
  deriving DecidableEq, Repr

/-- The low k bits of a field. -/
abbrev low {n : Nat} (k : Nat) (x : BitVec n) : BitVec k := x.extractLsb' 0 k
abbrev zext14 {n : Nat} (x : BitVec n) : Field := x.setWidth 14
def flag (b : Bool) : Field := (BitVec.ofBool b).setWidth 14
def offHi (o : BitVec 28) : Field := o.extractLsb' 14 14
def offLo (o : BitVec 28) : Field := o.extractLsb' 0 14

/-- Codes of R223. -/
def Rnd.code : Rnd → BitVec 3
  | .rne => 0 | .rtz => 1 | .rup => 2 | .rdn => 3
def Rnd.ofCode (b : BitVec 3) : Option Rnd :=
  match b.toNat with
  | 0 => some .rne | 1 => some .rtz | 2 => some .rup | 3 => some .rdn
  | _ => none

/-- Codes of R290. -/
def VoteMode.code : VoteMode → BitVec 2
  | .any => 0 | .all => 1 | .ballot => 2
def VoteMode.ofCode (b : BitVec 2) : Option VoteMode :=
  match b.toNat with
  | 0 => some .any | 1 => some .all | 2 => some .ballot
  | _ => none

/-- Codes of R290. -/
def ShflMode.code : ShflMode → BitVec 2
  | .idx => 0 | .up => 1 | .down => 2 | .xor => 3
def ShflMode.ofCode (b : BitVec 2) : Option ShflMode :=
  match b.toNat with
  | 0 => some .idx | 1 => some .up | 2 => some .down | _ => some .xor

/-- Codes of R295. -/
def CmpTy.code : CmpTy → BitVec 4
  | .i32 => 0 | .n32 => 1 | .i64 => 2 | .n64 => 3
  | .f32 => 4 | .f16 => 5 | .bf16 => 6
def CmpTy.ofCode (b : BitVec 4) : Option CmpTy :=
  match b.toNat with
  | 0 => some .i32 | 1 => some .n32 | 2 => some .i64 | 3 => some .n64
  | 4 => some .f32 | 5 => some .f16 | 6 => some .bf16
  | _ => none

/-- Codes of R295. -/
def Cmp.code : Cmp → BitVec 4
  | .eq => 0 | .ne => 1 | .lt => 2 | .le => 3
  | .gt => 4 | .ge => 5 | .num => 6 | .nan => 7
def Cmp.ofCode (b : BitVec 4) : Option Cmp :=
  match b.toNat with
  | 0 => some .eq | 1 => some .ne | 2 => some .lt | 3 => some .le
  | 4 => some .gt | 5 => some .ge | 6 => some .num | 7 => some .nan
  | _ => none

/-- Codes of R313. -/
def FTy.code : FTy → BitVec 2
  | .f32 => 0 | .f16 => 1 | .bf16 => 2
def FTy.ofCode (b : BitVec 2) : Option FTy :=
  match b.toNat with
  | 0 => some .f32 | 1 => some .f16 | 2 => some .bf16
  | _ => none

/-- Codes of R323. -/
def ITy.code : ITy → BitVec 3
  | .i32 => 0 | .n32 => 1 | .i64 => 2 | .n64 => 3
  | .i8 => 4 | .q4 => 5
def ITy.ofCode (b : BitVec 3) : Option ITy :=
  match b.toNat with
  | 0 => some .i32 | 1 => some .n32 | 2 => some .i64 | 3 => some .n64
  | 4 => some .i8 | 5 => some .q4
  | _ => none

/-- Codes of R329. -/
def ScaleForm.code : ScaleForm → BitVec 2
  | .exp => 0 | .e8m0 => 1 | .sc10 => 2
def ScaleForm.ofCode (b : BitVec 2) : Option ScaleForm :=
  match b.toNat with
  | 0 => some .exp | 1 => some .e8m0 | 2 => some .sc10
  | _ => none

/-- Codes of R355. -/
def EngClass.code : EngClass → BitVec 2
  | .copy => 0 | .matrix => 1 | .drain => 2 | .peer => 3
def EngClass.ofCode (b : BitVec 2) : Option EngClass :=
  match b.toNat with
  | 0 => some .copy | 1 => some .matrix | 2 => some .drain | _ => some .peer

/-- Codes of R440. -/
def Cull.code : Cull → BitVec 2
  | .none => 0 | .back => 1 | .front => 2
def Cull.ofCode (b : BitVec 2) : Option Cull :=
  match b.toNat with
  | 0 => some .none | 1 => some .back | 2 => some .front
  | _ => none

/-- Codes of R341. -/
def AOp.code : AOp → BitVec 4
  | .add => 0 | .sub => 1 | .min => 2 | .max => 3
  | .and => 4 | .or => 5 | .xor => 6 | .exch => 7
  | .cas => 8 | .inc => 9 | .dec => 10
def AOp.ofCode (b : BitVec 4) : Option AOp :=
  match b.toNat with
  | 0 => some .add | 1 => some .sub | 2 => some .min | 3 => some .max
  | 4 => some .and | 5 => some .or | 6 => some .xor | 7 => some .exch
  | 8 => some .cas | 9 => some .inc | 10 => some .dec
  | _ => none

/-- Codes of R341. -/
def ATy.code : ATy → BitVec 3
  | .i32 => 0 | .n32 => 1 | .i64 => 2 | .n64 => 3
  | .f32 => 4 | .f16x2 => 5 | .bf16x2 => 6
def ATy.ofCode (b : BitVec 3) : Option ATy :=
  match b.toNat with
  | 0 => some .i32 | 1 => some .n32 | 2 => some .i64 | 3 => some .n64
  | 4 => some .f32 | 5 => some .f16x2 | 6 => some .bf16x2
  | _ => none

/-- Codes of R260. -/
def POp.code : POp → BitVec 7
  | .nop => 0 | .mov => 1 | .iadd => 2 | .isub => 3
  | .imul => 4 | .imin => 5 | .imax => 6 | .and => 7
  | .or => 8 | .xor => 9 | .andn => 10 | .shl => 11
  | .shr => 12 | .sar => 13 | .fadd => 14 | .fsub => 15
  | .fmul => 16 | .fmin => 17 | .fmax => 18 | .hadd2 => 19
  | .hmul2 => 20 | .badd2 => 21
def POp.ofCode (b : BitVec 7) : Option POp :=
  match b.toNat with
  | 0 => some .nop | 1 => some .mov | 2 => some .iadd | 3 => some .isub
  | 4 => some .imul | 5 => some .imin | 6 => some .imax | 7 => some .and
  | 8 => some .or | 9 => some .xor | 10 => some .andn | 11 => some .shl
  | 12 => some .shr | 13 => some .sar | 14 => some .fadd | 15 => some .fsub
  | 16 => some .fmul | 17 => some .fmin | 18 => some .fmax | 19 => some .hadd2
  | 20 => some .hmul2 | 21 => some .badd2
  | _ => none

/-- Format codes 1 to 5 of R331. -/
def SrndFmt.code : SrndFmt → BitVec 4 | .f16 => 1 | .bf16 => 2 | .f8e4 => 3 | .f8e5 => 4 | .f4e2 => 5
def SrndFmt.ofCode (b : BitVec 4) : Option SrndFmt :=
  match b.toNat with
  | 1 => some .f16 | 2 => some .bf16 | 3 => some .f8e4 | 4 => some .f8e5 | 5 => some .f4e2
  | _ => none

/-- A source specifier (R249). -/
def Src.bits : Src → Field
  | .vec r perm ea => 0b00#2 ++ r ++ perm ++ BitVec.ofBool ea
  | .scal r ea => 0b01#2 ++ r ++ 0#5 ++ BitVec.ofBool ea
  | .const c => 0b10#2 ++ c ++ 0#6
  | .lit k _ => 0b11#2 ++ k ++ 0#6

/-- The source that a specifier names, with the payloads of the literal words (R249, R253). -/
def Src.ofBits (b : Field) (lits : List (BitVec 62)) : Src :=
  let k := b.extractLsb' 6 6
  match bitsOf b 13 12 with
  | 0 => .vec k (b.extractLsb' 1 5) (b.getLsbD 0)
  | 1 => .scal k (b.getLsbD 0)
  | 2 => .const k
  | _ => .lit k (lits.getD k.toNat 0)

/-- A destination specifier (R247). -/
def Dst.bits : Dst → BitVec 8
  | .vec r => 0b00#2 ++ r
  | .scal r => 0b01#2 ++ r
  | .pred p => 0b10#2 ++ 0#3 ++ p
  | .file n => 0b11#2 ++ n

def Dst.ofBits (b : BitVec 8) : Dst :=
  let k := b.extractLsb' 0 6
  match bitsOf b 7 6 with
  | 0 => .vec k
  | 1 => .scal k
  | 2 => .pred (b.extractLsb' 0 3)
  | _ => .file k

/-- A predicate field `pq` (R278). -/
def Pred.field (p : Pred) : Field := 0#10 ++ BitVec.ofBool p.neg ++ p.idx
def Pred.ofField (b : Field) : Pred := ⟨b.getLsbD 3, b.extractLsb' 0 3⟩

/-- The integer modifier (R277). -/
def imBits (m : IntMod) : Field := 0#11 ++ BitVec.ofBool m.q ++ BitVec.ofBool m.sat ++ BitVec.ofBool m.u
def imOf (b : Field) : IntMod := ⟨b.getLsbD 2, b.getLsbD 1, b.getLsbD 0⟩

/-- The float modifier (R309). -/
def FMod.bits (m : FMod) : Field := 0#10 ++ BitVec.ofBool m.sat ++ m.rnd.code
def FMod.ofBits (b : Field) : Option FMod := (Rnd.ofCode (low 3 b)).map (fun r => ⟨b.getLsbD 3, r⟩)

/-- The width modifier of CVTW (R306). -/
def CvtwMod.bits (m : CvtwMod) : Field :=
  0#8 ++ BitVec.ofBool m.sat ++ BitVec.ofBool m.du ++ BitVec.ofBool m.dw ++ BitVec.ofBool m.su ++ m.sw
def CvtwMod.ofBits (b : Field) : CvtwMod :=
  ⟨b.getLsbD 5, b.getLsbD 4, b.getLsbD 3, b.getLsbD 2, b.extractLsb' 0 2⟩

/-- The modifier of CVTI (R323). -/
def CvtiMod.bits (m : CvtiMod) : Field :=
  0#3 ++ m.rnd.code ++ BitVec.ofBool m.toFloat ++ m.it.code ++ m.ft.code ++ BitVec.ofBool m.sat ++ 0#1
def CvtiMod.ofBits (b : Field) : Option CvtiMod := do
  let rnd ← Rnd.ofCode (b.extractLsb' 8 3)
  let it ← ITy.ofCode (b.extractLsb' 4 3)
  let ft ← FTy.ofCode (b.extractLsb' 2 2)
  some ⟨rnd, b.getLsbD 7, it, ft, b.getLsbD 1⟩

/-- The memory modifier (R332). -/
def MemMod.bits (m : MemMod) : Field :=
  m.ord ++ m.sco ++ m.hint ++ m.size ++ BitVec.ofBool m.sx ++ BitVec.ofBool m.w ++ 0#2
def MemMod.ofBits (b : Field) : MemMod :=
  ⟨b.extractLsb' 11 3, b.extractLsb' 8 3, b.extractLsb' 6 2, b.extractLsb' 4 2, b.getLsbD 3, b.getLsbD 2⟩

/-- The atomic modifier (R341). -/
def AtomMod.bits (m : AtomMod) : Field := m.ord ++ m.sco ++ m.op.code ++ m.ty.code ++ 0#1
def AtomMod.ofBits (b : Field) : Option AtomMod := do
  let op ← AOp.ofCode (b.extractLsb' 4 4)
  let ty ← ATy.ofCode (b.extractLsb' 1 3)
  some ⟨b.extractLsb' 11 3, b.extractLsb' 8 3, op, ty⟩

namespace Raw
def p (r : Raw) : Pred := ⟨r.pn, r.pi⟩
def a (r : Raw) : Src := Src.ofBits r.sa r.lits
def b (r : Raw) : Src := Src.ofBits r.sb r.lits
def c (r : Raw) : Src := Src.ofBits r.sc r.lits
def d (r : Raw) : Dst := Dst.ofBits r.dst
def off (r : Raw) : BitVec 28 := r.sb ++ r.sc
def ord (r : Raw) : BitVec 3 := r.sc.extractLsb' 11 3
def sco (r : Raw) : BitVec 3 := r.sc.extractLsb' 8 3
end Raw

/-- A word's fields without literal words. -/
def raw (op : BitVec 8) (p : Pred) (dst : BitVec 8) (sa sb sc : Field) (recs : List Shape := []) : Raw :=
  { op, pn := p.neg, pi := p.idx, dst, sa, sb, sc, recs }

/-- The fields of an instruction's word (R266 and the encoding tables of chapters 09 to 13). A pair of halves, and a step
of another agent, has no F-form word. -/
def toRaw (i : Instr) : Raw :=
  match i with
  | .nop p => raw 0x01 p 0 0 0 0
  | .bra p off => raw 0x02 p 0 0 (offHi off) (offLo off)
  | .jmps p a => raw 0x03 p 0 a.bits 0 0
  | .call p k off => raw 0x04 p 0 (zext14 k) (offHi off) (offLo off)
  | .calls p a k => raw 0x05 p 0 a.bits (zext14 k) 0
  | .ret p a k => raw 0x06 p 0 a.bits (zext14 k) 0
  | .reconv p off => raw 0x07 p 0 0 (offHi off) (offLo off)
  | .exit p => raw 0x08 p 0 0 0 0
  | .fork p d a off => raw 0x09 p d.bits a.bits (offHi off) (offLo off)
  | .fend p => raw 0x0A p 0 0 0 0
  | .yield p => raw 0x0B p 0 0 0 0
  | .brkpt p code => raw 0x0C p 0 (zext14 code) 0 0
  | .gbar p => raw 0x0D p 0 0 0 0
  | .vote p d a m => raw 0x0E p d.bits a.bits (zext14 m.code) 0
  | .rfl p d a q => raw 0x0F p d.bits a.bits (imBits ⟨q, false, false⟩) 0
  | .shfl p d a b q pd m => raw 0x10 p d.bits a.bits b.bits (0#8 ++ BitVec.ofBool q ++ pd ++ m.code)
  | .pset p d a b ty c => raw 0x11 p d.bits a.bits b.bits (0#6 ++ ty.code ++ c.code)
  | .pand p d a b => raw 0x12 p d.bits a.field b.field 0
  | .por p d a b => raw 0x13 p d.bits a.field b.field 0
  | .pxor p d a b => raw 0x14 p d.bits a.field b.field 0
  | .pnot p d a => raw 0x15 p d.bits a.field 0 0
  | .pmov p (.move d a) => raw 0x16 p d.bits a.field 0 0
  | .pmov p (.pack d) => raw 0x16 p d.bits 0 1 0
  | .pmov p (.unpack a) => raw 0x16 p 0 a.bits 2 0
  | .iadd p d a b m => raw 0x20 p d.bits a.bits b.bits (imBits m)
  | .isub p d a b m => raw 0x21 p d.bits a.bits b.bits (imBits m)
  | .imul p d a b => raw 0x22 p d.bits a.bits b.bits 0
  | .imulh p d a b m => raw 0x23 p d.bits a.bits b.bits (imBits m)
  | .imad p d a b c => raw 0x24 p d.bits a.bits b.bits c.bits
  | .imadw p d a b m => raw 0x25 p d.bits a.bits b.bits (imBits m)
  | .iabs p d a m => raw 0x26 p d.bits a.bits (imBits m) 0
  | .ineg p d a m => raw 0x27 p d.bits a.bits (imBits m) 0
  | .imin p d a b m => raw 0x28 p d.bits a.bits b.bits (imBits m)
  | .imax p d a b m => raw 0x29 p d.bits a.bits b.bits (imBits m)
  | .isad p d a b c => raw 0x2A p d.bits a.bits b.bits c.bits
  | .and p d a b m => raw 0x2B p d.bits a.bits b.bits (imBits m)
  | .or p d a b m => raw 0x2C p d.bits a.bits b.bits (imBits m)
  | .xor p d a b m => raw 0x2D p d.bits a.bits b.bits (imBits m)
  | .andn p d a b m => raw 0x2E p d.bits a.bits b.bits (imBits m)
  | .not p d a m => raw 0x2F p d.bits a.bits (imBits m) 0
  | .shl p d a b m => raw 0x30 p d.bits a.bits b.bits (imBits m)
  | .shr p d a b m => raw 0x31 p d.bits a.bits b.bits (imBits m)
  | .sar p d a b m => raw 0x32 p d.bits a.bits b.bits (imBits m)
  | .rot p d a b m => raw 0x33 p d.bits a.bits b.bits (imBits m)
  | .funnel p d a b c => raw 0x34 p d.bits a.bits b.bits c.bits
  | .bfe p d a b m => raw 0x35 p d.bits a.bits b.bits (imBits m)
  | .bfi p d a b c => raw 0x36 p d.bits a.bits b.bits c.bits
  | .popc p d a m => raw 0x37 p d.bits a.bits (imBits m) 0
  | .clz p d a m => raw 0x38 p d.bits a.bits (imBits m) 0
  | .brev p d a m => raw 0x39 p d.bits a.bits (imBits m) 0
  | .sel p d a b c q => raw 0x3A p d.bits a.bits b.bits (0#9 ++ BitVec.ofBool q ++ BitVec.ofBool c.neg ++ c.idx)
  | .mov p d a m => raw 0x3B p d.bits a.bits (imBits m) 0
  | .movi p d a b => raw 0x3C p d.bits a.bits b.bits 0
  | .lea p d a b sh u => raw 0x3D p d.bits a.bits b.bits (0#10 ++ BitVec.ofBool u ++ sh)
  | .iadd64 p d a b sub => raw 0x3E p d.bits a.bits b.bits (flag sub)
  | .cvtw p d a m => raw 0x3F p d.bits a.bits m.bits 0
  | .fadd p d a b m => raw 0x40 p d.bits a.bits b.bits m.bits
  | .fsub p d a b m => raw 0x41 p d.bits a.bits b.bits m.bits
  | .fmul p d a b m => raw 0x42 p d.bits a.bits b.bits m.bits
  | .ffma p d a b c => raw 0x43 p d.bits a.bits b.bits c.bits
  | .fmin p d a b np => raw 0x44 p d.bits a.bits b.bits (flag np)
  | .fmax p d a b np => raw 0x45 p d.bits a.bits b.bits (flag np)
  | .fclass p d a ty => raw 0x46 p d.bits a.bits (zext14 ty.code) 0
  | .frnd p d a rd => raw 0x47 p d.bits a.bits (zext14 rd.code) 0
  | .ffrac p d a => raw 0x48 p d.bits a.bits 0 0
  | .frcp p d a => raw 0x49 p d.bits a.bits 0 0
  | .frsq p d a => raw 0x4A p d.bits a.bits 0 0
  | .fsqrt p d a => raw 0x4B p d.bits a.bits 0 0
  | .fexp2 p d a => raw 0x4C p d.bits a.bits 0 0
  | .flog2 p d a => raw 0x4D p d.bits a.bits 0 0
  | .fsin p d a => raw 0x4E p d.bits a.bits 0 0
  | .fcos p d a => raw 0x4F p d.bits a.bits 0 0
  | .ftanh p d a => raw 0x50 p d.bits a.bits 0 0
  | .hadd2 p d a b m => raw 0x51 p d.bits a.bits b.bits m.bits
  | .hmul2 p d a b m => raw 0x52 p d.bits a.bits b.bits m.bits
  | .hfma2 p d a b c => raw 0x53 p d.bits a.bits b.bits c.bits
  | .badd2 p d a b m => raw 0x54 p d.bits a.bits b.bits m.bits
  | .bfma2 p d a b c => raw 0x55 p d.bits a.bits b.bits c.bits
  | .cvtf p d a c slot si di => raw 0x60 p d.bits a.bits (0#4 ++ di ++ si ++ 0#1 ++ slot) c.bits
  | .cvti p d a m => raw 0x61 p d.bits a.bits m.bits 0
  | .pack p d a slot => raw 0x62 p d.bits a.bits (zext14 slot) 0
  | .unpack p d a slot => raw 0x63 p d.bits a.bits (zext14 slot) 0
  | .dp4i8 p d a b x y => raw 0x64 p d.bits a.bits b.bits (0#12 ++ BitVec.ofBool y ++ BitVec.ofBool x)
  | .dp4f8 p d a b x y => raw 0x66 p d.bits a.bits b.bits (0#12 ++ BitVec.ofBool y ++ BitVec.ofBool x)
  | .dp8q4 p d a b => raw 0x65 p d.bits a.bits b.bits 0
  | .dp2f16 p d a b bf => raw 0x67 p d.bits a.bits b.bits (flag bf)
  | .scale p d a b sf m => raw 0x68 p d.bits a.bits b.bits (0#8 ++ sf.code ++ BitVec.ofBool m.sat ++ m.rnd.code)
  | .rng p d a => raw 0x69 p d.bits a.bits 0 0
  | .srnd p d a b di sat f => raw 0x6A p d.bits a.bits b.bits (0#6 ++ di ++ BitVec.ofBool sat ++ f.code)
  | .ld p d a b m => raw 0x80 p d.bits a.bits b.bits m.bits
  | .st p d a b m => raw 0x81 p d.bits a.bits b.bits m.bits
  | .lds p d a b m => raw 0x82 p d.bits a.bits b.bits m.bits
  | .sts p d a b m => raw 0x83 p d.bits a.bits b.bits m.bits
  | .ldc p d a b m => raw 0x84 p d.bits a.bits b.bits m.bits
  | .pref p a b l2 => raw 0x85 p 0 a.bits b.bits (0#7 ++ BitVec.ofBool l2 ++ 0#6)
  | .stashmap p a b n => raw 0x86 p 0 a.bits b.bits (zext14 n)
  | .stashwb p n a b => raw 0x87 p 0 (zext14 n) a.bits b.bits
  | .stashinv p n a b => raw 0x88 p 0 (zext14 n) a.bits b.bits
  | .tileq p (.deff t e) => raw 0x89 p 0 t.bits e.bits 0
  | .tileq p (.rel t e) => raw 0x89 p 0 t.bits e.bits 1
  | .tileq p (.rd d t e) => raw 0x89 p d.bits t.bits e.bits 2
  | .tilewait p d a => raw 0x8A p d.bits a.bits 0 0
  | .atom p d a b m => raw 0xA0 p d.bits a.bits b.bits m.bits
  | .atomsc p d a b op ty => raw 0xA1 p d.bits a.bits b.bits (AtomMod.bits ⟨0, 0, op, ty⟩)
  | .red p a b m => raw 0xA2 p 0 a.bits b.bits m.bits
  | .fence p ord sco => raw 0xA3 p 0 0 0 (ord ++ sco ++ 0#8)
  | .bar p n => raw 0xA4 p 0 (zext14 n) 0 0
  | .wbar p n => raw 0xA5 p 0 (zext14 n) 0 0
  | .boinit p a b ord sco => raw 0xA6 p 0 a.bits b.bits (ord ++ sco ++ 0#8)
  | .boarr p a b ord sco e => raw 0xA7 p 0 a.bits b.bits (ord ++ sco ++ 0#7 ++ BitVec.ofBool e)
  | .bowait p d a sco => raw 0xA8 p d.bits a.bits 0 (0#3 ++ sco ++ 0#8)
  | .sdrain p => raw 0xA9 p 0 0 0 0
  | .waitcnt p c n => raw 0xAA p 0 (zext14 c.code) (zext14 n) 0
  | .procdone p i => raw 0xAB p 0 i.bits 0 0
  | .procfail p i c => raw 0xAC p 0 i.bits c.bits 0
  | .procq p d sr nb => raw 0xAD p d.bits (0#7 ++ BitVec.ofBool nb ++ sr) 0 0
  | .cpygo p a => raw 0xAE p 0 a.bits 0 0
  | .cpyq p d => raw 0xAF p d.bits 0 0 0
  | .guardset p d a => raw 0xB0 p d.bits a.field 0 0
  | .guardclr p d => raw 0xB1 p d.bits 0 0 0
  | .mma16 p d a b c => raw 0xC0 p d.bits a.bits b.bits c.bits
  | .mma16sp p d a b c => raw 0xC1 p d.bits a.bits b.bits c.bits
  | .gangset p a => raw 0xC2 p 0 a.bits 0 0
  | .mtile p d ta tb sc g ge z sco rel ra rb =>
      raw 0xC3 p d.bits (0#2 ++ tb ++ ta) sc.bits (0#4 ++ BitVec.ofBool rel ++ sco ++ BitVec.ofBool z ++ BitVec.ofBool ge ++ g) [ra, rb]
  | .mtilesp p d ta tb sc g ge z sco rel ra rb =>
      raw 0xC4 p d.bits (0#2 ++ tb ++ ta) sc.bits (0#4 ++ BitVec.ofBool rel ++ sco ++ BitVec.ofBool z ++ BitVec.ofBool ge ++ g) [ra, rb]
  | .accz p d => raw 0xC5 p d.bits 0 0 0
  | .accld p d t rd => raw 0xC6 p d.bits (zext14 t) 0 0 [rd]
  | .accdrain p d add z g ge sco rel rd =>
      raw 0xC7 p d.bits (0#3 ++ BitVec.ofBool rel ++ sco ++ BitVec.ofBool ge ++ g ++ BitVec.ofBool z ++ BitVec.ofBool add) 0 0 [rd]
  | .sample p d a b c => raw 0xC8 p d.bits a.bits b.bits c.bits
  | .sampleg p d a b c => raw 0xC9 p d.bits a.bits b.bits c.bits
  | .fetch p d a b c => raw 0xCA p d.bits a.bits b.bits c.bits
  | .nsample p d a b c => raw 0xCB p d.bits a.bits b.bits c.bits
  | .wpin p d a => raw 0xCC p d.bits a.bits 0 0
  | .wunpin p a => raw 0xCD p 0 a.bits 0 0
  | .winv p a all => raw 0xCE p 0 a.bits (flag all) 0
  | .rastq p d a b cull => raw 0xCF p d.bits a.bits b.bits (zext14 cull.code)
  | .rayx p d a b fst ah cull =>
      raw 0xD0 p d.bits a.bits b.bits (0#9 ++ cull.code ++ BitVec.ofBool ah ++ 0#1 ++ BitVec.ofBool fst)
  | .rayhit p d acc => raw 0xD1 p d.bits (flag acc) 0 0
  | .repack p => raw 0xD2 p 0 0 0 0
  | .srd p d n => raw 0xE0 p d.bits (zext14 n) 0 0
  | .swr p n a => raw 0xE1 p (Dst.bits (.file n)) a.bits 0 0
  | .trap p code => raw 0xE2 p 0 (zext14 code) 0 0
  | .tret p skip => raw 0xE3 p 0 (flag skip) 0 0
  | .teamkill p => raw 0xE4 p 0 0 0 0
  | .mbwait p d mb nb pd => raw 0xE5 p d.bits (0#7 ++ BitVec.ofBool nb ++ mb) (zext14 pd) 0
  | .mbsend p mb sa => raw 0xE6 p (Dst.bits (.file mb)) (zext14 sa) 0 0
  | .pipedeclDeclare p d a => raw 0xE7 p d.bits a.bits 0 0
  | .qpush p q a h nb pd => raw 0xE8 p (Dst.bits (.file (q.setWidth 6))) a.bits h.bits (0#10 ++ pd ++ BitVec.ofBool nb)
  | .qpop p d q nb h pd => raw 0xE9 p d.bits (0#9 ++ BitVec.ofBool nb ++ q) h.bits (zext14 pd)
  | .launch p d a => raw 0xEA p d.bits a.bits 0 0
  | .semsig p a b sco => raw 0xEB p 0 a.bits b.bits (0#3 ++ sco ++ 0#8)
  | .semwait p a b sco => raw 0xEC p 0 a.bits b.bits (0#3 ++ sco ++ 0#8)
  | .procdeclDeclare p d a => raw 0xED p d.bits a.bits 0 0
  | .procreset p d a b all => raw 0xEE p d.bits a.bits b.bits (flag all)
  | .tlbinv p a b ctx => raw 0xEF p 0 a.bits b.bits (flag ctx)
  | _ => raw 0 ⟨false, 0⟩ 0 0 0 0

/-- The instruction that a word's fields give; none when a field value is illegal (R269 sub-cause 3). -/
def build (r : Raw) : Option Instr :=
  let p := r.p
  match r.op.toNat with
  | 0x01 => some (.nop p)
  | 0x02 => some (.bra p r.off)
  | 0x03 => some (.jmps p r.a)
  | 0x04 => if bitsOf r.sa 4 0 ≤ 16 then some (.call p (low 5 r.sa) r.off) else none
  | 0x05 => if bitsOf r.sb 4 0 ≤ 16 then some (.calls p r.a (low 5 r.sb)) else none
  | 0x06 => if bitsOf r.sb 4 0 ≤ 16 then some (.ret p r.a (low 5 r.sb)) else none
  | 0x07 => some (.reconv p r.off)
  | 0x08 => some (.exit p)
  | 0x09 => some (.fork p r.d r.a r.off)
  | 0x0A => some (.fend p)
  | 0x0B => some (.yield p)
  | 0x0C => some (.brkpt p (low 12 r.sa))
  | 0x0D => some (.gbar p)
  | 0x0E => (VoteMode.ofCode (low 2 r.sb)).map (.vote p r.d r.a)
  | 0x0F => some (.rfl p r.d r.a (r.sb.getLsbD 2))
  | 0x10 => (ShflMode.ofCode (low 2 r.sc)).map (.shfl p r.d r.a r.b (r.sc.getLsbD 5) (r.sc.extractLsb' 2 3))
  | 0x11 => do
      let ty ← CmpTy.ofCode (r.sc.extractLsb' 4 4)
      let c ← Cmp.ofCode (low 4 r.sc)
      some (.pset p r.d r.a r.b ty c)
  | 0x12 => some (.pand p r.d (Pred.ofField r.sa) (Pred.ofField r.sb))
  | 0x13 => some (.por p r.d (Pred.ofField r.sa) (Pred.ofField r.sb))
  | 0x14 => some (.pxor p r.d (Pred.ofField r.sa) (Pred.ofField r.sb))
  | 0x15 => some (.pnot p r.d (Pred.ofField r.sa))
  | 0x16 => match bitsOf r.sb 1 0 with
      | 0 => some (.pmov p (.move r.d (Pred.ofField r.sa)))
      | 1 => some (.pmov p (.pack r.d))
      | 2 => some (.pmov p (.unpack r.a))
      | _ => none
  | 0x20 => some (.iadd p r.d r.a r.b (imOf r.sc))
  | 0x21 => some (.isub p r.d r.a r.b (imOf r.sc))
  | 0x22 => some (.imul p r.d r.a r.b)
  | 0x23 => some (.imulh p r.d r.a r.b (imOf r.sc))
  | 0x24 => some (.imad p r.d r.a r.b r.c)
  | 0x25 => some (.imadw p r.d r.a r.b (imOf r.sc))
  | 0x26 => some (.iabs p r.d r.a (imOf r.sb))
  | 0x27 => some (.ineg p r.d r.a (imOf r.sb))
  | 0x28 => some (.imin p r.d r.a r.b (imOf r.sc))
  | 0x29 => some (.imax p r.d r.a r.b (imOf r.sc))
  | 0x2A => some (.isad p r.d r.a r.b r.c)
  | 0x2B => some (.and p r.d r.a r.b (imOf r.sc))
  | 0x2C => some (.or p r.d r.a r.b (imOf r.sc))
  | 0x2D => some (.xor p r.d r.a r.b (imOf r.sc))
  | 0x2E => some (.andn p r.d r.a r.b (imOf r.sc))
  | 0x2F => some (.not p r.d r.a (imOf r.sb))
  | 0x30 => some (.shl p r.d r.a r.b (imOf r.sc))
  | 0x31 => some (.shr p r.d r.a r.b (imOf r.sc))
  | 0x32 => some (.sar p r.d r.a r.b (imOf r.sc))
  | 0x33 => some (.rot p r.d r.a r.b (imOf r.sc))
  | 0x34 => some (.funnel p r.d r.a r.b r.c)
  | 0x35 => some (.bfe p r.d r.a r.b (imOf r.sc))
  | 0x36 => some (.bfi p r.d r.a r.b r.c)
  | 0x37 => some (.popc p r.d r.a (imOf r.sb))
  | 0x38 => some (.clz p r.d r.a (imOf r.sb))
  | 0x39 => some (.brev p r.d r.a (imOf r.sb))
  | 0x3A => some (.sel p r.d r.a r.b (Pred.ofField r.sc) (r.sc.getLsbD 4))
  | 0x3B => some (.mov p r.d r.a (imOf r.sb))
  | 0x3C => some (.movi p r.d r.a r.b)
  | 0x3D => some (.lea p r.d r.a r.b (low 3 r.sc) (r.sc.getLsbD 3))
  | 0x3E => some (.iadd64 p r.d r.a r.b (r.sc.getLsbD 0))
  | 0x3F => some (.cvtw p r.d r.a (CvtwMod.ofBits r.sb))
  | 0x40 => (FMod.ofBits r.sc).map (.fadd p r.d r.a r.b)
  | 0x41 => (FMod.ofBits r.sc).map (.fsub p r.d r.a r.b)
  | 0x42 => (FMod.ofBits r.sc).map (.fmul p r.d r.a r.b)
  | 0x43 => some (.ffma p r.d r.a r.b r.c)
  | 0x44 => some (.fmin p r.d r.a r.b (r.sc.getLsbD 0))
  | 0x45 => some (.fmax p r.d r.a r.b (r.sc.getLsbD 0))
  | 0x46 => (FTy.ofCode (low 2 r.sb)).map (.fclass p r.d r.a)
  | 0x47 => (Rnd.ofCode (low 3 r.sb)).map (.frnd p r.d r.a)
  | 0x48 => some (.ffrac p r.d r.a)
  | 0x49 => some (.frcp p r.d r.a)
  | 0x4A => some (.frsq p r.d r.a)
  | 0x4B => some (.fsqrt p r.d r.a)
  | 0x4C => some (.fexp2 p r.d r.a)
  | 0x4D => some (.flog2 p r.d r.a)
  | 0x4E => some (.fsin p r.d r.a)
  | 0x4F => some (.fcos p r.d r.a)
  | 0x50 => some (.ftanh p r.d r.a)
  | 0x51 => (FMod.ofBits r.sc).map (.hadd2 p r.d r.a r.b)
  | 0x52 => (FMod.ofBits r.sc).map (.hmul2 p r.d r.a r.b)
  | 0x53 => some (.hfma2 p r.d r.a r.b r.c)
  | 0x54 => (FMod.ofBits r.sc).map (.badd2 p r.d r.a r.b)
  | 0x55 => some (.bfma2 p r.d r.a r.b r.c)
  | 0x60 => some (.cvtf p r.d r.a r.c (low 3 r.sb) (r.sb.extractLsb' 4 3) (r.sb.extractLsb' 7 3))
  | 0x61 => (CvtiMod.ofBits r.sb).map (.cvti p r.d r.a)
  | 0x62 => some (.pack p r.d r.a (low 3 r.sb))
  | 0x63 => some (.unpack p r.d r.a (low 3 r.sb))
  | 0x64 => some (.dp4i8 p r.d r.a r.b (r.sc.getLsbD 0) (r.sc.getLsbD 1))
  | 0x66 => some (.dp4f8 p r.d r.a r.b (r.sc.getLsbD 0) (r.sc.getLsbD 1))
  | 0x65 => some (.dp8q4 p r.d r.a r.b)
  | 0x67 => some (.dp2f16 p r.d r.a r.b (r.sc.getLsbD 0))
  | 0x68 => do
      let sf ← ScaleForm.ofCode (r.sc.extractLsb' 4 2)
      let m ← FMod.ofBits r.sc
      some (.scale p r.d r.a r.b sf m)
  | 0x69 => some (.rng p r.d r.a)
  | 0x6A => (SrndFmt.ofCode (low 4 r.sc)).map (.srnd p r.d r.a r.b (r.sc.extractLsb' 5 3) (r.sc.getLsbD 4))
  | 0x80 => some (.ld p r.d r.a r.b (MemMod.ofBits r.sc))
  | 0x81 => some (.st p r.d r.a r.b (MemMod.ofBits r.sc))
  | 0x82 => some (.lds p r.d r.a r.b (MemMod.ofBits r.sc))
  | 0x83 => some (.sts p r.d r.a r.b (MemMod.ofBits r.sc))
  | 0x84 => some (.ldc p r.d r.a r.b (MemMod.ofBits r.sc))
  | 0x85 => some (.pref p r.a r.b (r.sc.getLsbD 6))
  | 0x86 => some (.stashmap p r.a r.b (low 4 r.sc))
  | 0x87 => some (.stashwb p (low 4 r.sa) r.b r.c)
  | 0x88 => some (.stashinv p (low 4 r.sa) r.b r.c)
  | 0x89 => match bitsOf r.sc 1 0 with
      | 0 => some (.tileq p (.deff r.a r.b))
      | 1 => some (.tileq p (.rel r.a r.b))
      | 2 => some (.tileq p (.rd r.d r.a r.b))
      | _ => none
  | 0x8A => some (.tilewait p r.d r.a)
  | 0xA0 => (AtomMod.ofBits r.sc).map (.atom p r.d r.a r.b)
  | 0xA1 => (AtomMod.ofBits r.sc).map (fun m => .atomsc p r.d r.a r.b m.op m.ty)
  | 0xA2 => (AtomMod.ofBits r.sc).map (.red p r.a r.b)
  | 0xA3 => some (.fence p r.ord r.sco)
  | 0xA4 => some (.bar p (low 3 r.sa))
  | 0xA5 => some (.wbar p (low 3 r.sa))
  | 0xA6 => some (.boinit p r.a r.b r.ord r.sco)
  | 0xA7 => some (.boarr p r.a r.b r.ord r.sco (r.sc.getLsbD 0))
  | 0xA8 => some (.bowait p r.d r.a r.sco)
  | 0xA9 => some (.sdrain p)
  | 0xAA => (EngClass.ofCode (low 2 r.sa)).map (fun c => .waitcnt p c (low 6 r.sb))
  | 0xAB => some (.procdone p r.a)
  | 0xAC => some (.procfail p r.a r.b)
  | 0xAD => some (.procq p r.d (low 6 r.sa) (r.sa.getLsbD 6))
  | 0xAE => some (.cpygo p r.a)
  | 0xAF => some (.cpyq p r.d)
  | 0xB0 => some (.guardset p r.d (Pred.ofField r.sa))
  | 0xB1 => some (.guardclr p r.d)
  | 0xC0 => some (.mma16 p r.d r.a r.b r.c)
  | 0xC1 => some (.mma16sp p r.d r.a r.b r.c)
  | 0xC2 => some (.gangset p r.a)
  | 0xC3 => match r.recs with
      | [ra, rb] => some (.mtile p r.d (low 6 r.sa) (r.sa.extractLsb' 6 6) r.b (low 4 r.sc) (r.sc.getLsbD 4) (r.sc.getLsbD 5)
          (r.sc.extractLsb' 6 3) (r.sc.getLsbD 9) ra rb)
      | _ => none
  | 0xC4 => match r.recs with
      | [ra, rb] => some (.mtilesp p r.d (low 6 r.sa) (r.sa.extractLsb' 6 6) r.b (low 4 r.sc) (r.sc.getLsbD 4) (r.sc.getLsbD 5)
          (r.sc.extractLsb' 6 3) (r.sc.getLsbD 9) ra rb)
      | _ => none
  | 0xC5 => some (.accz p r.d)
  | 0xC6 => match r.recs with
      | [rd] => some (.accld p r.d (low 6 r.sa) rd)
      | _ => none
  | 0xC7 => match r.recs with
      | [rd] => some (.accdrain p r.d (r.sa.getLsbD 0) (r.sa.getLsbD 1) (r.sa.extractLsb' 2 4) (r.sa.getLsbD 6)
          (r.sa.extractLsb' 7 3) (r.sa.getLsbD 10) rd)
      | _ => none
  | 0xC8 => some (.sample p r.d r.a r.b r.c)
  | 0xC9 => some (.sampleg p r.d r.a r.b r.c)
  | 0xCA => some (.fetch p r.d r.a r.b r.c)
  | 0xCB => some (.nsample p r.d r.a r.b r.c)
  | 0xCC => some (.wpin p r.d r.a)
  | 0xCD => some (.wunpin p r.a)
  | 0xCE => some (.winv p r.a (r.sb.getLsbD 0))
  | 0xCF => (Cull.ofCode (low 2 r.sc)).map (.rastq p r.d r.a r.b)
  | 0xD0 => (Cull.ofCode (r.sc.extractLsb' 3 2)).map (.rayx p r.d r.a r.b (r.sc.getLsbD 0) (r.sc.getLsbD 2))
  | 0xD1 => some (.rayhit p r.d (r.sa.getLsbD 0))
  | 0xD2 => some (.repack p)
  | 0xE0 => some (.srd p r.d (low 6 r.sa))
  | 0xE1 => some (.swr p (low 6 r.dst) r.a)
  | 0xE2 => some (.trap p (low 12 r.sa))
  | 0xE3 => some (.tret p (r.sa.getLsbD 0))
  | 0xE4 => some (.teamkill p)
  | 0xE5 => some (.mbwait p r.d (low 6 r.sa) (r.sa.getLsbD 6) (low 3 r.sb))
  | 0xE6 => some (.mbsend p (low 6 r.dst) (low 6 r.sa))
  | 0xE7 => some (.pipedeclDeclare p r.d r.a)
  | 0xE8 => some (.qpush p (low 4 r.dst) r.a r.b (r.sc.getLsbD 0) (r.sc.extractLsb' 1 3))
  | 0xE9 => some (.qpop p r.d (low 4 r.sa) (r.sa.getLsbD 4) r.b (low 3 r.sc))
  | 0xEA => some (.launch p r.d r.a)
  | 0xEB => some (.semsig p r.a r.b r.sco)
  | 0xEC => some (.semwait p r.a r.b r.sco)
  | 0xED => some (.procdeclDeclare p r.d r.a)
  | 0xEE => some (.procreset p r.d r.a r.b (r.sc.getLsbD 0))
  | 0xEF => some (.tlbinv p r.a r.b (r.sc.getLsbD 0))
  | _ => none

/-- The opcodes that R266 assigns. -/
def assigned (n : Nat) : Bool :=
  (0x01 ≤ n && n ≤ 0x16) || (0x20 ≤ n && n ≤ 0x55) || (0x60 ≤ n && n ≤ 0x6A) || (0x80 ≤ n && n ≤ 0x8A) ||
  (0xA0 ≤ n && n ≤ 0xB1) || (0xC0 ≤ n && n ≤ 0xD2) || (0xE0 ≤ n && n ≤ 0xEF)

/-- Positions that the opcode declares as sources: A, B, C (R248). PMOV decides by its mode (R298). -/
def isSrcA (r : Raw) : Bool :=
  let n := r.op.toNat
  (n == 0x16 && bitsOf r.sb 1 0 == 2) || n == 0x89 ||
  n == 0x03 || (0x05 ≤ n && n ≤ 0x06) || n == 0x09 || (0x0E ≤ n && n ≤ 0x11) || (0x20 ≤ n && n ≤ 0x55) ||
  (0x60 ≤ n && n ≤ 0x6A) || (0x80 ≤ n && n ≤ 0x86) || n == 0x8A || (0xA0 ≤ n && n ≤ 0xA2) ||
  (0xA6 ≤ n && n ≤ 0xA8) || (0xAB ≤ n && n ≤ 0xAC) || n == 0xAE || (0xC0 ≤ n && n ≤ 0xC2) ||
  (0xC8 ≤ n && n ≤ 0xD0) || n == 0xE1 || (0xE7 ≤ n && n ≤ 0xE8) || (0xEA ≤ n && n ≤ 0xEF)
def isSrcB (r : Raw) : Bool :=
  let n := r.op.toNat
  n == 0x89 ||
  (0x10 ≤ n && n ≤ 0x11) || (0x20 ≤ n && n ≤ 0x25) || (0x28 ≤ n && n ≤ 0x2E) || (0x30 ≤ n && n ≤ 0x36) ||
  n == 0x3A || (0x3C ≤ n && n ≤ 0x3E) || (0x40 ≤ n && n ≤ 0x45) || (0x51 ≤ n && n ≤ 0x55) ||
  (0x64 ≤ n && n ≤ 0x68) || n == 0x6A || (0x80 ≤ n && n ≤ 0x88) || (0xA0 ≤ n && n ≤ 0xA2) ||
  (0xA6 ≤ n && n ≤ 0xA7) || n == 0xAC || (0xC0 ≤ n && n ≤ 0xC1) || (0xC3 ≤ n && n ≤ 0xC4) ||
  (0xC8 ≤ n && n ≤ 0xCB) || (0xCF ≤ n && n ≤ 0xD0) || (0xE8 ≤ n && n ≤ 0xE9) || (0xEB ≤ n && n ≤ 0xEC) ||
  (0xEE ≤ n && n ≤ 0xEF)
def isSrcC (r : Raw) : Bool :=
  let n := r.op.toNat
  n == 0x24 || n == 0x2A || n == 0x34 || n == 0x36 || n == 0x43 || n == 0x53 || n == 0x55 || n == 0x60 ||
  (0x87 ≤ n && n ≤ 0x88) || (0xC0 ≤ n && n ≤ 0xC1) || (0xC8 ≤ n && n ≤ 0xCB)

/-- Main-array and Twill opcodes of R204; the others run on both pools. -/
def poolOk (pool : Pool) (n : Nat) : Bool :=
  match pool with
  | .main => !(n == 0xEA || n == 0xE7 || n == 0xE5 || n == 0xE6 || n == 0xED || n == 0xEE || n == 0xEF)
  | .twill => !((0xC0 ≤ n && n ≤ 0xD2) || (0x86 ≤ n && n ≤ 0x8A) || n == 0x09)

/-- Shape records that the opcode carries (R267). -/
def recordCount (n : Nat) : Nat := if n == 0xC3 || n == 0xC4 then 2 else if n == 0xC6 || n == 0xC7 then 1 else 0

/-- Bits 63:62 of a word (R242). -/
def formOf (w : Quad) : Nat := bitsOf w 63 62

/-- The F-form fields of a word (R245). -/
def Raw.ofWord (w : Quad) : Raw :=
  { op := w.extractLsb' 54 8, pn := w.getLsbD 53, pi := w.extractLsb' 50 3, dst := w.extractLsb' 42 8,
    sa := w.extractLsb' 28 14, sb := w.extractLsb' 14 14, sc := w.extractLsb' 0 14 }

def Raw.word (r : Raw) : Quad :=
  0b00#2 ++ r.op ++ BitVec.ofBool r.pn ++ r.pi ++ r.dst ++ r.sa ++ r.sb ++ r.sc

/-- Specifiers at the positions that hold sources. -/
def Raw.sources (r : Raw) : List Field :=
  (if isSrcA r then [r.sa] else []) ++ (if isSrcB r then [r.sb] else []) ++ (if isSrcC r then [r.sc] else [])

/-- L: the number of distinct literal indices that the sources name (R243). -/
def Raw.litCount (r : Raw) : Nat :=
  ((r.sources.filter (fun b => bitsOf b 13 12 == 3)).map (fun b => bitsOf b 11 6)).eraseDups.length

/-- Words of an instruction, from its first word alone (R243). -/
def lengthOf (w : Quad) : Nat :=
  let r := Raw.ofWord w
  if formOf w = 0 && assigned r.op.toNat then 1 + r.litCount + 4 * recordCount r.op.toNat else 1

/-- A specifier without the permutation and empty-action bits that its class must hold 0 (R256; judged as sub-cause 6). -/
def cleanSrc (b : Field) : Field :=
  match bitsOf b 13 12 with
  | 0 => b
  | 1 => b &&& 0x3FC1#14
  | _ => b &&& 0x3FC0#14

/-- The index bits of a destination that only ILLOPND sub-cause 1 judges, and the class of a file destination, which only
sub-cause 0 judges, set to what the built instruction holds. -/
def cleanDst (op : Nat) (d : BitVec 8) : BitVec 8 :=
  if op == 0xE1 || op == 0xE6 then 0b11#2 ++ d.extractLsb' 0 6
  else if op == 0xE8 then 0b11#2 ++ 0#2 ++ d.extractLsb' 0 4
  else if bitsOf d 7 6 == 2 then 0b10#2 ++ 0#3 ++ d.extractLsb' 0 3
  else d

def Raw.clean (r : Raw) : Raw :=
  { r with
    dst := cleanDst r.op.toNat r.dst
    sa := if isSrcA r then cleanSrc r.sa else r.sa
    sb := if isSrcB r then cleanSrc r.sb else r.sb
    sc := if isSrcC r then cleanSrc r.sc else r.sc
    lits := [] }

/-- ILLINST sub-cause 6 of a specifier: a permutation or empty action on a class that has none (R254, R256). -/
def badPerm (b : Field) : Bool :=
  let cls := bitsOf b 13 12
  decide (20 ≤ bitsOf b 5 1) || (cls != 0 && bitsOf b 5 1 != 0) || (decide (2 ≤ cls) && b.getLsbD 0)

/-- The same for the source of a half, whose class 0b11 is judged as sub-cause 7 (R258, R269). -/
def badPermP (b : Field) : Bool :=
  let cls := bitsOf b 13 12
  decide (20 ≤ bitsOf b 5 1) || (cls != 0 && bitsOf b 5 1 != 0) || (cls == 2 && b.getLsbD 0)

/-- ILLOPND sub-causes that only the raw destination shows: a class other than the file of SWR, MBSEND and QPUSH, and an
index beyond the file (R269). -/
def rawDstErrs (r : Raw) : List Nat :=
  let n := r.op.toNat
  let cls := bitsOf r.dst 7 6
  let k := bitsOf r.dst 5 0
  if n == 0xE1 || n == 0xE6 || n == 0xE8 then
    (if cls == 3 then [] else [0]) ++ (if n == 0xE8 && decide (16 ≤ k) then [1] else [])
  else if cls == 2 && decide (8 ≤ k) then [1] else []

/-- The least of a list of sub-causes. -/
def least (l : List Nat) : Option Nat := l.foldl (fun m n => match m with | none => some n | some k => some (min k n)) none

/-- Steps 5 to 7 of R270 over a word's fields: the first failure, or the instruction. DESIGN CHOICE: within step 5 sub-cause 3 comes before 6 and
6 before 7, and within step 7 the least sub-cause is reported (assumption 111). -/
def judge (r : Raw) : Except DErr Instr :=
  let bad6 := r.sources.any badPerm
  match build r with
  | none => .error (.illinst 3)
  | some i =>
      if toRaw i != r.clean || !(sig i).ok || !(sig i).shapes.all (fun x => x.ok) || !litHighOk i then .error (.illinst 3)
      else if bad6 then .error (.illinst 6)
      else if !litIndicesOk i then .error (.illinst 7)
      else match least (rawDstErrs r ++ opndErrs i) with
        | some n => .error (.illopnd n)
        | none => .ok i

/-- Four extension words as a shape record. -/
def shapesOf : List (BitVec 62) → List Shape
  | s0 :: s1 :: s2 :: s3 :: rest => ⟨s0, s1, s2, s3⟩ :: shapesOf rest
  | _ => []

/-- An F-form instruction from its first word and the words after it. -/
def decodeF (pool : Pool) (w : Quad) (rest : List Quad) : Except DErr Instr :=
  let r := Raw.ofWord w
  let n := r.op.toNat
  if !assigned n then .error (.illinst 1)
  else if !poolOk pool n then .error (.illinst 2)
  else
    let L := r.litCount
    let ext := rest.take (L + 4 * recordCount n)
    if ext.length != L + 4 * recordCount n || ext.any (fun x => formOf x != 2) then .error (.illinst 4)
    else
      let ys := ext.map (fun x => x.extractLsb' 0 62)
      judge { r with lits := ys.take L, recs := shapesOf (ys.drop L) }

/-- The bits of a half (R258). -/
def PHalf.bits (h : PHalf) : BitVec 31 :=
  h.op.code ++ h.pi ++ BitVec.ofBool h.scalarDst ++ h.d ++ h.src.bits

def PHalf.ofBits (b : BitVec 31) : Option PHalf :=
  (POp.ofCode (b.extractLsb' 24 7)).map fun op =>
    ⟨op, b.extractLsb' 21 3, b.getLsbD 20, b.extractLsb' 14 6, Src.ofBits (b.extractLsb' 0 14) []⟩

/-- A P-form word (R258-R261): opcodes of both halves, field values, pairing, operands. -/
def decodeP (w : Quad) : Except DErr Instr :=
  let b0 : BitVec 31 := w.extractLsb' 31 31
  let b1 : BitVec 31 := w.extractLsb' 0 31
  match PHalf.ofBits b0, PHalf.ofBits b1 with
  | some h0, some h1 =>
      let i := Instr.pFormPair h0 h1
      let s0 : Field := b0.extractLsb' 0 14
      let s1 : Field := b1.extractLsb' 0 14
      if (h0.op == .nop && b0 != 0) || (h1.op == .nop && b1 != 0) then .error (.illinst 3)
      else if badPermP s0 || badPermP s1 then .error (.illinst 6)
      else if h0.src.isLit || h1.src.isLit then .error (.illinst 7)
      else if pairBroken h0 h1 then .error (.illinst 5)
      else match least (opndErrs i) with
        | some n => .error (.illopnd n)
        | none => .ok i
  | _, _ => .error (.illinst 1)

/-- The decoder: the instruction that begins with the first of the words (R242-R244, R269, R270). -/
def decode (pool : Pool) (ws : List Quad) : Except DErr Instr :=
  match ws with
  | [] => .error (.illinst 4)
  | w :: rest =>
      match formOf w with
      | 0 => decodeF pool w rest
      | 1 => decodeP w
      | 2 => .error (.illinst 4)
      | _ => .error (.illinst 0)

/-- The slot of a CVTF whose source A is a literal that only a 64-bit reader may name (R253, R322). -/
def cvtfHigh (ws : List Quad) : Option (BitVec 3) :=
  match ws with
  | w :: rest =>
      let r := Raw.ofWord w
      let y := rest.getD (bitsOf r.sa 11 6) 0
      if formOf w = 0 && r.op == 0x60 && bitsOf r.sa 13 12 == 3 && bitsOf y 61 32 != 0 then some (low 3 r.sb) else none
  | [] => none

/-- The decoder where the team's format slots are known: `f64` tells which have `afmt` f64. A CVTF literal with a payload for 64 bits
is a field value that another slot's 32-bit reader rejects, at step 5 of R270. -/
def decodeAt (f64 : BitVec 3 → Bool) (pool : Pool) (ws : List Quad) : Except DErr Instr :=
  let bad := match cvtfHigh ws with | some n => !f64 n | none => false
  match decode pool ws with
  | .ok i => if bad then .error (.illinst 3) else .ok i
  | .error e => if bad && (e.cause == 0x0D || decide (5 ≤ e.sub)) then .error (.illinst 3) else .error e

/-- The payloads of an instruction's literal words, in index order (R243). -/
def litWords (i : Instr) : List (BitVec 62) :=
  let us := litUses i
  (List.range 3).filterMap (fun k => (us.find? (fun u => u.1 == k)).map (fun u => u.2.1))

/-- An extension word (R242). -/
def extWord (y : BitVec 62) : Quad := 0b10#2 ++ y

def Shape.words (r : Shape) : List Quad := [extWord r.s0, extWord r.s1, extWord r.s2, extWord r.s3]

/-- The encoder: the words of a well-formed instruction. -/
def encode (i : Instr) : List Quad :=
  match i with
  | .pFormPair h0 h1 => [0b01#2 ++ h0.bits ++ h1.bits]
  | _ => (toRaw i).word :: ((litWords i).map extWord ++ (toRaw i).recs.flatMap Shape.words)

/-- The words of an instruction whose bits are `w`, bit 0 the least significant bit of the first word. -/
def tableWords (nbits w : Nat) : List Quad :=
  (List.range 11).map (fun k => BitVec.ofNat 64 ((w % 2 ^ nbits) >>> (64 * k)))

/-- The instruction this decoder reads from a table word: on the main array, else on a Twill core (R204). -/
def decodeTableWord (nbits w : Nat) : Option Instr :=
  match decode .main (tableWords nbits w) with
  | .ok i => some i
  | .error _ => (decode .twill (tableWords nbits w)).toOption

end Sys2Proof
end

