-- ==== Sys2Proof/Machine/Lookup.lean ====
section
/-! DEFINITION. Reading and changing the parts of the state by name: teams, gangs, cores, contexts, registers of a gang, and
the fields of a team's launch record (R445). -/

namespace Sys2Proof.Machine

namespace State
def team (s : State) (t : Nat) : Option Team := mapGet t s.teams
def setTeam (s : State) (t : Nat) (x : Team) : State := { s with teams := mapPut t x s.teams }
def modTeam (s : State) (t : Nat) (f : Team → Team) : State := { s with teams := mapMod t f s.teams }
def gang (s : State) (t g : Nat) : Option Gang := (s.team t).bind (fun x => mapGet g x.gangs)
def modGang (s : State) (t g : Nat) (f : Gang → Gang) : State :=
  s.modTeam t (fun x => { x with gangs := mapMod g f x.gangs })
def core (s : State) (c : Nat) : Core := mapGetD {} c s.cores
def setCore (s : State) (c : Nat) (x : Core) : State := { s with cores := mapPutD {} c x s.cores }
def modCore (s : State) (c : Nat) (f : Core → Core) : State := s.setCore c (f (s.core c))
def cluster (s : State) (n : Nat) : Cluster := mapGetD {} n s.clusters
def modCluster (s : State) (n : Nat) (f : Cluster → Cluster) : State :=
  { s with clusters := mapPutD {} n (f (s.cluster n)) s.clusters }
def ctx? (s : State) (n : Nat) : Option Ctx := mapGet n s.ctxs
def ctx (s : State) (n : Nat) : Ctx := mapGetD {} n s.ctxs
def modCtx (s : State) (n : Nat) (f : Ctx → Ctx) : State := { s with ctxs := mapMod n f s.ctxs }
/-- A fresh identifier. -/
def fresh (s : State) : Nat × State := (s.sched.nextId, { s with sched := { s.sched with nextId := s.sched.nextId + 1 } })
/-- The next free value (assumption 1). -/
def freeQ (s : State) : Quad × State :=
  (Config.freeQuad s.sched.free, { s with sched := { s.sched with free := s.sched.free + 1 } })
def modPend (s : State) (f : Pend → Pend) : State := { s with pend := f s.pend }
def modMem (s : State) (f : MemSys → MemSys) : State := { s with mem := f s.mem }
def modSys (s : State) (f : Sys → Sys) : State := { s with sys := f s.sys }
def modXl (s : State) (f : Xl → Xl) : State := { s with xl := f s.xl }
def modFelt (s : State) (f : Felt → Felt) : State := { s with felt := f s.felt }
def raiseNote (s : State) (bit : Nat) : State :=
  s.modSys (fun y => { y with note := y.note ||| BitVec.ofNat 64 (2 ^ bit) })
end State

/-- Key of a core among `State.cores`: 16y + x on the main array, 256 + index for a Twill core. -/
def Place.core : Place → Nat | .main n => n | .twill h => 256 + h / 4
/-- `coreid` of R387: 16y + x, or 0x80 + index on a Twill core. -/
def Place.coreid : Place → Nat | .main n => n | .twill h => 0x80 + h / 4
/-- Agent identity of R467. -/
def Place.agent : Place → Nat | .main n => n | .twill h => 0x1000 + h
def Place.isTwill : Place → Bool | .main _ => false | .twill _ => true
def Place.pool : Place → Pool | .main _ => .main | .twill _ => .twill
/-- Cluster of a core (R70); Twill cores have none. -/
def clusterOf (core : Nat) : Option Nat :=
  if core < 256 then some (8 * (core / 16 / 2) + (core % 16) / 2) else none

namespace Team
def field (t : Team) (hi lo : Nat) : Nat := bitsOf t.lrec hi lo
/-- Gangs per team (R446). -/
def G (t : Team) : Nat := t.field 623 620 + 1
/-- Register stack size S (R179). -/
def S (t : Team) : Nat := 64 + 16 * t.field 627 624
/-- Repack group size (R201). -/
def group (t : Team) : Nat := 2 ^ t.field 619 617
/-- Scratchpad bytes (R44; 64 KiB on a Twill core, R26). -/
def spsz (t : Team) : Nat := if t.place.isTwill then 65536 else 3072 * t.field 649 642
def nacc (t : Team) : Nat := t.field 666 662
def ntile (t : Team) : Nat := t.field 661 655
def nstash (t : Team) : Nat := t.field 654 650
def spoff (t : Team) : Nat := t.field 319 288
def pstride (t : Team) : Nat := t.field 287 256
def rseed (t : Team) : Quad := BitVec.ofNat 64 (t.field 255 192)
def pbase (t : Team) : Nat := t.field 191 128
/-- Format slot k (R237). -/
def slot (t : Team) (k : Nat) : Word := BitVec.ofNat 32 (t.field (320 + 32 * k + 31) (320 + 32 * k))
/-- Where the slot (gang, fibre) of an operation with identifier `id` stands now: a REPACK may have moved it since (R199, R436). -/
def slotNow (t : Team) (id gid fib : Nat) : Nat × Nat :=
  t.moves.foldl (fun p m => if id < m.1 then ((m.2.find? (fun e => e.1 == p)).map (·.2)).getD p else p) (gid, fib)
end Team

/-- Quad of a gang on its core (R178). -/
def quadOfGang (g : Nat) : Nat := g % 4

/-- Where a register lies: a fibre slot and a position of its ring, or a scalar register of the gang. -/
inductive RegRef where
  | v (fib pos : Nat)
  | s (n : Nat)
  deriving DecidableEq, Repr

namespace Gang
/-- Registers that the issuing fragment works on: the gang's own, or the shadow copies of a run-ahead (R117). -/
def vs (g : Gang) : RegFile := match g.ra with | some r => r.sregs | none => g.sregs
def vf (g : Gang) : List (Nat × Fibre) := match g.ra with | some r => r.fibres | none => g.fibres
def setVs (g : Gang) (x : RegFile) : Gang :=
  match g.ra with | some r => { g with ra := some { r with sregs := x } } | none => { g with sregs := x }
def setVf (g : Gang) (x : List (Nat × Fibre)) : Gang :=
  match g.ra with | some r => { g with ra := some { r with fibres := x } } | none => { g with fibres := x }
def fib (g : Gang) (f : Nat) : Fibre := mapGetD {} f g.vf
def setFib (g : Gang) (f : Nat) (x : Fibre) : Gang := g.setVf (mapPut f x g.vf)
def modFib (g : Gang) (f : Nat) (h : Fibre → Fibre) : Gang := g.setFib f (h (g.fib f))
def reg (g : Gang) (r : RegRef) : Reg :=
  match r with | .v f p => mapGetD {} p (g.fib f).regs | .s n => mapGetD {} n g.vs
def setReg (g : Gang) (r : RegRef) (x : Reg) : Gang :=
  match r with
  | .v f p => g.modFib f (fun b => { b with regs := mapPutD {} p x b.regs })
  | .s n => g.setVs (mapPutD {} n x g.vs)
/-- The fragment's predicate values of a fibre; p7 reads as true (R180). -/
def predBit (g : Gang) (f idx : Nat) : Bool := idx == 7 || (g.fib f).preds.getLsbD idx
/-- Is that predicate unknown to a run-ahead (R117)? -/
def predUnknown (g : Gang) (f idx : Nat) : Bool :=
  match g.ra with | some r => idx != 7 && (mapGetD 0 f r.unkPred).getLsbD idx | none => false
/-- Write a predicate; a write to p7 is discarded (R180). -/
def setPred (g : Gang) (f idx : Nat) (v : Option Bool) : Gang :=
  if idx = 7 then g else
    let m : BitVec 8 := BitVec.ofNat 8 (2 ^ idx)
    let g := g.modFib f (fun b => { b with preds := if v == some true then b.preds ||| m else b.preds &&& ~~~m })
    match g.ra with
    | some r =>
        let u := mapGetD 0 f r.unkPred
        { g with ra := some { r with unkPred := mapPutD 0 f (if v.isNone then u ||| m else u &&& ~~~m) r.unkPred } }
    | none => g
def liveFibres (g : Gang) : List Nat := (g.fibres.filter (fun e => e.2.live)).map (·.1)
end Gang

/-- Position of logical register v_r of a fibre in its ring (R193). -/
def ringPos (S : Nat) (b : Fibre) (r : Nat) : Nat := (b.wb + r) % S

/-- Value of a predicate prefix or field for a fibre. -/
def Gang.predVal (g : Gang) (f : Nat) (p : Pred) : Bool := g.predBit f p.idx.toNat != p.neg

/-- How an attempt ends: done, to be tried again, or a trap. -/
inductive Res (α : Type) where
  | ok (a : α) (s : State)
  | wait (s : State)
  | trap (t : TrapInfo) (s : State)
  deriving DecidableEq, Repr

def Res.bind {α β : Type} (r : Res α) (f : α → State → Res β) : Res β :=
  match r with
  | .ok a s => f a s
  | .wait s => .wait s
  | .trap t s => .trap t s

/-- Do f for each element in turn. -/
def Res.each {α : Type} (l : List α) (f : α → State → Res Unit) (s : State) : Res Unit :=
  match l with
  | [] => .ok () s
  | x :: t => (f x s).bind (fun _ s => Res.each t f s)

/-- The issuing fragment with its gang and team. -/
structure Iss where
  tid : Nat
  gid : Nat
  team : Team
  gang : Gang
  frag : Frag
  deriving DecidableEq, Repr

/-- The fragment that `sched.cur` names: in run-ahead, the fragment that runs ahead. -/
def State.iss (s : State) : Option Iss := do
  let c := s.sched.cur
  let t ← s.team c.team
  let g ← mapGet c.gang t.gangs
  match g.ra with
  | some r => some ⟨c.team, c.gang, t, g, r.frag⟩
  | none => do
      let f ← g.frags.find? (fun f => f.mask.getLsbD c.lead)
      some ⟨c.team, c.gang, t, g, f⟩

def State.modFrag (s : State) (f : Frag → Frag) : State :=
  let c := s.sched.cur
  s.modGang c.team c.gang (fun g =>
    match g.ra with
    | some r => { g with ra := some { r with frag := f r.frag } }
    | none => { g with frags := g.frags.map (fun x => if x.mask.getLsbD c.lead then f x else x) })

def State.modCur (s : State) (f : Gang → Gang) : State := s.modGang s.sched.cur.team s.sched.cur.gang f

end Sys2Proof.Machine
end

