-- ==== Sys2Proof/Machine/Home.lean ====
section
/-! DEFINITION. Behind the cores: event counters and stamps (R466-R469), home slices and their lines (R63-R66, R79-R81,
R129), page tables, page types and TLBs (R13-R16, R29-R31, R105-R111), and the error rings (R490-R492). -/

namespace Sys2Proof.Machine

/-! ### Event counters -/

def evTop : Nat := 2 ^ 48 - 1

/-- Set an agent's event counter; the first to reach 2^47 raises notice bit 7 (R469). -/
def State.setEv (s : State) (a n : Nat) : State :=
  let s := { s with evcnt := mapPutD 0 a n s.evcnt }
  if 2 ^ 47 ≤ n ∧ s.noted47 = false then { s.raiseNote 7 with noted47 := true } else s

/-- An agent stamps a message: the pair of count and identity (R468). -/
def State.stamp (s : State) (a : Nat) : (Nat × Nat) × State :=
  let n := satAdd (mapGetD 0 a s.evcnt) 1 evTop
  ((n, a), s.setEv a n)

/-- An agent receives a message stamped with count n (R468). -/
def State.receive (s : State) (a n : Nat) : State := s.setEv a (satAdd (max (mapGetD 0 a s.evcnt) n) 1 evTop)

/-- Order of stamped records (R469). -/
def stampLt (x y : Nat × Nat) : Bool := decide (x.1 < y.1) || (x.1 == y.1 && decide (x.2 < y.2))

/-! ### Lines at the home -/

/-- Exclusive-or of the 6-bit groups of x. -/
def fold6 (x : Nat) : Nat → Nat
  | 0 => 0
  | n + 1 => (x % 64) ^^^ fold6 (x / 64) n

/-- Home slice of a line (R63, R79). -/
def sliceOf : LineKey → Nat
  | .dev pl => fold6 pl 6
  | .host key => fold6 key 8
  | .proc rn bix _ => fold6 (rn * 2 ^ 30 + bix) 7

/-- Set of a line within its home slice (R63, R79). -/
def setOf (page : Bool) : LineKey → Nat
  | .dev pl => pl / 64 % 512
  | .host key => key / 64 % 512
  | .proc _ bix lib => if page then 64 * (bix % 8) + lib else bix % 512

def sliceAgent (n : Nat) : Nat := 0x2000 + n

def l2Get (k : LineKey) (l : List (LineKey × L2Line)) : Option L2Line := (l.find? (fun e => e.1 == k)).map (·.2)
def l2Del (k : LineKey) (l : List (LineKey × L2Line)) : List (LineKey × L2Line) := l.filter (fun e => e.1 != k)
def l2Put (k : LineKey) (x : L2Line) (l : List (LineKey × L2Line)) : List (LineKey × L2Line) :=
  if l.any (fun e => e.1 == k) then l.map (fun e => if e.1 == k then (k, x) else e) else l ++ [(k, x)]

def State.line (s : State) (k : LineKey) : Option L2Line := l2Get k s.mem.l2
def State.setLine (s : State) (k : LineKey) (x : L2Line) : State := s.modMem (fun m => { m with l2 := l2Put k x m.l2 })
def State.dropLine (s : State) (k : LineKey) : State := s.modMem (fun m => { m with l2 := l2Del k m.l2 })

def blockGet (rn bix : Nat) (s : State) : Option Block := (s.felt.blocks.find? (fun e => e.1 == (rn, bix))).map (·.2)
def blockPut (rn bix : Nat) (b : Block) (s : State) : State :=
  s.modFelt (fun f => { f with blocks := f.blocks.filter (fun e => e.1 != (rn, bix)) ++ [((rn, bix), b)] })
def blockDel (rn bix : Nat) (s : State) : State :=
  s.modFelt (fun f => { f with blocks := f.blocks.filter (fun e => e.1 != (rn, bix)) })
/-- Fill state of a block (R80). -/
def fillState (s : State) (rn bix : Nat) : FillSt := match blockGet rn bix s with | some b => b.st | none => .unfilled

def isPageRange (s : State) (rn : Nat) : Bool := match mapGet rn s.felt.ranges with | some r => r.page | none => false

/-- Address in device memory of a line's first byte; a line block and a page block that is not FILLED have none (R81). -/
def backAddr (s : State) : LineKey → Option Nat
  | .dev pl => some (pl * 192)
  | .host _ => none
  | .proc rn bix lib =>
      match blockGet rn bix s with
      | some b => if b.st = .filled then b.frame.map (fun f => f + lib * 192) else none
      | none => none

/-- A byte as memory behind the home holds it: 0 in a sector that ECC cannot correct (R489). -/
def backByte (s : State) (k : LineKey) (off : Nat) : Byte :=
  match k with
  | .host key => memGet s.mem.host (key * 64 + off)
  | _ =>
      match backAddr s k with
      | some a => if s.mem.eccBad.contains ((a + off) / 48) then 0 else memGet s.mem.dram (a + off)
      | none => 0

/-- Granule state of granule i of a host line. -/
def L2Line.granOf (l : L2Line) (i : Nat) : Gran := mapGetD .i i l.gran

/-- Does the line hold byte off? -/
def L2Line.holds (l : L2Line) (k : LineKey) (off : Nat) : Bool :=
  match k with
  | .host _ => l.granOf (off / 64) != .i
  | _ => l.valid.getLsbD (off / 48)

/-- A byte of a line that a stash owns: its place is in the owner's scratchpad (R56, R140). -/
def ownedByte (s : State) (k : LineKey) (off : Nat) (l : L2Line) : Option Byte :=
  (l.owner.bind (fun o => s.team o.2)).bind (fun t => t.stash.findSome? (fun e =>
    (e.2.lines.find? (fun x => x.2.key == k && (x.2.st == .clean || x.2.st == .modified))).map (fun x =>
      memGet t.spad (e.2.soff + 192 * x.1 + off))))

/-- Is the line part of the backing region of a declared page range? A program that reads it finds unspecified values (R75). -/
def inBacking (s : State) : LineKey → Bool
  | .dev pl => s.felt.ranges.any (fun r => r.2.page && r.2.frames.contains (pl / 64 * 12288))
  | _ => false

/-- Is the byte of a line in the destination of a transforming request that has not completed (R123)? -/
def unsetAt (s : State) (k : LineKey) (off : Nat) : Bool :=
  s.mem.unset.any (fun e =>
    match e.1, k with
    | .dev pa, .dev pl => decide (pa ≤ 192 * pl + off ∧ 192 * pl + off < pa + e.2.1)
    | .host key o, .host key' => key == key' && decide (o ≤ off ∧ off < o + e.2.1)
    | _, _ => false)

/-- Number of a byte of a line, for a free value. -/
def byteNumber : LineKey → Nat → Nat
  | .dev pl, off => 192 * pl + off
  | .host key, off => 2 ^ 48 + 64 * key + off
  | .proc _ _ _, _ => 0

/-- A byte whose value the spec leaves open reads as a free value (R75, R123; assumption 77). -/
def openAt (s : State) (k : LineKey) (off : Nat) : Bool := inBacking s k || unsetAt s k off

/-- A byte at the point of coherence of its line; a sector that ECC cannot correct reads as zeros (R489). -/
def lineByte (s : State) (k : LineKey) (off : Nat) : Byte :=
  if openAt s k off then Config.openByte s.sched.now (byteNumber k off)
  else
    match s.line k with
    | some l =>
        (ownedByte s k off l).getD
          (if l.holds k off then (if s.mem.eccL2.contains (k, off / 48) then 0 else memGet l.data off) else backByte s k off)
    | none => backByte s k off

def homeRead (s : State) (k : LineKey) (off n : Nat) : List Byte := (List.range n).map (fun i => lineByte s k (off + i))

/-- Sectors that n bytes from off overlap. -/
def sectorsOf (off n : Nat) : List Nat := (List.range 4).filter (fun i => decide (48 * i < off + n ∧ off < 48 * i + 48))
def granulesOf (off n : Nat) : List Nat := (List.range 3).filter (fun i => decide (64 * i < off + n ∧ off < 64 * i + 64))

/-- Install the sectors in the line (a normal miss, R65). A host line holds granules instead. -/
def homeFill (s : State) (k : LineKey) (off n : Nat) : State :=
  match k with
  | .host _ => s
  | _ =>
      let l := (s.line k).getD {}
      let l' := (sectorsOf off n).foldl (fun (l : L2Line) i =>
        if l.valid.getLsbD i then l
        else { l with valid := l.valid ||| BitVec.ofNat 4 (2 ^ i),
                      data := memPutBytes l.data (48 * i) ((List.range 48).map (fun j => backByte s k (48 * i + j))) }) l
      s.setLine k l'

/-- Store bytes to device memory; a written sector's code words are whole again. -/
def dramPut (s : State) (a : Nat) (bs : List Byte) : State :=
  s.modMem (fun m => { m with dram := memPutBytes m.dram a bs,
                              eccBad := m.eccBad.filter (fun x => !(decide (a < 48 * x + 48 ∧ 48 * x < a + bs.length))) })

/-- A store to a sector that ECC cannot correct merges into a zero sector (R489). -/
def healLine (s : State) (k : LineKey) (off n : Nat) : State :=
  let bad := (sectorsOf off n).filter (fun i => s.mem.eccL2.contains (k, i))
  match bad, s.line k with
  | [], _ => s
  | _, none => s
  | _, some l =>
      let data := bad.foldl (fun d i => memPutBytes d (48 * i) (List.replicate 48 0)) l.data
      (s.setLine k { l with data }).modMem (fun m => { m with eccL2 := m.eccL2.filter (fun e => !(e.1 == k && bad.contains e.2)) })

/-- The line's write-back starts, with the values it holds now (R65, R66). DEDUCED: the M granules of a host line stay in E
(assumption 48). -/
def L2Line.startBack (l : L2Line) (k : LineKey) : L2Line :=
  match k with
  | .host _ =>
      let ms := (List.range 3).filter (fun i => l.granOf i == .m)
      { l with wb := some (ms.foldl (fun d i => d ||| BitVec.ofNat 4 (2 ^ i)) 0, l.data)
               gran := ms.foldl (fun g i => mapPut i .e g) l.gran }
  | _ => { l with wb := some (l.dirty, l.data), dirty := 0 }

/-- A `.na` or `.by` store has merged into the line: its write-back starts at once, or when the one in flight ends (R65, R66). -/
def L2Line.wroteHint (l : L2Line) (k : LineKey) (hint : Nat) : L2Line :=
  if hint == 0 then l else if l.wb.isNone then l.startBack k else { l with again := true }

/-- A write at the home with its hint (R65, R81, R129): 0 normal, else `.na` or `.by`. A store to the backing region of a page range
reaches the frame with its own bytes and no others (R75). -/
def homeWrite (s : State) (k : LineKey) (off : Nat) (bs : List Byte) (hint : Nat) : State :=
  let s := healLine s k off bs.length
  match k with
  | .host _ =>
      let l := (s.line k).getD {}
      s.setLine k ({ l with data := memPutBytes l.data off bs,
                            gran := (granulesOf off bs.length).foldl (fun g i => mapPut i .m g) l.gran }.wroteHint k hint)
  | _ =>
      let direct := (hint != 0 && (s.line k).isNone) || inBacking s k
      match (if direct then backAddr s k else none) with
      | some a =>
          let s := match s.line k with | some l => s.setLine k { l with data := memPutBytes l.data off bs } | none => s
          let s' := (sectorsOf off bs.length).foldl (fun s i =>
            if s.mem.eccBad.contains ((a + 48 * i) / 48) then dramPut s (a + 48 * i) (List.replicate 48 0) else s) s
          dramPut s' (a + off) bs
      | none =>
          let s := homeFill s k off bs.length
          let l := (s.line k).getD {}
          let lineBlock : Bool := match k with | .proc rn _ _ => !isPageRange s rn | _ => false
          let d : BitVec 4 := (sectorsOf off bs.length).foldl (fun d i => d ||| BitVec.ofNat 4 (2 ^ i)) 0
          let l := { l with data := memPutBytes l.data off bs, dirty := if lineBlock then 0 else l.dirty ||| d }
          s.setLine k (if lineBlock then l else l.wroteHint k hint)

/-- Does an access with its hint take a way of an absent line (R65)? One with `.na` or `.by` does so only for a line of a block that
nothing behind the home holds (R81). -/
def takesWay (s : State) (k : LineKey) (hint : Nat) : Bool :=
  hint == 0 || (match k with | .proc _ _ _ => (backAddr s k).isNone | _ => false)

/-! ### Records and evictions -/

/-- The 64 bytes of a record. -/
def errBytes (e : ErrInfo) (ctx seq evc : Nat) : List Byte :=
  leBytes 64 (e.addr % 2 ^ 64 * 2 ^ 448 + e.aux % 2 ^ 64 * 2 ^ 384 + evc * 2 ^ 336 + e.agent * 2 ^ 320 + seq * 2 ^ 288
    + ctx * 2 ^ 280 + e.core % 256 * 2 ^ 272 + e.gslot % 32 * 2 ^ 267 + e.tslot % 32 * 2 ^ 262 + e.fib % 64 * 2 ^ 256
    + e.cause * 2 ^ 248 + e.sub % 16 * 2 ^ 244 + e.kind * 2 ^ 240)

/-- A record is made: its sequence number advances whether it is written or dropped later (R492, R515). -/
def enqRecord (s : State) (ctx : Option Nat) (e : ErrInfo) : State :=
  let (st, s) := s.stamp e.agent
  let seq := match ctx with | some c => (s.ctx c).nrecs % 2 ^ 32 | none => s.sys.devRecs % 2 ^ 32
  let s := match ctx with
    | some c => s.modCtx c (fun x => { x with nrecs := x.nrecs + 1, seq := BitVec.ofNat 32 seq })
    | none => s.modSys (fun y => { y with devRecs := y.devRecs + 1, devSeq := y.devSeq + 1 })
  { s with recq := s.recq ++ [{ ctx, e, seq, evc := st.1 }] }

/-- A held line is not chosen for eviction (R64). -/
def heldLine (s : State) (k : LineKey) (l : L2Line) : Bool :=
  l.owner.isSome || decide (0 < l.pins) || l.wb.isSome ||
    (match k with | .proc rn bix _ => fillState s rn bix == .filling | _ => false)

/-- Store the marked sectors of a line to device memory; a sector that ECC cannot correct is discarded and recorded
(R489, R490). -/
def sectorsBack (s : State) (k : LineKey) (a : Nat) (m : BitVec 4) (data : Memory) : State :=
  (List.range 4).foldl (fun s i =>
    if !m.getLsbD i then s
    else if s.mem.eccL2.contains (k, i) then
      enqRecord s none { agent := sliceAgent (sliceOf k), cause := 0x18, addr := a + 48 * i, aux := 0x100 }
    else dramPut s (a + 48 * i) (memBytes data (48 * i) 48)) s

def dropEcc (s : State) (k : LineKey) : State := s.modMem (fun m => { m with eccL2 := m.eccL2.filter (fun e => e.1 != k) })

/-- Store a granule of a host line to host memory. -/
def granuleBack (s : State) (g : Nat) (bs : List Byte) : State :=
  s.modMem (fun m => { m with host := memPutBytes m.host (64 * g) bs })

/-- Host lines that hold granule g, with its number in each (R33, R129). -/
def linesWith (s : State) (g : Nat) : List (LineKey × Nat × L2Line) :=
  (List.range 3).filterMap (fun i =>
    if i ≤ g then (s.line (.host (g - i))).map (fun l => (.host (g - i), i, l)) else none)

/-- A granule of a line changes its state: bytes that host memory lacks, also those of a write-back in flight, reach it first. -/
def granOut (s : State) (k : LineKey) (j : Nat) (l : L2Line) (g : Nat) (st : Gran) : State :=
  let under := l.wb.bind (fun w => if w.1.getLsbD j then some w.2 else none)
  let s := match (if l.granOf j == .m then some l.data else under) with
    | some d => granuleBack s g (memBytes d (64 * j) 64)
    | none => s
  s.setLine k { l with wb := l.wb.map (fun w => (w.1 &&& ~~~(BitVec.ofNat 4 (2 ^ j)), w.2))
                       gran := if st = .i then mapDel j l.gran else mapPut j st l.gran }

/-- A line leaves its home (R64, R66, R81, R129): dirty sectors and M granules are written back, and no others; a line block's
line is discarded and its block becomes UNFILLED. -/
def evictLine (s : State) (k : LineKey) (l : L2Line) : State :=
  let gone := fun (s : State) => (dropEcc s k).dropLine k
  match k with
  | .host key =>
      gone ((List.range 3).foldl (fun s i =>
        if l.granOf i == .m then granuleBack s (key + i) (memBytes l.data (64 * i) 64) else s) s)
  | .dev pl => gone (sectorsBack s k (pl * 192) l.dirty l.data)
  | .proc rn bix lib =>
      if isPageRange s rn then
        match backAddr s (.proc rn bix lib) with
        | some a => gone (sectorsBack s k a l.dirty l.data)
        | none => s
      else if fillState s rn bix == .filled then blockDel rn bix (gone s)
      else gone s

/-! ### Ways -/

def pageOf (s : State) : LineKey → Bool
  | .proc rn _ _ => isPageRange s rn
  | _ => false

/-- Lines that the set of a line holds. -/
def setLines (s : State) (k : LineKey) : List (LineKey × L2Line) :=
  let sl := sliceOf k
  let st := setOf (pageOf s k) k
  s.mem.l2.filter (fun e => sliceOf e.1 == sl && setOf (pageOf s e.1) e.1 == st)

/-- Depth of the fill under way of a line's block. -/
def fillDepth (s : State) : LineKey → Option Nat
  | .proc rn bix _ => (s.felt.merges.find? (fun m => m.rn == rn && m.bix == bix)).map (·.dep)
  | _ => none

/-- Would a way for the line break the bound on lines of FILLING blocks (R64)? -/
def fillBound (s : State) (k : LineKey) (set : List (LineKey × L2Line)) : Bool :=
  match fillDepth s k with
  | none => false
  | some d => (List.range 3).any (fun i => decide (d ≤ i) &&
      decide (13 + i < (set.filter (fun e => match fillDepth s e.1 with | some x => decide (x ≤ i) | none => false)).length + 1))

/-- Make a way for a line that its home does not hold (R64): a free one, or that of a line that is not held, picked by a free
value. With none, the request waits, and the stash line filled earliest is recalled. -/
def makeWay (s : State) (k : LineKey) : Bool × State :=
  if (s.line k).isSome then (true, s)
  else
    let set := setLines s k
    let bound := fillBound s k set
    if set.length < 16 && !bound then (true, s)
    else
      match (if bound then [] else set.filter (fun e => !heldLine s e.1 e.2)) with
      | v :: t =>
          let (q, s) := s.freeQ
          let e := (v :: t).getD (q.toNat % (t.length + 1)) v
          (true, evictLine s e.1 e.2)
      | [] =>
          let owned := set.filter (fun e => e.2.owner.isSome)
          match owned.find? (fun e => owned.all (fun x => decide (e.2.ownAt ≤ x.2.ownAt))) with
          | some e => (false, s.setLine e.1 { e.2 with recalled := true })
          | none => (false, s)

/-- The port that a CXL.cache request for granule g uses (R519): address bit 12 picks one of two, and one port that is up takes all. -/
def cxlPortOf (s : State) (g : Nat) : Option Nat :=
  let up := fun (n : Nat) => mapGetD 0 n s.sys.cxlPort != 0
  let n := g / 64 % 2
  if up n then some n else if up (1 - n) then some (1 - n) else none

/-- Ask the host for a granule (R129); one request per granule is outstanding. -/
def cxlAsk (s : State) (r : CxlReq) : State :=
  match s.mem.cxl.find? (fun e => e.g == r.g) with
  | some e =>
      let r' := { r with pref := e.pref && r.pref, noData := e.noData && r.noData,
                         port := e.port, want := if e.want = .e then .e else if r.want = .i then e.want else r.want,
                         asks := e.asks ++ r.asks.filter (fun x => !e.asks.contains x),
                         keys := e.keys ++ r.keys.filter (fun x => !e.keys.contains x) }
      s.modMem (fun m => { m with cxl := m.cxl.map (fun x => if x.g == r.g then r' else x) })
  | none => s.modMem (fun m => { m with cxl := m.cxl ++ [{ r with port := cxlPortOf s r.g }] })

/-- Can the home serve an access now (R54, R64, R129, R168)? The state holds the requests that it waits for. -/
inductive HomeAns where
  | ready (s : State)
  | wait (s : State)
  | failed (s : State)
  deriving DecidableEq, Repr

/-- Granules of host line key that an access still lacks. -/
def granLack (s : State) (key : Nat) (off n : Nat) (write : Bool) : List Nat :=
  let l := (s.line (.host key)).getD {}
  let span := if write then granulesOf off n else (sectorsOf off n).flatMap (fun i => granulesOf (48 * i) 48)
  (List.range 3).filter (fun i => span.contains i &&
    (if write then l.granOf i != .e && l.granOf i != .m else l.granOf i == .i))

/-- What a line lacks and another line of the same host bytes holds goes back to the host, so that the device holds one copy that it may
write (R129, R140; assumption 48). -/
def reclaim (s : State) (key off n : Nat) (write : Bool) : State :=
  (granLack s key off n write).foldl (fun s i => (linesWith s (key + i)).foldl (fun s x =>
    let st := x.2.2.granOf x.2.1
    if x.1 == .host key || st == .i || (st == .s && !write) then s else granOut s x.1 x.2.1 x.2.2 (key + i) .i) s) s

/-- The way that an access needs, once nothing else keeps it back. -/
def homeWay (s : State) (k : LineKey) (alloc : Bool) : HomeAns :=
  if alloc then (match makeWay s k with | (true, s) => .ready s | (false, s) => .wait s) else .ready s

/-- The access of n bytes at a line; `alloc` when it takes a way of a line that is absent (R65), `pref` for a prefetch, `tok` its
identifier. A read asks for RdShared, a write for RdOwn; an engine's write that covers a granule whole asks for RdOwnNoData. -/
def homeReady (s : State) (k : LineKey) (off n : Nat) (write : Bool) (alloc : Bool := true) (pref : Bool := false) (tok : Nat := 0)
    (engine : Bool := false) : HomeAns :=
  match k with
  | .host key =>
      let need := granLack s key off n write
      if need.any (fun i => s.mem.cxlErr.contains (key + i, tok)) then
        .failed (s.modMem (fun m => { m with cxlErr := m.cxlErr.filter (fun e => !(e.2 == tok && (need.map (key + ·)).contains e.1)) }))
      else
        match makeWay (reclaim s key off n write) k with
        | (false, s) => .wait s
        | (true, s) =>
            if need.isEmpty then .ready s
            else
              let s := match s.line k with | some _ => s | none => s.setLine k {}
              let want : Gran := if write then .e else .s
              .wait (need.foldl (fun s i => cxlAsk s
                { g := key + i, want, pref, asks := [tok], keys := [key]
                  noData := engine && write && decide (off ≤ 64 * i ∧ 64 * i + 64 ≤ off + n) }) s)
  | .dev pl =>
      match (s.line k).bind (fun l => if l.owner.isSome then some l else none) with
      | some l => .wait (s.setLine k { l with recalled := true })
      | none =>
      if write && s.mem.hostHeld.contains pl then
        .wait (if s.mem.backInv.contains pl then s else s.modMem (fun m => { m with backInv := m.backInv ++ [pl] }))
      else homeWay (s.modMem (fun m => { m with apHeld := m.apHeld.filter (· != pl) })) k alloc
  | .proc _ _ _ => homeWay s k alloc

/-! ### Device bytes by physical address -/

/-- Chunks of a run of bytes, each in one line: address and length. -/
def chunks (a n : Nat) : List (Nat × Nat) :=
  if n = 0 then [] else
  (List.range ((a + n - 1) / 192 - a / 192 + 1)).map (fun i =>
    let s := max a ((a / 192 + i) * 192)
    (s, min (a + n) ((a / 192 + i + 1) * 192) - s))

/-- Every line of a run of device bytes can be served at its home; requests for what it lacks are sent (R54, R132, R168). -/
def homesReady (s : State) (cs : List (Nat × Nat)) (write : Bool) : Bool × State :=
  cs.foldl (fun r c =>
    match homeReady r.2 (.dev (c.1 / 192)) (c.1 % 192) c.2 write with
    | .ready s => (r.1, s)
    | .wait s | .failed s => (false, s)) (true, s)

def paReady (s : State) (pa n : Nat) (write : Bool) : Bool × State := homesReady s (chunks pa n) write

/-- Device bytes through their home lines. -/
def paRead (s : State) (pa n : Nat) : List Byte := (List.range n).map (fun i => lineByte s (.dev ((pa + i) / 192)) ((pa + i) % 192))
def paNat (s : State) (pa n : Nat) : Nat := leNat (paRead s pa n)
/-- A write by the device itself, whose lines `paReady` has obtained. -/
def paWrite (s : State) (pa : Nat) (bs : List Byte) : State :=
  (chunks pa bs.length).foldl (fun s c =>
    homeWrite s (.dev (c.1 / 192)) (c.1 % 192) ((bs.drop (c.1 - pa)).take c.2) 0) s

/-! ### Page tables -/

def globalTop : Nat := 0x0003000000000000
def reservedBase : Nat := 0x005F00000000
def memTop : Nat := 0x006000000000

/-- Page size at a level (R14). -/
def pageSize (lv : Nat) : Nat := 12288 * 64 ^ (lv - 1)

/-- A valid entry at level lv is malformed (R106). -/
def malformed (e : Quad) (lv : Nat) : Bool :=
  let f := fun hi lo => bitsOf e hi lo
  f 11 7 != 0 || f 6 6 != 0 ||
  (if f 1 1 = 0 then
     f 63 42 != 0 || f 5 2 != 0 || lv == 1 || decide (0x30000000 ≤ f 41 12) || decide (reservedBase < f 41 12 * 512 + 512)
   else
     let pty := f 3 2
     decide (5 ≤ lv) || ((pty == 1 || pty == 2) && lv != 1) ||
     (if pty = 0 then
        f 63 38 != 0 || decide (2 ^ 25 ≤ f 37 12) || f 37 12 % 64 ^ (lv - 1) != 0
          || decide (reservedBase < f 37 12 * 12288 + pageSize lv)
      else if pty = 1 then f 63 20 != 0 || f 5 4 != 0
      else if pty = 2 then f 63 52 != 0 || f 5 5 != 0
      else f 63 44 != 0 || f 5 5 != 0 || decide (2 ^ 25 ≤ f 37 12) || f 37 12 % 64 ^ (lv - 1) != 0))

/-- The leaf that a well-formed leaf entry maps (R105). -/
def leafOf (e : Quad) (lv : Nat) : Leaf :=
  let w := e.getLsbD 4
  match bitsOf e 3 2 with
  | 0 => .normal (bitsOf e 37 12 * 12288) lv w (e.getLsbD 5)
  | 1 => .proc (bitsOf e 19 12)
  | 2 => .host (bitsOf e 51 12 * 4096) w
  | _ => .peer (bitsOf e 43 38) (bitsOf e 37 12 * 12288) lv w

/-- What one step of a walk finds in an entry (R107). -/
inductive EntAns where
  | unmapped | firstTouch | malformed | node (a : Nat) | leaf (l : Leaf)
  deriving DecidableEq, Repr

def entryAns (e : Quad) (lv : Nat) : EntAns :=
  if e.getLsbD 0 = false then (if lv = 1 ∧ e.getLsbD 6 then .firstTouch else .unmapped)
  else if Machine.malformed e lv then .malformed
  else if e.getLsbD 1 then .leaf (leafOf e lv) else .node (bitsOf e 41 12 * 512)

/-- Table index of a page number at a level (R13). -/
def tableIdx (pn lv : Nat) : Nat := pn / 64 ^ (lv - 1) % 64

/-- A translation: a leaf with its level, a fault with its `fz`, or none yet. -/
inductive TrAns where
  | hit (l : Leaf) (lv : Nat)
  | fault (cause : Nat) (fz : Bool)
  | miss
  deriving DecidableEq, Repr

def xlRoot (s : State) (ctx : Nat) : Quad := mapGetD 0 ctx s.sys.xlRoot

/-! ### TLBs -/

def TlbEnt.covers (e : TlbEnt) (ctx pn : Nat) : Bool := e.ctx == ctx && e.pn == pn / 64 ^ (e.lv - 1)
def tlbFind (l : List TlbEnt) (ctx pn : Nat) : Option TlbEnt := l.find? (fun e => e.covers ctx pn)
def tlbAdd (l : List TlbEnt) (e : TlbEnt) : List TlbEnt := if l.contains e then l else l ++ [e]

/-- What is known of a page's translation for a core: its TLB, the cluster's, a walk that failed (R110, R111). A run-ahead also
sees the walks that ended at a first-touch entry for it (R117). -/
def translate (s : State) (ctx core pn : Nat) (ahead : Bool := false) : TrAns :=
  let inCluster := (clusterOf core).bind (fun n => tlbFind (s.cluster n).tlb ctx pn)
  match (tlbFind (s.core core).tlb ctx pn).orElse (fun _ => inCluster) with
  | some e => .hit e.leaf e.lv
  | none =>
      match s.xl.faults.find? (fun f => f.ctx == ctx && f.core == core && f.pn == pn && (ahead || !f.ahead)) with
      | some f => .fault f.cause f.fz
      | none => .miss

/-- Cores whose lookups one walk serves: those of a cluster (R111). -/
def sameWalk (a b : Nat) : Bool :=
  a == b || (match clusterOf a, clusterOf b with | some x, some y => x == y | _, _ => false)

/-- Start a walk for a core's miss, or join the one in flight for its cluster (R111). A context without a page table faults at
once (R107). -/
def startWalk (s : State) (ctx core pn : Nat) (ahead : Bool := false) : State :=
  let mine := fun (w : Walk) => w.ctx == ctx && w.va / 12288 == pn && w.cores.any (fun c => sameWalk c.1 core)
  if s.xl.walks.any mine then
    s.modXl (fun x => { x with walks := x.walks.map (fun w =>
      if mine w && !w.cores.contains (core, ahead) then { w with cores := w.cores ++ [(core, ahead)] } else w) })
  else
    let r := xlRoot s ctx
    if r.getLsbD 0 then
      let (id, s) := s.fresh
      s.modXl (fun x => { x with walks := x.walks ++ [⟨id, ctx, [(core, ahead)], pn * 12288, 6, bitsOf r 41 12 * 512, .reading⟩] })
    else s.modXl (fun x => { x with faults := x.faults ++ [⟨ctx, core, pn, 4, false, false⟩] })

/-- The failed walk has been acted on: a later attempt walks anew. -/
def useFault (s : State) (ctx core pn : Nat) : State :=
  s.modXl (fun x => { x with faults := x.faults.filter (fun f => !(f.ctx == ctx && f.core == core && f.pn == pn)) })

/-- The number under which a unit without a TLB walks, and keeps a translation until it has used it (assumption 78): the error rings
are unit 0, a launch that waits for its `bsem` is the one behind its identifier, the launch unit and Felt are unit 1. -/
def unitCore (u : Nat) : Nat := 512 + u

/-- A translation for the launch unit, Felt or an error ring, by a walk of its own (R107, R115); `miss` while the walk runs. -/
def unitTranslate (s : State) (ctx va : Nat) (u : Nat := 1) : TrAns × State :=
  match translate s ctx (unitCore u) (va / 12288) with
  | .miss => (.miss, startWalk s ctx (unitCore u) (va / 12288))
  | .fault c fz => (.fault c fz, useFault s ctx (unitCore u) (va / 12288))
  | .hit l lv => (.hit l lv, s)

/-- The unit has used its translations. -/
def dropUnit (s : State) (u : Nat := 1) : State := s.modCore (unitCore u) (fun c => { c with tlb := [] })

/-- Kinds of access for the page-type table of R30. -/
inductive AK where
  | load | pref | store | atom | atomsc | copyR | copyW | peerR | peerW | matrix | sampler | stash | fetch | spill
  | launchR | launchW
  deriving DecidableEq, Repr

inductive PageAns where
  | yes | touch | ro | kind | ignored
  deriving DecidableEq, Repr

/-- R30. -/
def pageRule (k : AK) : Leaf → PageAns
  | .normal _ _ _ _ => .yes
  | .proc _ =>
      match k with
      | .load | .copyR | .peerR | .matrix | .sampler => .touch
      | .pref => .touch
      | .store | .atom | .atomsc | .copyW | .peerW => .ro
      | .stash | .fetch | .spill | .launchR | .launchW => .kind
  | .host _ _ =>
      match k with
      | .load | .pref | .store | .atom | .copyR | .copyW | .sampler | .launchR | .launchW => .yes
      | _ => .kind
  | .peer _ _ _ _ =>
      match k with
      | .load | .store | .atom | .peerR | .peerW => .yes
      | .pref => .ignored
      | _ => .kind

def AK.writes : AK → Bool
  | .store | .atom | .atomsc | .copyW | .peerW | .stash | .launchW => true
  | _ => false

def Leaf.canWrite : Leaf → Bool | .normal _ _ w _ => w | .host _ w => w | .peer _ _ _ w => w | .proc _ => false

/-- This part's number (R513, R522). -/
def partNumber (s : State) : Nat := bitsOf s.sys.scPart 5 0

/-- A range as a context holds it: its base there (R77, R78). -/
def heldBase (s : State) (ctx rn : Nat) : Option Nat :=
  (mapGet rn s.felt.ranges).bind (fun r =>
    if r.releasing then none
    else if r.owner = ctx then some r.base
    else (r.attached.find? (fun e => e.1 == ctx)).map (·.2))

/-- Offset of a global address within a procedural range held by the context, or none (R32). -/
def procOffset (s : State) (ctx rn va : Nat) : Option Nat :=
  match heldBase s ctx rn, mapGet rn s.felt.ranges with
  | some b, some r => if b ≤ va ∧ va < b + 12288 * (r.npg + 1) then some (va - b) else none
  | _, _ => none

/-- Where a translated access lands, or its cause (R20 steps 6 and 7, R30, R32, R36, R90). `right` tells whether the gang
holds the fill right of a block of a range. DESIGN CHOICE: a store of that gang after the owner's release of the range has KIND
(assumption 85). -/
def landing (s : State) (ctx va : Nat) (k : AK) (right : Nat → Nat → Bool) (l : Leaf) : Except Nat Target :=
  let perm : Except Nat Unit :=
    if k = .fetch then (match l with | .normal _ _ _ x => if x then .ok () else .error 6 | _ => .error 3)
    else if k.writes && !l.canWrite then .error 5 else .ok ()
  match l with
  | .normal f lv _ _ => perm.map (fun _ => .dev (f + va % pageSize lv))
  | .host h _ =>
      if pageRule k l = .kind then .error 3 else perm.map (fun _ => .host ((h + va % 12288 - va % 192) / 64) (va % 192))
  | .peer part f lv _ =>
      if pageRule k l = .kind ∨ part = partNumber s then .error 3
      else perm.map (fun _ => .peer part (f + va % pageSize lv))
  | .proc rn =>
      match procOffset s ctx rn va with
      | none => .error 3
      | some off =>
          match pageRule k l with
          | .touch => .ok (.proc rn off)
          | .ro =>
              let bix := if isPageRange s rn then off / 12288 else off / 192
              if k = .store ∧ right rn bix then .ok (.proc rn off) else .error 5
          | _ => .error 3

/-- Line key and offset of a target that a home slice of this part holds (R47, R63, R79). -/
def keyOf (s : State) : Target → Option (LineKey × Nat)
  | .dev pa => some (.dev (pa / 192), pa % 192)
  | .host key off => some (.host key, off)
  | .proc rn off =>
      if isPageRange s rn then some (.proc rn (off / 12288) (off % 12288 / 192), off % 192)
      else some (.proc rn (off / 192) 0, off % 192)
  | _ => none

/-- The key of a target's line, peers included. -/
def targetKey (s : State) (t : Target) : Option LineKey :=
  match t with
  | .peer part pa => some (.dev (2 ^ 40 * (part + 1) + pa / 192))
  | t => (keyOf s t).map (·.1)

/-- The line that a global address of a context lies in, as the core's translations stand. -/
def lineAt (s : State) (ctx core va : Nat) : Option LineKey :=
  match translate s ctx core (va / 12288) with
  | .hit l _ => match landing s ctx va .load (fun _ _ => true) l with | .ok t => targetKey s t | .error _ => none
  | _ => none

/-- Does a store that a gang issued before identifier `id`, and that has not been sent, lie on one of the lines (R152)? One whose line is
not known yet does. -/
def unsentStore (s : State) (core tid gid id : Nat) (keys : List LineKey) : Bool :=
  !keys.isEmpty && (s.core core).sbuf.any (fun e =>
    e.team == tid && e.gang == gid && decide (e.id < id) && e.sent.isNone &&
      e.fibs.any (fun f => match lineAt s e.ctx core f.va with | some k => keys.contains k | none => e.cause.isNone))

/-- Has a request of the core to the line left for the home before place n, and not been performed (R71)? -/
def coreEarlier (s : State) (core n : Nat) (k : LineKey) : Bool :=
  let before := fun (x : Option Nat) => match x with | some m => decide (m < n) | none => false
  s.pend.loads.any (fun l => l.core == core &&
      l.parts.any (fun p => before p.sent && p.val.isNone && p.st == .ready && targetKey s p.tgt == some k))
    || (s.core core).sbuf.any (fun e => before e.sent && e.tgts.any (fun t => targetKey s t.2 == some k))
    || s.pend.atoms.any (fun a => a.core == core && before a.sent && a.fibs.any (fun x => x.ret.isNone) && targetKey s a.tgt == some k)
    || s.teams.any (fun t => t.2.place.core == core && t.2.stash.any (fun e => e.2.lines.any (fun l =>
        l.2.st == .filling && !l.2.owned && before l.2.sent && l.2.key == k)))

/-! ### Error rings -/

/-- Where a byte of a context's ring lies. -/
inductive RingAns where
  | at (k : LineKey) (off : Nat)
  | no
  | wait
  deriving DecidableEq, Repr

/-- A writable page of device or host memory, or none: so has an address that is not canonical (R12). -/
def ringTarget (s : State) (ctx va : Nat) : RingAns × State :=
  if globalTop ≤ va then (.no, s)
  else
  match unitTranslate s ctx va 0 with
  | (.miss, s) => (.wait, s)
  | (.fault _ _, s) => (.no, s)
  | (.hit l _, s) =>
      (match landing s ctx va .launchW (fun _ _ => false) l with
        | .ok t =>
            (match t with
              | .dev _ | .host _ _ => (match keyOf s t with | some (k, o) => RingAns.at k o | none => .no)
              | _ => .no)
        | _ => .no, s)

def legalRing (n lo hi : Nat) : Bool := decide (lo ≤ n ∧ n ≤ hi) && 2 ^ Nat.log2 n == n

/-- Write a record into a context's ring, then its tail (R132, R492); false while a line that it touches has to be obtained. -/
def writeCtxRec (s : State) (c : Nat) (q : QRec) : Bool × State :=
  let base := (mapGetD 0 c s.sys.ctxErBase).toNat
  let size := (mapGetD 0 c s.sys.ctxErSize).toNat
  if base = 0 then (true, s)
  else
    match ringTarget s c base with
    | (.wait, s) => (false, s)
    | (.no, s) => (true, s)
    | (.at k o, s) =>
        match homeReady s k o 24 true with
        | .wait s => (false, s)
        | .failed s => (true, s)
        | .ready s =>
            let et := leNat (homeRead s k o 8)
            let eh := leNat (homeRead s k (o + 8) 8)
            let drop := fun (s : State) =>
              (true, homeWrite s k (o + 16) (leBytes 8 (satAdd (leNat (homeRead s k (o + 16) 8)) 1 (2 ^ 64 - 1))) 0)
            if !legalRing size 16 4096 || (et + 2 ^ 64 - eh) % 2 ^ 64 == size then drop s
            else
              match ringTarget s c (base + 192 + 64 * (et % size)) with
              | (.wait, s) => (false, s)
              | (.no, s) => drop s
              | (.at k' o', s) =>
                  match homeReady s k' o' 64 true with
                  | .wait s => (false, s)
                  | .failed s => drop s
                  | .ready s =>
                      (true, homeWrite (homeWrite s k' o' (errBytes q.e c q.seq q.evc) 0) k o (leBytes 8 ((et + 1) % 2 ^ 64)) 0)

/-- The same for the device ring, with notice bit 3 (R490, R513, R515); that of an attestation report raises it in any case (R528). -/
def writeDevRec (s : State) (q : QRec) : Bool × State :=
  let base := s.sys.erBase.toNat
  let size := s.sys.erSize.toNat
  let gone := fun (s : State) => if q.e.cause = 0 then s.raiseNote 3 else s
  if base = 0 then (true, gone s)
  else
    match paReady s base 24 true with
    | (false, s) => (false, s)
    | (true, s) =>
        let et := paNat s base 8
        let eh := paNat s (base + 8) 8
        if !legalRing size 16 4096 || (et + 2 ^ 64 - eh) % 2 ^ 64 == size then
          (true, gone (paWrite s (base + 16) (leBytes 8 (satAdd (paNat s (base + 16) 8) 1 (2 ^ 64 - 1)))))
        else
          let a := base + 192 + 64 * (et % size)
          match paReady s a 64 true with
          | (false, s) => (false, s)
          | (true, s) =>
              (true, (paWrite (paWrite s a (errBytes q.e 0 q.seq q.evc)) base (leBytes 8 ((et + 1) % 2 ^ 64))).raiseNote 3)

def writeRec (s : State) (q : QRec) : Bool × State :=
  match q.ctx with | some c => writeCtxRec s c q | none => writeDevRec s q

/-- Write the waiting records that can be written; the records of one ring stay in order (R492). -/
def drainRecs (s : State) : State :=
  let r := s.recq.foldl (fun (a : List QRec × State) q =>
    if a.1.any (fun x => x.ctx == q.ctx) then (a.1 ++ [q], a.2)
    else match writeRec a.2 q with | (true, s) => (a.1, s) | (false, s) => (a.1 ++ [q], s)) ([], { s with recq := [] })
  let s := { r.2 with recq := r.1 ++ r.2.recq }
  if s.recq.isEmpty then dropUnit s 0 else s

/-- One record of a context (R492). -/
def ctxRecord (s : State) (ctx : Nat) (e : ErrInfo) : State := drainRecs (enqRecord s (some ctx) e)

/-- One record of the device ring (R490, R513, R515). -/
def devRecord (s : State) (e : ErrInfo) : State := drainRecs (enqRecord s none e)

/-- Count an error in a context (R387, R490). -/
def countErr (s : State) (ctx : Nat) : State := s.modCtx ctx (fun x => { x with errcnt := satQuad x.errcnt 1 })

/-- An error event: counted and recorded (R490). -/
def errEvent (s : State) (ctx : Nat) (e : ErrInfo) : State := ctxRecord (countErr s ctx) ctx e

/-- The ECCRD events of a read or a partial write of n bytes at a line (R489, R490). -/
def eccEvents (s : State) (ctx : Option Nat) (k : LineKey) (off n acc : Nat) : State :=
  let a := match k with | .host key => some (key * 64) | _ => backAddr s k
  (sectorsOf off n).foldl (fun s i =>
    let inLine := match s.line k with | some l => l.holds k (48 * i) | none => false
    let inMem := match a with | some a => s.mem.eccBad.contains ((a + 48 * i) / 48) | none => false
    if (inLine && s.mem.eccL2.contains (k, i)) || (!inLine && inMem && (match k with | .host _ => false | _ => true)) then
      let e : ErrInfo := { agent := sliceAgent (sliceOf k), cause := 0x17, addr := a.elim 0 (· + 48 * i), aux := acc * 256 }
      match ctx with | some c => errEvent s c e | none => devRecord s e
    else s) s

/-- The ECCRD events of scratchpad words that are read; each is zero from the moment its error arose (R489). -/
def spadEvents (s : State) (tid off n acc : Nat) : State :=
  match s.team tid with
  | none => s
  | some t =>
      let bad := t.spadBad.filter (fun w => decide (off < 4 * w + 4 ∧ 4 * w < off + n))
      -- a store that covers a word whole reads nothing of it
      let read := bad.filter (fun w => !((acc == 1 || acc == 4) && decide (off ≤ 4 * w ∧ 4 * w + 4 ≤ off + n)))
      (read.foldl (fun s w => errEvent s t.ctx { agent := t.place.agent, core := t.place.coreid, tslot := t.tslot, cause := 0x17,
                                                 addr := 2 ^ 60 + 4 * w, aux := acc * 256 }) s).modTeam tid
        (fun t => { t with spadBad := t.spadBad.filter (fun w => !bad.contains w) })

/-- The same for the words of an accumulator that are read (R489). -/
def accEvents (s : State) (tid acc : Nat) (read : Nat → Bool) : State :=
  match s.team tid with
  | none => s
  | some t =>
      let bad := t.accBad.filter (fun e => e.1 == acc && read e.2)
      (bad.foldl (fun s _ => errEvent s t.ctx { agent := t.place.agent, core := t.place.coreid, tslot := t.tslot, cause := 0x17,
                                                aux := 3 * 256 }) s).modTeam tid
        (fun t => { t with accBad := t.accBad.filter (fun e => !bad.contains e) })

end Sys2Proof.Machine
end

