-- ==== Sys2Proof/Machine/Ops.lean ====
section
/-! DEFINITION. The named operations: address checks (R17-R28), L1 and acquires (R47-R50, R149-R151), scratchpads and stash
lines (R53), run-ahead and fault records (R116-R119), fragments (R183-R188), windows (R193-R195), taking a trap and
returning from it (R474-R476), and the ends of gangs, teams and weaves (R24, R288, R391). -/

namespace Sys2Proof.Machine

/-! ### Addresses -/

/-- Where a checked address lies before translation. -/
inductive Where where
  | spad (team off : Nat)
  | page (va : Nat)
  | notStarted
  deriving DecidableEq, Repr

def gaSel (g : Quad) : Nat := bitsOf g 63 60
def canonGlobal (g : Quad) : Bool := decide (g.toNat < globalTop)

/-- Cores of a weave shape (R22) and the team of a member. -/
def memberTeam (s : State) (t : Team) (m : Nat) : Option (Nat × Team) := do
  let w ← mapGet t.weave s.weaves
  let tid ← w.teams[m]?
  let x ← s.team tid
  some (tid, x)
def weaveCores (s : State) (t : Team) : Nat :=
  if t.place.isTwill then 1 else match mapGet t.weave s.weaves with | some w => w.w * w.h | none => 1

/-- Step 1 of R20 (R17): the selector and the rsvd fields. -/
def canonical (g : Quad) : Bool :=
  match gaSel g with
  | 0 => canonGlobal g
  | 1 => bitsOf g 59 20 == 0
  | 2 => bitsOf g 59 56 == 0 && bitsOf g 51 20 == 0
  | 3 => bitsOf g 59 16 == 0
  | 4 => bitsOf g 59 24 == 0
  | _ => false

/-- Step 2 of R20 (R19): the access kinds of each space. -/
def spaceAccepts (k : AK) (sel : Nat) : Bool :=
  match sel with
  | 0 => true
  | 1 | 2 => k == .load || k == .store || k == .atom || k == .pref || k == .copyR || k == .copyW || k == .peerR || k == .peerW
  | 3 => k == .load || k == .pref
  | _ => k == .load || k == .store || k == .pref || k == .spill

/-- The constant window of a team: base and size (R27). -/
def windowBase (t : Team) : Nat := t.cbase.toNat - t.cbase.toNat % 64
def windowSize (t : Team) : Nat := 1024 * (t.cbase.toNat % 64 + 1)

/-- The global address that a window or private access is translated as (R27, R28); one at or above 768 TiB is NONCANON (R18). -/
def globalAt (va : Nat) : Except Nat Where := if va < globalTop then .ok (.page va) else .error 1

/-- Steps 1 to 4 of R20 for an access of n bytes, aligned to `al`, by a fibre with private index `pidx`; the team's own
number is `tid`. -/
def locate (s : State) (tid : Nat) (t : Team) (pidx : Nat) (k : AK) (n al : Nat) (g : Quad) : Except Nat Where :=
  let sel := gaSel g
  if !canonical g then .error 1
  else if !spaceAccepts k sel then .error 3
  else if g.toNat % al ≠ 0 then .error 0x0F
  else
    let off := bitsOf g 23 0
    match sel with
    | 0 => .ok (.page g.toNat)
    | 1 => if bitsOf g 19 0 + n ≤ t.spsz then .ok (.spad tid (bitsOf g 19 0)) else .error 2
    | 2 =>
        let m := bitsOf g 55 52
        if weaveCores s t ≤ m then .error 2
        else if t.place.isTwill ∨ m = t.member then
          (if bitsOf g 19 0 + n ≤ t.spsz then .ok (.spad tid (bitsOf g 19 0)) else .error 2)
        else
          match memberTeam s t m with
          | none => .error 2
          | some (u, x) =>
              if x.spsz < bitsOf g 19 0 + n then .error 2
              else if x.started then .ok (.spad u (bitsOf g 19 0)) else .ok .notStarted
    | 3 => if off + n ≤ windowSize t then globalAt (windowBase t + off) else .error 2
    | _ => if off + n ≤ t.pstride then globalAt (t.pbase + pidx * t.pstride + off) else .error 2

/-- Does the gang hold the fill right of a block (R89, R90)? -/
def Gang.holdsRight (g : Gang) (rn bix : Nat) : Bool := g.rights.any (fun e => e.2.rn == rn && e.2.bix == bix)

/-! ### L1, acquires and releases -/

def l1Has (c : Core) (k : LineKey) (sec : Nat) : Option (List Byte) :=
  (c.l1.find? (fun l => l.key == k)).bind (fun l => mapGet sec l.sectors)
/-- Sets of a core's L1 (R43): of a main-array core by its partition code; a Twill core's 64 KiB count as one set (R46,
assumption 79). -/
def l1Sets (core part : Nat) : Nat := if core < 256 then 64 * (min part 2 + 1) else 1
/-- Ways of a set (R43); 341 lines fit in 64 KiB. -/
def l1Ways (core : Nat) : Nat := if core < 256 then 8 else 341
/-- The index that R47 maps into the sets. -/
def keyIndex : LineKey → Nat
  | .dev pl => pl
  | .host key => key
  | .proc _ bix lib => 64 * bix + lib
/-- Put a sector into a cache of lines: `same` tells which lines share the set, of `ways` ways. With every way taken, a free value
picks the line that goes (R47). -/
def putSector (s : State) (l : List L1Line) (same : L1Line → Bool) (ways : Nat) (k : LineKey) (sec : Nat) (bs : List Byte) :
    List L1Line × State :=
  if l.any (fun x => x.key == k) then
    (l.map (fun x => if x.key == k then { x with sectors := mapPut sec bs x.sectors } else x), s)
  else
    match l.filter same with
    | v :: t =>
        if t.length + 1 < ways then (l ++ [⟨k, [(sec, bs)]⟩], s)
        else
          let (q, s) := s.freeQ
          let out := (v :: t).getD (q.toNat % (t.length + 1)) v
          (l.filter (fun x => x.key != out.key) ++ [⟨k, [(sec, bs)]⟩], s)
    | [] => (l ++ [⟨k, [(sec, bs)]⟩], s)
/-- A sector enters a core's L1. -/
def l1Install (s : State) (core : Nat) (k : LineKey) (sec : Nat) (bs : List Byte) : State :=
  let c := s.core core
  let n := l1Sets core c.part
  let (l, s) := putSector s c.l1 (fun x => keyIndex x.key % n == keyIndex k % n) (l1Ways core) k sec bs
  s.modCore core (fun c => { c with l1 := l })
/-- A sector enters a core's texel cache, of 384 lines (R39, R61). -/
def texInstall (s : State) (core : Nat) (k : LineKey) (sec : Nat) (bs : List Byte) : State :=
  let (l, s) := putSector s (s.core core).texel (fun _ => true) 384 k sec bs
  s.modCore core (fun c => { c with texel := l })
def dropSectors (c : Core) (k : LineKey) : Core := { c with l1 := c.l1.filter (fun l => l.key != k) }
def l1DropSector (c : Core) (k : LineKey) (sec : Nat) : Core :=
  let l1 := c.l1.map (fun l => if l.key == k then { l with sectors := mapDel sec l.sectors } else l)
  { c with l1 := l1.filter (fun l => !l.sectors.isEmpty) }
/-- Put bytes into a list from a position on. -/
def overlay (l : List Byte) (off : Nat) (bs : List Byte) : List Byte :=
  (List.range l.length).map (fun i => if off ≤ i ∧ i < off + bs.length then bs.getD (i - off) 0 else l.getD i 0)
/-- A store or an atomic touches a sector: fills of it in flight install nothing (R151). -/
def noFill (s : State) (core : Nat) (k : LineKey) (sec : Nat) : State :=
  s.modPend (fun p => { p with
    loads := p.loads.map (fun l => if l.core == core then
      { l with parts := l.parts.map (fun q =>
          match keyOf s q.tgt with
          | some (k', o) => if k' == k && o / 48 == sec then { q with noInstall := true } else q
          | none => q) } else l)
    prefs := p.prefs.map (fun x => if x.core == core && x.key == k then { x with noInstall := true } else x) })
/-- A store that translates updates the L1 sectors present (R48), and the fills of the sector in flight install nothing (R151). A
copy of a line of a block being filled is of an older fill: it goes, so that no sector mixes two fills (R95). -/
def l1Store (s : State) (core : Nat) (k : LineKey) (off : Nat) (bs : List Byte) : State :=
  let put := fun (e : Nat × List Byte) =>
    (e.1, if 48 * e.1 ≤ off ∧ off < 48 * e.1 + 48 then overlay e.2 (off - 48 * e.1) bs else e.2)
  let s := match k with
    | .proc _ _ _ => s.modCore core (fun c => l1DropSector c k (off / 48))
    | _ => s.modCore core (fun c => { c with l1 := c.l1.map (fun l => if l.key == k then { l with sectors := l.sectors.map put } else l) })
  noFill s core k (off / 48)

/-- A core has accessed a stash line: what its L1 holds of the line, or is being sent, is older (R56, R146). -/
def freshL1 (s : State) (core : Nat) (k : LineKey) : State :=
  (List.range 4).foldl (fun s i => noFill s core k i) (s.modCore core (fun c => dropSectors c k))

/-- The fills in flight of a core deliver but install nothing (R50). -/
def noInstall (s : State) (core : Nat) : State :=
  s.modPend (fun p => { p with
    loads := p.loads.map (fun l => if l.core == core then { l with noInstall := true } else l)
    prefs := p.prefs.map (fun x => if x.core == core then { x with noInstall := true } else x) })
def dropL1 (s : State) (core : Nat) : State := noInstall (s.modCore core (fun c => { c with l1 := [] })) core
/-- A texel cache is invalidated: nothing that operations under way have obtained of older fills enters it any more (R61, R95). -/
def dropTexel (s : State) (core : Nat) : State :=
  (s.modCore core (fun c => { c with texel := [] })).modPend (fun p => { p with
    samples := p.samples.map (fun x => if x.core == core then { x with quiet := true } else x) })

/-- A later write of a gang is about to be performed at a line: its unit reads that have not been performed keep the line as it stands (R146
rule 3, R400). -/
def keepSeen (s : State) (tid gid id : Nat) (k : LineKey) : State :=
  let mine := fun (x : PendSample) => x.team == tid && x.gang == gid && decide (x.id < id) && !x.seen.any (fun e => e.1 == k)
  if !s.pend.samples.any mine then s
  else
    let now := ((List.range 192).zip (homeRead s k 0 192)).filter (fun c => c.2 != 0)
    s.modPend (fun p => { p with samples := p.samples.map (fun x => if mine x then { x with seen := x.seen ++ [(k, now)] } else x) })
/-- The invalidations of an acquire at a scope (R150). -/
def acquire (s : State) (core scope : Nat) : State :=
  if scope = 0 then s else if scope < 3 then dropL1 s core else dropTexel (dropL1 s core) core

def Target.isPeer : Target → Bool | .peer _ _ => true | _ => false

/-- R149 for a gang: its reads have their values; the core's stores and atomics with identifiers below `upTo` have been
performed or entered. Peer writes count at system scope only, and only the gang's own: they have been answered (R169). -/
def releaseReady (s : State) (core tid gid scope upTo : Nat) : Bool :=
  let mine := fun (t g id : Nat) => t == tid && g == gid && decide (id < upTo)
  s.pend.loads.all (fun l => !mine l.team l.gang l.id || l.parts.all (fun p => p.val.isSome))
    && s.pend.samples.all (fun x => x.held || !mine x.team x.gang x.id)
    && s.pend.atoms.all (fun a => a.fibs.all (fun x => x.ret.isSome) ||
          (if mine a.team a.gang a.id then a.tgt.isPeer && scope != 4 && a.dst.isNone
           else !(a.core == core && decide (a.id < upTo)) || a.tgt.isPeer))
    && (s.core core).sbuf.all (fun e => decide (upTo ≤ e.id))
    && s.pend.spads.all (fun x => !(x.core == core && decide (x.id < upTo)))
    && (scope != 4 || s.pend.peers.all (fun p => match p.who with | .store _ t g _ e => !mine t g e | _ => true))

/-! ### Records of a gang -/

/-- Where a gang makes its accesses (R491). -/
def originOf (t : Team) (g : Gang) : Origin :=
  { agent := t.place.agent, core := t.place.coreid, gslot := g.gslot, tslot := t.tslot }
def Iss.origin (i : Iss) : Origin := originOf i.team i.gang
/-- Error information with the place of the one that made the access (R491). -/
def Origin.err (o : Origin) (fib cause : Nat) : ErrInfo :=
  { agent := o.agent, core := o.core, gslot := o.gslot, tslot := o.tslot, fib, cause }
def gangErr (t : Team) (g : Gang) (fib cause : Nat) : ErrInfo := (originOf t g).err fib cause

/-- The lowest reply tag that no waiting record has (R119). -/
def freeTag (s : State) : Nat :=
  ((List.range 65536).find? (fun n => !s.xl.recs.any (fun r => r.tag == n))).getD 0

/-- Hold a gang for a new fault record (R119). -/
def holdForRecord (s : State) (tid gid : Nat) (t : Team) (g : Gang) (ipc fva : Quad) (src ra ffib : Nat)
    (pages : List PageSlot) : State :=
  let tag := freeTag s
  let r : FaultRec := { tag, who := .gang tid gid, ipc, fva, ctx := t.ctx, core := t.place.coreid, gslot := g.gslot,
                        src, ra, ffib, ovf := false, pages := pages.take 32, agent := t.place.agent }
  (s.modXl (fun x => { x with recs := x.recs ++ [r] })).modGang tid gid (fun g => { g with heldFor := some tag })

/-- Walks of a core for a context and their results are asked for anew by whoever still needs them. -/
def forgetWalks (s : State) (ctx core : Nat) : State :=
  s.modXl (fun x => { x with
    walks := (x.walks.map (fun w => if w.ctx == ctx then { w with cores := w.cores.filter (fun c => c.1 != core) } else w)).filter
      (fun w => !w.cores.isEmpty)
    faults := x.faults.filter (fun f => !(f.ctx == ctx && f.core == core)) })

/-- A rollback: the checkpoint is the gang's own state (R117); the record follows (R119). -/
def endRunAhead (s : State) (tid gid : Nat) : State :=
  match s.team tid, s.gang tid gid with
  | some t, some g =>
      match g.ra with
      | some r =>
          let s := forgetWalks (s.modGang tid gid (fun g => { g with ra := none })) t.ctx t.place.core
          holdForRecord s tid gid t { g with ra := none } r.ipc r.fva 0 r.reason r.ffib r.pages
      | none => s
  | _, _ => s

/-- Run-ahead has met its end (R117): the gang issues nothing more before RUN_AHEAD_END. -/
def stopAhead (s : State) (tid gid reason : Nat) : State :=
  s.modGang tid gid (fun g => { g with ra := g.ra.map (fun r => { r with reason }) })

/-! ### Scratchpads and stash lines -/

/-- The stash entry and line that a scratchpad offset lies in (R51). -/
def stashAt (t : Team) (off : Nat) : Option (Nat × Nat × Stash) :=
  (t.stash.find? (fun e => decide (e.2.soff ≤ off ∧ off < e.2.soff + 192 * e.2.nl + 192))).map
    (fun e => (e.1, (off - e.2.soff) / 192, e.2))
def stashLine (e : Stash) (l : Nat) : Option StashLine := mapGet l e.lines
def setStashLine (s : State) (tid n l : Nat) (x : Option StashLine) : State :=
  s.modTeam tid (fun t => { t with stash := mapMod n (fun e =>
    { e with lines := match x with | some v => mapPut l v e.lines | none => mapDel l e.lines }) t.stash })

/-- Write a MODIFIED stash line back to its home and give up or keep ownership (R53). -/
def stashWriteBack (s : State) (tid n l : Nat) (keep : Bool) : State :=
  match s.team tid with
  | none => s
  | some t =>
      match mapGet n t.stash with
      | none => s
      | some e =>
          match stashLine e l with
          | none => s
          | some x =>
              let s := if x.st = .modified then homeWrite s x.key 0 (memBytes t.spad (e.soff + 192 * l) 192) 0 else s
              let own := fun (s : State) (o : Option (Nat × Nat)) =>
                match s.line x.key with | some ln => s.setLine x.key { ln with owner := o, recalled := false } | none => s
              if keep then setStashLine s tid n l (some { x with st := .clean })
              else setStashLine (own s none) tid n l none

/-- Unmap every line of an entry that is not FILLING (R53). -/
def stashUnmap (s : State) (tid n : Nat) : State :=
  match (s.team tid).bind (fun t => mapGet n t.stash) with
  | none => s
  | some e => e.lines.foldl (fun s x => if x.2.st = .filling then s else stashWriteBack s tid n x.1 false) s

/-- Is a target one of a scratchpad's bytes from lo on, below hi? -/
def Target.inSpad (t : Target) (tid lo hi : Nat) : Bool :=
  match t with | .spad u o => u == tid && decide (lo ≤ o ∧ o < hi) | _ => false

/-- Does something wait for another line that is being filled? -/
def waitsElse (s : State) (tid n l : Nat) (w : StashW) : Bool :=
  s.teams.any (fun t => t.2.stash.any (fun e => e.2.lines.any (fun x =>
    x.2.st == .filling && x.2.waiters.contains w && !(t.1 == tid && e.1 == n && x.1 == l))))

/-- Does what waits for a line of a stash entry still wait (R53)? An access waits until it has been performed there. An instruction held at
issue waits while its gang stands at it and no other line holds it (assumption 97); an engine's command likewise. -/
def stashLive (s : State) (tid n l lo : Nat) (w : StashW) : Bool :=
  match w with
  | .acc id =>
      s.pend.loads.any (fun x => x.id == id && x.parts.any (fun p => p.val.isNone && p.tgt.inSpad tid lo (lo + 192)))
        || s.pend.spads.any (fun x => x.id == id && x.parts.any (fun p => (Target.spad p.1 p.2.1).inSpad tid lo (lo + 192)))
        || s.pend.atoms.any (fun x => x.id == id && x.fibs.any (·.ret.isNone) && x.tgt.inSpad tid lo (lo + 192))
  | .instr t g pc =>
      (match s.gang t g with
        | some x => x.heldFor.isNone && x.ra.isNone && x.frags.any (fun f => f.pc == pc && !f.held && f.st == .running)
        | none => false) && !waitsElse s tid n l w
  | .cmd id => s.cmds.any (fun c => c.id == id && c.st == .running) && !waitsElse s tid n l w

/-- Is a fill of one of the lines of an entry under way, or has an access that waited for one not been performed (R53)? -/
def stashWaits (s : State) (tid n : Nat) (which : Nat → Bool) : Bool :=
  match (s.team tid).bind (fun t => mapGet n t.stash) with
  | none => false
  | some e => e.lines.any (fun l => which l.1 &&
      (l.2.st == StashSt.filling || l.2.waiters.any (stashLive s tid n l.1 (e.soff + 192 * l.1))))

/-- The home forgets the owner of every line of an entry (R53). -/
def stashRelease (s : State) (e : Stash) : State :=
  e.lines.foldl (fun s x =>
    match (if x.2.owned then s.line x.2.key else none) with
    | some ln => s.setLine x.2.key { ln with owner := none, recalled := false }
    | none => s) s

/-- Where an access of a scratchpad location stands (R53): it can be performed now; it waits for a line whose fill has left for the home,
behind what waits already; the line has to be filled first. -/
inductive SpadAns where
  | now | later | hold
  deriving DecidableEq, Repr

def spadStands (s : State) (tid off : Nat) (w : StashW) : SpadAns :=
  match (s.team tid).bind (fun t => stashAt t off) with
  | none => .now
  | some (n, l, e) =>
      match stashLine e l with
      | none => .hold
      | some x =>
          if x.st = StashSt.filling then (if x.sent.isSome && x.bad.isNone then .later else .hold)
          else if (x.waiters.takeWhile (· != w)).any (stashLive s tid n l (e.soff + 192 * l)) then .later else .now

/-- Is a RASTQ of the gang's not rasterised yet? Its writes stand at the RASTQ, so later accesses wait for them to be known (R146, R425). -/
def rastqOpen (s : State) (tid gid : Nat) : Bool :=
  s.pend.samples.any (fun x => x.kind == SampKind.rastq && x.team == tid && x.gang == gid && x.fibs.any (fun f => !f.done && f.writes.isNone))

/-- Has the gang an earlier access of the global line behind a scratchpad location that has not been performed (R56, R146, R152)? -/
def spadBusy (s : State) (t : Team) (e : Stash) (l : Nat) (x : Option StashLine) (me : Nat × Nat × Quad) : Bool :=
  match (s.team me.1).map (·.place.core) with
  | none => false
  | some core =>
      rastqOpen s me.1 me.2.1 ||
      let k := match x with
        | some y => if y.sent.isSome || y.st != .filling then some y.key else lineAt s t.ctx t.place.core (e.gva + 192 * l)
        | none => lineAt s t.ctx t.place.core (e.gva + 192 * l)
      match k with
      | some k =>
          unsentStore s core me.1 me.2.1 s.sched.nextId [k] || coreEarlier s core s.sched.nextId k
            || s.pend.loads.any (fun l => l.team == me.1 && l.gang == me.2.1 &&
                l.parts.any (fun p => p.val.isNone && p.st == PartSt.ready && p.sent.isNone && targetKey s p.tgt == some k))
            || s.pend.atoms.any (fun a => a.team == me.1 && a.gang == me.2.1 && a.sent.isNone && a.fibs.any (·.ret.isNone)
                && targetKey s a.tgt == some k)
      | none => (s.core core).sbuf.any (fun e => e.team == me.1 && e.gang == me.2.1 && e.sent.isNone && e.cause.isNone)

/-- An access of n bytes of a scratchpad, by an instruction or a command `w` of a gang, is not held (R53, R55): with `issue` it may wait for
its line once it has been issued. A fill's fault is the trap of the access that started it, and the line is ABSENT again. -/
def spadCheck (s : State) (tid off n acc : Nat) (me : Nat × Nat × Quad) (w : StashW) (issue : Bool) : Res Unit :=
  let s := spadEvents s tid off n acc
  match s.team tid with
  | none => .ok () s
  | some t =>
      match stashAt t off with
      | none => .ok () s
      | some (n, l, e) =>
          let x := stashLine e l
          if !(x.elim false (·.waiters.contains w)) && spadBusy s t e l x me then .wait s
          else
          match x with
          | none => .wait (setStashLine s tid n l (some { st := .filling, team := me.1, gang := me.2.1, ipc := me.2.2, waiters := [w] }))
          | some x =>
              let join := fun (s : State) =>
                if x.waiters.contains w then s else setStashLine s tid n l (some { x with waiters := x.waiters ++ [w] })
              match spadStands s tid off w, x.bad with
              | .now, _ => .ok () s
              | .later, _ => if issue then .ok () (join s) else .wait (join s)
              | .hold, some c =>
                  if me = (x.team, x.gang, x.ipc) then
                    .trap { cause := c, addr := BitVec.ofNat 64 (2 ^ 60 + off) } (setStashLine s tid n l none)
                  else if stashLive s tid n l (e.soff + 192 * l) (.instr x.team x.gang x.ipc) then .wait s
                  else .wait (setStashLine s tid n l none)
              | .hold, none => .wait (join s)

/-- An access is performed at its stash line, by a core: the line's state follows, and what does not wait any more leaves the list. -/
def spadTake (s : State) (tid off : Nat) (write : Bool) (w : StashW) (core : Option Nat) : State :=
  match (s.team tid).bind (fun t => stashAt t off) with
  | none => s
  | some (n, l, e) =>
      match stashLine e l with
      | none => s
      | some (x : StashLine) =>
          let s := match core with | some c => freshL1 s c x.key | none => s
          setStashLine s tid n l (some { x with
            st := if write then .modified else x.st
            waiters := x.waiters.filter (fun y => (y != w || (match w with | .acc _ => true | _ => false)) && stashLive s tid n l (e.soff + 192 * l) y) })

/-- An access that has been issued keeps the place that its instruction had among those that wait for a line. -/
def spadJoin (s : State) (tid off : Nat) (w : StashW) (id : Nat) : State :=
  match (s.team tid).bind (fun t => stashAt t off) with
  | none => s
  | some (n, l, e) =>
      match stashLine e l with
      | none => s
      | some x =>
          let ws := if x.waiters.contains (.acc id) then x.waiters.filter (· != w)
            else if x.waiters.contains w then x.waiters.map (fun y => if y = w then .acc id else y) else x.waiters ++ [.acc id]
          setStashLine s tid n l (some { x with waiters := ws })

/-- A scratchpad access of n bytes by an instruction that reads or writes it now, or waits (R53, R55). -/
def spadReady (s : State) (tid off n acc : Nat) (write : Bool) (me : Nat × Nat × Quad) (w : StashW := .instr me.1 me.2.1 me.2.2) :
    Res Unit :=
  (spadCheck s tid off n acc me w false).bind fun _ s => .ok () (spadTake s tid off write w ((s.team me.1).map (·.place.core)))

def spadRead (s : State) (tid off n : Nat) : List Byte :=
  match s.team tid with
  | some t =>
      -- a byte of a transforming request's destination is unspecified until the request completes (R123)
      let unset := s.mem.unset.filterMap (fun e => match e.1 with | .spad u o => if u = tid then some (o, e.2.1) else none | _ => none)
      if unset.isEmpty then memBytes t.spad off n
      else ((memBytes t.spad off n).zipIdx).map (fun b =>
        if unset.any (fun e => decide (e.1 ≤ off + b.2 ∧ off + b.2 < e.1 + e.2)) then
          Config.openByte s.sched.now (2 ^ 60 + 2 ^ 20 * tid + off + b.2)
        else b.1)
  | none => List.replicate n 0
def spadWrite (s : State) (tid off : Nat) (bs : List Byte) : State :=
  s.modTeam tid (fun t => { t with spad := memPutBytes t.spad off bs })

/-! ### Fragments -/

/-- Live fibres of a gang that a fragment of the gang holds. -/
def Frag.fibres (f : Frag) : List Nat := maskList f.mask
def Frag.lowest (f : Frag) : Nat := (f.fibres.head?).getD 0

/-- The longest common run of two stacks, from the bottom (the bottom is the last element). -/
def commonBottom (a b : List (Quad × Nat)) : List (Quad × Nat) :=
  let rec go : List (Quad × Nat) → List (Quad × Nat) → List (Quad × Nat) → List (Quad × Nat)
    | x :: xs, y :: ys, acc => if x = y then go xs ys (x :: acc) else acc
    | _, _, acc => acc
  go a.reverse b.reverse []

/-- One fragment for several, at a pc; the merge is a re-gang (R163). -/
def mergeFrags (fs : List Frag) (pc : Quad) (stack : List (Quad × Nat)) : Frag :=
  { pc, mask := fs.foldl (fun m f => m ||| f.mask) 0, stack, wait := .regang }

/-- Put fragments into the order of their lowest fibres. -/
def orderFrags (fs : List Frag) : List Frag := sortBy (fun a b => decide (a.lowest < b.lowest)) fs

/-- A RUNNING fragment at its top entry's address parks (R186). -/
def parkFrag (f : Frag) : Frag :=
  match f.stack with
  | (l, _) :: _ => if f.st = .running ∧ f.pc = l ∧ (f.wait = .none ∨ f.wait = .regang ∨ f.wait = .settle) then { f with st := .parked } else f
  | [] => f

/-- The set of an entry's tag is wholly PARKED on it: it merges (R186). -/
def mergeSet (fs : List Frag) : Option (List Frag) :=
  let tops := fs.filterMap (fun f => if f.st = .parked then f.stack.head? else none)
  (tops.find? (fun e => (fs.filter (fun f => f.stack.any (fun x => x.2 == e.2))).all
      (fun f => f.st == .parked && f.stack.head? == some e))).map (fun e =>
    let set := fs.filter (fun f => f.stack.any (fun x => x.2 == e.2))
    let below := set.map (fun f => f.stack.tail)
    let st := below.tail.foldl commonBottom (below.headD [])
    orderFrags (mergeFrags set e.1 st :: fs.filter (fun f => !f.stack.any (fun x => x.2 == e.2))))

/-- A fragment that may merge at its pc: RUNNING, with the instruction there not issued yet, or waiting at a barrier (R185,
R348). -/
def Frag.mergeable (f : Frag) : Bool :=
  f.st == .running && f.sc == 0 && (match f.wait with | .none | .regang | .settle | .bar _ | .wbar _ => true | _ => false)

/-- Two RUNNING fragments at one pc with one stack merge (R185). One that waits at a barrier counts as RUNNING: the merged fragment
issues the barrier instruction again once its re-gang is done, so that every fibre arrives with its release (R163, R349). -/
def mergePair (fs : List Frag) : Option (List Frag) :=
  let like := fun (a b : Frag) => b.mergeable && b.pc == a.pc && b.stack == a.stack
  (fs.find? (fun a => a.mergeable && fs.any (fun b => like a b && b.mask != a.mask))).map (fun a =>
    orderFrags (mergeFrags (fs.filter (like a)) a.pc a.stack :: fs.filter (fun b => !like a b)))

/-- Every LIVE fibre waits in WAITGANG at one pc: the fragments merge; a GBAR completes, an MMA16 issues (R187). -/
def mergeGang (live : List Nat) (fs : List Frag) : Option (List Frag) :=
  match fs with
  | [] => none
  | a :: _ =>
      if fs.all (fun f => f.st == .waitgang && f.pc == a.pc && f.wait == a.wait) &&
          live.all (fun i => fs.any (fun f => f.mask.getLsbD i)) then
        let st := (fs.tail.map (·.stack)).foldl commonBottom a.stack
        some [mergeFrags fs (if a.wait = .gbar then a.pc + 8 else a.pc) st]
      else none

/-- Parking and merging until nothing changes. -/
def settleFrags (live : List Nat) : Nat → List Frag → List Frag
  | 0, fs => fs
  | n + 1, fs =>
      let fs := fs.map parkFrag
      match (mergeSet fs).orElse (fun _ => (mergePair fs).orElse (fun _ => mergeGang live fs)) with
      | some x => settleFrags live n x
      | none => fs

/-- At an instruction boundary of a gang that is neither in a handler nor in run-ahead (R185-R188). -/
def settleGang (s : State) (tid gid : Nat) : State :=
  s.modGang tid gid (fun g =>
    if g.handler.isSome ∨ g.entry.isSome ∨ g.ra.isSome then g else { g with frags := settleFrags g.liveFibres 130 g.frags })

/-- Barrier n of a kind completes when every LIVE fibre of its teams waits at it (R348); the completion is an acquire (R349). DESIGN
CHOICE: a member that has not started has no LIVE fibre yet, so a WBAR does not wait for it (assumption 99). -/
def fragsOf (s : State) (tids : List Nat) : List Frag :=
  tids.flatMap (fun t => match s.team t with | some x => if x.ended then [] else x.gangs.flatMap (fun g => g.2.frags) | none => [])

def barrierTry (s : State) (tids : List Nat) (w : FragWait) (scope : Nat) : State :=
  let fs := fragsOf s tids
  if !fs.isEmpty && fs.all (fun f => f.wait == w) then
    tids.foldl (fun s t =>
      match s.team t with
      | none => s
      | some x =>
          if x.ended then s
          else
            let s := x.gangs.foldl (fun s g => settleGang
              (s.modGang t g.1 (fun g => { g with frags := g.frags.map (fun f => { f with wait := .none, pc := f.pc + 8 }) }))
              t g.1) s
            acquire s x.place.core scope) s
  else s

/-- Judge every barrier of a team and its weave afresh (R348). -/
def barriersTry (s : State) (tid : Nat) : State :=
  match s.team tid with
  | none => s
  | some t =>
      let members := match mapGet t.weave s.weaves with | some w => w.teams | none => [tid]
      let s := (List.range 8).foldl (fun s n => barrierTry s [tid] (.bar n) 1) s
      (List.range 8).foldl (fun s n => barrierTry s members (.wbar n) 2) s

/-! ### Ends -/

/-- Publication or failure messages carry the core's stamp (R468). -/
def sendFail (s : State) (tid gid : Nat) (t : Team) (rn bix cause code : Nat) : State :=
  let (st, s) := s.stamp t.place.agent
  let (id, s) := s.fresh
  s.modPend (fun p => { p with pubs := p.pubs ++ [⟨id, t.place.core, tid, gid, rn, bix, some (cause, code), id, st⟩] })

/-- Every fill right of a gang fails with a cause and code (R96). -/
def failRights (s : State) (tid gid cause code : Nat) : State :=
  match s.team tid, s.gang tid gid with
  | some t, some g =>
      (g.rights.foldl (fun s r => sendFail s tid gid t r.2.rn r.2.bix cause code) s).modGang tid gid
        (fun g => { g with rights := [] })
  | _, _ => s

/-- The store-fault records of a gang that ends: counted and recorded, not trapped (R127, R288). -/
def settleStoreFaults (s : State) (tid gid : Nat) (t : Team) (g : Gang) : State :=
  let c := t.place.core
  let mine := (s.core c).sfq.filter (fun r => r.team == tid && r.gang == gid)
  let s := s.modCore c (fun c => { c with
    sfq := c.sfq.filter (fun r => !(r.team == tid && r.gang == gid))
    sbuf := c.sbuf.map (fun e => if e.team == tid ∧ e.gang == gid then { e with ended := true } else e) })
  mine.foldl (fun s r =>
    let fib := ((maskList (r.bits.extractLsb' 128 64)).head?).getD 0
    errEvent s t.ctx { gangErr t g fib (bitsOf r.bits 63 56) with addr := bitsOf r.bits 255 192, aux := 0x100 }) s

/-- Has a team nothing in flight that needs its scratchpad, its tiles or its stash lines (R24, R391)? -/
def teamIdle (s : State) (tid : Nat) : Bool :=
  let here := fun (t : Target) => match t with | .spad u _ => u == tid | _ => false
  !s.cmds.any (fun c => c.team == tid) && !s.pend.samples.any (fun z => z.team == tid)
    && !s.pend.spads.any (fun x => x.parts.any (fun p => p.1 == tid))
    && !s.pend.loads.any (fun l => l.parts.any (fun p => p.val.isNone && here p.tgt))
    && !s.pend.atoms.any (fun a => here a.tgt && a.fibs.any (·.ret.isNone))

/-- Remove a weave whose teams have all ended and have nothing in flight left (R24); its launch loses it. -/
def weaveTry (s : State) (w : Nat) : State :=
  match mapGet w s.weaves with
  | none => s
  | some x =>
      if x.teams.all (fun t => (match s.team t with | some y => y.ended && y.stash.isEmpty | none => true) && teamIdle s t) then
        { s with
          weaves := mapDel w s.weaves
          teams := s.teams.filter (fun e => !x.teams.contains e.1)
          launches := s.launches.map (fun l => (l.1, { l.2 with live := l.2.live.filter (· != w) })) }
      else s

/-- The last team of a context on a core has left: the core's weight blocks of the context go (R419). -/
def dropContextWeights (s : State) (ctx core : Nat) : State :=
  if s.teams.any (fun e => e.2.ctx == ctx && e.2.place.core == core && !e.2.ended) then s
  else s.modCore core (fun c => { c with weights := c.weights.filter (fun w => w.ctx != ctx) })

/-- The context that a binding word names, if valid (R516). -/
def boundCtx (b : Quad) : Option Nat := if b.getLsbD 8 then some (bitsOf b 7 0) else none
/-- Has a context that a binding names a resident team? -/
def resident (s : State) (b : Quad) : Bool :=
  match boundCtx b with | some c => s.teams.any (fun t => t.2.ctx == c && !t.2.ended) | none => false

/-- A binding takes effect when no context that the old or the new value names has a resident team (R516). -/
def settleBinding (s : State) (b : BindSlot) : State :=
  let y := s.sys
  let go := fun (old new : Quad) => !resident s old && !resident s new
  match b with
  | .mailbox n =>
      let new := mapGetD 0 n y.mbBind
      if go (mapGetD 0 n y.mbBindNow) new then s.modSys (fun y => { y with mbBindNow := mapPutD 0 n new y.mbBindNow }) else s
  | .twill n =>
      let new := mapGetD 0 n y.twBind
      if go (mapGetD 0 n y.twBindNow) new then s.modSys (fun y => { y with twBindNow := mapPutD 0 n new y.twBindNow }) else s

/-- Bindings that have been written and have not taken effect. -/
def pendingBinds (s : State) : List BindSlot :=
  let y := s.sys
  let keys := fun (a b : List (Nat × Quad)) => ((a ++ b).map (·.1)).eraseDups.filter (fun n => mapGetD 0 n a != mapGetD 0 n b)
  (keys y.mbBind y.mbBindNow).map .mailbox ++ (keys y.twBind y.twBindNow).map .twill
/-- Teams have left: the bindings that waited for it take effect (R516). -/
def settleBindings (s : State) : State := (pendingBinds s).foldl settleBinding s

/-- What an ended team still holds is released once nothing of it is in flight: its stash lines are written back, and its tiles and
accumulators are free (R24, R60, R391). A fill that has left for its home is waited for (R53). -/
def teamRelease (s : State) (tid : Nat) : State :=
  match s.team tid with
  | none => s
  | some t =>
      if !t.ended || !teamIdle s tid
          || t.stash.any (fun e => e.2.lines.any (fun l => l.2.st == StashSt.filling && l.2.sent.isSome && l.2.bad.isNone)) then s
      else
        let s := t.stash.foldl (fun s e => stashUnmap s tid e.1) s
        let s := match s.team tid with | some u => (u.stash.map (fun (e : Nat × Stash) => e.2)).foldl stashRelease s | none => s
        -- an NSAMPLE that completed since may have fetched its weights again (R419)
        let s := dropContextWeights s t.ctx t.place.core
        weaveTry (s.modTeam tid (fun t => { t with stash := [], tiles := [], accs := [] })) t.weave

/-- A team whose gangs have all ended (R24). -/
def teamOver (s : State) (tid : Nat) : State :=
  match s.team tid with
  | none => s
  | some t =>
      let s := s.modTeam tid (fun t => { t with ended := true })
      teamRelease (barriersTry (dropContextWeights (settleBindings s) t.ctx t.place.core) tid) tid

/-- The counts and records of an instruction of the units, at its end, whether its gang lives or not (R288, R401, R402). -/
def sampleErrors (s : State) (x : PendSample) : State :=
  let s := match x.abandoned with
    | some (f, c, a) => errEvent s x.ctx { x.org.err f c with kind := 6, addr := a, aux := x.ipc.toNat }
    | none => s
  match x.badHdr with
  | some (f, a) => errEvent s x.ctx { x.org.err f 0x15 with kind := 6, addr := a, aux := x.ipc.toNat }
  | none => s

/-- A gang ends (R288): instructions that it has issued complete and their replies are discarded; what is held at issue, and its
traversals, are given up; its fill rights fail with PGEND and a code. -/
def endGang (s : State) (tid gid code : Nat) : State :=
  match s.team tid, s.gang tid gid with
  | some t, some g =>
      let s := forgetWalks (failRights s tid gid 0x13 code) t.ctx t.place.core
      let s := settleStoreFaults s tid gid t g
      let mine := fun (x : PendSample) => x.team == tid && x.gang == gid && (x.held || x.kind == SampKind.rayx)
      let s := (s.pend.samples.filter (fun x => mine x && !x.held)).foldl sampleErrors s
      let s := s.modPend (fun p => { p with samples := p.samples.filter (fun x => !mine x) })
      let s := s.modXl (fun x => { x with recs := x.recs.filter (fun r => some r.tag != g.heldFor) })
      -- the gangs of a rendezvous set that wait for it wait no more (R369)
      let broken := fun (x : Gang) => { x with latch := x.latch.map (fun l => { l with broken := l.broken || l.gset.getLsbD gid }) }
      let s := s.modTeam tid (fun t => { t with gangs := (mapDel gid t.gangs).map (fun e => (e.1, broken e.2)) })
      if (match s.team tid with | some t => t.gangs.isEmpty | none => false) then teamOver s tid
      else barriersTry s tid
  | _, _ => s

/-- The end of a team by TEAMKILL or by a trap it could not take (R391, R475): one record of kind 4, with the fibre and sub-cause of the
trap (R491). -/
def endTeam (s : State) (tid gid : Nat) (cause first code : Nat) (fib : Nat := 0) (sub : Nat := 0) : State :=
  match s.team tid, s.gang tid gid with
  | some t, some g =>
      let s := t.gangs.foldl (fun s e => endGang s tid e.1 code) s
      errEvent s t.ctx { gangErr t g fib cause with sub, kind := 4, aux := first, addr := g.tpc.toNat }
  | _, _ => s

/-! ### Windows -/

/-- Where one word of a spill or fill lies, once translated (R30: normal pages only). -/
def windowWord (s : State) (tid : Nat) (t : Team) (pidx n : Nat) (write : Bool) : Except Bool (LineKey × Nat) × State :=
  let off := t.spoff + 4 * n
  match locate s tid t pidx .spill 4 4 (BitVec.ofNat 64 (0x4000000000000000 + off)) with
  | .ok (.page va) =>
      if 2 ^ 24 ≤ off then (.error true, s)
      else
      match translate s t.ctx t.place.core (va / 12288) with
      | .miss => (.error false, startWalk s t.ctx t.place.core (va / 12288))
      | .fault _ _ => (.error true, useFault s t.ctx t.place.core (va / 12288))
      | .hit l _ =>
          match landing s t.ctx va .spill (fun _ _ => false) l with
          | .ok (.dev pa) =>
              let k := LineKey.dev (pa / 192)
              if write && !l.canWrite then (.error true, s)
              -- an earlier request of the core to the line is performed first (R71)
              else if coreEarlier s t.place.core s.sched.nextId k then (.error false, s)
              else
                match homeReady s (.dev (pa / 192)) (pa % 192) 4 write with
                | .ready s => (.ok (.dev (pa / 192), pa % 192), s)
                | .wait s | .failed s => (.error false, s)
          | _ => (.error true, s)
  | _ => (.error true, s)

/-- Is every word of a run of steps ready or faulting? Words are (fibre, private index, logical register). -/
def windowWait (s : State) (tid : Nat) (t : Team) (ws : List (Nat × Nat × Nat)) (write : Bool) : Bool × State :=
  ws.foldl (fun (b, s) w =>
    match windowWord s tid t w.2.1 w.2.2 write with
    | (.error false, s') => (true, s')
    | (_, _) => (b, s)) (false, s)

/-- Does a store of the gang that has not been sent lie on a word of a window step (R152)? -/
def windowHeld (s : State) (tid gid : Nat) (t : Team) (ws : List (Nat × Nat × Nat)) : Bool :=
  !ws.isEmpty && (rastqOpen s tid gid || unsentStore s t.place.core tid gid s.sched.nextId (ws.filterMap (fun w =>
    match locate s tid t w.2.1 .spill 4 4 (BitVec.ofNat 64 (0x4000000000000000 + (t.spoff + 4 * w.2.2))) with
    | .ok (.page va) => lineAt s t.ctx t.place.core va
    | _ => none)))

/-- Steps of at most 16 registers that move `lo` up to hold w + 64 (R194): first register and count of each. -/
def spillSteps (S lo w : Nat) : Nat → List (Nat × Nat)
  | 0 => []
  | k + 1 =>
      if lo + S < w + 64 then
        let c := min 16 (w + 64 - (lo + S))
        (lo, c) :: spillSteps S (lo + c) w k
      else []
/-- Steps that move `lo` down to w (R194). -/
def fillSteps (lo w : Nat) : Nat → List (Nat × Nat)
  | 0 => []
  | k + 1 => if w < lo then let c := min 16 (lo - w); (lo - c, c) :: fillSteps (lo - c) w k else []

def addWin (s : State) (ctx : Nat) : State := s.modCtx ctx (fun x => { x with wincnt := satQuad x.wincnt 1 })

/-- Distance of a ring position from the base of a fibre's window: below 64 for v0-v63 (R193). -/
def windowIdx (S : Nat) (b : Fibre) (p : Nat) : Nat := (p + (b.wb / S + 1) * S - b.wb) % S

/-- The specifier of a register in an error record (R247, R491): the number under which the fibre's window names it. A register
outside the window has none; the bits are then a free value (assumption 1). -/
def regSpec (s : State) (S : Nat) (g : Gang) (r : RegRef) : Nat × State :=
  match r with
  | .s n => (64 + n, s)
  | .v f p =>
      let n := windowIdx S (g.fib f) p
      if n < 64 then (n, s) else let (q, s) := s.freeQ; (q.toNat % 64, s)

/-- A register for a spill, a save, a checkpoint, a REPACK or a read: a parity error gives the copy, or zero with an error record
(R200). -/
def goodReg (s : State) (tid gid : Nat) (r : RegRef) : Reg × State :=
  match s.team tid, s.gang tid gid with
  | some t, some g =>
      let x := g.reg r
      if !x.bad then (x, s)
      else
        let y := { x with bad := false, val := if x.copy then x.val else 0 }
        let s := s.modGang tid gid (fun g => g.setReg r y)
        if x.copy then (y, s)
        else
          let (a, s) := regSpec s t.S g r
          let f := match r with | .v f _ => f | .s _ => 0
          (y, errEvent s t.ctx { gangErr t g f 0x19 with kind := 2, aux := a })
  | _, _ => ({}, s)

/-- Registers of the windows of some fibres, and scalar registers of the gang, that hold a parity error. -/
def badRegs (g : Gang) (S : Nat) (fs : List Nat) : List RegRef :=
  fs.flatMap (fun f => (g.fib f).regs.filterMap (fun e =>
      if e.2.bad && decide (windowIdx S (g.fib f) e.1 < 64) then some (RegRef.v f e.1) else none))
    ++ g.vs.filterMap (fun e => if e.2.bad then some (RegRef.s e.1) else none)

/-- Every register that is read as a whole is good from then on (R200). -/
def goodRegs (s : State) (tid gid : Nat) (rs : List RegRef) : State := rs.foldl (fun s r => (goodReg s tid gid r).2) s

/-- Vector registers of the quad that no resident gang holds (R179, R203). -/
def unallocated (s : State) (t : Team) (gid : Nat) : Nat :=
  let same := s.teams.filter (fun e => !e.2.ended &&
    (match t.place with | .main _ => e.2.place == t.place | .twill h => e.2.place == .twill h))
  let held := same.map (fun e => match t.place with
    | .main _ => ((e.2.gangs.filter (fun g => quadOfGang g.1 == quadOfGang gid)).length) * 64 * e.2.S
    | .twill _ => e.2.gangs.length * e.2.S)
  (if t.place.isTwill then 4096 else 32768) - held.foldl (· + ·) 0

/-- The copies of registers that lie in unallocated registers of a quad are gone (R116, R200). -/
def dropCopies (s : State) (p : Place) (quad : Nat) : State :=
  let reg := fun (e : Nat × Reg) => (e.1, { e.2 with copy := false })
  { s with teams := s.teams.map (fun (t : Nat × Team) =>
      if t.2.place == p then
        (t.1, { t.2 with gangs := t.2.gangs.map (fun (g : Nat × Gang) =>
          if quadOfGang g.1 == quad then
            (g.1, { g.2 with sregs := g.2.sregs.map reg
                             fibres := g.2.fibres.map (fun (b : Nat × Fibre) => (b.1, { b.2 with regs := b.2.regs.map reg })) })
          else g) })
      else t) }

/-- A load or atomic has met UNMAPPED (R116): run ahead from it if a checkpoint can be taken, else send the record. DESIGN CHOICE: the
gangs of a Twill context count by their index mod 4, as the quads of a core do, though R203 gives the context no quads (assumption
100). -/
def beginFault (s : State) (i : Iss) (fva : Quad) (ffib : Nat) (pages : List PageSlot) : State :=
  let busy := s.teams.any (fun e => e.2.place == i.team.place && e.2.gangs.any (fun g =>
    g.2.ra.isSome && !(e.1 == i.tid && g.1 == i.gid) && quadOfGang g.1 == quadOfGang i.gid))
  if busy ∨ unallocated s i.team i.gid < 64 * i.gang.liveFibres.length + 64 then
    pages.foldl (fun s p => useFault s i.team.ctx i.team.place.core p.pn)
      (holdForRecord s i.tid i.gid i.team i.gang i.frag.pc fva 0 0 ffib pages)
  else
    let s := dropCopies (goodRegs s i.tid i.gid (badRegs i.gang i.team.S (maskList i.frag.mask))) i.team.place (quadOfGang i.gid)
    s.modGang i.tid i.gid (fun g =>
      { g with ra := some { sregs := g.sregs, fibres := g.fibres, frag := i.frag, lead := s.sched.cur.lead, unkPred := [],
                            count := 0, pages := [], ipc := i.frag.pc, fva, ffib, reason := 0 } })

/-- Perform the words of one spill step; `none` when one faults. -/
def spillStep (s : State) (tid gid : Nat) (t : Team) (f n c : Nat) (zeroFailed : Bool) : Option State :=
  ((List.range c).foldl (fun (a : Option State) i => a.bind (fun s =>
    match s.gang tid gid with
    | none => none
    | some g =>
        let b := g.fib f
        match windowWord s tid t b.pidx.toNat (n + i) true with
        | (.ok (k, off), s) =>
            let (x, s) := goodReg s tid gid (.v f ((n + i) % t.S))
            let v : Word := match x.fe with | .failed _ _ => if zeroFailed then 0 else x.val | _ => x.val
            let bs := leBytes 4 v.toNat
            let s := eccEvents s (some t.ctx) k off 4 1
            let s := keepSeen s tid gid s.sched.nextId k
            some (l1Store (homeWrite s k off bs 0) t.place.core k off bs)
        | _ => none)) (some s)).map (fun s => addWin s t.ctx)

/-- Perform the words of one fill step. -/
def fillStep (s : State) (tid gid : Nat) (t : Team) (f n c : Nat) : Option State :=
  ((List.range c).foldl (fun (a : Option State) i => a.bind (fun s =>
    match s.gang tid gid with
    | none => none
    | some g =>
        match windowWord s tid t (g.fib f).pidx.toNat (n + i) false with
        | (.ok (k, off), s) =>
            let s := homeFill (eccEvents s (some t.ctx) k off 4 0) k off 4
            let v := BitVec.ofNat 32 (leNat (homeRead s k off 4))
            some (s.modGang tid gid (fun g => g.setReg (.v f ((n + i) % t.S)) { val := v }))
        | _ => none)) (some s)).map (fun s => addWin s t.ctx)

/-- The steps of a window move for fibres, as (fibre, first register, count). -/
def moveSteps (g : Gang) (S : Nat) (fs : List Nat) (up : Bool) (k : Nat) : List (Nat × Nat × Nat) :=
  fs.flatMap (fun f =>
    let b := g.fib f
    (if up then spillSteps S b.lo (b.wb + k) 80 else fillSteps b.lo (b.wb - k) 80).map (fun e => (f, e.1, e.2)))

/-- Run the steps of a window move. A step waits while a register that it reads or writes is EMPTY (R195,
R196). A wait leaves windows and memory as they are; a fault is WSPILL with the fibre, and the
steps already moved stay where they are (R195). A FAILED register of a spill step is EMPTYREG unless `zeroFailed`. -/
def moveWindow (s : State) (tid gid : Nat) (fs : List Nat) (up : Bool) (k : Nat) (zeroFailed : Bool) : Res Unit :=
  match s.team tid, s.gang tid gid with
  | some t, some g =>
      let steps := moveSteps g t.S fs up k
      let words := steps.flatMap (fun e => (List.range e.2.2).map (fun i => (e.1, (g.fib e.1).pidx.toNat, e.2.1 + i)))
      let fe := fun (w : Nat × Nat × Nat) => (g.reg (.v w.1 (w.2.2 % t.S))).fe
      let failed := words.find? (fun w => match fe w with | .failed _ _ => true | _ => false)
      match (if up && !zeroFailed then failed else none) with
      | some w =>
          let a : Quad := match fe w with | .failed c d => BitVec.ofNat 64 (c.toNat + 65536 * d.toNat) | _ => 0
          .trap { cause := 0x0A, sub := 1, fib := w.1, tcode := 3, addr := a } s
      | none =>
          if words.any (fun w => fe w == .empty) then .wait s
          else
            let (wt, s') := windowWait s tid t words up
            if wt || windowHeld s tid gid t words then .wait s'
            else
              let r := steps.foldl (fun (a : Except (Nat × State) State) e =>
                match a with
                | .error x => .error x
                | .ok s =>
                    match (if up then spillStep s tid gid t e.1 e.2.1 e.2.2 zeroFailed else fillStep s tid gid t e.1 e.2.1 e.2.2) with
                    | some s => .ok s
                    | none => .error (e.1, s)) (.ok s)
              match r with
              | .error (f, s) => .trap { cause := 0x09, fib := f } s
              | .ok s =>
                  .ok () (s.modGang tid gid (fun g => fs.foldl (fun g f => g.modFib f (fun b =>
                    let st := (steps.filter (fun e => e.1 == f)).map (fun e => e.2.2)
                    let d := st.foldl (· + ·) 0
                    if up then { b with wb := b.wb + k, lo := b.lo + d } else { b with wb := b.wb - k, lo := b.lo - d })) g))
  | _, _ => .ok () s

/-! ### Traps -/

/-- `tcause` (R473). -/
def tcauseOf (t : TrapInfo) (imp : Bool) : Word :=
  BitVec.ofNat 32 (t.tcode * 2 ^ 20 + (if imp then 2 ^ 19 else 0) + t.fib % 64 * 2 ^ 12 + t.sub % 16 * 2 ^ 8 + t.cause % 256)

/-- Held instructions of a unit leave their waits and have not been issued (R93). -/
def withdrawUnits (s : State) (mine : PendSample → Bool) : State :=
  let l := s.pend.samples.filter (fun x => x.held && mine x)
  let out := fun (w : Toucher) => match w with | .sample id _ => l.any (fun x => x.id == id) | _ => false
  let s := s.modFelt (fun x => { x with merges := x.merges.map (fun m => { m with waiters := m.waiters.filter (fun w => !out w.1) }) })
  let s := s.modPend (fun p => { p with
    replays := p.replays.filter (fun r => !out r.who)
    touches := p.touches.filter (fun t => !out t.who)
    samples := p.samples.filter (fun x => !(x.held && mine x)) })
  l.foldl (fun s x => s.modGang x.team x.gang (fun g => { g with
    fibres := x.olds.foldl (fun fs o => mapMod o.1 (fun (b : Fibre) => { b with trav := o.2 }) fs) g.fibres
    frags := g.frags.map (fun f => if f.wait = .cmd x.id then { f with wait := .none } else f) })) s

/-- The held touches of a fragment's instruction leave their waits (R93). -/
def withdrawProbes (s : State) (tid gid : Nat) (f : Frag) : State :=
  let mine := fun (w : Toucher) => match w with | .probe t g l => t == tid && g == gid && f.mask.getLsbD l | _ => false
  let s := s.modFelt (fun x => { x with merges := x.merges.map (fun m => { m with waiters := m.waiters.filter (fun w => !mine w.1) }) })
  let s := s.modPend (fun p => { p with replays := p.replays.filter (fun r => !mine r.who), touches := p.touches.filter (fun t => !mine t.who) })
  withdrawUnits (s.modGang tid gid (fun g => { g with genTouches := g.genTouches.filter (fun x => !f.mask.getLsbD x.lead) }))
    (fun x => x.team == tid && x.gang == gid && f.wait == .cmd x.id)

/-- A depth or cycle error: the instruction's touches are withdrawn and the gang's rights fail with the cause (R93, R96). -/
def failProbes (s : State) (tid gid : Nat) (f : Frag) (t : TrapInfo) : State :=
  if t.fails then failRights (withdrawProbes s tid gid f) tid gid t.cause t.sub else s

/-- The fragment as TRET will resume it: a barrier, a rendezvous latch and a held instruction are tried again (R348, R369, R478). -/
def Frag.resumed (f : Frag) : Frag :=
  { f with wait := (match f.wait with | .gbar => .gbar | .mma => .mma | .repack => .repack | .regang => .regang | _ => .none), inval := false }

/-- Step 3 of R474, for the trap that a gang has taken: once every register of the spills is FULL or FAILED and their lines are at hand, the
window of each fibre of the fragment advances by 64, and the handler starts at `tvec`. A spill that faults ends the team (R475). -/
def enterTrap (s : State) (tid gid : Nat) : State :=
  match s.team tid, s.gang tid gid with
  | some team, some g =>
      match g.entry, g.entry.bind (fun e => g.frags.find? (fun f => f.mask == e.1)) with
      | some (_, t), some f =>
          let fs := f.fibres
          let fes := (moveSteps g team.S fs true 64).flatMap (fun e => (List.range e.2.2).map (fun i =>
            (e.1, e.2.1 + i, (g.reg (.v e.1 ((e.2.1 + i) % team.S))).fe)))
          match moveWindow s tid gid fs true 64 true with
          | .wait s => s
          | .trap _ s => endTeam s tid gid 0x1D t.cause t.cause t.fib t.sub
          | .ok _ s =>
              s.modGang tid gid (fun x => { x with
                entry := none
                handler := some { frag := f.resumed, preds := fs.map (fun i => (i, (g.fib i).preds))
                                  fes := fes.filter (fun e => e.2.2 != .full), cause := t.cause }
                frags := orderFrags ({ pc := team.tvec, mask := f.mask } :: x.frags.filter (fun y => y.mask != f.mask)) })
      | _, _ => s
  | _, _ => s

/-- A fragment takes a trap (R474): the trap registers are written and the siblings are HELD; the entry of the handler follows. The team
ends instead as R475 gives. DESIGN CHOICE: PGEND then has the cause of the first trap (assumption 87). -/
def takeTrap (s : State) (tid gid : Nat) (f : Frag) (t : TrapInfo) (imp : Bool) : State :=
  match s.team tid, s.gang tid gid with
  | some team, some g =>
      let regs := fun (g : Gang) => { g with
        tcause := tcauseOf t imp, tpc := f.pc, taddr := t.addr, tres := f.pc + BitVec.ofNat 64 t.after }
      match g.handler with
      | some h =>
          endTeam ((failProbes s tid gid f t).modGang tid gid (fun g => { g with tpc := f.pc })) tid gid 0x1D h.cause h.cause t.fib t.sub
      | none =>
          if team.tvec = 0 then endTeam ((failProbes s tid gid f t).modGang tid gid regs) tid gid t.cause t.cause t.cause t.fib t.sub
          else
            let s := forgetWalks (failProbes s tid gid f t) team.ctx team.place.core
            let s := withdrawUnits s (fun x => x.team == tid && x.gang == gid && f.wait == .cmd x.id)
            enterTrap (s.modGang tid gid (fun g =>
              let g := regs g
              { g with
                entry := some (f.mask, t)
                latch := if f.wait = .latch then none else g.latch
                frags := g.frags.map (fun x => if x.mask = f.mask then x else { x with held := true }) })) tid gid
  | _, _ => s

/-- The return from a handler whose fibres all stand at TRET (R390, R476): windows retreat by 64 with fills, which bring back the fe states
of the registers they fill; predicates come back, and the fragment resumes at the resume point or past it. -/
def trapReturn (s : State) (tid gid : Nat) (skip : Bool) (words : Quad → Nat) : State :=
  match s.team tid, s.gang tid gid with
  | some t, some g =>
      match g.handler with
      | none => s
      | some h =>
          match moveWindow s tid gid h.frag.fibres false 64 true with
          | .wait s => s
          | .trap _ s => endTeam s tid gid 0x1D h.cause h.cause
          | .ok _ s =>
              let back := h.fes.filter (fun e => decide ((g.fib e.1).wb - 64 ≤ e.2.1 ∧ e.2.1 < (g.fib e.1).lo))
              let s := s.modGang tid gid (fun g =>
                let g := back.foldl (fun g e => g.setReg (.v e.1 (e.2.1 % t.S)) { g.reg (.v e.1 (e.2.1 % t.S)) with fe := e.2.2 }) g
                let g := h.preds.foldl (fun g e => g.modFib e.1 (fun b => { b with preds := e.2 })) g
                let pc := g.tres + (if skip then BitVec.ofNat 64 (8 * words g.tres) else 0)
                { g with
                  handler := none
                  frags := orderFrags ({ h.frag with pc } ::
                    (g.frags.filter (fun x => x.held)).map (fun x => { x with held := false })) })
              settleGang s tid gid
  | _, _ => s

/-- What an attempt of the issuing fragment leads to: in run-ahead an instruction that would trap ends it (R117). -/
def raise (s : State) (i : Iss) (t : TrapInfo) : State :=
  if i.gang.ra.isSome then stopAhead s i.tid i.gid 3 else takeTrap s i.tid i.gid i.frag t false

/-- An instruction has been run ahead; the 256th ends the run-ahead (R117). -/
def aheadTick (s : State) : State :=
  let c := s.sched.cur
  match (s.gang c.team c.gang).bind (·.ra) with
  | none => s
  | some r =>
      let s := s.modGang c.team c.gang (fun g => { g with ra := some { r with count := r.count + 1 } })
      if 256 ≤ r.count + 1 then stopAhead s c.team c.gang 1 else s

/-- The fragment behind an instruction of n words. -/
def Frag.next (f : Frag) (n : Nat) : Frag :=
  { f with pc := f.pc + BitVec.ofNat 64 (8 * n), passed := 0, young := false, oldest := false, rest := false, wait := if f.wait = .settle then .none else f.wait }

/-- Advance the issuing fragment by n words. -/
def advance (s : State) (n : Nat) : State :=
  let c := s.sched.cur
  aheadTick (settleGang (s.modFrag (fun f => f.next n)) c.team c.gang)

/-- The instruction waits, past its checks, in a way that a save lets end (R481). -/
def settleWait (s : State) : Res Unit := .wait (s.modFrag (fun f => if f.wait = .none then { f with wait := .settle } else f))

/-- What a meaning answers. -/
abbrev Out := Host.Outcome State Fault Refusal

/-- The outcome of a meaning: a trap is taken, a wait is tried again. -/
def finish (i : Iss) (r : Res Unit) : Host.Outcome State Fault Refusal :=
  match r with
  | .ok _ s => .next s
  | .wait s => .next s
  | .trap t s => .next (raise s i t)

/-- A meaning of a program instruction needs a fragment that issues it. -/
def withIss (s : State) (f : Iss → Res Unit) : Host.Outcome State Fault Refusal :=
  match s.iss with
  | none => .fault .noFragment
  | some i => finish i (f i)

end Sys2Proof.Machine
end

