-- ==== Sys2Proof/Machine/Operands.lean ====
section
/-! DEFINITION. Operands: constants, literals and permuted reads (R249-R257), the full/empty checks (R196, R197), the lanes of
a slice instruction and its destinations (R190-R192, R246), and the splits of a fragment (R184). -/

namespace Sys2Proof

/-- The literal index a source names. -/
def Src.litIdx : Src → Option Nat | .lit k _ => some k.toNat | _ => none
/-- The empty action: true for trap (R257). -/
def Src.ea : Src → Bool | .vec _ _ e | .scal _ e => e | _ => false
/-- Words of an instruction with these sources: its own and its literals' (R243). -/
def wordsOf (l : List Src) : Nat := 1 + (l.filterMap Src.litIdx).eraseDups.length

end Sys2Proof

namespace Sys2Proof.Machine

/-- How an operand reads a constant (R251). -/
inductive OTy where
  | int | f32 | f16 | bf16
  deriving DecidableEq, Repr

/-- An operand: its source, its position (0 A, 1 B, 2 C, 3 implicit, R473), its width and its type. -/
structure Opnd where
  src : Src
  pos : Nat
  wide : Bool := false
  ty : OTy := .int
  deriving DecidableEq, Repr

/-- Operands of plain entries. -/
def opA (s : Src) (wide : Bool := false) (ty : OTy := .int) : Opnd := ⟨s, 0, wide, ty⟩
def opB (s : Src) (wide : Bool := false) (ty : OTy := .int) : Opnd := ⟨s, 1, wide, ty⟩
def opC (s : Src) (wide : Bool := false) (ty : OTy := .int) : Opnd := ⟨s, 2, wide, ty⟩
/-- The implicit read of a destination, which blocks (R257). -/
def opD (d : Dst) (wide : Bool := false) : Opnd :=
  match d with
  | .vec r => ⟨.vec r 0 false, 3, wide, .int⟩
  | .scal r => ⟨.scal r false, 3, wide, .int⟩
  | _ => ⟨.const 0, 3, wide, .int⟩

/-- The float constants of R250, codes 48 to 63. -/
def constF32 (n : Nat) : Nat :=
  match n with
  | 48 => 0x3F000000 | 49 => 0xBF000000 | 50 => 0x3E800000 | 51 => 0xBE800000
  | 52 => 0x3E000000 | 53 => 0x40490FDB | 54 => 0xC0490FDB | 55 => 0x3E22F983
  | 56 => 0x3F317218 | 57 => 0x3FB8AA3B | 58 => 0x7F800000 | 59 => 0xFF800000
  | 60 => 0x80000000 | 61 => 0x7F7FFFFF | 62 => 0x00800000 | _ => 0x7FC00000

/-- The integer of codes 0 to 47. -/
def constInt (n : Nat) : Int := if n < 32 then n else (n : Int) - 48

/-- A code read as a 16-bit format, in each half (R251). -/
def constHalf (f : Fmt) (n : Nat) : Nat :=
  let h :=
    if n < 48 then (f.round .rne false (FV.ofRat false (constInt n : Rat))).code
    else if n < 61 then (f.round .rne false (Fmt.f32.value (constF32 n))).code
    else if n = 61 then f.maxCode
    else if n = 62 then 2 ^ f.mbits
    else f.dnan
  h + 65536 * h

/-- The value of an inline constant (R251). -/
def constVal (ty : OTy) (wide : Bool) (code : BitVec 6) : Quad :=
  let n := code.toNat
  match ty with
  | .f32 => BitVec.ofNat 64 (if n < 48 then (Fmt.f32.round .rne false (FV.ofRat false (constInt n : Rat))).code else constF32 n)
  | .f16 => BitVec.ofNat 64 (constHalf .f16 n)
  | .bf16 => BitVec.ofNat 64 (constHalf .bf16 n)
  | .int =>
      if n < 48 then (if wide then BitVec.ofInt 64 (constInt n) else (BitVec.ofInt 32 (constInt n)).setWidth 64)
      else BitVec.ofNat 64 (constF32 n)

/-- The value of a literal (R253). -/
def litVal (wide : Bool) (y : BitVec 62) : Quad :=
  if wide then y.extractLsb' 58 4 ++ ((y.extractLsb' 0 58).signExtend 60) else (y.extractLsb' 0 32).setWidth 64

/-- m(j) of R254. -/
def permPos (code j : Nat) : Nat :=
  if code < 8 then (j + code) % 8
  else if code < 16 then code - 8
  else if code = 16 then j ^^^ 1
  else if code = 17 then j ^^^ 2
  else if code = 18 then j ^^^ 4
  else if code = 19 then 7 - j
  else j

/-- The fibre whose register a permuted read of fibre f takes (R254, R255). -/
def permFib (perm : BitVec 5) (f : Nat) : Nat := f / 8 * 8 + permPos perm.toNat (f % 8)

/-- Registers that an operand reads for a fibre, low word first (R193, R252, R255). -/
def regsOf (S : Nat) (g : Gang) (o : Opnd) (f : Nat) : List RegRef :=
  match o.src with
  | .vec r perm _ =>
      let h := permFib perm f
      (if o.wide then [r.toNat, r.toNat + 1] else [r.toNat]).map (fun n => .v h (ringPos S (g.fib h) n))
  | .scal r _ => (if o.wide then [r.toNat, r.toNat + 1] else [r.toNat]).map .s
  | _ => []

/-- A run of n registers that starts at a vector source, for a fibre. -/
def runOf (S : Nat) (g : Gang) (s : Src) (n f : Nat) : List RegRef :=
  match s with
  | .vec r perm _ =>
      let h := permFib perm f
      (List.range n).map (fun k => .v h (ringPos S (g.fib h) (r.toNat + k)))
  | .scal r _ => (List.range n).map (fun k => .s (r.toNat + k))
  | _ => []

/-- Registers that a destination names for a fibre. -/
def dstRegs (S : Nat) (g : Gang) (d : Dst) (n f : Nat) : List RegRef :=
  match d with
  | .vec r => (List.range n).map (fun k => .v f (ringPos S (g.fib f) (r.toNat + k)))
  | .scal r => (List.range n).map (fun k => .s (r.toNat + k))
  | _ => []

/-- The value a register reads as: 0 under a parity error without a copy (R200). -/
def Reg.read (x : Reg) : Word := if x.bad && !x.copy then 0 else x.val

/-- The value of some registers, low first; none when run-ahead does not know one (R117). -/
def valOf (g : Gang) (l : List RegRef) : Option Quad :=
  let rs := l.map g.reg
  if rs.any (fun x => x.fe == .unknown || x.fe == .empty) then none
  else some (quadOf ((rs[0]?).elim 0 Reg.read) ((rs[1]?).elim 0 Reg.read))

/-- An operand's value for a fibre. -/
def opndVal (S : Nat) (g : Gang) (o : Opnd) (f : Nat) : Option Quad :=
  match o.src with
  | .const c => some (constVal o.ty o.wide c)
  | .lit _ y => some (litVal o.wide y)
  | _ => valOf g (regsOf S g o f)

/-- All of a list, or none. -/
def allSome {α : Type} : List (Option α) → Option (List α)
  | [] => some []
  | none :: _ => none
  | some x :: t => (allSome t).map (x :: ·)

/-! ### Full and empty -/

/-- One register that an instruction reads for a fibre: position and empty action of its source. -/
structure Need where
  fib : Nat
  pos : Nat
  ea : Bool
  ref : RegRef
  deriving DecidableEq, Repr

inductive Judge where
  | go | wait | trap (t : TrapInfo)

def Fe.isFailed : Fe → Bool | .failed _ _ => true | _ => false

/-- R197 over the registers read and the destinations. In run-ahead an EMPTY register is unknown (R117). -/
def judgeRegs (g : Gang) (ns : List Need) (ds : List RegRef) : Judge :=
  let fe := fun (n : Need) => (g.reg n.ref).fe
  match ns.find? (fun n => (fe n).isFailed) with
  | some n =>
      let a : Quad := match fe n with | .failed c k => BitVec.ofNat 64 (c.toNat + 65536 * k.toNat) | _ => 0
      .trap { cause := 0x0A, sub := 1, fib := n.fib, tcode := n.pos, addr := a }
  | none =>
      if g.ra.isSome then .go
      else
        match ns.find? (fun n => n.ea && fe n == .empty) with
        | some n => .trap { cause := 0x0A, sub := 0, fib := n.fib, tcode := n.pos }
        | none =>
            if ns.any (fun n => fe n == .empty) || ds.any (fun r => (g.reg r).fe == .empty) then .wait else .go

/-- Registers that operands read for a fibre. -/
def needsOf (S : Nat) (g : Gang) (ops : List Opnd) (f : Nat) : List Need :=
  ops.flatMap (fun o => (regsOf S g o f).map (fun r => ⟨f, o.pos, o.src.ea, r⟩))

/-- Parity errors found by reads (R200); a run-ahead leaves them to the re-execution. -/
def readParity (s : State) (i : Iss) (ns : List Need) : State :=
  if i.gang.ra.isSome then s else ns.foldl (fun s n => (goodReg s i.tid i.gid n.ref).2) s

/-- R197 for a list of registers, none of them fetched yet (R270 step 8). -/
def judged (s : State) (i : Iss) (ns : List Need) (ds : List RegRef) : Res Unit :=
  match judgeRegs i.gang ns ds with
  | .trap t => .trap t s
  | .wait => .wait s
  | .go => .ok () s

/-- R197 for a list of registers, then go on. -/
def checked (s : State) (i : Iss) (ns : List Need) (ds : List RegRef) : Res Unit :=
  match judgeRegs i.gang ns ds with
  | .trap t => .trap t s
  | .wait => .wait s
  | .go => .ok () (readParity s i ns)

/-! ### Lanes -/

/-- Active fibres: those whose predicate passes (R246); in run-ahead, those whose predicate is known to pass. -/
def active (i : Iss) (p : Pred) : List Nat :=
  i.frag.fibres.filter (fun f => !i.gang.predUnknown f p.idx.toNat && i.gang.predVal f p)
/-- Fibres whose predicate run-ahead does not know. -/
def unsure (i : Iss) (p : Pred) : List Nat := i.frag.fibres.filter (fun f => i.gang.predUnknown f p.idx.toNat)

/-- What an instruction computes for one fibre: a value, flags, and a predicate beside the destination. -/
structure Lane where
  val : Quad := 0
  flags : Word := 0
  ok : Bool := false
  deriving DecidableEq, Repr

/-- Write a destination for a fibre: FULL with the value, or unknown. -/
def writeDst (S : Nat) (g : Gang) (d : Dst) (wide : Bool) (f : Nat) (v : Option Quad) : Gang :=
  match d with
  | .pred n => g.setPred f n.toNat (v.map (· != 0))
  | _ =>
      match dstRegs S g d (if wide then 2 else 1) f, v with
      | [r], some q => g.setReg r { val := loWord q }
      | [r, t], some q => (g.setReg r { val := loWord q }).setReg t { val := hiWord q }
      | l, none => l.foldl (fun g r => g.setReg r { fe := .unknown }) g
      | _, _ => g

/-- Write a run of registers. -/
def writeRun (g : Gang) (l : List RegRef) (vs : List Word) : Gang :=
  (l.zip vs).foldl (fun g e => g.setReg e.1 { val := e.2 }) g

/-- A slice instruction: R197 over what each fibre reads, then every result at once. A scalar destination is computed once
(R192, R246). -/
def lanesWith (s : State) (i : Iss) (p : Pred) (d : Dst) (wide : Bool) (pd : Option (BitVec 3))
    (needs : Nat → List Need) (val : Nat → Option Lane) (words : Nat) : Res Unit :=
  let act := active i p
  let unk := unsure i p
  let fs := if d.isScalar then (act ++ unk).take 1 else i.frag.fibres.filter (fun f => act.contains f || unk.contains f)
  let known := fun f => if d.isScalar then !act.isEmpty else act.contains f
  let S := i.team.S
  (checked s i (fs.flatMap needs) (fs.flatMap (dstRegs S i.gang d (if wide then 2 else 1)))).bind fun _ s =>
    let rs := fs.map (fun f => (f, if known f then val f else none))
    let s := s.modCur (fun g =>
      let g := rs.foldl (fun g r =>
        let g := writeDst S g d wide r.1 (r.2.map (·.val))
        match pd with | some n => g.setPred r.1 n.toNat (r.2.map (·.ok)) | none => g) g
      if g.ra.isSome then g else g.setFlags (rs.foldl (fun w r => w ||| (r.2.elim 0 (·.flags))) 0))
    .ok () (advance s words)

/-- A slice instruction whose operands each fibre reads for itself. -/
def lanes (s : State) (i : Iss) (p : Pred) (d : Dst) (wide : Bool) (ops : List Opnd)
    (f : Nat → List Quad → Lane) : Res Unit :=
  let S := i.team.S
  lanesWith s i p d wide none (needsOf S i.gang ops)
    (fun n => (allSome (ops.map (fun o => opndVal S i.gang o n))).map (f n)) (wordsOf (ops.map (·.src)))

/-- Arithmetic on values alone. -/
def alu (s : State) (p : Pred) (d : Dst) (wide : Bool) (ops : List Opnd) (f : List Quad → Lane) : Out :=
  withIss s (fun i => lanes s i p d wide ops (fun _ => f))

/-- What ends a run-ahead (R117, `ra` = 3). -/
def endsAhead (s : State) : Res Unit := .trap { cause := 0 } s

/-- An instruction that run-ahead does not execute. -/
def direct (s : State) (f : Iss → Res Unit) : Out :=
  withIss s (fun i => if i.gang.ra.isSome then endsAhead s else f i)

/-- An instruction that executes once when a fibre is active: R197 over its operands for every active fibre, then its effect on the
lowest one's values. -/
def once (s : State) (p : Pred) (ops : List Opnd) (ds : List RegRef) (k : Iss → List Quad → State → Res Unit) : Out :=
  direct s (fun i =>
    match active i p with
    | [] => .ok () (advance s (wordsOf (ops.map (·.src))))
    | f :: fs =>
        (checked s i ((f :: fs).flatMap (needsOf i.team.S i.gang ops)) ds).bind (fun _ s =>
          k i (ops.map (fun o => (opndVal i.team.S i.gang o f).getD 0)) s))

/-- The same, with registers that only the instruction's own entry names: judged with its operands (R197). -/
def onceWith (s : State) (p : Pred) (ops : List Opnd) (more : Iss → List Nat → List Need)
    (k : Iss → List Quad → State → Res Unit) : Out :=
  direct s (fun i =>
    match active i p with
    | [] => .ok () (advance s (wordsOf (ops.map (·.src))))
    | f :: fs =>
        (checked s i ((f :: fs).flatMap (needsOf i.team.S i.gang ops) ++ more i (f :: fs)) []).bind (fun _ s =>
          k i (ops.map (fun o => (opndVal i.team.S i.gang o f).getD 0)) s))

/-- In a handler some instructions are ILLOPND sub-cause 5 (R476). -/
def inHandler (i : Iss) : Bool := i.gang.handler.isSome && i.gang.ra.isNone

/-- The trap of a value that an entry rejects (R269 sub-cause 5) or a register rule judged at issue. -/
def illopnd (sub : Nat) (fib : Nat := 0) : TrapInfo := { cause := 0x0D, sub, fib }

/-- A reply writes its destination: into the gang's own registers, the checkpoint of a run-ahead included (R117, R196). -/
def Gang.replyReg (g : Gang) (r : RegRef) (x : Reg) : Gang :=
  match r with
  | .v f p => { g with fibres := mapMod f (fun b => { b with regs := mapPutD {} p x b.regs }) g.fibres }
  | .s n => { g with sregs := mapPutD {} n x g.sregs }

/-- Mark registers EMPTY (R196). -/
def Gang.markEmpty (g : Gang) (l : List RegRef) : Gang := l.foldl (fun g r => g.setReg r { g.reg r with fe := .empty }) g

/-! ### Splits -/

/-- The issuing fragment becomes the parts, each with its fibres and pc (R184); a part without fibres is none. In run-ahead the
part that holds fibre `low` goes on (R117). -/
def splitTo (s : State) (i : Iss) (parts : List (List Nat × Quad)) (low : Nat) : State :=
  let fr := (parts.filter (fun x => !x.1.isEmpty)).map (fun x =>
    { i.frag with mask := maskOf x.1, pc := x.2, passed := 0, young := false, oldest := false, rest := false })
  let c := s.sched.cur
  if i.gang.ra.isSome then
    match fr.find? (fun f => f.mask.getLsbD low) with
    | some f => aheadTick (s.modFrag (fun _ => f))
    | none => s
  else
    settleGang (s.modGang c.team c.gang (fun g =>
      { g with frags := orderFrags (g.frags.flatMap (fun x => if x.mask.getLsbD c.lead then fr else [x])) })) c.team c.gang

/-- Fibres of the fragment that are not in a list. -/
def rest (i : Iss) (l : List Nat) : List Nat := i.frag.fibres.filter (fun f => !l.contains f)

end Sys2Proof.Machine
end

