-- ==== Sys2Proof/Machine/Access.lean ====
section
/-! DEFINITION. How instructions reach memory: the checks of R20 over all active fibres, the guards that keep the rules of
chapter 05 (R147-R152), run-ahead accesses (R117), replies, and touches (R82). -/

namespace Sys2Proof.Machine

/-! ### Resolving an access -/

/-- One fibre's access: its generic address, and whether R334 calls it NONCANON. -/
structure Acc where
  fib : Nat
  ga : Quad
  bad : Bool := false
  deriving DecidableEq, Repr

/-- What checks and translation say of one fibre's access (R20). -/
inductive AccAns where
  | at (t : Target)
  | cause (c : Nat)
  | unmapped (pn : Nat) (fz : Bool)
  | miss (pn : Nat)
  | hold
  deriving DecidableEq, Repr

/-- Steps 5 to 7 of R20 for a global address. -/
def resolvePage (s : State) (i : Iss) (k : AK) (va : Nat) : AccAns :=
  match translate s i.team.ctx i.team.place.core (va / 12288) i.gang.ra.isSome with
  | .miss => .miss (va / 12288)
  | .fault 4 fz => .unmapped (va / 12288) fz
  | .fault c _ => .cause c
  | .hit l _ =>
      match landing s i.team.ctx va k i.gang.holdsRight l with
      | .ok t => .at t
      | .error c => .cause c

/-- Held touches of the issuing fragment's instruction (R93). -/
def Iss.probes (i : Iss) : List GenTouch := i.gang.genTouches.filter (fun t => i.frag.mask.getLsbD t.lead && t.ipc == i.frag.pc)
def Iss.probes? (i : Iss) (w : Toucher) : Bool :=
  match w with | .probe t g l => t == i.tid && g == i.gid && i.frag.mask.getLsbD l | _ => false
/-- The held touch of a fibre, with the offset that it touches. -/
def Iss.probe (i : Iss) (fib : Nat) : Option (GenTouch × Nat) :=
  i.probes.findSome? (fun t => (t.fibs.find? (fun e => e.1 == fib)).map (fun e => (t, e.2)))

/-- R20 for one fibre: n bytes, aligned to `al`. An access that is held at issue for its touch has been translated already (R78, R93). -/
def resolve (s : State) (i : Iss) (k : AK) (n al : Nat) (a : Acc) : AccAns :=
  match i.probe a.fib with
  | some (t, off) => .at (.proc t.rn off)
  | none =>
  if a.bad then .cause 1
  else
    match locate s i.tid i.team (i.gang.fib a.fib).pidx.toNat k n al a.ga with
    | .error c => .cause c
    | .ok .notStarted => .hold
    | .ok (.spad t off) => .at (.spad t off)
    | .ok (.page va) => resolvePage s i k va

/-- The lowest fibre whose access has a cause that traps precisely (R20). -/
def firstCause (l : List (Acc × AccAns)) : Option TrapInfo :=
  (l.find? (fun e => match e.2 with | .cause _ => true | _ => false)).map (fun e =>
    { cause := match e.2 with | .cause c => c | _ => 0, fib := e.1.fib, addr := e.1.ga })

def missing (l : List (Acc × AccAns)) : List Nat :=
  (l.filterMap (fun e => match e.2 with | .miss p => some p | _ => none)).eraseDups

/-- UNMAPPED pages in rising fibre order, each once. -/
def unmappedPages (w : Bool) (l : List (Acc × AccAns)) : List PageSlot :=
  l.foldl (fun ps e =>
    match e.2 with
    | .unmapped p fz => if ps.any (fun x => x.pn == p) then ps else ps ++ [⟨p, w, fz⟩]
    | _ => ps) []

def startWalks (s : State) (ctx core : Nat) (ahead : Bool) (ps : List Nat) : State :=
  ps.foldl (fun s p => startWalk s ctx core p ahead) s

/-- Every fibre's access, or a wait, a precise trap, or the fault-record path of R116. -/
def resolveAll (s : State) (i : Iss) (k : AK) (n al : Nat) (accs : List Acc) : Res (List (Acc × Target)) :=
  let l := accs.map (fun a => (a, resolve s i k n al a))
  if !(missing l).isEmpty then .wait (startWalks s i.team.ctx i.team.place.core false (missing l))
  else
    match firstCause l with
    | some t => .trap t s
    | none =>
        match l.find? (fun e => match e.2 with | .unmapped _ _ => true | _ => false) with
        | some e => .wait (beginFault s i e.1.ga e.1.fib (unmappedPages k.writes l))
        | none =>
            if l.any (fun e => e.2 == .hold) then .wait s
            else .ok (l.filterMap (fun e => match e.2 with | .at t => some (e.1, t) | _ => none)) s

/-! ### Run-ahead accesses -/

/-- Add pages to the batch (R117). -/
def collect (r : RunAhead) (ps : List PageSlot) : RunAhead :=
  ps.foldl (fun r p =>
    if r.pages.any (fun x => x.pn == p.pn) then
      { r with pages := r.pages.map (fun x => if x.pn == p.pn then { x with w := x.w || p.w } else x) }
    else if r.pages.length < 32 then { r with pages := r.pages ++ [p] } else r) r

/-- An access in run-ahead is translated only; its UNMAPPED pages join the batch, and the 32nd page ends the run-ahead. A
store's other faults are no traps. -/
def aheadAccess (s : State) (i : Iss) (k : AK) (n al : Nat) (accs : List Acc) : Res Unit :=
  let l := accs.map (fun a => (a, resolve s i k n al a))
  let lax := k == .store || k == .pref
  let early := l.filter (fun e => match locate s i.tid i.team (i.gang.fib e.1.fib).pidx.toNat k n al e.1.ga with
    | .error _ => true | _ => e.1.bad)
  if !(missing l).isEmpty then .wait (startWalks s i.team.ctx i.team.place.core true (missing l))
  else if k != .pref && !early.isEmpty then endsAhead s
  else
    match l.any (fun e => match e.2 with | .cause c => c != 0 | _ => false), lax with
    | true, false => endsAhead s
    | _, _ =>
        let s := s.modCur (fun g =>
          match g.ra with
          | some r => { g with ra := some (collect r (unmappedPages k.writes l)) }
          | none => g)
        match (s.gang i.tid i.gid).bind (·.ra) with
        | some r => if 32 ≤ r.pages.length then .wait (stopAhead s i.tid i.gid 2) else .ok () s
        | none => .ok () s

/-- Fibres that make the accesses: every active fibre, or one for a scalar destination (R335). -/
def accFibs (act : List Nat) (d : Dst) : List Nat := if d.isScalar then act.take 1 else act

/-- A load or atomic met in run-ahead: translated only, its destinations unknown. -/
def aheadLoad (s : State) (i : Iss) (p : Pred) (k : AK) (n al : Nat) (addr : Nat → Option Acc)
    (d : Option Dst) (wide : Bool) (words : Nat) : Res Unit :=
  let act := active i p
  let fs := match d with | some d => accFibs act d | none => act
  (aheadAccess s i k n al (fs.filterMap addr)).bind fun _ s =>
    let s := s.modCur (fun g =>
      match d with
      | some d => (act ++ unsure i p).foldl (fun g f => writeDst i.team.S g d wide f none) g
      | none => g)
    .ok () (advance s words)

/-! ### Guards -/

/-- No access of a gang issues while an acquire of the gang has not done its invalidations (R150, R154). -/
def gangOpen (s : State) (tid gid : Nat) : Bool :=
  s.pend.loads.all (fun l => !(l.team == tid && l.gang == gid && l.acq.isSome))
    && s.pend.atoms.all (fun a => !(a.team == tid && a.gang == gid && (a.acq.isSome || a.sc != 0)))

/-- May an access to memory of the gang issue: no acquire and no RASTQ of it stands in the way (R150, R425)? -/
def memOpen (s : State) (tid gid : Nat) : Bool := gangOpen s tid gid && !rastqOpen s tid gid

/-- Does a store of the gang that has not been sent lie on one of the lines that an access names (R152)? -/
def storeOverlap (s : State) (i : Iss) (ts : List Target) : Bool :=
  unsentStore s i.team.place.core i.tid i.gid s.sched.nextId (ts.filterMap (targetKey s))

/-- Does an atomic that the gang issued before identifier `id` to the line wait to leave, for its release or its ticket (R146)? -/
def unsentAtom (s : State) (tid gid id : Nat) (k : LineKey) : Bool :=
  s.pend.atoms.any (fun a => a.team == tid && a.gang == gid && decide (a.id < id) && a.sent.isNone &&
    a.fibs.any (fun x => x.ret.isNone) && targetKey s a.tgt == some k)

/-- Does an earlier load of the gang to the line itself wait to leave (R71)? -/
def unsentLoad (s : State) (tid gid id : Nat) (k : LineKey) : Bool :=
  s.pend.loads.any (fun l => l.team == tid && l.gang == gid && decide (l.id < id) &&
    l.parts.any (fun p => p.val.isNone && p.st == .ready && p.sent.isNone && targetKey s p.tgt == some k))

/-- Does a stash of the gang's weave hold the line, or fill it? Then the L1 of a core has no bytes of it to serve (R56, R146). -/
def stashedLine (s : State) (t : Team) (k : LineKey) : Bool :=
  s.teams.any (fun u => u.2.weave == t.weave && u.2.stash.any (fun e => e.2.lines.any (fun l => l.2.key == k && (l.2.st != .filling || l.2.sent.isSome))))

/-- Does an earlier load or atomic of the gang to the line still lack its value (R146)? Loads that wait for a fill do not
count: they read the block as published. -/
def earlierOn (s : State) (tid gid id : Nat) (k : LineKey) : Bool :=
  s.pend.loads.any (fun l => l.team == tid && l.gang == gid && decide (l.id < id) &&
      l.parts.any (fun p => p.val.isNone && p.st == .ready && targetKey s p.tgt == some k))
    || s.pend.atoms.any (fun a => a.team == tid && a.gang == gid && decide (a.id < id) &&
      a.fibs.any (fun x => x.ret.isNone) && targetKey s a.tgt == some k)

/-! ### Replies -/

/-- Where the slot of a team's operation stands now (R436). -/
def slotOf (s : State) (id tid gid fib : Nat) : Nat × Nat := match s.team tid with | some t => t.slotNow id gid fib | none => (gid, fib)

/-- Write the reply of operation `id` into a destination: FULL with a value, or FAILED (R196). A vector destination lies where its slot
lies now. -/
def replyTo (s : State) (id tid gid S : Nat) (d : Dst) (wide : Bool) (fib pos : Nat) (x : Except Fe Quad) : State :=
  let (gid, fib) := if d.isScalar then (gid, fib) else slotOf s id tid gid fib
  s.modGang tid gid (fun g =>
    let regs := match d with
      | .vec _ => [RegRef.v fib pos, .v fib ((pos + 1) % S)]
      | .scal n => [RegRef.s n.toNat, .s (n.toNat + 1)]
      | _ => []
    let vals : List Reg := match x with
      | .ok q => [{ val := loWord q }, { val := hiWord q }]
      | .error f => [{ fe := f }, { fe := f }]
    ((regs.zip vals).take (if wide then 2 else 1)).foldl (fun g e => g.replyReg e.1 e.2) g)

/-- The ring position of a vector destination (R193). -/
def dstPos (i : Iss) (d : Dst) (f : Nat) : Nat := match d with | .vec r => ringPos i.team.S (i.gang.fib f) r.toNat | _ => 0

/-! ### Touches -/

/-- A touch goes to its block's home (R82). -/
def sendTouch (s : State) (who : Toucher) (ctx rn bix : Nat) (gen : Option (Nat × List (Nat × Nat) × Nat)) : State :=
  let (id, s) := s.fresh
  s.modPend (fun p => { p with touches := p.touches ++ [⟨id, who, ctx, rn, bix, gen, none⟩] })

/-- What a gang's touches carry when it holds rights: its depth, its chain and its `cctx` (R88, R92); the lowest right. -/
def genOf (g : Gang) : Option (Nat × List (Nat × Nat) × Nat) := g.rights.head?.map (fun e => (e.2.dep, e.2.chain, e.2.cctx))

/-- Block of an offset of a range (R79). -/
def blockOf (s : State) (rn off : Nat) : Nat := if isPageRange s rn then off / 12288 else off / 192

/-- A block that some targets touch, with the lowest fibre, unless the gang holds its right. -/
def touchesOf (s : State) (g : Gang) (ts : List (Nat × Target)) : List (Nat × Nat × Nat) :=
  ts.foldl (fun l e =>
    match e.2 with
    | .proc rn off =>
        let b := blockOf s rn off
        if g.holdsRight rn b || l.any (fun x => x.2.1 == rn && x.2.2 == b) then l else l ++ [(e.1, rn, b)]
    | _ => l) []

/-- The held touches of a generator gang's instruction (R93): asked once, then judged together. An instruction that may go on has
none unanswered and none with an error; one with an error traps, and the gang's rights fail as the trap is taken. -/
def genTouchGate (s : State) (i : Iss) (ts : List (Nat × Target)) (n hint : Nat) : Res Unit :=
  let mine := i.probes
  if i.gang.rights.isEmpty && mine.isEmpty then .ok () s
  else
    let bs := touchesOf s i.gang ts
    let new := if i.gang.rights.isEmpty then [] else bs.filter (fun b => !mine.any (fun t => t.rn == b.2.1 && t.bix == b.2.2))
    if !new.isEmpty then
      let lead := i.frag.lowest
      let s := new.foldl (fun s b => sendTouch s (.probe i.tid i.gid lead) i.team.ctx b.2.1 b.2.2 (genOf i.gang)) s
      let fibs := fun (b : Nat × Nat × Nat) => ts.filterMap (fun e => match e.2 with
        | .proc rn off => if rn == b.2.1 && blockOf s rn off == b.2.2 then some (e.1, off) else none
        | _ => none)
      .wait (s.modCur (fun g => { g with genTouches := g.genTouches ++ new.map (fun b =>
        { lead, rn := b.2.1, bix := b.2.2, fib := b.1, ipc := i.frag.pc, asked := true, ans := none
          fibs := fibs b, page := isPageRange s b.2.1, n, hint }) }))
    else if mine.any (fun t => t.ans.isNone) then .wait s
    else
      match mine.find? (fun t => t.ans == some 1 || t.ans == some 2 || t.ans == some 3) with
      | none => .ok () s
      | some t =>
          .trap { cause := if t.ans = some 1 then 0x10 else 0x11, sub := if t.ans = some 3 then 1 else 0, fib := t.fib, fails := true } s

/-- Hand the waits that a generator gang's held touches joined to what goes on waiting for each block (R93). -/
def takeProbes (s : State) (i : Iss) (who : Nat → Nat → Toucher) : State :=
  let sw := fun (w : Toucher) (rn bix : Nat) => if i.probes? w then who rn bix else w
  let s := s.modFelt (fun f => { f with merges := f.merges.map (fun m =>
    { m with waiters := m.waiters.map (fun w => (sw w.1 m.rn m.bix, w.2)) }) })
  let s := s.modPend (fun p => { p with replays := p.replays.map (fun r => { r with who := sw r.who r.rn r.bix }) })
  s.modCur (fun g => { g with genTouches := g.genTouches.filter (fun x => !(i.frag.mask.getLsbD x.lead && x.ipc == i.frag.pc)) })

/-- Bytes of a block at an offset of its range, from the block's bytes as they were served (R84). -/
def blockSnap (data : Memory) (page : Bool) (off n : Nat) : List Byte := memBytes data (if page then off % 12288 else off % 192) n
def snapBytes (s : State) (data : Memory) (rn off n : Nat) : List Byte := blockSnap data (isPageRange s rn) off n

/-! ### Peers -/

/-- Links of a valid route (R522): the mask of `sg_route` of the part. -/
def routeLinks (s : State) (part : Nat) : List Nat :=
  let r := mapGetD 0 part s.sys.sgRoute
  if r.getLsbD 12 then (List.range 12).filter (fun n => r.getLsbD n) else []
def linkUp (s : State) (n : Nat) : Bool := bitsOf (mapGetD 0 n s.sys.sgLink) 1 0 == 2
/-- The link of a line of a part (R522): the line's hash picks one of the route's mask, and while that one is not up, the next of the mask
that is; 12 for none. -/
def linkFor (s : State) (part pa : Nat) : Nat :=
  let l := routeLinks s part
  let h := Config.sergeHash (pa / 192) % l.length
  ((l.drop h ++ l.take h).find? (linkUp s)).getD 12

/-- The global address that a fibre's access translates as (R27, R28, R37). -/
def globalOf (s : State) (i : Iss) (k : AK) (n : Nat) (fib : Nat) (ga : Quad) : Nat :=
  match locate s i.tid i.team (i.gang.fib fib).pidx.toNat k n n ga with | .ok (.page va) => va | _ => ga.toNat

/-- A request to a peer part; `ga` is the global address (R37, R522). -/
def sendPeer (s : State) (who : PeerFor) (ctx core part pa ga : Nat) (kind : PeerKind) (n : Nat) (bytes : List Byte) (org : Origin) : State :=
  let (id, s) := s.fresh
  s.modPend (fun p => { p with peers := p.peers ++
    [{ id, who, ctx, core, part, pa, ga, link := linkFor s part pa, kind, n, bytes, org }] })

end Sys2Proof.Machine
end

