-- ==== Sys2Proof/Machine/Control.lean ====
section
/-! DEFINITION. Control and predicate instructions, opcodes 0x01 to 0x16 (R276-R298), and the end of a fragment's parking. -/

namespace Sys2Proof.Machine

/-! ### Branches, calls and returns -/

/-- Word address `off` words from a base (R276). -/
def relTarget (pc : Quad) (off : BitVec 28) : Quad := pc + 8 * off.signExtend 64

/-- Active fibres go to a target, the rest to the following instruction (R280). -/
def jumpTo (s : State) (i : Iss) (p : Pred) (target : Quad) (words : Nat) : Res Unit :=
  if !(unsure i p).isEmpty then endsAhead s
  else
    match active i p with
    | [] => .ok () (advance s words)
    | f :: t => .ok () (splitTo s i [(f :: t, target), (rest i (f :: t), i.frag.pc + BitVec.ofNat 64 (8 * words))] f)

/-- A scalar 64-bit target: R197, then the alignment check of R281, then go on with it. -/
def withTarget (s : State) (i : Iss) (p : Pred) (a : Src) (k : Quad → State → Res Unit) : Res Unit :=
  match active i p with
  | [] => if (unsure i p).isEmpty then .ok () (advance s (wordsOf [a])) else endsAhead s
  | f :: fs =>
      (checked s i ((f :: fs).flatMap (needsOf i.team.S i.gang [opA a true])) []).bind fun _ s =>
        match opndVal i.team.S i.gang (opA a true) f with
        | none => endsAhead s
        | some t => if t.toNat % 8 = 0 then k t s else .trap (illopnd 5 f) s

/-- The call of R282: windows advance, the link goes into v0 and v1 of the callee, active fibres go to the target. -/
def callTo (s : State) (i : Iss) (p : Pred) (k : Nat) (target : Quad) (words : Nat) : Res Unit :=
  if !(unsure i p).isEmpty then endsAhead s
  else
    let act := active i p
    let S := i.team.S
    if act.isEmpty then .ok () (advance s words)
    else
      let link := i.frag.pc + BitVec.ofNat 64 (8 * words)
      let regs := fun f => [RegRef.v f (ringPos S (i.gang.fib f) k), RegRef.v f (ringPos S (i.gang.fib f) (k + 1))]
      (checked s i [] (act.flatMap regs)).bind fun _ s =>
        if i.gang.ra.isSome && !(moveSteps i.gang S act true k).isEmpty then endsAhead s
        else
          (moveWindow s i.tid i.gid act true k false).bind fun _ s =>
            let s := s.modCur (fun g => act.foldl (fun g f => writeRun g (regs f) [loWord link, hiWord link]) g)
            .ok () (splitTo s i [(act, target), (rest i act, link)] (act.headD 0))

/-- `NOP` (R289). -/
def execNop (_ : Pred) (s : State) : Out := withIss s (fun _ => .ok () (advance s 1))

/-- `BRA` (R280). -/
def execBra (p : Pred) (off : BitVec 28) (s : State) : Out :=
  withIss s (fun i => jumpTo s i p (relTarget i.frag.pc off) 1)

/-- `JMPS` (R281). -/
def execJmps (p : Pred) (a : Src) (s : State) : Out :=
  withIss s (fun i => withTarget s i p a (fun t s => jumpTo s i p t (wordsOf [a])))

/-- `CALL` (R282). -/
def execCall (p : Pred) (k : BitVec 5) (off : BitVec 28) (s : State) : Out :=
  withIss s (fun i => callTo s i p (4 * k.toNat) (relTarget i.frag.pc off) 1)

/-- `CALLS` (R281, R282). -/
def execCalls (p : Pred) (a : Src) (k : BitVec 5) (s : State) : Out :=
  withIss s (fun i => withTarget s i p a (fun t s => callTo s i p (4 * k.toNat) t (wordsOf [a])))

/-- `RET` (R283): every fibre's address is read before the window retreats; one fragment per distinct address (R184). -/
def execRet (p : Pred) (a : Src) (k : BitVec 5) (s : State) : Out :=
  withIss s fun i =>
    if !(unsure i p).isEmpty then endsAhead s
    else
      let act := active i p
      let S := i.team.S
      let n := 4 * k.toNat
      if act.isEmpty then .ok () (advance s (wordsOf [a]))
      else
        (checked s i (act.flatMap (needsOf S i.gang [opA a true])) []).bind fun _ s =>
          match allSome (act.map (fun f => (opndVal S i.gang (opA a true) f).map (fun t => (f, t)))) with
          | none => endsAhead s
          | some ts =>
              match ts.find? (fun e => e.2.toNat % 8 != 0 || decide ((i.gang.fib e.1).wb < n)) with
              | some e => .trap (illopnd 5 e.1) s
              | none =>
                  if i.gang.ra.isSome && !(moveSteps i.gang S act false n).isEmpty then endsAhead s
                  else
                    (moveWindow s i.tid i.gid act false n false).bind fun _ s =>
                      let targets := (ts.map (·.2)).eraseDups
                      let parts := targets.map (fun t => ((ts.filter (fun e => e.2 == t)).map (·.1), t))
                      .ok () (splitTo s i (parts ++ [(rest i act, i.frag.pc + BitVec.ofNat 64 (8 * wordsOf [a]))]) (act.headD 0))

/-- `RECONV` (R284, R186): a push with a tag of its own; a full stack first loses its bottom entry. -/
def execReconv (_ : Pred) (off : BitVec 28) (s : State) : Out :=
  withIss s fun i =>
    let s := s.modCur (fun g => { g with nextTag := g.nextTag + 1 })
    let s := s.modFrag (fun f => { f with stack := (relTarget i.frag.pc off, i.gang.nextTag) :: f.stack.take 7 })
    .ok () (advance s 1)

/-- A PARKED fragment pops its entry and returns to RUNNING alone (R186). -/
def execParkTimeout (team gang lead : Nat) (s : State) : Out :=
  let free := match s.gang team gang with | some g => g.handler.isNone && g.ra.isNone | none => false
  if free then
    .next (settleGang (s.modGang team gang (fun g =>
      { g with frags := g.frags.map (fun f =>
          if f.mask.getLsbD lead && f.st == .parked && !f.held then { f with st := .running, stack := f.stack.tail }
          else f) })) team gang)
  else .next s

/-! ### Starting and ending fibres -/

/-- `EXIT` (R288). -/
def execExit (p : Pred) (s : State) : Out :=
  direct s (fun i => if (active i p).isEmpty then .ok () (advance s 1) else .ok () (endGang s i.tid i.gid 0))

/-- `FORK` (R286): the slots of the mask that are not LIVE wake in a fragment of their own. -/
def execFork (p : Pred) (d : Dst) (a : Src) (off : BitVec 28) (s : State) : Out :=
  direct s fun i =>
    match active i p with
    | [] => .ok () (advance s (wordsOf [a]))
    | f :: fs =>
        (checked s i ((f :: fs).flatMap (needsOf i.team.S i.gang [opA a true])) (dstRegs i.team.S i.gang d 2 f)).bind fun _ s =>
          if inHandler i then .trap (illopnd 5 f) s
          else
            let m := (opndVal i.team.S i.gang (opA a true) f).getD 0
            let w := m &&& ~~~(maskOf i.gang.liveFibres)
            let s := s.modCur (fun g =>
              let g := (maskList w).foldl (fun g n => g.modFib n (fun b => { b with live := true })) g
              let g := writeDst i.team.S g d true f (some w)
              if w = 0 then g else { g with frags := g.frags ++ [{ pc := relTarget i.frag.pc off, mask := w }] })
            .ok () (advance s (wordsOf [a]))

/-- `FEND` (R287): active fibres become DORMANT; barriers and the gang's meeting points are judged afresh. -/
def execFend (p : Pred) (s : State) : Out :=
  direct s fun i =>
    match active i p with
    | [] => .ok () (advance s 1)
    | f :: t =>
        if inHandler i then .trap (illopnd 5 f) s
        else
          let s := s.modCur (fun g => (f :: t).foldl (fun g n => g.modFib n (fun b => { b with live := false, trav := b.trav.filter (fun v => !v.suspended) })) g)
          if i.gang.liveFibres.all (fun n => (f :: t).contains n) then .ok () (endGang s i.tid i.gid 0)
          else .ok () (barriersTry (splitTo s i [(rest i (f :: t), i.frag.pc + 8)] f) i.tid)

/-- `YIELD` (R289, R464): the fragment rests for a front-end cycle and then ranks as youngest. -/
def execYield (_ : Pred) (s : State) : Out :=
  withIss s (fun _ => .ok () ((advance s 1).modFrag (fun f => { f with young := true, rest := true })))

/-- `BRKPT` (R289, R470): the trap resumes at the following instruction. -/
def execBrkpt (p : Pred) (code : BitVec 12) (s : State) : Out :=
  withIss s fun i =>
    match active i p with
    | [] => if (unsure i p).isEmpty then .ok () (advance s 1) else endsAhead s
    | f :: _ => .trap { cause := 0x0E, fib := f, tcode := code.toNat, after := 8 } s

/-! ### Gang-wide instructions -/

/-- `GBAR` (R291, R187); on a Twill core it completes at once, as a re-gang. -/
def execGbar (_ : Pred) (s : State) : Out :=
  direct s fun i =>
    if inHandler i then .trap (illopnd 5 i.frag.lowest) s
    else if i.team.place.isTwill then .ok () ((advance s 1).modFrag (fun f => { f with wait := .regang }))
    else .ok () (settleGang (s.modFrag (fun f => { f with st := .waitgang, wait := .gbar })) i.tid i.gid)

/-- `VOTE` (R292) over the active fibres alone. -/
def execVote (p : Pred) (d : Dst) (a : Src) (m : VoteMode) (s : State) : Out :=
  withIss s fun i =>
    let act := active i p
    let S := i.team.S
    let t := if (unsure i p).isEmpty then allSome (act.map (fun f => (opndVal S i.gang (opA a) f).map (fun v => (f, v != 0)))) else none
    let v := t.map fun t =>
      match m with
      | .any => if t.any (·.2) then (1 : Quad) else 0
      | .all => if t.all (·.2) then 1 else 0
      | .ballot => maskOf ((t.filter (·.2)).map (·.1))
    lanesWith s i p d (m == .ballot) none (fun f => if act.head? = some f then act.flatMap (needsOf S i.gang [opA a]) else [])
      (fun _ => v.map (fun v => { val := v })) (wordsOf [a])

/-- `RFL` (R293): the value that the lowest active fibre reads. -/
def execRfl (p : Pred) (d : Dst) (a : Src) (q : Bool) (s : State) : Out :=
  withIss s fun i =>
    let S := i.team.S
    let low := (active i p).head?
    let v := if (unsure i p).isEmpty then low.bind (opndVal S i.gang (opA a q)) else none
    lanesWith s i p d q none (fun f => if low = some f then needsOf S i.gang [opA a q] f else [])
      (fun _ => v.map (fun v => { val := v })) (wordsOf [a])

/-- The fibre that SHFL names (R294). -/
def shflFib (m : ShflMode) (f B : Nat) : Option Nat :=
  match m with
  | .idx => some B
  | .up => if B ≤ f then some (f - B) else none
  | .down => some (f + B)
  | .xor => some (f ^^^ B)

/-- `SHFL` (R294). -/
def execShfl (p : Pred) (d : Dst) (a b : Src) (q : Bool) (pd : BitVec 3) (m : ShflMode) (s : State) : Out :=
  withIss s fun i =>
    let S := i.team.S
    let pick := fun f => (opndVal S i.gang (opB b) f).map fun B =>
      match shflFib m f B.toNat with
      | some j => if j < 64 ∧ i.frag.mask.getLsbD j then (j, true) else (f, false)
      | none => (f, false)
    let bFull := fun f => (needsOf S i.gang [opB b] f).all (fun n => (i.gang.reg n.ref).fe == .full)
    let needs := fun f =>
      (if bFull f then
        match pick f with
        | some e => (regsOf S i.gang (opA a q) e.1).map (fun r => ⟨f, 0, a.ea, r⟩)
        | none => []
      else []) ++ needsOf S i.gang [opB b] f
    let bad := match a with | .vec _ c _ => c != 0 | _ => false
    match (active i p).head?, bad with
    | some f, true => (checked s i ((active i p).flatMap needs) []).bind (fun _ s => .trap (illopnd 5 f) s)
    | _, _ =>
        lanesWith s i p d q (if pd = 7 then none else some pd) needs
          (fun f => (pick f).bind (fun e => (opndVal S i.gang (opA a q) e.1).map (fun v => { val := v, ok := e.2 })))
          (wordsOf [a, b])

/-! ### Predicates -/

/-- Value of a predicate field for a fibre (R278), where it is known. -/
def fieldVal (i : Iss) (f : Nat) (p : Pred) : Option Bool :=
  if i.gang.predUnknown f p.idx.toNat then none else some (i.gang.predVal f p)

def boolQ (b : Bool) : Quad := if b then 1 else 0

/-- A predicate instruction over predicate fields (R297, R298). -/
def predOp (s : State) (p : Pred) (d : Dst) (fs : List Pred) (f : List Bool → Bool) : Out :=
  withIss s fun i =>
    lanesWith s i p d false none (fun _ => [])
      (fun n => (allSome (fs.map (fieldVal i n))).map (fun l => { val := boolQ (f l) })) 1

/-- Numbers in order: less, equal, greater. -/
def cmpHolds (c : Cmp) (lt eq : Bool) : Bool :=
  match c with
  | .eq => eq | .ne => !eq | .lt => lt | .le => lt || eq | .gt => !lt && !eq | .ge => !lt | .num => true | .nan => false

/-- Values of floats in order. -/
def fvLt : FV → FV → Bool
  | .inf m, .inf n => m && !n
  | .inf m, _ => m
  | _, .inf n => !n
  | a, b => decide (a.rat < b.rat)
def fvEq : FV → FV → Bool
  | .inf m, .inf n => m == n
  | .inf _, _ => false
  | _, .inf _ => false
  | a, b => a.rat == b.rat

/-- A float comparison with its flag (R296). -/
def cmpFloat (c : Cmp) (a b : FV) : Bool × Word :=
  let nan := a.isNan || b.isNan
  let sn := a.isSnan || b.isSnan
  let flag := match c with | .lt | .le | .gt | .ge => nan | _ => sn
  let v := match c with
    | .num => !nan
    | .nan => nan
    | .ne => nan || !fvEq a b
    | _ => !nan && cmpHolds c (fvLt a b) (fvEq a b)
  (v, flagIf flag fNV)

/-- The comparison of PSET (R295, R296). -/
def psetLane (ty : CmpTy) (c : Cmp) (a b : Quad) : Lane :=
  let int := fun (x y : Int) => ({ val := boolQ (cmpHolds c (decide (x < y)) (x == y)) } : Lane)
  let flt := fun (f : Fmt) (w : Nat) =>
    let r := cmpFloat c (f.value (a.toNat % 2 ^ w)) (f.value (b.toNat % 2 ^ w))
    ({ val := boolQ r.1, flags := r.2 } : Lane)
  match ty with
  | .i32 => int (sextNat a.toNat 32) (sextNat b.toNat 32)
  | .n32 => int (a.toNat % 2 ^ 32) (b.toNat % 2 ^ 32)
  | .i64 => int a.toInt b.toInt
  | .n64 => int a.toNat b.toNat
  | .f32 => flt .f32 32
  | .f16 => flt .f16 16
  | .bf16 => flt .bf16 16

def CmpTy.oty : CmpTy → OTy | .f32 => .f32 | .f16 => .f16 | .bf16 => .bf16 | _ => .int
def CmpTy.isInt : CmpTy → Bool | .i32 | .n32 | .i64 | .n64 => true | _ => false

/-- `PSET` (R295, R296); num and nan with an integer type are ILLOPND sub-cause 5. -/
def execPset (p : Pred) (d : Dst) (a b : Src) (ty : CmpTy) (c : Cmp) (s : State) : Out :=
  let ops := [opA a ty.wide (CmpTy.oty ty), opB b ty.wide (CmpTy.oty ty)]
  withIss s fun i =>
    match (active i p).head?, CmpTy.isInt ty && (c == .num || c == .nan) with
    | some f, true =>
        (checked s i ((active i p).flatMap (needsOf i.team.S i.gang ops)) []).bind (fun _ s => .trap (illopnd 5 f) s)
    | _, _ => lanes s i p d false ops (fun _ vs =>
        match vs with | [x, y] => psetLane ty c x y | _ => {})

/-- `PAND` (R297). -/
def execPand (p : Pred) (d : Dst) (a b : Pred) (s : State) : Out := predOp s p d [a, b] (fun l => l.all id)
/-- `POR` (R297). -/
def execPor (p : Pred) (d : Dst) (a b : Pred) (s : State) : Out := predOp s p d [a, b] (fun l => l.any id)
/-- `PXOR` (R297). -/
def execPxor (p : Pred) (d : Dst) (a b : Pred) (s : State) : Out := predOp s p d [a, b] (fun l => l.foldl (· != ·) false)
/-- `PNOT` (R297). -/
def execPnot (p : Pred) (d : Dst) (a : Pred) (s : State) : Out := predOp s p d [a] (fun l => !l.all id)

/-- `PMOV` (R298): a move, a pack of p7 to p0, an unpack into p0 to p6. -/
def execPmov (p : Pred) (op : PmovOp) (s : State) : Out :=
  match op with
  | .move d a => predOp s p d [a] (fun l => l.all id)
  | .pack d =>
      withIss s fun i =>
        lanesWith s i p d false none (fun _ => [])
          (fun f =>
            if (List.range 7).any (i.gang.predUnknown f) then none
            else some { val := BitVec.ofNat 64 (128 + ((i.gang.fib f).preds.extractLsb' 0 7).toNat) }) 1
  | .unpack a =>
      withIss s fun i =>
        let S := i.team.S
        let act := active i p
        let fs := act ++ unsure i p
        (checked s i (fs.flatMap (needsOf S i.gang [opA a])) []).bind fun _ s =>
          let s := s.modCur (fun g => fs.foldl (fun g f =>
            let v := if act.contains f then opndVal S i.gang (opA a) f else none
            (List.range 7).foldl (fun g n => g.setPred f n (v.map (fun q => q.getLsbD n))) g) g)
          .ok () (advance s (wordsOf [a]))

end Sys2Proof.Machine
end

