-- ==== Sys2Proof/Machine/Integer.lean ====
section
/-! DEFINITION. Integer, address and move instructions, opcodes 0x20 to 0x3F (R299-R307). -/

namespace Sys2Proof.Machine

/-- One operand, two, three. -/
def alu1 (s : State) (p : Pred) (d : Dst) (wide : Bool) (a : Opnd) (f : Quad → Lane) : Out :=
  alu s p d wide [a] (fun l => match l with | [x] => f x | _ => {})
def alu2 (s : State) (p : Pred) (d : Dst) (wide : Bool) (a b : Opnd) (f : Quad → Quad → Lane) : Out :=
  alu s p d wide [a, b] (fun l => match l with | [x, y] => f x y | _ => {})
def alu3 (s : State) (p : Pred) (d : Dst) (wide : Bool) (a b c : Opnd) (f : Quad → Quad → Quad → Lane) : Out :=
  alu s p d wide [a, b, c] (fun l => match l with | [x, y, z] => f x y z | _ => {})

/-- Width of the operands (R300). -/
def IntMod.width (m : IntMod) : Nat := if m.q then 64 else 32
/-- The low w bits as a signed or unsigned integer (R300). -/
def extOf (u : Bool) (w : Nat) (x : Quad) : Int := if u then ((x.toNat % 2 ^ w : Nat) : Int) else sextNat x.toNat w
/-- x mod 2^w as a value. -/
def wrap (w : Nat) (x : Int) : Lane := { val := BitVec.ofInt 64 (x % (2 ^ w : Nat)) }

/-- The result of the arithmetic group, saturated or wrapped (R300). -/
def arith (m : IntMod) (x : Int) : Lane :=
  let w := IntMod.width m
  wrap w (if m.sat then clampInt (intLo (!m.u) 32) (intHi (!m.u) 32) x else x)

def iaddL (m : IntMod) (a b : Quad) : Lane := let e := extOf m.u (IntMod.width m); arith m (e a + e b)
def isubL (m : IntMod) (a b : Quad) : Lane := let e := extOf m.u (IntMod.width m); arith m (e a - e b)
def imulL (a b : Quad) : Lane := wrap 32 (sextNat a.toNat 32 * sextNat b.toNat 32)
def imulhL (m : IntMod) (a b : Quad) : Lane := wrap 32 ((extOf m.u 32 a * extOf m.u 32 b).fdiv (2 ^ 32 : Nat))
def iminL (m : IntMod) (a b : Quad) : Lane := let e := extOf m.u (IntMod.width m); arith m (min (e a) (e b))
def imaxL (m : IntMod) (a b : Quad) : Lane := let e := extOf m.u (IntMod.width m); arith m (max (e a) (e b))
/-- Bitwise results, w bits wide (R301). -/
def bitsL (w : Nat) (x : Quad) : Lane := { val := BitVec.ofNat 64 (x.toNat % 2 ^ w) }
/-- Shifts by any count (R301). -/
def shlL (w : Nat) (a b : Quad) : Lane :=
  let n := b.toNat % 2 ^ 32
  if w ≤ n then {} else { val := BitVec.ofNat 64 (a.toNat % 2 ^ w * 2 ^ n % 2 ^ w) }
def shrL (w : Nat) (a b : Quad) : Lane :=
  let n := b.toNat % 2 ^ 32
  if w ≤ n then {} else { val := BitVec.ofNat 64 (a.toNat % 2 ^ w / 2 ^ n) }
def sarL (w : Nat) (a b : Quad) : Lane :=
  let n := min w (b.toNat % 2 ^ 32)
  wrap w ((sextNat a.toNat w).fdiv (2 ^ n : Nat))
def rotL (w : Nat) (a b : Quad) : Lane :=
  let m := b.toNat % 2 ^ 32 % w
  let x := a.toNat % 2 ^ w
  { val := BitVec.ofNat 64 ((x * 2 ^ m + x / 2 ^ (w - m)) % 2 ^ w) }
/-- |x - y| of bytes (R302). -/
def byteDiff (a b : Quad) (i : Nat) : Nat :=
  let x := bitsOf a (8 * i + 7) (8 * i)
  let y := bitsOf b (8 * i + 7) (8 * i)
  max x y - min x y
def isadL (a b c : Quad) : Lane :=
  { val := BitVec.ofNat 64 ((c.toNat + byteDiff a b 0 + byteDiff a b 1 + byteDiff a b 2 + byteDiff a b 3) % 2 ^ 32) }
def funnelL (a b c : Quad) : Lane :=
  { val := BitVec.ofNat 64 ((b.toNat % 2 ^ 32 * 2 ^ 32 + a.toNat % 2 ^ 32) / 2 ^ (c.toNat % 32) % 2 ^ 32) }
/-- Position and length fields of BFE and BFI (R303). -/
def bfPos (b : Quad) : Nat := bitsOf b 4 0
def bfLen (b : Quad) : Nat := min (bitsOf b 13 8) 32
def bfeL (u : Bool) (a b : Quad) : Lane :=
  let len := bfLen b
  let f := (((extOf u 32 a).fdiv (2 ^ bfPos b : Nat)) % (2 ^ len : Nat)).toNat
  if u ∨ len = 0 then { val := BitVec.ofNat 64 f } else wrap 32 (sextNat f len)
def bfiL (a b c : Quad) : Lane :=
  let m := ((2 ^ bfLen b - 1) * 2 ^ bfPos b) % 2 ^ 32
  { val := BitVec.ofNat 64 (((c.toNat % 2 ^ 32) &&& ((2 ^ 32 - 1) ^^^ m)) ||| ((a.toNat % 2 ^ 32 * 2 ^ bfPos b) &&& m)) }
def popcount (w x : Nat) : Nat := ((List.range w).filter (fun i => x.testBit i)).length
def clz (w x : Nat) : Nat := if x % 2 ^ w = 0 then w else w - 1 - Nat.log2 (x % 2 ^ w)
def brev (w x : Nat) : Nat := (List.range w).foldl (fun n i => if x.testBit (w - 1 - i) then n + 2 ^ i else n) 0
/-- CVTW (R306). -/
def cvtwL (m : CvtwMod) (a : Quad) : Lane :=
  let x := extOf m.su (8 * 2 ^ m.sw.toNat) a
  let w := if m.dw then 64 else 32
  let y := if m.sat then clampInt (intLo (!m.du) w) (intHi (!m.du) w) x else x
  { wrap w y with flags := flagIf (y != x) fOF }

/-- `IADD` (R300). -/
def execIadd (p : Pred) (d : Dst) (a b : Src) (m : IntMod) (s : State) : Out := alu2 s p d false (opA a) (opB b) (iaddL m)
/-- `ISUB` (R300). -/
def execIsub (p : Pred) (d : Dst) (a b : Src) (m : IntMod) (s : State) : Out := alu2 s p d false (opA a) (opB b) (isubL m)
/-- `IMUL` (R300). -/
def execImul (p : Pred) (d : Dst) (a b : Src) (s : State) : Out := alu2 s p d false (opA a) (opB b) imulL
/-- `IMULH` (R300). -/
def execImulh (p : Pred) (d : Dst) (a b : Src) (m : IntMod) (s : State) : Out := alu2 s p d false (opA a) (opB b) (imulhL m)
/-- `IMAD` (R302). -/
def execImad (p : Pred) (d : Dst) (a b c : Src) (s : State) : Out :=
  alu3 s p d false (opA a) (opB b) (opC c) (fun x y z => bitsL 32 (x * y + z))
/-- `IMADW` (R302): the destination pair is read with empty action block. -/
def execImadw (p : Pred) (d : Dst) (a b : Src) (m : IntMod) (s : State) : Out :=
  alu3 s p d true (opA a) (opB b) (opD d true) (fun x y D => wrap 64 (D.toNat + extOf m.u 32 x * extOf m.u 32 y))
/-- `IABS` (R300). -/
def execIabs (p : Pred) (d : Dst) (a : Src) (m : IntMod) (s : State) : Out :=
  alu1 s p d false (opA a) (fun x => arith m (((sextNat x.toNat 32).natAbs : Nat) : Int))
/-- `INEG` (R300). -/
def execIneg (p : Pred) (d : Dst) (a : Src) (m : IntMod) (s : State) : Out :=
  alu1 s p d false (opA a) (fun x => arith m (-(sextNat x.toNat 32)))
/-- `IMIN` (R300). -/
def execImin (p : Pred) (d : Dst) (a b : Src) (m : IntMod) (s : State) : Out := alu2 s p d m.q (opA a m.q) (opB b m.q) (iminL m)
/-- `IMAX` (R300). -/
def execImax (p : Pred) (d : Dst) (a b : Src) (m : IntMod) (s : State) : Out := alu2 s p d m.q (opA a m.q) (opB b m.q) (imaxL m)
/-- `ISAD` (R302). -/
def execIsad (p : Pred) (d : Dst) (a b c : Src) (s : State) : Out := alu3 s p d false (opA a) (opB b) (opC c) isadL
/-- `AND` (R301). -/
def execAnd (p : Pred) (d : Dst) (a b : Src) (m : IntMod) (s : State) : Out :=
  alu2 s p d m.q (opA a m.q) (opB b m.q) (fun x y => bitsL (IntMod.width m) (x &&& y))
/-- `OR` (R301). -/
def execOr (p : Pred) (d : Dst) (a b : Src) (m : IntMod) (s : State) : Out :=
  alu2 s p d m.q (opA a m.q) (opB b m.q) (fun x y => bitsL (IntMod.width m) (x ||| y))
/-- `XOR` (R301). -/
def execXor (p : Pred) (d : Dst) (a b : Src) (m : IntMod) (s : State) : Out :=
  alu2 s p d m.q (opA a m.q) (opB b m.q) (fun x y => bitsL (IntMod.width m) (x ^^^ y))
/-- `ANDN` (R301). -/
def execAndn (p : Pred) (d : Dst) (a b : Src) (m : IntMod) (s : State) : Out :=
  alu2 s p d m.q (opA a m.q) (opB b m.q) (fun x y => bitsL (IntMod.width m) (x &&& ~~~y))
/-- `NOT` (R301). -/
def execNot (p : Pred) (d : Dst) (a : Src) (m : IntMod) (s : State) : Out :=
  alu1 s p d m.q (opA a m.q) (fun x => bitsL (IntMod.width m) (~~~x))
/-- `SHL` (R301). -/
def execShl (p : Pred) (d : Dst) (a b : Src) (m : IntMod) (s : State) : Out :=
  alu2 s p d m.q (opA a m.q) (opB b) (shlL (IntMod.width m))
/-- `SHR` (R301). -/
def execShr (p : Pred) (d : Dst) (a b : Src) (m : IntMod) (s : State) : Out :=
  alu2 s p d m.q (opA a m.q) (opB b) (shrL (IntMod.width m))
/-- `SAR` (R301). -/
def execSar (p : Pred) (d : Dst) (a b : Src) (m : IntMod) (s : State) : Out :=
  alu2 s p d m.q (opA a m.q) (opB b) (sarL (IntMod.width m))
/-- `ROT` (R301). -/
def execRot (p : Pred) (d : Dst) (a b : Src) (m : IntMod) (s : State) : Out :=
  alu2 s p d m.q (opA a m.q) (opB b) (rotL (IntMod.width m))
/-- `FUNNEL` (R302). -/
def execFunnel (p : Pred) (d : Dst) (a b c : Src) (s : State) : Out := alu3 s p d false (opA a) (opB b) (opC c) funnelL
/-- `BFE` (R303). -/
def execBfe (p : Pred) (d : Dst) (a b : Src) (m : IntMod) (s : State) : Out := alu2 s p d false (opA a) (opB b) (bfeL m.u)
/-- `BFI` (R303). -/
def execBfi (p : Pred) (d : Dst) (a b c : Src) (s : State) : Out := alu3 s p d false (opA a) (opB b) (opC c) bfiL
/-- `POPC` (R301). -/
def execPopc (p : Pred) (d : Dst) (a : Src) (m : IntMod) (s : State) : Out :=
  alu1 s p d false (opA a m.q) (fun x => { val := BitVec.ofNat 64 (popcount (IntMod.width m) x.toNat) })
/-- `CLZ` (R301). -/
def execClz (p : Pred) (d : Dst) (a : Src) (m : IntMod) (s : State) : Out :=
  alu1 s p d false (opA a m.q) (fun x => { val := BitVec.ofNat 64 (clz (IntMod.width m) x.toNat) })
/-- `BREV` (R301). -/
def execBrev (p : Pred) (d : Dst) (a : Src) (m : IntMod) (s : State) : Out :=
  alu1 s p d m.q (opA a m.q) (fun x => { val := BitVec.ofNat 64 (brev (IntMod.width m) x.toNat) })
/-- `SEL` (R304). -/
def execSel (p : Pred) (d : Dst) (a b : Src) (c : Pred) (q : Bool) (s : State) : Out :=
  withIss s fun i =>
    let S := i.team.S
    let ops := [opA a q, opB b q]
    lanesWith s i p d q none (needsOf S i.gang ops)
      (fun f =>
        if i.gang.predUnknown f c.idx.toNat then none
        else (opndVal S i.gang (if i.gang.predVal f c then opA a q else opB b q) f).map (fun v => { val := v }))
      (wordsOf [a, b])
/-- `MOV` (R304). -/
def execMov (p : Pred) (d : Dst) (a : Src) (m : IntMod) (s : State) : Out :=
  alu1 s p d m.q (opA a m.q) (fun x => { val := x })
/-- `MOVI` (R304). -/
def execMovi (p : Pred) (d : Dst) (a b : Src) (s : State) : Out :=
  alu2 s p d true (opA a) (opB b) (fun x y => { val := quadOf (loWord x) (loWord y) })
/-- `LEA` (R305). -/
def execLea (p : Pred) (d : Dst) (a b : Src) (sh : BitVec 3) (u : Bool) (s : State) : Out :=
  alu2 s p d true (opA a true) (opB b) (fun x y => wrap 64 (x.toNat + extOf u 32 y * (2 ^ sh.toNat : Nat)))
/-- `IADD64` (R305). -/
def execIadd64 (p : Pred) (d : Dst) (a b : Src) (sub : Bool) (s : State) : Out :=
  alu2 s p d true (opA a true) (opB b true) (fun x y => { val := if sub then x - y else x + y })
/-- `CVTW` (R306). -/
def execCvtw (p : Pred) (d : Dst) (a : Src) (m : CvtwMod) (s : State) : Out :=
  alu1 s p d m.dw (opA a (m.sw == 3)) (cvtwL m)

end Sys2Proof.Machine
end

