-- ==== Sys2Proof/Machine/Float.lean ====
section
/-! DEFINITION. Float and narrow-format instructions, opcodes 0x40 to 0x6A (R308-R331), and the P-form pair (R258-R261). -/

namespace Sys2Proof.Machine

def rounded32 (r : Rounded) : Lane := { val := BitVec.ofNat 64 r.code, flags := r.flags }
def f32q (x : Quad) : FV := Fmt.f32.value (x.toNat % 2 ^ 32)
def nanLane (flags : Word) : Lane := { val := BitVec.ofNat 64 Fmt.f32.dnan, flags }
def fcode (n : Nat) (flags : Word := 0) : Lane := { val := BitVec.ofNat 64 n, flags }

/-! ### f32 arithmetic -/

def faddL (m : FMod) (a b : Quad) : Lane := rounded32 (Fmt.f32.finish m.rnd m.sat (addFV m.rnd (f32q a) (f32q b)))
def fsubL (m : FMod) (a b : Quad) : Lane := rounded32 (Fmt.f32.finish m.rnd m.sat (addFV m.rnd (f32q a) (f32q b).flip))
def fmulL (m : FMod) (a b : Quad) : Lane := rounded32 (Fmt.f32.finish m.rnd m.sat (mulFV (f32q a) (f32q b)))
def ffmaL (a b c : Quad) : Lane := rounded32 (Fmt.f32.finish .rne false (fmaFV (f32q a) (f32q b) (f32q c)))

/-- a before b in FMIN's order: -0 counts as less than +0 (R312). -/
def fBefore (a b : FV) : Bool := fvLt a b || (a.isZero && b.isZero && a.neg? && !b.neg?)

/-- FMIN and FMAX (R312). -/
def fminmaxL (greater np : Bool) (a b : Quad) : Lane :=
  let x := f32q a
  let y := f32q b
  let w := flagIf (x.isSnan || y.isSnan) fNV
  if x.isNan && y.isNan then nanLane w
  else if x.isNan then (if np then nanLane w else { val := b, flags := w })
  else if y.isNan then (if np then nanLane w else { val := a, flags := w })
  else { val := if fBefore x y != greater then a else b, flags := w }

/-- FCLASS (R314). -/
def fclassL (f : Fmt) (a : Quad) : Lane :=
  let n : Nat := match f.value (a.toNat % 2 ^ f.width) with
    | .nan s => if s then 8 else 9
    | .inf neg => if neg then 0 else 7
    | .fin neg m =>
        if m = 0 then (if neg then 3 else 4)
        else if m < f.minNormal then (if neg then 2 else 5)
        else if neg then 1 else 6
  fcode (2 ^ n)

/-- FRND (R315). -/
def frndL (d : Rnd) (a : Quad) : Lane :=
  match f32q a with
  | .nan s => nanLane (flagIf s fNV)
  | .inf _ => { val := a }
  | .fin neg m =>
      let n := (roundInt d neg m).natAbs
      fcode (Fmt.f32.round .rne false (.fin neg (n : Rat))).code

/-- FFRAC (R316). -/
def ffracL (a : Quad) : Lane :=
  match f32q a with
  | .nan s => nanLane (flagIf s fNV)
  | .inf _ => nanLane fNV
  | .fin neg m =>
      let x := FV.rat (.fin neg m)
      rounded32 (Fmt.f32.round .rdn false (FV.ofRat false (x - (x.floor : Rat))))

/-! ### Transcendentals -/

def f32Inf (neg : Bool) : Nat := Fmt.f32.signBit neg + Fmt.f32.infCode
def f32Zero (neg : Bool) : Nat := Fmt.f32.signBit neg

/-- An approximation of a finite value that is not exact sets NX, and UF when tiny (R319). -/
def approx (cand : Word) (ref bound : Rat) : Lane :=
  let n := boundedApprox cand ref bound
  let tiny := match Fmt.f32.value n with | .fin _ m => decide (m < Fmt.f32.minNormal) | _ => false
  fcode n (fNX ||| flagIf tiny fUF)

/-- The rational as a power of two: its exponent. -/
def exactLog (x : Rat) : Option Int := let e := floorLog2 x; if pow2 e = x then some e else none

def frcpL (a : Quad) : Lane :=
  match f32q a with
  | .nan s => nanLane (flagIf s fNV)
  | .inf neg => fcode (f32Zero neg)
  | .fin neg m => if m = 0 then fcode (f32Inf neg) fDZ else rounded32 (Fmt.f32.round .rne false (.fin neg (1 / m)))

def frsqL (a : Quad) : Lane :=
  match f32q a with
  | .nan s => nanLane (flagIf s fNV)
  | .inf neg => if neg then nanLane fNV else fcode 0
  | .fin neg m =>
      if m = 0 then fcode (f32Inf neg) fDZ
      else if neg then nanLane fNV
      else
        let ref := sqrtRef (1 / m)
        match exactLog m with
        | some e => if e % 2 = 0 then rounded32 (Fmt.f32.round .rne false (.fin false (pow2 (-(e / 2)))))
                    else approx (Config.frsq (loWord a)) ref (ulp ref)
        | none => approx (Config.frsq (loWord a)) ref (ulp ref)

def fsqrtL (a : Quad) : Lane :=
  match f32q a with
  | .nan s => nanLane (flagIf s fNV)
  | .inf neg => if neg then nanLane fNV else fcode (f32Inf false)
  | .fin neg m =>
      if m = 0 then fcode (f32Zero neg)
      else if neg then nanLane fNV
      else rounded32 (Fmt.f32.round .rne false (.fin false (sqrtRef m)))

def fexp2L (a : Quad) : Lane :=
  match f32q a with
  | .nan s => nanLane (flagIf s fNV)
  | .inf neg => fcode (if neg then 0 else f32Inf false)
  | .fin neg m =>
      let x := FV.rat (.fin neg m)
      if 128 ≤ x then fcode (f32Inf false) (fOF ||| fNX)
      else if x < -149 then fcode 0 (fUF ||| fNX)
      else if x = (x.floor : Rat) then rounded32 (Fmt.f32.round .rne false (.fin false (pow2 x.floor)))
      else let ref := exp2Ref x; approx (Config.fexp2 (loWord a)) ref (2 * ulp ref)

def flog2L (a : Quad) : Lane :=
  match f32q a with
  | .nan s => nanLane (flagIf s fNV)
  | .inf neg => if neg then nanLane fNV else fcode (f32Inf false)
  | .fin neg m =>
      if m = 0 then fcode (f32Inf true) fDZ
      else if neg then nanLane fNV
      else
        match exactLog m with
        | some e => rounded32 (Fmt.f32.round .rne false (FV.ofRat false (e : Rat)))
        | none =>
            let ref := log2Ref m
            approx (Config.flog2 (loWord a)) ref (if (1 : Rat) / 2 ≤ m ∧ m ≤ 2 then pow2 (-22) else 2 * ulp ref)

/-- A multiple of a quarter turn, mod 4. -/
def quarter (x : Rat) : Option Nat := let q := 4 * x; if q = (q.floor : Rat) then some (q.floor % 4).toNat else none

def fsinL (a : Quad) : Lane :=
  match f32q a with
  | .nan s => nanLane (flagIf s fNV)
  | .inf _ => nanLane fNV
  | .fin neg m =>
      let x := FV.rat (.fin neg m)
      match quarter x with
      | some 1 => fcode 0x3F800000
      | some 3 => fcode 0xBF800000
      | some _ => fcode (f32Zero neg)
      | none =>
          let ref := sinTurn x
          approx (Config.fsin (loWord a)) ref (if m < pow2 (-4) then min (pow2 (-22)) (pow2 (-20) * ratAbs ref) else pow2 (-22))

def fcosL (a : Quad) : Lane :=
  match f32q a with
  | .nan s => nanLane (flagIf s fNV)
  | .inf _ => nanLane fNV
  | .fin neg m =>
      let x := FV.rat (.fin neg m)
      match quarter x with
      | some 0 => fcode 0x3F800000
      | some 2 => fcode 0xBF800000
      | some _ => fcode 0
      | none => approx (Config.fcos (loWord a)) (cosTurn x) (pow2 (-22))

def ftanhL (a : Quad) : Lane :=
  match f32q a with
  | .nan s => nanLane (flagIf s fNV)
  | .inf neg => fcode (0x3F800000 + f32Zero neg)
  | .fin neg m =>
      if m = 0 then fcode (f32Zero neg)
      else
        let ref := tanhRef m
        let r := approx (Config.ftanh (loWord a &&& 0x7FFFFFFF)) ref
          (if m < pow2 (-4) then min (pow2 (-21)) (pow2 (-20) * ref) else pow2 (-21))
        { r with val := BitVec.ofNat 64 (min (r.val.toNat % 2 ^ 31) 0x3F800000 + f32Zero neg) }

/-! ### Packed and narrow -/

/-- Each half on its own (R320). -/
def halves (f : Fmt) (h : Nat → Rounded) : Lane :=
  let x := h 0
  let y := h 1
  { val := BitVec.ofNat 64 (x.code + 2 ^ f.width * y.code), flags := x.flags ||| y.flags }
def half (f : Fmt) (x : Quad) (i : Nat) : FV := f.value (x.toNat >>> (16 * i) % 2 ^ 16)
def add2L (f : Fmt) (m : FMod) (a b : Quad) : Lane :=
  halves f (fun i => f.finish m.rnd m.sat (addFV m.rnd (half f a i) (half f b i)))
def mul2L (f : Fmt) (m : FMod) (a b : Quad) : Lane :=
  halves f (fun i => f.finish m.rnd m.sat (mulFV (half f a i) (half f b i)))
def fma2L (f : Fmt) (a b c : Quad) : Lane :=
  halves f (fun i => f.finish .rne false (fmaFV (half f a i) (half f b i) (half f c i)))

/-- Element i of width w of a word. -/
def elemAt (x w i : Nat) : Nat := (x >>> (w * i)) % 2 ^ w
/-- Replace element i of width w of a 32-bit word. -/
def elemPut (x w i y : Nat) : Nat := x - elemAt x w i * 2 ^ (w * i) + y % 2 ^ w * 2 ^ (w * i)

def SrndFmt.fmt : SrndFmt → Fmt | .f16 => .f16 | .bf16 => .bf16 | .f8e4 => .f8e4 | .f8e5 => .f8e5 | .f4e2 => .f4e2
def FTy.fmt : FTy → Fmt | .f32 => .f32 | .f16 => .f16 | .bf16 => .bf16
def FTy.oty : FTy → OTy | .f32 => .f32 | .f16 => .f16 | .bf16 => .bf16

/-- CVTI (R324). -/
def itRange : ITy → Int × Int
  | .i32 => (intLo true 32, intHi true 32) | .n32 => (0, intHi false 32) | .i64 => (intLo true 64, intHi true 64)
  | .n64 => (0, intHi false 64) | .i8 => (-128, 127) | .q4 => (-7, 7)
def itValue (t : ITy) (x : Nat) : Int × Word :=
  match t with
  | .i32 => (sextNat x 32, 0) | .n32 => ((x % 2 ^ 32 : Nat), 0) | .i64 => (sextNat x 64, 0) | .n64 => ((x : Nat), 0)
  | .i8 => (sextNat x 8, 0) | .q4 => q4Value x
def cvtiL (m : CvtiMod) (a : Quad) : Lane :=
  let f := FTy.fmt m.ft
  if m.toFloat then
    let (n, w) := itValue m.it a.toNat
    let r := f.round m.rnd m.sat (FV.ofRat false (n : Rat))
    fcode r.code (r.flags ||| w)
  else
    let (lo, hi) := itRange m.it
    let (n, w) := toIntRange m.rnd lo hi (f.value (a.toNat % 2 ^ f.width))
    { wrap (if m.it.wide then 64 else 32) n with flags := w }

/-- Sum of integer products and the accumulator (R236). -/
def dotInt (l : List (Int × Int)) (acc : Quad) : Lane := wrap 32 (l.foldl (fun s e => s + e.1 * e.2) (acc.toNat : Int))
/-- Exact sum of float products and the f32 accumulator, rounded once (R236). -/
def dotFloat (l : List (FV × FV)) (acc : Quad) : Lane :=
  let ps := l.map (fun e => mulFV e.1 e.2)
  let c := f32q acc
  let ts := c :: ps.map (·.v)
  let up := ts.any (fun v => v == .inf false)
  let dn := ts.any (fun v => v == .inf true)
  let nv := c.isSnan || ps.any (·.nv) || (up && dn)
  let sum := ts.foldl (fun s v => s + v.rat) (0 : Rat)
  let v : FV :=
    if ts.any FV.isNan || (up && dn) then .nan false
    else if up || dn then .inf dn
    else FV.ofRat false sum
  let v := if sum = 0 && ts.all (fun v => v.isZero && v.neg?) then .fin true 0 else v
  rounded32 (Fmt.f32.finish .rne false ⟨v, nv⟩)
def i8At (u : Bool) (x : Quad) (i : Nat) : Int := let b := elemAt x.toNat 8 i; if u then b else sextNat b 8
def dp4i8L (au bu : Bool) (a b d : Quad) : Lane := dotInt ((List.range 4).map (fun i => (i8At au a i, i8At bu b i))) d
def dp8q4L (a b d : Quad) : Lane :=
  let l := (List.range 8).map (fun i => (q4Value (elemAt a.toNat 4 i), q4Value (elemAt b.toNat 4 i)))
  { dotInt (l.map (fun e => (e.1.1, e.2.1))) d with flags := l.foldl (fun w e => w ||| e.1.2 ||| e.2.2) 0 }
def dp4f8L (ae be : Bool) (a b d : Quad) : Lane :=
  let f := fun (e : Bool) => if e then Fmt.f8e5 else Fmt.f8e4
  dotFloat ((List.range 4).map (fun i => ((f ae).value (elemAt a.toNat 8 i), (f be).value (elemAt b.toNat 8 i)))) d
def dp2f16L (bf : Bool) (a b d : Quad) : Lane :=
  let f := if bf then Fmt.bf16 else Fmt.f16
  dotFloat ((List.range 2).map (fun i => (half f a i, half f b i))) d

/-- SCALE (R329). -/
def scaleL (sf : ScaleForm) (m : FMod) (a b : Quad) : Lane :=
  let s : Option Rat := match sf with
    | .exp => some (pow2 (sextNat b.toNat 32))
    | .e8m0 => e8m0Value b.toNat
    | .sc10 => sc10Value b.toNat
  match f32q a, s with
  | .nan n, s => nanLane (flagIf (n || s.isNone) fNV)
  | _, none => nanLane fNV
  | .inf _, _ => { val := a }
  | .fin neg x, some y => rounded32 (Fmt.f32.round m.rnd m.sat (.fin neg (if x = 0 then 0 else x * y)))

/-- The architected random word (R228). -/
def rword (seed : Quad) (key n : Nat) : Quad :=
  let z := seed + BitVec.ofNat 64 key * 0xA24BAED4963EE407 + BitVec.ofNat 64 n * 0x9FB21C651E98DF25
  let z := (z ^^^ (z >>> 31)) * 0xD6E8FEB86659FD93
  let z := (z ^^^ (z >>> 29)) * 0x8CB92BA72F3D8DD7
  let z := z ^^^ (z >>> 32)
  (loWord z).setWidth 64

/-- SRND (R331). -/
def srndL (f : Fmt) (di : Nat) (sat : Bool) (x r d : Quad) : Lane :=
  let v := f32q x
  let y := f.srnd sat v (loWord r)
  fcode (elemPut (d.toNat % 2 ^ 32) f.width di y.code) y.flags

/-! ### Fields of a format slot (R237) -/

def slotA (w : Word) : Nat := bitsOf w 11 8
def slotB (w : Word) : Nat := bitsOf w 15 12
def slotD (w : Word) : Nat := bitsOf w 19 16
def slotSfmt (w : Word) : Nat := bitsOf w 21 20
def slotBlock (w : Word) : Nat := if w.getLsbD 22 then 32 else 16
def slotSat (w : Word) : Bool := w.getLsbD 23
def slotRnd (w : Word) : Nat := bitsOf w 26 24
def rndOf (n : Nat) : Rnd := match n with | 1 => .rtz | 2 => .rup | 3 => .rdn | _ => .rne

/-- A conversion source and destination of R238. -/
def cvtFmts (w : Word) : Option (Fmt × Fmt) :=
  match elemOf (slotA w), elemOf (slotD w) with
  | some (.flt f), some (.flt g) => if g = .f64 then none else some (f, g)
  | _, _ => none
def perWord (f : Fmt) : Nat := if f.width = 64 then 1 else 32 / f.width
/-- How a conversion's source of a format is read (R251). DESIGN CHOICE: under f64 a constant is the raw 64-bit integer (assumption
91). -/
def fmtOty : Fmt → OTy | .f32 => .f32 | .f16 => .f16 | .bf16 => .bf16 | _ => .int

/-- One conversion of CVTF (R322). -/
def cvtfL (w : Word) (f g : Fmt) (si di : Nat) (x c d : Quad) : Lane :=
  let v := f.value (elemAt x.toNat f.width si)
  let y := if slotRnd w = 4 then g.srnd (slotSat w) v (loWord c) else g.round (rndOf (slotRnd w)) (slotSat w) v
  if g = .f32 then fcode y.code y.flags else fcode (elemPut (d.toNat % 2 ^ 32) g.width di y.code) y.flags

/-- The element format and float scale rule of PACK and UNPACK (R325). -/
def packElem (w : Word) (toF32 : Bool) : Option Elem :=
  let e := elemOf (if toF32 then slotA w else slotD w)
  let other := if toF32 then slotD w else slotA w
  if other != 0 || slotRnd w > 3 || !(slotSfmt w == 1 || slotSfmt w == 2) then none
  else match e with
    | some (.flt f) => if f = .f32 ∨ f = .f64 then none else some (.flt f)
    | some .q4 => some .q4
    | _ => none

def Elem.maxMag : Elem → Rat | .flt f => f.maxFin | .q4 => 7 | .i8 => 127 | .i32 => 0
def Elem.emax (e : Elem) : Int := floorLog2 e.maxMag

/-- The scale code that PACK chooses (R326). -/
def packScale (sfmt : Nat) (e : Elem) (amax : Rat) : Nat :=
  if sfmt = 1 then
    if amax = 0 then 127 else (min 254 (max 0 (floorLog2 amax - e.emax + 127))).toNat
  else
    let t := amax / e.maxMag
    if t ≤ pow2 (-127) then 0
    else
      let k := floorLog2 t
      let f := ((t / pow2 k - 1) * 4).ceil.toNat
      ((k + 127) * 4 + f).toNat

/-- Pack n-bit codes into words. -/
def packWords (w : Nat) (codes : List Nat) (words : Nat) : List Word :=
  (List.range words).map (fun k =>
    BitVec.ofNat 32 ((List.range (32 / w)).foldl (fun x i => x + codes.getD (k * (32 / w) + i) 0 * 2 ^ (w * i)) 0))

/-- One fibre's PACK: element words then the scale, and flags (R326). -/
def packRun (w : Word) (e : Elem) (xs : List Word) : List Word × Word :=
  let vs := xs.map f32
  let amax := vs.foldl (fun m v => match v with | .fin _ x => max m x | _ => m) (0 : Rat)
  let sc := packScale (slotSfmt w) e amax
  let s := (scaleValue (slotSfmt w) sc).getD 1
  let rs := vs.map (fun v =>
    let r := e.convert (rndOf (slotRnd w)) true (match v with | .fin n x => .fin n (x / s) | v => v)
    ({ r with flags := r.flags ||| flagIf v.isSnan fNV } : Rounded))
  (packWords e.width (rs.map (·.code)) (slotBlock w * e.width / 32) ++ [BitVec.ofNat 32 sc],
   rs.foldl (fun f r => f ||| r.flags) 0)

/-- One fibre's UNPACK (R327). -/
def unpackRun (w : Word) (e : Elem) (xs : List Word) : List Word × Word :=
  let n := slotBlock w * e.width / 32
  let sc := (scaleValue (slotSfmt w) (xs.getD n 0).toNat)
  let per := 32 / e.width
  let rs := (List.range (slotBlock w)).map (fun i =>
    let (v, q) := e.value (elemAt (xs.getD (i / per) 0).toNat e.width (i % per))
    match sc with
    | none => (⟨Fmt.f32.dnan, fNV ||| q⟩ : Rounded)
    | some s =>
        let r := Fmt.f32.round (rndOf (slotRnd w)) (slotSat w) (match v with | .fin n x => .fin n (x * s) | v => v)
        ⟨r.code, r.flags ||| q⟩)
  (rs.map (fun r => BitVec.ofNat 32 r.code), rs.foldl (fun f r => f ||| r.flags) 0)

/-- Runs of PACK and UNPACK: every source register is read before any destination is written. The run's length follows from
the slot: without an element format the registers that the block size alone names are judged by R197 before UNSUPFMT; a run past v63 is
judged after it (R270, R325). DESIGN CHOICE: the trap names the lowest active fibre (assumption 110). -/
def runOp (s : State) (p : Pred) (d : Dst) (a : Src) (slot : BitVec 3) (toF32 : Bool)
    (f : Word → Elem → List Word → List Word × Word) : Out :=
  withIss s fun i =>
    let S := i.team.S
    let w := i.team.slot slot.toNat
    let act := active i p
    let unk := unsure i p
    let fs := act ++ unk
    let sreg := match a with | .vec r _ _ => r.toNat | _ => 0
    let dreg := match d with | .vec r => r.toNat | _ => 0
    match fs, packElem w toF32 with
    | [], _ => .ok () (advance s 1)
    | x :: _, none =>
        let (sn, dn) := if toF32 then (1, slotBlock w) else (slotBlock w, 1)
        let ns := fs.flatMap (fun f => (runOf S i.gang a (min sn (64 - sreg)) f).map (fun r => (⟨f, 0, a.ea, r⟩ : Need)))
        (judged s i ns (fs.flatMap (dstRegs S i.gang d (min dn (64 - dreg))))).bind fun _ s => .trap { cause := 0x0B, sub := 3, fib := x } s
    | x :: _, some e =>
        let n := slotBlock w * e.width / 32 + 1
        let (sn, dn) := if toF32 then (n, slotBlock w) else (slotBlock w, n)
        let src := fun f => runOf S i.gang a (min sn (64 - sreg)) f
        let dst := fun f => dstRegs S i.gang d (min dn (64 - dreg)) f
        let ns := fs.flatMap (fun f => (src f).map (fun r => (⟨f, 0, a.ea, r⟩ : Need)))
        (judged s i ns (fs.flatMap dst)).bind fun _ s =>
          if 64 < sreg + sn ∨ 64 < dreg + dn then .trap (illopnd 1 x) s
          else
            let s := readParity s i ns
            let rs := fs.map (fun n =>
              let regs := (src n).map i.gang.reg
              (n, if unk.contains n || regs.any (fun x => x.fe == .unknown || x.fe == .empty) then none
                  else some (f w e (regs.map Reg.read))))
            let s := s.modCur (fun g =>
              let g := rs.foldl (fun g r =>
                match r.2 with
                | some (vs, _) => writeRun g (dst r.1) vs
                | none => (dst r.1).foldl (fun g r => g.setReg r { fe := .unknown }) g) g
              if g.ra.isSome then g else g.setFlags (rs.foldl (fun x r => x ||| r.2.elim 0 (·.2)) 0))
            .ok () (advance s 1)

/-! ### Meanings -/

/-- `FADD` (R311). -/
def execFadd (p : Pred) (d : Dst) (a b : Src) (m : FMod) (s : State) : Out :=
  alu2 s p d false (opA a false .f32) (opB b false .f32) (faddL m)
/-- `FSUB` (R311). -/
def execFsub (p : Pred) (d : Dst) (a b : Src) (m : FMod) (s : State) : Out :=
  alu2 s p d false (opA a false .f32) (opB b false .f32) (fsubL m)
/-- `FMUL` (R311). -/
def execFmul (p : Pred) (d : Dst) (a b : Src) (m : FMod) (s : State) : Out :=
  alu2 s p d false (opA a false .f32) (opB b false .f32) (fmulL m)
/-- `FFMA` (R311). -/
def execFfma (p : Pred) (d : Dst) (a b c : Src) (s : State) : Out :=
  alu3 s p d false (opA a false .f32) (opB b false .f32) (opC c false .f32) ffmaL
/-- `FMIN` (R312). -/
def execFmin (p : Pred) (d : Dst) (a b : Src) (np : Bool) (s : State) : Out :=
  alu2 s p d false (opA a false .f32) (opB b false .f32) (fminmaxL false np)
/-- `FMAX` (R312). -/
def execFmax (p : Pred) (d : Dst) (a b : Src) (np : Bool) (s : State) : Out :=
  alu2 s p d false (opA a false .f32) (opB b false .f32) (fminmaxL true np)
/-- `FCLASS` (R314). -/
def execFclass (p : Pred) (d : Dst) (a : Src) (ty : FTy) (s : State) : Out :=
  alu1 s p d false (opA a false (FTy.oty ty)) (fclassL (FTy.fmt ty))
/-- `FRND` (R315). -/
def execFrnd (p : Pred) (d : Dst) (a : Src) (r : Rnd) (s : State) : Out := alu1 s p d false (opA a false .f32) (frndL r)
/-- `FFRAC` (R316). -/
def execFfrac (p : Pred) (d : Dst) (a : Src) (s : State) : Out := alu1 s p d false (opA a false .f32) ffracL
/-- `FRCP` (R317-R319). -/
def execFrcp (p : Pred) (d : Dst) (a : Src) (s : State) : Out := alu1 s p d false (opA a false .f32) frcpL
/-- `FRSQ` (R317-R319). -/
def execFrsq (p : Pred) (d : Dst) (a : Src) (s : State) : Out := alu1 s p d false (opA a false .f32) frsqL
/-- `FSQRT` (R317-R319). -/
def execFsqrt (p : Pred) (d : Dst) (a : Src) (s : State) : Out := alu1 s p d false (opA a false .f32) fsqrtL
/-- `FEXP2` (R317-R319). -/
def execFexp2 (p : Pred) (d : Dst) (a : Src) (s : State) : Out := alu1 s p d false (opA a false .f32) fexp2L
/-- `FLOG2` (R317-R319). -/
def execFlog2 (p : Pred) (d : Dst) (a : Src) (s : State) : Out := alu1 s p d false (opA a false .f32) flog2L
/-- `FSIN` (R317-R319). -/
def execFsin (p : Pred) (d : Dst) (a : Src) (s : State) : Out := alu1 s p d false (opA a false .f32) fsinL
/-- `FCOS` (R317-R319). -/
def execFcos (p : Pred) (d : Dst) (a : Src) (s : State) : Out := alu1 s p d false (opA a false .f32) fcosL
/-- `FTANH` (R317-R319). -/
def execFtanh (p : Pred) (d : Dst) (a : Src) (s : State) : Out := alu1 s p d false (opA a false .f32) ftanhL
/-- `HADD2` (R320). -/
def execHadd2 (p : Pred) (d : Dst) (a b : Src) (m : FMod) (s : State) : Out :=
  alu2 s p d false (opA a false .f16) (opB b false .f16) (add2L .f16 m)
/-- `HMUL2` (R320). -/
def execHmul2 (p : Pred) (d : Dst) (a b : Src) (m : FMod) (s : State) : Out :=
  alu2 s p d false (opA a false .f16) (opB b false .f16) (mul2L .f16 m)
/-- `HFMA2` (R320). -/
def execHfma2 (p : Pred) (d : Dst) (a b c : Src) (s : State) : Out :=
  alu3 s p d false (opA a false .f16) (opB b false .f16) (opC c false .f16) (fma2L .f16)
/-- `BADD2` (R320). -/
def execBadd2 (p : Pred) (d : Dst) (a b : Src) (m : FMod) (s : State) : Out :=
  alu2 s p d false (opA a false .bf16) (opB b false .bf16) (add2L .bf16 m)
/-- `BFMA2` (R320). -/
def execBfma2 (p : Pred) (d : Dst) (a b c : Src) (s : State) : Out :=
  alu3 s p d false (opA a false .bf16) (opB b false .bf16) (opC c false .bf16) (fma2L .bf16)

/-- `CVTF` (R322): the slot is judged at issue, after R197 and before any register is fetched (R240); source c is read only under
stochastic rounding, and a vector there is none that a scalar destination takes (R252; assumption 81). -/
def execCvtf (p : Pred) (d : Dst) (a c : Src) (slot si di : BitVec 3) (s : State) : Out :=
  withIss s fun i =>
    let w := i.team.slot slot.toNat
    let fs := active i p ++ unsure i p
    let words := wordsOf [a, c]
    let f64 := slotA w == 9
    let odd := f64 && oddReg a.regNo
    let oa := opA a (f64 && !odd) (match cvtFmts w with | some (f, _) => fmtOty f | none => .int)
    let ops := oa :: (if slotRnd w = 4 then [opC c] else []) ++ [opD d]
    let need := (if d.isScalar then fs.take 1 else fs).flatMap (needsOf i.team.S i.gang ops)
    let bad : Option TrapInfo :=
      match cvtFmts w with
      | none => some { cause := 0x0B, sub := 2, fib := fs.headD 0 }
      | some (f, g) =>
          if perWord f ≤ si.toNat ∨ perWord g ≤ di.toNat then some (illopnd 5 (fs.headD 0))
          else if odd then some (illopnd 2 (fs.headD 0)) else none
    if slotRnd w = 4 && d.isScalar && c.isVec then .trap (illopnd 3 i.frag.lowest) s
    else
    match fs, cvtFmts w, bad with
    | [], _, _ => .ok () (advance s words)
    | _, some (f, g), none =>
        (lanesWith s i p d false none (needsOf i.team.S i.gang ops)
          (fun n => (allSome (ops.map (fun o => opndVal i.team.S i.gang o n))).map (fun l =>
            match l with
            | [x, r, y] => cvtfL w f g si.toNat di.toNat x r y
            | [x, y] => cvtfL w f g si.toNat di.toNat x 0 y
            | _ => {})) words)
    | _, _, some t => (judged s i need []).bind (fun _ s => .trap t s)
    | _, none, none => .ok () s

/-- `CVTI` (R323, R324). -/
def execCvti (p : Pred) (d : Dst) (a : Src) (m : CvtiMod) (s : State) : Out :=
  alu1 s p d (!m.toFloat && m.it.wide) (if m.toFloat then opA a m.it.wide else opA a false (FTy.oty m.ft)) (cvtiL m)
/-- `PACK` (R325, R326). -/
def execPack (p : Pred) (d : Dst) (a : Src) (slot : BitVec 3) (s : State) : Out := runOp s p d a slot false packRun
/-- `UNPACK` (R325, R327). -/
def execUnpack (p : Pred) (d : Dst) (a : Src) (slot : BitVec 3) (s : State) : Out := runOp s p d a slot true unpackRun
/-- `DP4I8` (R328). -/
def execDp4i8 (p : Pred) (d : Dst) (a b : Src) (au bu : Bool) (s : State) : Out :=
  alu3 s p d false (opA a) (opB b) (opD d) (dp4i8L au bu)
/-- `DP8Q4` (R328). -/
def execDp8q4 (p : Pred) (d : Dst) (a b : Src) (s : State) : Out := alu3 s p d false (opA a) (opB b) (opD d) dp8q4L
/-- `DP4F8` (R328). -/
def execDp4f8 (p : Pred) (d : Dst) (a b : Src) (ae be : Bool) (s : State) : Out :=
  alu3 s p d false (opA a) (opB b) (opD d) (dp4f8L ae be)
/-- `DP2F16` (R328). -/
def execDp2f16 (p : Pred) (d : Dst) (a b : Src) (bf : Bool) (s : State) : Out :=
  alu3 s p d false (opA a) (opB b) (opD d) (dp2f16L bf)
/-- `SCALE` (R329). -/
def execScale (p : Pred) (d : Dst) (a b : Src) (sf : ScaleForm) (m : FMod) (s : State) : Out :=
  alu2 s p d false (opA a false .f32) (opB b) (scaleL sf m)
/-- `RNG` (R330). -/
def execRng (p : Pred) (d : Dst) (a : Src) (s : State) : Out :=
  withIss s (fun i => lanes s i p d false [opA a] (fun f l =>
    match l with
    | [n] => { val := rword i.team.rseed (i.gang.fib f).pidx.toNat (n.toNat % 2 ^ 32) }
    | _ => {}))
/-- `SRND` (R331). -/
def execSrnd (p : Pred) (d : Dst) (a b : Src) (di : BitVec 3) (sat : Bool) (f : SrndFmt) (s : State) : Out :=
  alu3 s p d false (opA a false .f32) (opB b) (opD d) (srndL (SrndFmt.fmt f) di.toNat sat)

/-! ### P-form -/

/-- The F-form operation of a half on the destination and the source (R259, R260). -/
def POp.lane (o : POp) (d x : Quad) : Lane :=
  let im : IntMod := ⟨false, false, false⟩
  let fm : FMod := ⟨false, .rne⟩
  match o with
  | .nop => {}
  | .mov => { val := x }
  | .iadd => iaddL im d x
  | .isub => isubL im d x
  | .imul => imulL d x
  | .imin => iminL im d x
  | .imax => imaxL im d x
  | .and => bitsL 32 (d &&& x)
  | .or => bitsL 32 (d ||| x)
  | .xor => bitsL 32 (d ^^^ x)
  | .andn => bitsL 32 (d &&& ~~~x)
  | .shl => shlL 32 d x
  | .shr => shrL 32 d x
  | .sar => sarL 32 d x
  | .fadd => faddL fm d x
  | .fsub => fsubL fm d x
  | .fmul => fmulL fm d x
  | .fmin => fminmaxL false false d x
  | .fmax => fminmaxL true false d x
  | .hadd2 => add2L .f16 fm d x
  | .hmul2 => mul2L .f16 fm d x
  | .badd2 => add2L .bf16 fm d x

def POp.oty : POp → OTy
  | .fadd | .fsub | .fmul | .fmin | .fmax => .f32
  | .hadd2 | .hmul2 => .f16
  | .badd2 => .bf16
  | _ => .int

/-- Operands of a half: its source, and its destination where the operation reads it. -/
def halfOps (h : PHalf) : List Opnd :=
  match h.op with
  | .nop => []
  | .mov => [opB h.src]
  | o => [opB h.src false (POp.oty o), opD h.dst]
/-- Fibres a half acts on, and those that run-ahead is unsure of. -/
def halfFibs (i : Iss) (h : PHalf) : List Nat :=
  let fs := active i ⟨false, h.pi⟩ ++ unsure i ⟨false, h.pi⟩
  if h.op = .nop then [] else if h.scalarDst then fs.take 1 else fs

def applyHalf (i : Iss) (g : Gang) (h : PHalf) : Gang :=
  let S := i.team.S
  let act := active i ⟨false, h.pi⟩
  (halfFibs i h).foldl (fun g f =>
    let v := if act.contains f || (h.scalarDst && !act.isEmpty) then
        (match allSome ((halfOps h).map (fun o => opndVal S i.gang o f)) with
         | some [x] => some (POp.lane h.op 0 x)
         | some [x, y] => some (POp.lane h.op y x)
         | _ => none)
      else none
    let g := writeDst S g h.dst false f (v.map (·.val))
    if g.ra.isSome then g else g.setFlags (v.elim 0 (·.flags))) g

/-- A P-form pair (R259-R261): one issue, R197 over both halves before either takes effect. The pairing rules keep each half
from reading what the other writes. -/
def execPFormPair (h0 h1 : PHalf) (s : State) : Out :=
  withIss s fun i =>
    let S := i.team.S
    let need := fun (h : PHalf) => (halfFibs i h).flatMap (needsOf S i.gang (halfOps h))
    let dst := fun (h : PHalf) => (halfFibs i h).flatMap (dstRegs S i.gang h.dst 1)
    (checked s i (sortBy (fun x y => decide (x.fib * 4 + x.pos < y.fib * 4 + y.pos)) (need h0 ++ need h1)) (dst h0 ++ dst h1)).bind fun _ s =>
      .ok () (advance (s.modCur (fun g => applyHalf i (applyHalf i g h0) h1)) 1)

end Sys2Proof.Machine
end

