-- ==== Sys2Proof/Machine/Memory.lean ====
section
/-! DEFINITION. Loads, stores, prefetches, atomics, fences, barriers and barrier objects (chapters 05 and 11, R332-R355), and
the steps that complete them: replies, store translation, store faults, tickets. -/

namespace Sys2Proof.Machine

/-! ### Modifiers and addresses -/

/-- Bytes of an access (R332). -/
def MemMod.bytes (m : MemMod) : Nat := match m.size.toNat with | 0 => 4 | 1 => 8 | 2 => 1 | _ => 2

/-- Ordering and scope that an instruction accepts (R138): `ords` lists its codes other than 0. -/
def orderOk (ords : List Nat) (ord sco : BitVec 3) : Bool :=
  (ord == 0 && sco == 0) || (ords.contains ord.toNat && decide (sco.toNat < 5))

/-- The address forms of R334: an address pair with a displacement, or an offset in an aperture. -/
inductive Form where
  | pair | spad | weave | window
  deriving DecidableEq, Repr

def addrOf (f : Form) (a b : Quad) : Quad × Bool :=
  let t : Int := ((a.toNat % 2 ^ 32 : Nat) : Int) + sextNat b.toNat 32
  match f with
  | .pair => (a + BitVec.ofInt 64 (sextNat b.toNat 32), false)
  | .spad => (0x1000000000000000 + BitVec.ofInt 64 t, decide (t < 0 ∨ 2 ^ 20 ≤ t))
  | .weave =>
      (0x2000000000000000 + BitVec.ofNat 64 (t.toNat / 2 ^ 20 % 16 * 2 ^ 52 + t.toNat % 2 ^ 20), decide (t < 0 ∨ 2 ^ 24 ≤ t))
  | .window => (0x3000000000000000 + BitVec.ofInt 64 t, decide (t < 0 ∨ 2 ^ 16 ≤ t))

def addrOps (f : Form) (a b : Src) : List Opnd := [opA a (f == .pair), opB b]

/-- A fibre's access by its operands, where run-ahead knows them. -/
def accOf (i : Iss) (f : Form) (a b : Src) (fib : Nat) : Option Acc :=
  match allSome ((addrOps f a b).map (fun o => opndVal i.team.S i.gang o fib)) with
  | some [x, y] => let g := addrOf f x y; some ⟨fib, g.1, g.2⟩
  | _ => none

/-! ### Loads -/

/-- The value of loaded bytes (R337). -/
def loadValue (n : Nat) (sx : Bool) (bs : List Byte) : Quad :=
  let x := leNat bs
  if n < 4 ∧ sx then (BitVec.ofInt 32 (sextNat x (8 * n))).setWidth 64 else BitVec.ofNat 64 x

/-- Bytes that the core's L1 holds for an access that fits a sector (R47, R48); those whose value is open read as free values (R75, R123). -/
def l1Bytes (s : State) (core : Nat) (k : LineKey) (off n : Nat) : Option (List Byte) :=
  (l1Has (s.core core) k (off / 48)).map (fun b => (List.range n).map (fun j =>
    if openAt s k (off + j) then Config.openByte s.sched.now (byteNumber k (off + j)) else b.getD (off % 48 + j) 0))

/-- Bind a load's part at issue: a hit in the L1 is served, where no earlier access of the gang to the line is outstanding; another leaves
for its home. A scratchpad access is performed, or waits for its stash line (R53): where it stands is judged in `s0`, for every fibre
alike. -/
def bindPart (s0 s : State) (i : Iss) (n hint id : Nat) (p : LoadPart) (sx : Bool) : LoadPart × State :=
  match p.tgt with
  | .spad t off =>
      if spadStands s0 t off (.instr i.tid i.gid i.frag.pc) = .now then
        ({ p with val := some (loadValue n sx (spadRead s t off n)) },
          spadTake s t off false (.instr i.tid i.gid i.frag.pc) (some i.team.place.core))
      else (p, spadJoin s t off (.instr i.tid i.gid i.frag.pc) id)
  | .peer _ _ => ({ p with st := .waiting }, s)
  | t =>
      match keyOf s t with
      | none => (p, s)
      | some (k, off) =>
          let own := match t with | .proc rn o => i.gang.holdsRight rn (blockOf s rn o) | _ => false
          let p := if unsentAtom s i.tid i.gid id k || unsentLoad s i.tid i.gid id k then p else { p with sent := some id }
          if hint == 2 || own || earlierOn s i.tid i.gid id k || stashedLine s i.team k then (p, s)
          else match l1Bytes s i.team.place.core k off n with
            | some b => ({ p with val := some (loadValue n sx b) }, s)
            | none => (p, s)

/-- The parts of a load, each bound after the ones before it. -/
def bindEach (s0 s : State) (i : Iss) (n hint id : Nat) (sx : Bool) : List LoadPart → List LoadPart × State
  | [] => ([], s)
  | p :: t =>
      let (p, s) := bindPart s0 s i n hint id p sx
      let (t, s) := bindEach s0 s i n hint id sx t
      (p :: t, s)

/-- Scratchpad targets that need a stash fill first wait for it, or with `issue` wait once they have been issued (R53); a fill's fault traps
with the lowest fibre that touched the line, at its own address (R55, R473). -/
def spadsReady (s : State) (i : Iss) (n acc : Nat) (issue : Bool) (ts : List (Acc × Target)) : Res Unit :=
  Res.each ts (fun e s =>
    match e.2 with
    | .spad t off =>
        match spadCheck s t off n acc (i.tid, i.gid, i.frag.pc) (.instr i.tid i.gid i.frag.pc) issue with
        | .trap x s => .trap { x with fib := e.1.fib, addr := e.1.ga } s
        | r => r
    | _ => .ok () s) s

/-- Issue a load (R337): checks, guards, the destinations EMPTY, the parts bound or under way. -/
def issueLoad (s : State) (i : Iss) (d : Dst) (wide : Bool) (n : Nat) (sx : Bool) (hint : Nat) (acq : Option Nat)
    (const : Bool) (accs : List Acc) (words : Nat) : Res Unit :=
  (resolveAll s i .load n n accs).bind fun ts s =>
    (spadsReady s i n 0 true ts).bind fun _ s =>
      (genTouchGate s i (ts.map (fun e => (e.1.fib, e.2))) n hint).bind fun _ s =>
        if !memOpen s i.tid i.gid || storeOverlap s i (ts.map (·.2)) then .wait s
        else
          let (id, s) := s.fresh
          let core := i.team.place.core
          let (parts, s) := bindEach s s i n hint id sx (ts.map (fun e =>
            { fib := e.1.fib, pos := dstPos i d e.1.fib, ga := e.1.ga, tgt := e.2 }))
          -- a part of a procedural block that is not bound touches it, unless the gang holds its right
          let touched := touchesOf s i.gang (parts.filterMap (fun p => if p.val.isNone then some (p.fib, p.tgt) else none))
          let state := fun (p : LoadPart) =>
            match p.tgt, p.val with
            | .proc rn off, none =>
                let b := blockOf s rn off
                match i.probe p.fib with
                | some (t, o) =>
                    (match t.ans, t.failed with
                    | some 0, _ => { p with val := some (loadValue n sx (blockSnap t.data t.page o n)) }
                    | some 5, some (pol, c, x) => { p with st := .failed pol c x }
                    | _, _ => { p with st := .touching })
                | none => if touched.any (fun t => t.2.1 == rn && t.2.2 == b) then { p with st := .touching } else p
            | _, _ => p
          let l : PendLoad := { id, core, ctx := i.team.ctx, team := i.tid, gang := i.gid, ipc := i.frag.pc, dst := d, wide, n, sx,
                                hint, acq, noInstall := false, const, parts := parts.map state, org := i.origin
                                replayed := i.probes.any (fun t => t.replayed && parts.any (fun p => t.fibs.any (fun e => e.1 == p.fib))) }
          let s := s.modPend (fun p => { p with loads := p.loads ++ [l] })
          let asked := fun (b : Nat × Nat × Nat) => i.probes.any (fun t => t.rn == b.2.1 && t.bix == b.2.2)
          let s := takeProbes (touched.foldl (fun s t =>
            if asked t then s else sendTouch s (.load id) i.team.ctx t.2.1 t.2.2 none) s) i (fun _ _ => .load id)
          let s := parts.foldl (fun s p =>
            match p.tgt with
            | .peer part pa => sendPeer s (.load id p.fib) i.team.ctx core part pa (globalOf s i .load n p.fib p.ga) .read n [] i.origin
            | _ => s) s
          let s := s.modCur (fun g => g.markEmpty (accs.flatMap (fun a => dstRegs i.team.S g d (if wide then 2 else 1) a.fib)))
          .ok () (advance s words)

/-- The load family (R336, R337). -/
def loadOp (s : State) (p : Pred) (d : Dst) (a b : Src) (m : MemMod) (f : Form) (const : Bool) : Out :=
  withIss s fun i =>
    let S := i.team.S
    let act := accFibs (active i p) d
    let wide := m.quad
    let n := MemMod.bytes m
    let words := wordsOf [a, b]
    if (active i p).isEmpty && (unsure i p).isEmpty then .ok () (advance s words)
    else
      let nd := if wide then 2 else 1
      (checked s i (act.flatMap (needsOf S i.gang (addrOps f a b))) (act.flatMap (dstRegs S i.gang d nd))).bind fun _ s =>
        if !orderOk [1] m.ord m.sco then .trap (illopnd 5 (act.headD 0)) s
        else if i.gang.ra.isSome then
          if m.ord != 0 then endsAhead s
          else aheadLoad s i p .load n n (accOf i f a b) (some d) wide words
        else
          issueLoad s i d wide n m.sx m.hint.toNat (if m.ord = 1 then some m.sco.toNat else none) const
            (act.filterMap (accOf i f a b)) words

/-- `LD` (R336, R337). -/
def execLd (p : Pred) (d : Dst) (a b : Src) (m : MemMod) (s : State) : Out := loadOp s p d a b m .pair false
/-- `LDS` (R334, R337). -/
def execLds (p : Pred) (d : Dst) (a b : Src) (m : MemMod) (s : State) : Out :=
  loadOp s p d a b m (if m.w then .weave else .spad) false
/-- `LDC` (R334, R337). -/
def execLdc (p : Pred) (d : Dst) (a b : Src) (m : MemMod) (s : State) : Out := loadOp s p d a b m .window true

/-! ### Load replies -/

/-- What one part of a load obtains now. -/
inductive PartAns where
  | got (v : Quad) (s : State)
  | later (s : State)

/-- A CXL access failed: zeros or a dropped store, counted and recorded (R109), also when its gang has ended (R288). -/
def hostErr (s : State) (ctx : Nat) (o : Origin) (fib : Nat) (ga : Quad) (kind : Nat) : State :=
  errEvent s ctx { o.err fib 0x08 with addr := ga.toNat, aux := kind * 256 }

/-- A granule as the device holds it: in the line itself, or in another line of the same bytes (R129; assumption 48). -/
def heldGranule (s : State) (g : Nat) : Option (List Byte) :=
  ((linesWith s g).find? (fun x => x.2.2.granOf x.2.1 != .i)).map (fun x => memBytes x.2.2.data (64 * x.2.1) 64)

/-- Granules of host memory that a `.na` or `.by` load reads by RdCurr; the bytes serve this load and no other (R129, R167). -/
def currPart (s : State) (id key off n : Nat) : Option (List Byte) × State :=
  let mine := fun (g : Nat) => (heldGranule s g).orElse (fun _ => (s.mem.curr.find? (fun e => e.1 == id && e.2.1 == g)).map (·.2.2))
  let lack := (granulesOf off n).filter (fun i => (mine (key + i)).isNone)
  if !lack.isEmpty then (none, lack.foldl (fun s i => cxlAsk s { g := key + i, want := .i, asks := [id] }) s)
  else (some ((List.range n).map (fun j => ((mine (key + (off + j) / 64)).getD []).getD ((off + j) % 64) 0)), s)

/-- One part of a load that has left for its home (R48, R65, R81, R129); a reply that the L1 does not install drops the sector (R151). -/
def readPart (s : State) (l : PendLoad) (p : LoadPart) : PartAns :=
  match keyOf s p.tgt with
  | none => .later s
  | some (k, off) =>
      if p.sent.isNone || coreEarlier s l.core (p.sent.getD 0) k then .later s
      else
        let quiet := l.noInstall || p.noInstall
        let isProc := match k with | .proc _ _ _ => true | _ => false
        let got := fun (s : State) =>
          let b := homeRead s k off l.n
          PartAns.got (loadValue l.n l.sx b)
            (if l.hint != 0 then s.modCore l.core (fun c => l1DropSector c k (off / 48))
             else if quiet || isProc then s
             else l1Install s l.core k (off / 48) (homeRead s k (off / 48 * 48) 48))
        let failedAns := fun (s : State) => PartAns.got 0 (hostErr s l.ctx l.org p.fib p.ga 0)
        match k, l.hint with
        | .host key, _ + 1 =>
            let gs := (granulesOf off l.n).map (key + ·)
            if gs.any (fun g => s.mem.cxlErr.contains (g, l.id)) then
              failedAns (s.modMem (fun m => { m with cxlErr := m.cxlErr.filter (fun e => !(e.2 == l.id && gs.contains e.1)) }))
            else
              match currPart s l.id key off l.n with
              | (some b, s) => .got (loadValue l.n l.sx b) (s.modCore l.core (fun c => l1DropSector c k (off / 48)))
              | (none, s) => .later s
        | _, h =>
            let alloc := takesWay s k h
            match homeReady s k off l.n false alloc false l.id with
            | .failed s => failedAns s
            | .wait s => .later s
            | .ready s =>
                let s := eccEvents s (some l.ctx) k off l.n 0
                got (if alloc then homeFill s k off l.n else s)

/-- What a part that a save recorded finds when it is performed again (R101, R165, R482): its address translates anew. -/
def againAns (s : State) (l : PendLoad) (t : Team) (g : Gang) (p : LoadPart) : AccAns × Nat :=
  match locate s l.team t (g.fib p.fib).pidx.toNat .load l.n l.n p.ga with
  | .error c => (.cause c, 0)
  | .ok .notStarted => (.hold, 0)
  | .ok (.spad u off) => (.at (.spad u off), 0)
  | .ok (.page va) =>
      (match translate s l.ctx l.core (va / 12288) with
        | .miss => .miss (va / 12288)
        | .fault 4 fz => .unmapped (va / 12288) fz
        | .fault c _ => .cause c
        | .hit x _ => match landing s l.ctx va .load g.holdsRight x with | .ok t => .at t | .error c => .cause c, va)

/-- A recorded part goes on as at its issue (R482): a procedural page is touched anew, a page fault joins the record path. A fault that
traps is left to `againTrap`; the reply of a gang that has ended is discarded. -/
def againPart (s : State) (l : PendLoad) (p : LoadPart) : LoadPart × State :=
  match s.team l.team, s.gang l.team l.gang with
  | some t, some g =>
      match againAns s l t g p with
      | (.miss pn, _) => (p, startWalk s l.ctx l.core pn)
      | (.unmapped pn fz, _) =>
          if g.heldFor.isSome then (p, s)
          else (p, useFault (holdForRecord s l.team l.gang t g l.ipc p.ga 0 0 p.fib [⟨pn, false, fz⟩]) l.ctx l.core pn)
      | (.at (.proc rn off), _) =>
          ({ p with tgt := .proc rn off, st := .touching }, sendTouch s (.load l.id) l.ctx rn (blockOf s rn off) (genOf g))
      | (.at (.peer part pa), va) =>
          ({ p with tgt := .peer part pa, st := .waiting }, sendPeer s (.load l.id p.fib) l.ctx l.core part pa va .read l.n [] l.org)
      | (.at x, _) => ({ p with tgt := x, st := .ready }, s)
      | _ => (p, s)
  | _, _ => ({ p with val := some 0 }, s)

/-- A recorded part that meets a cause which traps takes it at the recorded instruction (R78, R109; assumption 29): the fibre's destination
is FULL with its old value, and TRET performs the instruction again. It waits while the gang is in a handler or held. -/
def againTrap (s : State) (l : PendLoad) : Option State :=
  match s.team l.team, s.gang l.team l.gang with
  | some t, some g =>
      if g.handler.isSome || g.entry.isSome || g.ra.isSome || g.heldFor.isSome then none
      else
        let bad := l.parts.filterMap (fun p =>
          if p.st == .again then (match againAns s l t g p with | (.cause c, va) => some (p, c, va) | _ => none) else none)
        match bad.head?, bad.head?.bind (fun b => g.frags.find? (fun f => f.mask.getLsbD b.1.fib)) with
        | some (p, c, va), some f =>
            let gone := bad.map (·.1.fib)
            let regs := bad.flatMap (fun b => match l.dst with
              | .vec _ => if l.wide then [RegRef.v b.1.fib b.1.pos, .v b.1.fib ((b.1.pos + 1) % t.S)] else [.v b.1.fib b.1.pos]
              | .scal n => if l.wide then [RegRef.s n.toNat, .s (n.toNat + 1)] else [.s n.toNat]
              | _ => [])
            let s := s.modPend (fun q => { q with loads := q.loads.flatMap (fun x =>
              if x.id == l.id then
                (let ps := x.parts.filter (fun y => !gone.contains y.fib)
                 if ps.isEmpty then [] else [{ x with parts := ps }])
              else [x]) })
            let s := s.modGang l.team l.gang (fun g => regs.foldl (fun g r => g.replyReg r { g.reg r with fe := .full }) g)
            some (takeTrap (useFault s l.ctx l.core (va / 12288)) l.team l.gang { f with pc := l.ipc } { cause := c, fib := p.fib, addr := p.ga } false)
        | _, _ => none
  | _, _ => none

/-- Bind the parts that can be bound. -/
def bindParts (s : State) (l : PendLoad) : List LoadPart → List LoadPart × State
  | [] => ([], s)
  | p :: t =>
      let (p, s) :=
        match p.val, p.st, p.tgt with
        | none, .ready, .spad u off =>
            if spadStands s u off (.acc l.id) = .now then
              ({ p with val := some (loadValue l.n l.sx (spadRead s u off l.n)) }, spadTake s u off false (.acc l.id) (some l.core))
            else (p, s)
        | none, .ready, _ =>
            let key := (keyOf s p.tgt).map (·.1)
            let (p, s) := match p.sent, key with
              | none, some k => if unsentAtom s l.team l.gang l.id k || unsentLoad s l.team l.gang l.id k then (p, s)
                                else let (n, s) := s.fresh; ({ p with sent := some n }, s)
              | _, _ => (p, s)
            match readPart s l p with
            | .got v s => ({ p with val := some v }, s)
            | .later s => (p, s)
        | none, .failed _ _ _, _ => ({ p with val := some 0 }, s)
        | none, .again, _ => againPart s l p
        | _, _, _ => (p, s)
      let (t, s) := bindParts s l t
      (p :: t, s)

/-- A load whose values are all there writes its destinations and does its acquire (R150, R164, R337). A failed block is
zeros or FAILED registers, counted once for the instruction (R97, R98). -/
def finishLoad (s : State) (l : PendLoad) : State :=
  let core := l.core
  let s := if l.replayed then acquire s core 3 else s
  let S := match s.team l.team with | some t => t.S | none => 64
  let s := l.parts.foldl (fun s p =>
    let x : Except Fe Quad :=
      match p.st with
      | .failed 1 c d => .error (.failed (BitVec.ofNat 8 c) (BitVec.ofNat 16 d))
      | _ => .ok (p.val.getD 0)
    replyTo s l.id l.team l.gang S l.dst l.wide p.fib p.pos x) s
  let s := if l.parts.any (fun p => match p.st with | .failed _ _ _ => true | _ => false) then countErr s l.ctx else s
  let s := s.modPend (fun p => { p with loads := p.loads.filter (fun x => x.id != l.id) })
  let s := s.modMem (fun m => { m with curr := m.curr.filter (fun e => e.1 != l.id) })
  match l.acq with | some sc => acquire s core sc | none => s

/-- A prefetch goes on (R339, R65, R129): its line enters the L2, and the L1 unless something has invalidated the fill (R50, R151).
It is dropped when it meets a fault. -/
def prefStep (s : State) (x : PendPref) : State :=
  let done := fun (s : State) => s.modPend (fun p => { p with prefs := p.prefs.filter (fun y => y.id != x.id) })
  if coreEarlier s x.core x.id x.key then s
  else
    match homeReady s x.key 0 192 false true true x.id with
    | .wait s => s
    | .failed s => done s
    | .ready s =>
        let s := homeFill (eccEvents s (some x.ctx) x.key 0 192 0) x.key 0 192
        done (if x.l2 || x.noInstall then s
          else (List.range 4).foldl (fun s n => l1Install s x.core x.key n (homeRead s x.key (48 * n) 48)) s)

/-- `LOAD_REPLY` (R337): a load obtains what it can, and completes when nothing is missing. A prefetch's line arrives in the same
way (R339). -/
def execLoadReply (id : Nat) (s : State) : Out :=
  match s.pend.loads.find? (fun l => l.id == id) with
  | none => .next (match s.pend.prefs.find? (fun x => x.id == id) with | some x => prefStep s x | none => s)
  | some l =>
      match againTrap s l with
      | some s => .next s
      | none =>
      let (ps, s) := bindParts s l l.parts
      let l := { l with parts := ps }
      let s := s.modPend (fun p => { p with loads := p.loads.map (fun x => if x.id == id then l else x) })
      .next (if ps.all (fun p => p.val.isSome) then finishLoad s l else s)

/-! ### Prefetch -/

/-- One fibre's prefetch (R339): a line is asked for, an UNFILLED block's fill is started. -/
def prefOne (s : State) (i : Iss) (l2 : Bool) (t : Target) : State :=
  let line := fun (k : LineKey) =>
    let (id, s) := s.fresh
    s.modPend (fun p => { p with prefs := p.prefs ++ [{ id, core := i.team.place.core, ctx := i.team.ctx, key := k, l2 }] })
  match t with
  | .dev pa => line (.dev (pa / 192))
  | .host key _ => line (.host key)
  | .proc rn off =>
      if fillState s rn (blockOf s rn off) = .unfilled then
        sendTouch s .prefetch i.team.ctx rn (blockOf s rn off) (genOf i.gang)
      else s
  | _ => s

/-- `PREF` (R339). -/
def execPref (p : Pred) (a b : Src) (l2 : Bool) (s : State) : Out :=
  withIss s fun i =>
    let act := active i p
    let words := wordsOf [a, b]
    (checked s i (act.flatMap (needsOf i.team.S i.gang (addrOps .pair a b))) []).bind fun _ s =>
      let accs := act.filterMap (accOf i .pair a b)
      if i.gang.ra.isSome then aheadLoad s i p .pref 1 1 (accOf i .pair a b) none false words
      else
        let l := accs.map (fun x => (x, resolve s i .pref 1 1 x))
        let core := i.team.place.core
        if !memOpen s i.tid i.gid then .wait s
        else if !(missing l).isEmpty then .wait (startWalks s i.team.ctx core false (missing l))
        else
          let s := accs.foldl (fun s x =>
            match locate s i.tid i.team (i.gang.fib x.fib).pidx.toNat .pref 1 1 x.ga with
            | .ok (.page va) => useFault s i.team.ctx core (va / 12288)
            | _ => s) s
          .ok () (advance (l.foldl (fun s e => match e.2 with | .at t => prefOne s i l2 t | _ => s) s) words)

/-! ### Stores -/

/-- Steps 1 to 4 of R20 for a store: the only checks that trap at its issue (R338). -/
def storeChecks (s : State) (i : Iss) (n : Nat) (accs : List Acc) : Res (List (Acc × Where)) :=
  let l := accs.map (fun a => (a, if a.bad then Except.error 1 else locate s i.tid i.team (i.gang.fib a.fib).pidx.toNat .store n n a.ga))
  match l.find? (fun e => match e.2 with | .error _ => true | _ => false) with
  | some e => .trap { cause := match e.2 with | .error c => c | _ => 0, fib := e.1.fib, addr := e.1.ga } s
  | none =>
      let ws := l.filterMap (fun e => match e.2 with | .ok w => some (e.1, w) | _ => none)
      if ws.any (fun e => e.2 == .notStarted) then .wait s else .ok ws s

/-- Has a store buffer room for n more entries (R127; assumption 95)? An empty one takes any store. -/
def sbufRoom (c : Core) (n : Nat) : Bool := c.sbuf.isEmpty || decide (c.sbuf.length + n ≤ Config.storeRoom)

/-- A store writes its scratchpad bytes, fibre by fibre (R42); those whose stash lines are being filled wait for them (R53). -/
def storeSpads (s : State) (i : Iss) (n id : Nat) (spads : List (Nat × Nat × Quad)) : State :=
  let w : StashW := .instr i.tid i.gid i.frag.pc
  let later := spads.filter (fun e => spadStands s e.1 e.2.1 w != .now)
  let s := (spads.filter (fun e => !later.contains e)).foldl (fun s e =>
    spadTake (spadWrite s e.1 e.2.1 (leBytes n e.2.2.toNat)) e.1 e.2.1 true w (some i.team.place.core)) s
  if later.isEmpty then s
  else
    (later.foldl (fun s e => spadJoin s e.1 e.2.1 w id) s).modPend (fun p => { p with
      spads := p.spads ++ [{ id, core := i.team.place.core, team := i.tid, gang := i.gid, n, parts := later }] })

/-- A scratchpad store goes on that has waited for its stash lines (R53). -/
def spadStep (s : State) (x : PendSpad) : State :=
  let (left, s) := x.parts.foldl (fun (r : List (Nat × Nat × Quad) × State) e =>
    if spadStands r.2 e.1 e.2.1 (.acc x.id) = .now then
      (r.1, spadTake (spadWrite r.2 e.1 e.2.1 (leBytes x.n e.2.2.toNat)) e.1 e.2.1 true (.acc x.id) (some x.core))
    else (r.1 ++ [e], r.2)) ([], s)
  s.modPend (fun p => { p with spads := p.spads.flatMap (fun y =>
    if y.id == x.id then (if left.isEmpty then [] else [{ y with parts := left }]) else [y]) })

/-- The store family (R338): scratchpad bytes are written at issue, fibre by fibre (R42); each page's part enters the store
buffer (R126), which a full one keeps waiting (R127). -/
def storeOp (s : State) (p : Pred) (d : Dst) (a b : Src) (m : MemMod) (f : Form) : Out :=
  withIss s fun i =>
    let S := i.team.S
    let act := active i p
    let n := MemMod.bytes m
    let words := wordsOf [a, b]
    let ops := addrOps f a b ++ [opD d m.quad]
    if act.isEmpty && (unsure i p).isEmpty then .ok () (advance s words)
    else
      (checked s i (act.flatMap (needsOf S i.gang ops)) []).bind fun _ s =>
        if !orderOk [2] m.ord m.sco then .trap (illopnd 5 (act.headD 0)) s
        else
          let accs := act.filterMap (accOf i f a b)
          if i.gang.ra.isSome then
            (aheadAccess s i .store n n accs).bind (fun _ s => .ok () (advance s words))
          else
            (storeChecks s i n accs).bind fun ws s =>
              let spads := ws.filterMap (fun e => match e.2 with | .spad t o => some (e.1, Target.spad t o) | _ => none)
              let rel := if m.ord = 2 then some m.sco.toNat else none
              let now := s.sched.nextId
              let pages := ws.filterMap (fun e => match e.2 with | .page va => some (e.1, va) | _ => none)
              let pns := (pages.map (fun e => e.2 / 12288)).eraseDups
              if !pns.isEmpty && !sbufRoom (s.core i.team.place.core) pns.length then .wait s
              else if !memOpen s i.tid i.gid then .wait s
              else if !spads.isEmpty && (match rel with
                  | some sc => !releaseReady s i.team.place.core i.tid i.gid sc now | none => false) then settleWait s
              else
                (spadsReady s i n 1 true spads).bind fun _ s =>
                  let val := fun fb => (opndVal S i.gang (opD d m.quad) fb).getD 0
                  let (inst, s) := s.fresh
                  let s := storeSpads s i n inst (spads.filterMap (fun e =>
                    match e.2 with | .spad t o => some (t, o, val e.1.fib) | _ => none))
                  let s := pns.foldl (fun s pn =>
                    let (id, s) := s.fresh
                    let fibs := (pages.filter (fun e => e.2 / 12288 == pn)).map (fun e =>
                      ({ fib := e.1.fib, ga := e.1.ga, va := e.2, val := val e.1.fib } : StoreFib))
                    s.modCore i.team.place.core (fun c => { c with sbuf := c.sbuf ++
                      [{ id, ctx := i.team.ctx, team := i.tid, gang := i.gid, org := i.origin, ipc := i.frag.pc, n,
                         rel, hint := m.hint.toNat, fibs, inst }] })) s
                  .ok () (advance s words)

/-- `ST` (R336, R338). -/
def execSt (p : Pred) (d : Dst) (a b : Src) (m : MemMod) (s : State) : Out := storeOp s p d a b m .pair
/-- `STS` (R334, R338). -/
def execSts (p : Pred) (d : Dst) (a b : Src) (m : MemMod) (s : State) : Out :=
  storeOp s p d a b m (if m.w then .weave else .spad)

/-- Does something the same gang issued before a store keep it from leaving: an earlier store to one of its lines that has not
left, an earlier load or atomic of such a line that has not, for a store to a procedural page an earlier one or an earlier PROCDONE (R146,
R362)? -/
def storeHeld (s : State) (core : Nat) (e : StoreEnt) (keys : List LineKey) (proc : Bool) : Bool :=
  (s.core core).sbuf.any (fun x => x.team == e.team && x.gang == e.gang && decide (x.id < e.id) && x.cause.isNone && x.sent.isNone &&
      x.inst != e.inst && x.fibs.any (fun f => match lineAt s x.ctx core f.va with
        | some k => keys.contains k || (proc && (match k with | .proc _ _ _ => true | _ => false))
        | none => true))
    || keys.any (fun k => unsentAtom s e.team e.gang e.id k || unsentLoad s e.team e.gang e.id k)
    || (proc && s.pend.pubs.any (fun m => m.team == e.team && m.gang == e.gang && decide (m.id < e.id) && keys.any (fun k =>
        match k with | .proc rn b _ => m.rn == rn && m.bix == b | _ => false)))

/-- A store of an ended gang that faults is counted and recorded (R127, R288). -/
def endedStore (s : State) (e : StoreEnt) (cause : Nat) (fib : Nat) (ga : Quad) : State :=
  errEvent s e.ctx { e.org.err fib cause with addr := ga.toNat, aux := 0x100 }

/-- Put entries in the place of one of a store buffer. -/
def setEnt (s : State) (core : Nat) (e : StoreEnt) (l : List StoreEnt) : State :=
  s.modCore core (fun c => { c with sbuf := c.sbuf.flatMap (fun x => if x = e then l else [x]) })

/-- What becomes of the fibres of a translated entry: those that fault keep an entry with the cause (R126), unless the gang has
ended; `more` is the entry of those that go on. -/
def splitEnt (s : State) (core : Nat) (e : StoreEnt) (fs : List StoreFib) (cause : Nat) (more : List StoreEnt) : State :=
  match fs with
  | [] => setEnt s core e more
  | f :: _ =>
      if e.ended then endedStore (setEnt s core e more) e cause f.fib f.ga
      else setEnt s core e ({ e with fibs := fs, cause := some cause } :: more)

/-- Did a gang hold the fill right of a block when it issued the store `id` (R90, R362)? -/
def rightOf (s : State) (tid gid id : Nat) (rn bix : Nat) : Bool :=
  (match s.gang tid gid with | some g => g.holdsRight rn bix | none => false)
    || s.pend.pubs.any (fun m => m.team == tid && m.gang == gid && m.rn == rn && m.bix == bix && decide (id < m.id))

/-- Fibres of a store that write at a line, each with the offset. -/
def storeBytes (s : State) (e : StoreEnt) (k : LineKey) : List (StoreFib × Nat) :=
  e.tgts.filterMap (fun x => match keyOf s x.2 with
    | some (k', off) => if k' == k then some (x.1, off) else none
    | none => none)

/-- Perform an entry's bytes of one line at its home (R65). A sector that the store covers whole is not read (R489). -/
def performLine (s : State) (e : StoreEnt) (k : LineKey) : State :=
  let ws := storeBytes s e k
  let hit := fun (o : Nat) => ws.any (fun w => decide (w.2 ≤ o ∧ o < w.2 + e.n))
  let part := (List.range 4).filter (fun i =>
    ws.any (fun w => w.2 / 48 == i) && !(List.range 48).all (fun j => hit (48 * i + j)))
  let s := part.foldl (fun s i => eccEvents s (some e.ctx) k (48 * i) 1 1) s
  ws.foldl (fun s w => homeWrite s k w.2 (leBytes e.n w.1.val.toNat) e.hint) s

/-- The lines of an entry that has left for its homes. -/
def StoreEnt.keys (s : State) (e : StoreEnt) : List LineKey := (e.tgts.filterMap (fun x => (keyOf s x.2).map (·.1))).eraseDups

/-- Obtain the lines of an entry: whether one has to be waited for, the host granules whose access failed, the state. -/
def storeLines (s : State) (e : StoreEnt) : Bool × List Nat × State :=
  e.tgts.foldl (fun (r : Bool × List Nat × State) x =>
    match keyOf r.2.2 x.2 with
    | none => r
    | some (k, off) =>
        let gs := match k with | .host key => (granulesOf off e.n).map (key + ·) | _ => []
        if gs.any r.2.1.contains then r
        else
          match homeReady r.2.2 k off e.n true (takesWay r.2.2 k e.hint) false e.id with
          | .ready s => (r.1, r.2.1, s)
          | .wait s => (true, r.2.1, s)
          | .failed s => (r.1, r.2.1 ++ gs, s)) (false, [], s)

/-- A store that has left is performed at its homes, in the order in which the core's requests left (R71, R140), once every line is
obtained. The fibres whose host granule failed are dropped: counted and recorded (R109). -/
def storePerform (s : State) (core : Nat) (e : StoreEnt) (n : Nat) : State :=
  if (e.keys s).any (coreEarlier s core n) then s
  else
    let (wait, bad, s) := storeLines s e
    let lost := fun (s : State) (x : StoreFib × Target) =>
      match keyOf s x.2 with
      | some (.host key, off) => (granulesOf off e.n).any (fun i => bad.contains (key + i))
      | _ => false
    let e' := { e with tgts := e.tgts.filter (fun x => !lost s x) }
    let s := match e.tgts.find? (lost s) with
      | some x => setEnt (hostErr s e.ctx e.org x.1.fib x.1.ga 1) core e [e']
      | none => s
    if wait then s
    else
      setEnt ((e'.keys s).foldl (fun s k => performLine (keepSeen s e.team e.gang e.id k) e' k) s) core e' []

/-- `STORE_TRANSLATE` (R126): a store entry translates and leaves for its home: it updates the L1 sectors present, and its fibres that
fault keep an entry with the cause. A release leaves as R149 gives. At a later turn it is performed (R140). A scratchpad store that waits
for its stash lines goes on in the same way (R53). -/
def execStoreTranslate (core id : Nat) (s : State) : Out :=
  match (s.core core).sbuf.find? (fun e => e.id == id && e.cause.isNone) with
  | none => .next (match s.pend.spads.find? (fun x => x.id == id) with | some x => spadStep s x | none => s)
  | some e =>
      match e.sent with
      | some n => .next (storePerform s core e n)
      | none =>
      match e.fibs with
      | [] => .next (setEnt s core e [])
      | f0 :: _ =>
          let pn := f0.va / 12288
          match translate s e.ctx core pn with
          | .miss => .next (startWalk s e.ctx core pn)
          | .fault c _ => .next (useFault (splitEnt s core e e.fibs c []) e.ctx core pn)
          | .hit l _ =>
              let ts := e.fibs.map (fun f => (f, landing s e.ctx f.va .store (rightOf s e.team e.gang id) l))
              let good := ts.filterMap (fun x => match x.2 with | .ok t => some (x.1, t) | _ => none)
              let bad := ts.filterMap (fun x => match x.2 with | .error c => some (x.1, c) | _ => none)
              let keys := good.filterMap (fun x => targetKey s x.2)
              let isProc := match l with | .proc _ => true | _ => false
              let ready := match e.rel with | some sc => releaseReady s core e.team e.gang sc id | none => true
              if !ready || storeHeld s core e keys isProc then .next s
              else
                -- a lower fibre's bytes do not replace those that another page's part of the instruction has written (R42)
                let good := good.filter (fun x => !e.shadow.any (fun y => y.1 == x.2 && decide (x.1.fib < y.2)))
                let (n, s) := s.fresh
                let sent := { e with sent := some n, tgts := good.filter (fun x => !x.2.isPeer) }
                let s := splitEnt s core e (bad.map (·.1)) ((bad.head?).elim 0 (·.2)) (if sent.tgts.isEmpty then [] else [sent])
                let s := s.modCore core (fun c => { c with sbuf := c.sbuf.map (fun x =>
                  if x.inst == e.inst && x.id != e.id then { x with shadow := x.shadow ++ good.map (fun t => (t.2, t.1.fib)) } else x) })
                .next (good.foldl (fun s x =>
                  match x.2 with
                  | .peer part pa => sendPeer s (.store e.ctx e.team e.gang x.1.fib e.id) e.ctx core part pa x.1.va .write e.n
                      (leBytes e.n x.1.val.toNat) e.org
                  | t => match keyOf s t with
                    | some (k, off) => l1Store s core k off (leBytes e.n x.1.val.toNat)
                    | none => s) s)

/-- The 256 bits of a store-fault record (R127). -/
def sfBits (e : StoreEnt) (cause seq : Nat) : BitVec 256 :=
  let size := match e.n with | 1 => 0 | 2 => 1 | 4 => 2 | _ => 3
  let fm := (maskOf (e.fibs.map (·.fib))).toNat
  BitVec.ofNat 256 (((e.fibs.head?).elim 0 (·.ga.toNat)) * 2 ^ 192 + fm * 2 ^ 128 + e.ipc.toNat * 2 ^ 64 + cause * 2 ^ 56
    + e.ctx * 2 ^ 48 + e.org.gslot % 32 * 2 ^ 43 + size * 2 ^ 41 + (if e.rel.isSome then 2 ^ 40 else 0) + seq % 256 * 256 + 1)

/-- Is a team's weave being saved? -/
def savingTeam (s : State) (tid : Nat) : Bool :=
  match (s.team tid).bind (fun t => mapGet t.weave s.weaves) with | some w => w.saving | none => false

/-- `STORE_FAULT_ENTER` (R127): a faulted store enters the queue when it has room. Records of a weave that is being saved have left it for the
image (R481). -/
def execStoreFaultEnter (core id : Nat) (s : State) : Out :=
  let c := s.core core
  match c.sbuf.find? (fun e => e.id == id && e.cause.isSome) with
  | none => .next s
  | some e =>
      if e.ended then
        .next (endedStore (setEnt s core e []) e (e.cause.getD 0) ((e.fibs.head?).elim 0 (·.fib)) ((e.fibs.head?).elim 0 (·.ga)))
      else if !savingTeam s e.team && decide (16 ≤ (c.sfq.filter (fun r => !savingTeam s r.team)).length) then .next s
      else
        let s := setEnt s core e []
        let s := s.modCore core (fun c => { c with sfq := c.sfq ++ [⟨e.team, e.gang, sfBits e (e.cause.getD 0) c.sfSeq⟩]
                                                   sfSeq := (c.sfSeq + 1) % 256 })
        .next (s.modGang e.team e.gang (fun g => { g with stPending := true }))

/-- Records of a gang in its core's queue, oldest first. -/
def gangRecs (s : State) (tid gid : Nat) : List SfRec :=
  match s.team tid with
  | some t => (s.core t.place.core).sfq.filter (fun r => r.team == tid && r.gang == gid)
  | none => []

/-- Does a fragment stand at an instruction boundary: not in an instruction that it has issued and that still waits? One held at issue, at
a latch or at a held instruction of a unit, has not issued it (R93, R369, R478). -/
def Frag.atBoundary (s : State) (f : Frag) : Bool :=
  f.sc == 0 && (match f.wait with
    | .release _ | .inv _ => false
    | .cmd id => s.pend.samples.any (fun x => x.id == id && x.held)
    | _ => true)

/-- May a gang take the imprecise trap of a store fault now (R127, R478)? -/
def stfaultReady (s : State) (g : Gang) : Bool :=
  g.stPending && g.handler.isNone && g.entry.isNone && g.ra.isNone && g.heldFor.isNone
    && (g.frags.find? (fun f => !f.held)).any (Frag.atBoundary s)

/-- `STFAULT` (R478): the fragment with the lowest lead slice takes the imprecise trap, at an instruction boundary. -/
def execStfault (team gang : Nat) (s : State) : Out :=
  match s.gang team gang with
  | none => .next s
  | some g =>
      if !stfaultReady s g then .next s
      else
        match gangRecs s team gang, g.frags.find? (fun f => !f.held) with
        | r :: _, some f =>
            let fib := ((maskList (r.bits.extractLsb' 128 64)).head?).getD 0
            let s := takeTrap s team gang f { cause := 0x16, fib } true
            .next (match s.gang team gang with
              | some g => if g.handler.isSome || g.entry.isSome then s.modGang team gang (fun g => { g with stPending := false }) else s
              | none => s)
        | _, _ => .next (s.modGang team gang (fun g => { g with stPending := false }))

/-! ### Atomics -/

def ATy.bytes : ATy → Nat | .i64 | .n64 => 8 | _ => 4

/-- One step op(old, operand) of R343. -/
def atomStep (o : AOp) (t : ATy) (old b e : Quad) : Quad :=
  let w := 8 * ATy.bytes t
  let mod := fun (x : Int) => BitVec.ofInt 64 (x % (2 ^ w : Nat))
  let signed := match t with | .i32 | .i64 => true | _ => false
  let lt := fun (x y : Quad) =>
    if signed then decide (sextNat x.toNat w < sextNat y.toNat w) else decide (x.toNat % 2 ^ w < y.toNat % 2 ^ w)
  let halves2 := fun (f : Fmt) (g : Fmt → Nat → Nat → Nat) =>
    let h := fun i => g f (elemAt old.toNat 16 i) (elemAt b.toNat 16 i)
    BitVec.ofNat 64 (h 0 + 65536 * h 1)
  let addF := fun (f : Fmt) (x y : Nat) => (f.finish .rne false (addFV .rne (f.value x) (f.value y))).code
  let mm := fun (greater : Bool) (f : Fmt) (x y : Nat) =>
    let u := f.value x
    let v := f.value y
    if u.isNan && v.isNan then f.dnan
    else if u.isNan then y
    else if v.isNan then x
    else if fBefore u v != greater then x else y
  match o with
  | .add =>
      match t with
      | .f32 => BitVec.ofNat 64 (addF .f32 (old.toNat % 2 ^ 32) (b.toNat % 2 ^ 32))
      | .f16x2 => halves2 .f16 addF
      | .bf16x2 => halves2 .bf16 addF
      | _ => mod (old.toNat + b.toNat)
  | .sub => mod ((old.toNat : Int) - b.toNat)
  | .min =>
      match t with
      | .f32 => BitVec.ofNat 64 (mm false .f32 (old.toNat % 2 ^ 32) (b.toNat % 2 ^ 32))
      | .f16x2 => halves2 .f16 (mm false)
      | .bf16x2 => halves2 .bf16 (mm false)
      | _ => if lt b old then b else old
  | .max =>
      match t with
      | .f32 => BitVec.ofNat 64 (mm true .f32 (old.toNat % 2 ^ 32) (b.toNat % 2 ^ 32))
      | .f16x2 => halves2 .f16 (mm true)
      | .bf16x2 => halves2 .bf16 (mm true)
      | _ => if lt old b then b else old
  | .and => old &&& b
  | .or => old ||| b
  | .xor => old ^^^ b
  | .exch => b
  | .cas => if old.toNat % 2 ^ w = e.toNat % 2 ^ w then b else old
  | .inc => if b.toNat % 2 ^ w ≤ old.toNat then 0 else mod (old.toNat + 1)
  | .dec => if old = 0 ∨ b.toNat % 2 ^ w < old.toNat then BitVec.ofNat 64 (b.toNat % 2 ^ w) else mod ((old.toNat : Int) - 1)

/-- Bytes of an atomic access (R341, R351, R397). -/
def AtomDo.bytes : AtomDo → Nat | .op _ t => ATy.bytes t | .sem => 8 | _ => 16

/-- Fields of a barrier object (R351). -/
def boComplete (x : Nat) : Bool := decide (natBits x 95 64 ≤ natBits x 47 0)
def boInit (x tgt : Nat) : Nat := natBits x 127 96 * 2 ^ 96 + tgt % 2 ^ 32 * 2 ^ 64 + natBits x 62 48 * 2 ^ 48
def boArr (x n : Nat) (err : Bool) : Nat :=
  natBits x 127 64 * 2 ^ 64 + (if err ∨ x.testBit 63 then 2 ^ 63 else 0) + natBits x 62 48 * 2 ^ 48
    + satAdd (natBits x 47 0) n (2 ^ 48 - 1)

/-- The combined request of R69: fibres in order, each with the value it returns, and the new content. -/
def combine (act : AtomDo) (old : Nat) : List AtomPart → List AtomPart × Nat
  | [] => ([], old)
  | p :: t =>
      let new := match act with
        | .op o ty => (atomStep o ty (BitVec.ofNat 64 old) p.val p.cmp).toNat % 2 ^ (8 * ATy.bytes ty)
        | .boInit => boInit old p.val.toNat
        | .boArr e => boArr old (p.val.toNat % 2 ^ 32) e
        | .sem => satAdd old (p.val.toNat % 2 ^ 32) (2 ^ 64 - 1)
      let (t, x) := combine act new t
      ({ p with ret := some (BitVec.ofNat 64 old) } :: t, x)

/-- Group accesses by the word they name, in rising order of each word's lowest fibre (R68). -/
def groupWords (ts : List (Acc × Target)) : List (Target × List Acc) :=
  ts.foldl (fun gs e =>
    if gs.any (fun g => g.1 == e.2) then gs.map (fun g => if g.1 == e.2 then (g.1, g.2 ++ [e.1]) else g)
    else gs ++ [(e.2, [e.1])]) []

/-- Issue an atomic access (R344, R353): scratchpad words are performed now, the others go to their homes. -/
def issueAtom (s : State) (i : Iss) (k : AK) (d : Option Dst) (wide : Bool) (act : AtomDo) (al : Nat) (rel acq : Option Nat)
    (sc : Bool) (accs : List Acc) (val cmp : Nat → Quad) (words : Nat) : Res Unit :=
  let n := act.bytes
  (resolveAll s i k n al accs).bind fun ts s =>
    let spads := ts.filter (fun e => match e.2 with | .spad _ _ => true | _ => false)
    let core := i.team.place.core
    if !memOpen s i.tid i.gid || storeOverlap s i (ts.map (·.2)) then .wait s
    else if !spads.isEmpty && (match rel with
        | some x => !releaseReady s core i.tid i.gid x s.sched.nextId | none => false) then settleWait s
    else
      (spadsReady s i n 2 true spads).bind fun _ s =>
        let w : StashW := .instr i.tid i.gid i.frag.pc
        let now := fun (t off : Nat) => spadStands s t off w == .now
        let s := (groupWords ts).foldl (fun s g =>
          let parts := g.2.map (fun a =>
            ({ fib := a.fib, pos := (d.map (fun d => dstPos i d a.fib)).getD 0, ga := a.ga, val := val a.fib, cmp := cmp a.fib } : AtomPart))
          let (id, s) := s.fresh
          let a : PendAtom := { id, core, ctx := i.team.ctx, team := i.tid, gang := i.gid, ipc := i.frag.pc, dst := d, act,
                                tgt := g.1, fibs := parts, rel, acq, sc := if sc then 1 else 0, org := i.origin }
          match g.1 with
          | .spad t off =>
              if !now t off then
                (spadJoin s t off w id).modPend (fun p => { p with atoms := p.atoms ++ [{ a with sc := 0 }] })
              else
              let (ps, x) := combine act (leNat (spadRead s t off n)) parts
              let s := spadTake (spadWrite s t off (leBytes n x)) t off true w (some core)
              s.modPend (fun p => { p with atoms := p.atoms ++ [{ a with fibs := ps, sc := 0 }] })
          | t =>
              let s := match keyOf s t with
                | some (k, off) => noFill (s.modCore core (fun c => l1DropSector c k (off / 48))) core k (off / 48)
                | none => s
              s.modPend (fun p => { p with atoms := p.atoms ++ [a] })) s
        let s := match d with
          | some d => s.modCur (fun g => g.markEmpty (accs.flatMap (fun a => dstRegs i.team.S g d (if wide then 2 else 1) a.fib)))
          | none => s
        .ok () (advance s words)

/-- The atomic family (R342-R345). -/
def atomOp (s : State) (p : Pred) (k : AK) (d : Option Dst) (a b : Src) (o : AOp) (ty : ATy) (rel acq : Option Nat)
    (legal sc : Bool) : Out :=
  withIss s fun i =>
    let S := i.team.S
    let act := match d with | some d => accFibs (active i p) d | none => active i p
    let wide := ty.wide
    let words := wordsOf [a, b]
    let oty : OTy := match ty with | .f32 => .f32 | .f16x2 => .f16 | .bf16x2 => .bf16 | _ => .int
    let cmpOp := match o, d with | .cas, some d => [opD d wide] | _, _ => []
    let ops := [opA a true, opB b wide oty] ++ cmpOp
    if (active i p).isEmpty && (unsure i p).isEmpty then .ok () (advance s words)
    else
      (checked s i (act.flatMap (needsOf S i.gang ops))
        (match d with | some d => act.flatMap (dstRegs S i.gang d (if wide then 2 else 1)) | none => [])).bind fun _ s =>
        if !legal then .trap (illopnd 5 (act.headD 0)) s
        else
          let n := ATy.bytes ty
          let acc := fun f => (opndVal S i.gang (opA a true) f).map (fun g => ({ fib := f, ga := g } : Acc))
          if i.gang.ra.isSome then
            if acq.isSome || sc then endsAhead s else aheadLoad s i p k n n acc d wide words
          else
            issueAtom s i k d wide (.op o ty) n rel acq sc (act.filterMap acc)
              (fun f => (opndVal S i.gang (opB b wide oty) f).getD 0)
              (fun f => match d with | some d => (opndVal S i.gang (opD d wide) f).getD 0 | none => 0) words

/-- Release and acquire of an ordering code (R141, R142). -/
def relOf (ord sco : BitVec 3) : Option Nat := if ord = 2 ∨ ord = 3 then some sco.toNat else none
def acqOf (ord sco : BitVec 3) : Option Nat := if ord = 1 ∨ ord = 3 then some sco.toNat else none

/-- `ATOM` (R342-R345). -/
def execAtom (p : Pred) (d : Dst) (a b : Src) (m : AtomMod) (s : State) : Out :=
  atomOp s p .atom (some d) a b m.op m.ty (relOf m.ord m.sco) (acqOf m.ord m.sco) (orderOk [1, 2, 3] m.ord m.sco) false
/-- `ATOMSC` (R154): a release at device scope, one ticket for each word, then the acquire's invalidations. -/
def execAtomsc (p : Pred) (d : Dst) (a b : Src) (op : AOp) (ty : ATy) (s : State) : Out :=
  atomOp s p .atomsc (some d) a b op ty (some 3) (some 3) true true
/-- `RED` (R344). -/
def execRed (p : Pred) (a b : Src) (m : AtomMod) (s : State) : Out :=
  atomOp s p .atom none a b m.op m.ty (relOf m.ord m.sco) none (orderOk [2] m.ord m.sco) false

/-- An atomic access failed at the host: zeros or a dropped write. A RASTQ's write counts for its instruction, once (R401); any other is
counted and recorded (R109). -/
def lostAtom (s : State) (a : PendAtom) : State :=
  let f := (a.fibs.head?).getD default
  let mine := fun (x : PendSample) => x.kind == SampKind.rastq &&
    x.fibs.any (fun f => match f.writes with | some (lo, hi, _) => decide (lo ≤ a.id ∧ a.id < hi) | none => false)
  let low := fun (x : PendSample) => match x.abandoned with | some (g, _, _) => decide (f.fib < g) | none => true
  if s.pend.samples.any mine then
    s.modPend (fun p => { p with samples := p.samples.map (fun x =>
      if mine x && low x then { x with abandoned := some (f.fib, 8, f.ga.toNat) } else x) })
  else hostErr s a.ctx a.org f.fib f.ga 2

/-- Deliver the returns of an atomic, drop its L1 sectors, do its acquire, and let the sequencer go on (R151, R153, R154). -/
def finishAtom (s : State) (a : PendAtom) : State :=
  let S := match s.team a.team with | some t => t.S | none => 64
  let wide := match a.act with | .op _ t => t.wide | _ => false
  let s := match a.dst with
    | some d => a.fibs.foldl (fun s p => replyTo s a.id a.team a.gang S d wide p.fib p.pos (.ok (p.ret.getD 0))) s
    | none => s
  let s := match keyOf s a.tgt with
    | some (k, off) => noFill (s.modCore a.core (fun c => l1DropSector c k (off / 48))) a.core k (off / 48)
    | none => s
  let s := s.modPend (fun p => { p with atoms := p.atoms.filter (fun x => x.id != a.id) })
  let s := if s.seq.holder = some a.id then { s with seq := { s.seq with holder := none } } else s
  -- an ATOMSC invalidates after the last of its words has returned
  if a.sc != 0 && s.pend.atoms.any (fun x => x.team == a.team && x.gang == a.gang && x.sc != 0 && x.ipc == a.ipc) then s
  else match a.acq with | some sc => acquire s a.core sc | none => s

/-- What a combined request carries to a peer: for each fibre its operand and its compare value (R38, R69). -/
def atomBody (a : PendAtom) : List Byte :=
  a.fibs.flatMap (fun x => match a.act with
    | .op _ ty => leBytes (ATy.bytes ty) x.val.toNat ++ leBytes (ATy.bytes ty) x.cmp.toNat
    | _ => leBytes 4 x.val.toNat)

/-- `ATOMIC_REPLY` (R69, R344): the combined request leaves once its release and its ticket let it (R149, R154), is performed at its
point of coherence in the order of the core's requests (R71), and returns. A peer's is performed there (R38). -/
def execAtomicReply (id : Nat) (s : State) : Out :=
  match s.pend.atoms.find? (fun a => a.id == id) with
  | none => .next s
  | some a =>
      if a.fibs.all (fun x => x.ret.isSome) then .next (finishAtom s a)
      else
        let rel := match a.rel with | some sc => releaseReady s a.core a.team a.gang sc id | none => true
        let set := fun (s : State) (a : PendAtom) =>
          s.modPend (fun p => { p with atoms := p.atoms.map (fun x => if x.id == a.id then a else x) })
        match a.sent, a.tgt with
        | none, t =>
            if !rel then .next s
            else if (match t with | .spad _ _ => true | _ => false) then .next (match t with
              | .spad u off =>
                  if spadStands s u off (.acc id) = .now then
                    let (ps, x) := combine a.act (leNat (spadRead s u off a.act.bytes)) a.fibs
                    finishAtom (spadTake (spadWrite s u off (leBytes a.act.bytes x)) u off true (.acc id) (some a.core)) { a with fibs := ps }
                  else s
              | _ => s)
            else if a.sc = 1 then
              .next (set { s with seq := { s.seq with queue := s.seq.queue ++ [.atom id] } } { a with sc := 2 })
            else if a.sc = 2 || (match targetKey s t with
                | some k => unsentAtom s a.team a.gang id k || unsentLoad s a.team a.gang id k || unsentStore s a.core a.team a.gang id [k]
                | none => false) then .next s
            else
              let (n, s) := s.fresh
              let s := set s { a with sent := some n }
              .next (match t with
                | .peer part pa => sendPeer s (.atom id) a.ctx a.core part pa ((a.fibs.head?).elim 0 (·.ga.toNat)) .atomic a.act.bytes
                    (atomBody a) a.org
                | _ => s)
        | some m, t =>
            match keyOf s t with
            | none => .next s
            | some (k, off) =>
                let n := a.act.bytes
                if coreEarlier s a.core m k then .next s
                else
                  match homeReady s k off n true true false a.id with
                  | .wait s => .next s
                  | .failed s =>
                      .next (finishAtom (lostAtom s a)
                        { a with fibs := a.fibs.map (fun x => { x with ret := some 0 }) })
                  | .ready s =>
                      let s := eccEvents s (some a.ctx) k off n 2
                      let s := homeFill (keepSeen s a.team a.gang a.id k) k off n
                      let (ps, x) := combine a.act (leNat (homeRead s k off n)) a.fibs
                      .next (finishAtom (homeWrite s k off (leBytes n x) 0) { a with fibs := ps })

/-- `SC_TICKET_GRANT` (R153): the next ticket, once the holder of the last one has reported. A fence reports at the grant. -/
def execScTicketGrant (s : State) : Out :=
  match s.seq.holder, s.seq.queue with
  | none, r :: q =>
      let s := { s with seq := { s.seq with queue := q, nextTicket := s.seq.nextTicket + 1 } }
      match r with
      | .atom id =>
          if s.pend.atoms.any (fun a => a.id == id) then
            let s := { s with seq := { s.seq with holder := some id } }
            .next (s.modPend (fun p =>
              { p with atoms := p.atoms.map (fun a => if a.id == id then { a with sc := 3 } else a) }))
          else .next s
      | .fence t g lead =>
          .next (s.modGang t g (fun x => { x with frags := x.frags.map (fun f => if f.mask.getLsbD lead ∧ f.sc = 1 then { f with sc := 2 } else f) }))
  | _, _ => .next s

/-! ### Fences, barriers, drains -/

/-- Every read that the gang has issued has its value. -/
def readsDone (s : State) (tid gid : Nat) : Bool :=
  s.pend.loads.all (fun l => !(l.team == tid && l.gang == gid) || l.parts.all (fun p => p.val.isSome))
    && s.pend.samples.all (fun x => x.held || !(x.team == tid && x.gang == gid))
    && s.pend.atoms.all (fun a => !(a.team == tid && a.gang == gid && a.dst.isSome) || a.fibs.all (fun x => x.ret.isSome))

/-- `FENCE` (R346, R149, R150, R155): the fragment waits until its code's conditions are met. -/
def execFence (p : Pred) (ord sco : BitVec 3) (s : State) : Out :=
  direct s fun i =>
    match active i p with
    | [] => .ok () (advance s 1)
    | f :: _ =>
        let core := i.team.place.core
        let sc := sco.toNat
        let legal := sc < 5 ∧ (ord = 1 ∨ ord = 2 ∨ ord = 3 ∨ (ord = 4 ∧ 3 ≤ sc))
        if ¬ legal then .trap (illopnd 5 f) s
        else
          let rel := ord = 1 ∨ releaseReady s core i.tid i.gid sc s.sched.nextId
          let acq := readsDone s i.tid i.gid ∧ gangOpen s i.tid i.gid
          if ord = 4 then
            if i.frag.sc = 2 then .ok () (advance ((acquire s core sc).modFrag (fun f => { f with sc := 0 })) 1)
            else if i.frag.sc = 1 ∨ ¬ rel ∨ ¬ acq then settleWait s
            else
              let s := { s with seq := { s.seq with queue := s.seq.queue ++ [ScReq.fence i.tid i.gid i.frag.lowest] } }
              .wait (s.modFrag (fun f => { f with sc := 1 }))
          else if ord = 2 then (if rel then .ok () (advance s 1) else settleWait s)
          else
            -- the invalidations come once the gang's reads have their values; the release may take longer (R149, R150)
            let s := if i.frag.inval ∨ ¬ acq then s else (acquire s core sc).modFrag (fun f => { f with inval := true })
            if (i.frag.inval ∨ acq) ∧ rel then .ok () (advance (s.modFrag (fun f => { f with inval := false })) 1) else settleWait s

/-- An arrival at a barrier (R348, R349): a release, then the fragment waits; the barrier may complete. -/
def arrive (s : State) (w : FragWait) (scope : Nat) : Out :=
  direct s fun i =>
    if !releaseReady s i.team.place.core i.tid i.gid scope s.sched.nextId then .wait s
    else .ok () (barriersTry (settleGang (s.modFrag (fun f => { f with wait := w })) i.tid i.gid) i.tid)

/-- `BAR` (R348). -/
def execBar (_ : Pred) (n : BitVec 3) (s : State) : Out := arrive s (.bar n.toNat) 1
/-- `WBAR` (R348). -/
def execWbar (_ : Pred) (n : BitVec 3) (s : State) : Out := arrive s (.wbar n.toNat) 2

/-- A BOINIT or BOARR (R353). -/
def boOp (s : State) (p : Pred) (a b : Src) (ord sco : BitVec 3) (act : AtomDo) : Out :=
  direct s fun i =>
    let S := i.team.S
    let fs := active i p
    let words := wordsOf [a, b]
    if fs.isEmpty then .ok () (advance s words)
    else
      (checked s i (fs.flatMap (needsOf S i.gang [opA a true, opB b])) []).bind fun _ s =>
        if !orderOk [2] ord sco then .trap (illopnd 5 (fs.headD 0)) s
        else
          issueAtom s i .atom none false act 16 (relOf ord sco) none false
            (fs.map (fun f => { fib := f, ga := (opndVal S i.gang (opA a true) f).getD 0 }))
            (fun f => (opndVal S i.gang (opB b) f).getD 0) (fun _ => 0) words

/-- `BOINIT` (R353). -/
def execBoinit (p : Pred) (a b : Src) (ord sco : BitVec 3) (s : State) : Out := boOp s p a b ord sco .boInit
/-- `BOARR` (R353). -/
def execBoarr (p : Pred) (a b : Src) (ord sco : BitVec 3) (e : Bool) (s : State) : Out := boOp s p a b ord sco (.boArr e)

/-- A wait's scratchpad accesses read their stash lines (R53). -/
def takeSpads (s : State) (i : Iss) (ts : List (Acc × Target)) : State :=
  ts.foldl (fun s e => match e.2 with
    | .spad u off => spadTake s u off false (.instr i.tid i.gid i.frag.pc) (some i.team.place.core)
    | _ => s) s

/-- The content of n bytes at a target now, for a wait that looks again (R354, R397). A host access that fails reads as zeros (R109);
a peer's content is asked for, and refused it is zeros (R37). -/
def peek (s : State) (i : Iss) (n : Nat) (e : Acc × Target) : Option Nat × State :=
  match e.2 with
  | .spad u off => (some (leNat (spadRead s u off n)), s)
  | .peer part pa =>
      match i.gang.peeks.find? (fun p => p.1 == i.frag.pc && p.2.1 == e.1.fib) with
      | some p => (p.2.2, s)
      | none =>
          let s := s.modCur (fun g => { g with peeks := g.peeks ++ [(i.frag.pc, e.1.fib, none)] })
          (none, sendPeer s (.peek i.tid i.gid i.frag.pc e.1.fib) i.team.ctx i.team.place.core part pa e.1.ga.toNat .atomic n [] i.origin)
  | t =>
      match keyOf s t with
      | none => (none, s)
      | some (k, off) =>
          if rastqOpen s i.tid i.gid || earlierOn s i.tid i.gid s.sched.nextId k || coreEarlier s i.team.place.core s.sched.nextId k then (none, s)
          else
            match homeReady s k off n true true false (2 ^ 60 + 2 ^ 20 * i.tid + 64 * i.gid + i.frag.lowest) with
            | .ready s =>
                let s := homeFill (eccEvents s (some i.team.ctx) k off n 2) k off n
                (some (leNat (homeRead s k off n)), s)
            | .wait s => (none, s)
            | .failed s => (some 0, hostErr s i.team.ctx i.origin e.1.fib e.1.ga 2)

/-- Content at every fibre's target, each at this moment. -/
def peekEach (s : State) (i : Iss) (n : Nat) : List (Acc × Target) → Option (List (Nat × Nat)) × State
  | [] => (some [], s)
  | e :: t =>
      let (x, s) := peek s i n e
      let (r, s) := peekEach s i n t
      (match x, r with | some x, some r => some ((e.1.fib, x) :: r) | _, _ => none, s)

/-- The same; what peers have sent serves one look. -/
def peekAll (s : State) (i : Iss) (n : Nat) (ts : List (Acc × Target)) : Option (List (Nat × Nat)) × State :=
  match peekEach s i n ts with
  | (none, s) => (none, s)
  | (some l, s) => (some l, s.modCur (fun g => { g with peeks := g.peeks.filter (fun p =>
      !(p.1 == i.frag.pc && ts.any (fun e => e.1.fib == p.2.1))) }))

/-- `BOWAIT` (R354): waits until every object is complete, then writes NOT `err`; an acquire at its scope. -/
def execBowait (p : Pred) (d : Dst) (a : Src) (sco : BitVec 3) (s : State) : Out :=
  direct s fun i =>
    let S := i.team.S
    let fs := active i p
    if fs.isEmpty then .ok () (advance s (wordsOf [a]))
    else
      (checked s i (fs.flatMap (needsOf S i.gang [opA a true])) []).bind fun _ s =>
        if 4 < sco.toNat then .trap (illopnd 5 (fs.headD 0)) s
        else
          (resolveAll s i .atom 16 16 (fs.map (fun f => { fib := f, ga := (opndVal S i.gang (opA a true) f).getD 0 }))).bind fun ts s =>
            let spads := ts.filter (fun e => match e.2 with | .spad _ _ => true | _ => false)
            if !memOpen s i.tid i.gid || storeOverlap s i (ts.map (·.2)) then .wait s
            else
              (spadsReady s i 16 2 false spads).bind fun _ s =>
                match peekAll (takeSpads s i spads) i 16 ts with
                | (none, s) => .wait s
                | (some l, s) =>
                    if l.all (fun e => boComplete e.2) then
                      let s := s.modCur (fun g => l.foldl (fun g e =>
                        writeDst S g d false e.1 (some (boolQ (!e.2.testBit 63)))) g)
                      .ok () (advance (acquire s i.team.place.core sco.toNat) (wordsOf [a]))
                    else .wait s

/-- `SDRAIN` (R355, R128): waits until every store of the gang has been translated, and its faults entered; not until they are
performed. -/
def execSdrain (_ : Pred) (s : State) : Out :=
  direct s fun i =>
    if (s.core i.team.place.core).sbuf.any (fun e => e.team == i.tid && e.gang == i.gid && e.sent.isNone) then settleWait s
    else .ok () (advance s 1)

/-! ### Engine counters (R156-R158) -/

def engGet (c : EngClass) (l : List (EngClass × List (Nat × Bool × Nat))) : List (Nat × Bool × Nat) :=
  ((l.find? (fun e => e.1 == c)).map (·.2)).getD []
def engPut {α : Type} (c : EngClass) (x : α) (l : List (EngClass × α)) : List (EngClass × α) :=
  l.filter (fun e => e.1 != c) ++ [(c, x)]

/-- The counter of a class (R157). -/
def Gang.cnt (g : Gang) (c : EngClass) : Nat := (engGet c g.ops).length

/-- An operation is issued: counted and listed (R157). -/
def Gang.issueOp (g : Gang) (c : EngClass) (id scope : Nat) : Gang :=
  { g with ops := engPut c (engGet c g.ops ++ [(id, false, scope)]) g.ops }

/-- The completed operations at the head of a list retire (R157): the list left, and those retired with their scopes. -/
def retireHead : List (Nat × Bool × Nat) → List (Nat × Bool × Nat) × List (Nat × Nat)
  | (id, true, sc) :: t => let r := retireHead t; (r.1, (id, sc) :: r.2)
  | l => (l, [])

/-- Operations of a class that have retired and that no WAITCNT has named (R158). -/
def Gang.retiredOf (g : Gang) (c : EngClass) : List (Nat × Nat) := ((g.retired.find? (fun e => e.1 == c)).map (·.2)).getD []

/-- An operation completes; operations retire in issue order (R157). -/
def Gang.doneOp (g : Gang) (c : EngClass) (id : Nat) : Gang :=
  let r := retireHead ((engGet c g.ops).map (fun e => if e.1 = id then (e.1, true, e.2.2) else e))
  { g with ops := engPut c r.1 g.ops, retired := engPut c (g.retiredOf c ++ r.2) g.retired }

/-- `WAITCNT` (R158): what it names is every operation of the class but the n youngest; those that no earlier WAITCNT has named give the
scope of the invalidations, gang scope counting as team scope. -/
def execWaitcnt (_ : Pred) (c : EngClass) (n : BitVec 6) (s : State) : Out :=
  direct s fun i =>
    if n.toNat < i.gang.cnt c then settleWait s
    else
      let l := i.gang.retiredOf c
      let k := l.length + i.gang.cnt c - n.toNat
      let scope := (l.take k).foldl (fun w e => max w (max 1 e.2)) 0
      let s := s.modCur (fun g => { g with retired := engPut c (l.drop k) g.retired })
      .ok () (advance (acquire s i.team.place.core scope) 1)

end Sys2Proof.Machine
end

