-- ==== Sys2Proof/Machine/Stash.lean ====
section
/-! DEFINITION. Stash map entries and tiles: STASHMAP, STASHWB, STASHINV, TILEQ, TILEWAIT, the fill of a stash line and its
recall (R51-R60, R356-R360). -/

namespace Sys2Proof.Machine

/-- Entries of a team: none on a Twill core (R46). -/
def Team.stashes (t : Team) : Nat := if t.place.isTwill then 0 else t.nstash
def Team.tileCount (t : Team) : Nat := if t.place.isTwill then 0 else t.ntile

/-- Do two runs of bytes overlap? -/
def overlaps (a n b m : Nat) : Bool := decide (a < b + m ∧ b < a + n)

/-- The tile t of a team (R57). -/
def Team.tile (t : Team) (n : Nat) : Tile := mapGetD {} n t.tiles
def State.setTile (s : State) (tid n : Nat) (x : Tile) : State :=
  s.modTeam tid (fun t => { t with tiles := mapPut n x t.tiles })
/-- Bytes of a tile's extent. -/
def Tile.size (x : Tile) : Nat := 192 * (x.nl + 1)

/-- The checks of R52 on a valid entry. -/
def stashLegal (s : State) (t : Team) (n gva soff nl : Nat) : Bool :=
  let len := 192 * (nl + 1)
  decide (gva < globalTop) && gva % 192 == 0 && decide (gva + len ≤ globalTop)
    && soff % 192 == 0 && decide (soff + len ≤ t.spsz)
    && t.stash.all (fun e => e.1 == n || !overlaps soff len e.2.soff (192 * (e.2.nl + 1)))
    && t.tiles.all (fun e => e.2.st == .empty || !overlaps soff len e.2.soff e.2.size)
    && s.teams.all (fun u => u.2.place.core != t.place.core
          || u.2.stash.all (fun e => !overlaps gva len e.2.gva (192 * (e.2.nl + 1))))

/-- `STASHMAP` (R356): the checks, the old entry's unmap event once its fills are done, then the new entry. DESIGN CHOICE: of an entry with
v = 0 only the index and the rsvd fields are checked (assumption 101). -/
def execStashmap (p : Pred) (a b : Src) (n : BitVec 4) (s : State) : Out :=
  once s p [opA a true, opB b true] [] fun i vs s =>
    let gva := (vs.getD 0 0).toNat
    let w := vs.getD 1 0
    let soff := bitsOf w 63 44
    let nl := bitsOf w 43 32
    let v := w.getLsbD 0
    let fib := (active i p).headD 0
    if i.team.stashes ≤ n.toNat ∨ bitsOf w 31 9 ≠ 0 ∨ bitsOf w 3 1 ≠ 0 ∨ (v ∧ !stashLegal s i.team n.toNat gva soff nl) then
      .trap (illopnd 5 fib) s
    else if stashWaits s i.tid n.toNat (fun _ => true) then settleWait s
    else
      .ok () (advance ((stashUnmap s i.tid n.toNat).modTeam i.tid (fun t => { t with
        stash := if v then mapPut n.toNat { gva, soff, nl } t.stash else mapDel n.toNat t.stash })) (wordsOf [a, b]))

/-- The lines of a STASHWB or STASHINV (R357): the event on each line that is there, once its fill is done. -/
def stashLinesOp (s : State) (p : Pred) (n : BitVec 4) (first count : Src) (one : State → Nat → Nat → Nat → State) : Out :=
  once s p [opB first, opC count] [] fun i vs s =>
    let f := (loWord (vs.getD 0 0)).toNat
    let c := (loWord (vs.getD 1 0)).toNat
    let fib := (active i p).headD 0
    match (if i.team.stashes ≤ n.toNat then none else mapGet n.toNat i.team.stash) with
    | none => .trap (illopnd 5 fib) s
    | some e =>
        if e.nl + 1 < f + c then .trap (illopnd 5 fib) s
        else
          let mine := e.lines.filter (fun l => decide (f ≤ l.1 ∧ l.1 < f + c))
          if stashWaits s i.tid n.toNat (fun l => decide (f ≤ l ∧ l < f + c)) then settleWait s
          else .ok () (advance (mine.foldl (fun s l => one s i.tid n.toNat l.1) s) (wordsOf [first, count]))

/-- A line becomes ABSENT and its home line has no owner; nothing is written back (R53). -/
def stashDiscard (s : State) (tid n l : Nat) : State :=
  match ((s.team tid).bind (fun t => mapGet n t.stash)).bind (fun e => stashLine e l) with
  | none => s
  | some x =>
      let s := match s.line x.key with
        | some ln => s.setLine x.key { ln with owner := none, recalled := false }
        | none => s
      setStashLine s tid n l none

/-- `STASHWB` (R357): MODIFIED lines are written back and stay CLEAN. -/
def execStashwb (p : Pred) (n : BitVec 4) (first count : Src) (s : State) : Out :=
  stashLinesOp s p n first count (fun s t e l => stashWriteBack s t e l true)

/-- `STASHINV` (R357): lines become ABSENT without write-back. -/
def execStashinv (p : Pred) (n : BitVec 4) (first count : Src) (s : State) : Out :=
  stashLinesOp s p n first count stashDiscard

/-- A fill that has left for its home, in the order of the core's requests (R71): first the home records the owner (R54), then the line's
bytes arrive (R53). -/
def stashArrive (s : State) (team entry line core : Nat) (e : Stash) (x : StashLine) : State :=
  let k := x.key
  if x.owned then
    -- the home's copy; the owner's array holds it from now on
    let s := homeFill (eccEvents s ((s.team team).map (·.ctx)) k 0 192 0) k 0 192
    let s := spadWrite s team (e.soff + 192 * line) (homeRead s k 0 192)
    teamRelease (setStashLine s team entry line (some { x with st := .clean })) team
  else if coreEarlier s core (x.sent.getD 0) k then s
  else
    match homeReady s k 0 192 true with
    | .wait s | .failed s => s
    | .ready s =>
        let (n, s) := s.fresh
        let s := homeFill s k 0 192
        let s := match s.line k with
          | some ln => s.setLine k { ln with owner := some (core, team), recalled := false, ownAt := n }
          | none => s
        setStashLine s team entry line (some { x with owned := true })

/-- `STASH_FILL_REPLY` (R53-R55): the fill translates and leaves, its home records the owner, and the line arrives; a fault is recorded or kept
for the access that started it. -/
def execStashFillReply (team entry line : Nat) (s : State) : Out :=
  match s.team team with
  | none => .next s
  | some t =>
      match (mapGet entry t.stash).bind (fun e => (stashLine e line).map (fun x => (e, x))) with
      | none => .next s
      | some (e, x) =>
          if x.st != .filling then .next s
          else if x.bad.isSome then
            -- the access that would take the fault has gone
            .next (if stashLive s team entry line (e.soff + 192 * line) (.instr x.team x.gang x.ipc) then s
              else setStashLine s team entry line none)
          else if x.sent.isSome then .next (stashArrive s team entry line t.place.core e x)
          else
            match s.gang x.team x.gang with
            | none => .next (setStashLine s team entry line none)
            | some g =>
                let who := RecFor.stash team entry line x.team x.gang
                let va := e.gva + 192 * line
                let core := t.place.core
                let bad := fun (s : State) (c : Nat) => setStashLine s team entry line (some { x with bad := some c })
                if s.xl.recs.any (fun r => r.who == who) then .next s
                else
                  match translate s t.ctx core (va / 12288) with
                  | .miss => .next (startWalk s t.ctx core (va / 12288))
                  | .fault 4 fz =>
                      if g.heldFor.isSome then .next s
                      else
                        let s := useFault s t.ctx core (va / 12288)
                        let tag := freeTag s
                        let r : FaultRec := { tag, who, ipc := x.ipc, fva := BitVec.ofNat 64 va,
                                              ctx := t.ctx, core := t.place.coreid, gslot := g.gslot, src := 6, ra := 0, agent := t.place.agent,
                                              ffib := 0, ovf := false, pages := [⟨va / 12288, true, fz⟩] }
                        .next ((s.modXl (fun y => { y with recs := y.recs ++ [r] })).modGang x.team x.gang
                          (fun g => { g with heldFor := some tag }))
                  | .fault c _ => .next (bad (useFault s t.ctx core (va / 12288)) c)
                  | .hit l _ =>
                      match landing s t.ctx va .stash (fun _ _ => false) l with
                      | .error c => .next (bad s c)
                      | .ok (.dev pa) =>
                          let (n, s) := s.fresh
                          .next (setStashLine s team entry line (some { x with sent := some n, key := .dev (pa / 192), pa }))
                      | .ok _ => .next (bad s 3)

/-- `STASH_RECALL` (R53, R54): the owner gives up a line that its home asks for, once the accesses that waited for its fill have been
performed. -/
def execStashRecall (team entry line : Nat) (s : State) : Out :=
  match ((s.team team).bind (fun t => mapGet entry t.stash)).bind (fun e => stashLine e line) with
  | none => .next s
  | some x =>
      let asked := match s.line x.key with | some ln => ln.recalled | none => false
      if !asked || stashWaits s team entry (· == line) then .next s
      else .next (stashWriteBack s team entry line false)

/-! ### Tiles -/

/-- The index of a tile instruction, or the trap of one beyond the team's count (R358). -/
def tileIndex (i : Iss) (q : Quad) (fib : Nat) (s : State) : Res Nat :=
  let t := (loWord q).toNat
  if i.team.tileCount ≤ t then .trap (illopnd 5 fib) s else .ok t s

/-- Tiles that a running matrix operation or load of an accumulator reads (R374). -/
def tileInUse (s : State) (tid n : Nat) : Bool :=
  s.cmds.any (fun c => c.team == tid && c.st != .queued && c.st != .complete &&
    (match c.kind with
     | .mtile _ _ _ a b ta tb _ _ => (a.sp == 1 && ta == n) || (b.sp == 1 && tb == n)
     | .accld _ r t => r.sp == 1 && t == n
     | _ => false))

def TileSt.code : TileSt → Nat | .empty => 0 | .filling => 1 | .ready => 2 | .draining => 3

/-- The checks of a definition (R359). -/
def tileLegal (t : Team) (n soff nl : Nat) : Bool :=
  (t.tile n).st == .empty && soff % 192 == 0 && decide (nl ≤ 2559) && decide (soff + 192 * (nl + 1) ≤ t.spsz)
    && t.stash.all (fun e => !overlaps soff (192 * (nl + 1)) e.2.soff (192 * (e.2.nl + 1)))

/-- `TILEQ` (R358, R359, R58); outside `.def` the descriptor position holds inline constant 0 (R248). -/
def execTileq (p : Pred) (op : TileqOp) (s : State) : Out :=
  match op with
  | .deff t desc =>
      once s p [opA t, opB desc] [] fun i vs s =>
        let fib := (active i p).headD 0
        (tileIndex i (vs.getD 0 0) fib s).bind fun n s =>
          let w := (loWord (vs.getD 1 0)).toNat
          let soff := w % 2 ^ 20
          let nl := w / 2 ^ 20
          if !tileLegal i.team n soff nl then .trap (illopnd 5 fib) s
          else .ok () (advance (s.setTile i.tid n { nl, soff }) (wordsOf [t, desc]))
  | .rel t e =>
      once s p [opA t, opB e] [] fun i vs s =>
        if e != .const 0 then .trap (illopnd 5 ((active i p).headD 0)) s
        else
        (tileIndex i (vs.getD 0 0) ((active i p).headD 0) s).bind fun n s =>
          let x := i.team.tile n
          match x.st with
          | .filling | .draining => .wait s
          | .empty => .ok () (advance s (wordsOf [t, e]))
          | .ready =>
              if tileInUse s i.tid n then .wait s
              else .ok () (advance (s.setTile i.tid n { x with st := .empty }) (wordsOf [t, e]))
  | .rd d t e =>
      direct s fun i =>
        let S := i.team.S
        let act := active i p
        let fs := if d.isScalar then act.take 1 else act
        match fs with
        | [] => .ok () (advance s (wordsOf [t, e]))
        | f :: _ =>
            (checked s i (act.flatMap (needsOf S i.gang [opA t])) (fs.flatMap (dstRegs S i.gang d 1))).bind fun _ s =>
              if e != .const 0 then .trap (illopnd 5 f) s
              else
              (tileIndex i ((opndVal S i.gang (opA t) f).getD 0) f s).bind fun n s =>
                let x := i.team.tile n
                let v : Quad := BitVec.ofNat 64 (x.st.code + if x.err then 4 else 0)
                .ok () (advance (s.modCur (fun g => fs.foldl (fun g f => writeDst S g d false f (some v)) g)) (wordsOf [t, e]))

/-- `TILEWAIT` (R360): waits until the tile is READY, then writes NOT `err`; an acquire at team scope. -/
def execTilewait (p : Pred) (d : Dst) (t : Src) (s : State) : Out :=
  once s p [opA t] [] fun i vs s =>
    (tileIndex i (vs.getD 0 0) ((active i p).headD 0) s).bind fun n s =>
      let x := i.team.tile n
      if x.st != .ready then .wait s
      else
        let s := s.modCur (fun g => (active i p).foldl (fun g f => writeDst i.team.S g d false f (some (boolQ (!x.err)))) g)
        .ok () (advance (acquire s i.team.place.core 1) (wordsOf [t]))

end Sys2Proof.Machine
end

