-- ==== Sys2Proof/Machine/Felt.lean ====
section
/-! DEFINITION. Felt: procedural ranges, blocks, touches, fills and their ends (R73-R103), the generator instructions (R361,
R362), PROCDECL and PROCRESET (R394-R396). -/

namespace Sys2Proof.Machine

/-! ### Blocks -/
def blockBytesOf (s : State) (rn : Nat) : Nat := if isPageRange s rn then 12288 else 192
/-- The bytes of a block as they stand, 0 unlisted. -/
def blockData (s : State) (rn bix : Nat) : Memory :=
  let byte := fun i => (i, lineByte s (.proc rn bix (i / 192)) (i % 192))
  ((List.range (blockBytesOf s rn)).map byte).filter (fun c => c.2 != 0)
/-- The lines of a block leave L2 without write-back. -/
def dropBlock (s : State) (rn bix : Nat) : State :=
  s.modMem (fun m => { m with l2 := m.l2.filter (fun e => match e.1 with | .proc r b _ => !(r == rn && b == bix) | _ => true) })
def blockSlice (rn bix : Nat) : Nat := sliceOf (.proc rn bix 0)
def freeFrame (s : State) (rn : Nat) (f : Option Nat) : State :=
  match f with
  | some f => s.modFelt (fun x => { x with ranges := mapMod rn (fun r => { r with freeFrames := r.freeFrames ++ [f] }) x.ranges })
  | none => s

/-! ### Answers to touches -/

/-- The gang a toucher belongs to. -/
def toucherGang (s : State) : Toucher → Option (Nat × Nat)
  | .load id => (s.pend.loads.find? (fun l => l.id == id)).map (fun l => (l.team, l.gang))
  | .cmd id _ => (s.cmds.find? (fun c => c.id == id)).map (fun c => (c.team, c.gang))
  | .sample id _ => (s.pend.samples.find? (fun x => x.id == id)).map (fun x => (x.team, x.gang))
  | .probe t g _ => some (t, g)
  | .prefetch => none

/-- A served read of a block's bytes goes through the home as any other (R65, R84): it takes a way and installs its sectors where it
allocates, and a sector that ECC cannot correct is counted. False while it has to wait for a way (R64). -/
def procAccess (s : State) (ctx : Nat) (k : LineKey) (off n acc hint : Nat) : Bool × State :=
  if !takesWay s k hint then (true, eccEvents s (some ctx) k off n acc)
  else match homeReady s k off n false with
    | .ready s => (true, homeFill (eccEvents s (some ctx) k off n acc) k off n)
    | .wait s | .failed s => (false, s)

/-- The same for a unit that has been served a block, while the block is as it was served. -/
def snapAccess (s : State) (x : Snap) (ctx : Nat) (k : LineKey) (off n acc : Nat) : Bool × State :=
  let st := fillState s x.rn x.bix
  if st == .filled || (x.own && st == .filling) then procAccess s ctx k off n acc 0 else (true, s)

/-- The accesses of a load's parts, or of a held touch's fibres, to a block that its home serves: offset, bytes and hint of each. -/
def loadReads (s : State) (who : Toucher) (rn bix : Nat) : List (Nat × Nat × Nat × Nat) :=
  match who with
  | .load id =>
      match s.pend.loads.find? (fun l => l.id == id) with
      | none => []
      | some l => l.parts.filterMap (fun p =>
          match p.tgt with
          | .proc r off => if p.st == .touching && r == rn && blockOf s r off == bix then some (l.ctx, off, l.n, l.hint) else none
          | _ => none)
  | .probe t g f =>
      (match s.team t, s.gang t g with
        | some x, some y => (y.genTouches.filter (fun q => q.lead == f && q.rn == rn && q.bix == bix && q.n != 0)).flatMap (fun q =>
            q.fibs.map (fun e => (x.ctx, e.2, q.n, q.hint)))
        | _, _ => [])
  | _ => []

/-- The home performs them; false while one has to wait. -/
def loadAccess (s : State) (who : Toucher) (rn bix : Nat) : Bool × State :=
  (loadReads s who rn bix).foldl (fun (r : Bool × State) e =>
    match keyOf r.2 (.proc rn e.2.1) with
    | some (k, o) => let x := procAccess r.2 e.1 k o e.2.2.1 0 e.2.2.2; (r.1 && x.1, x.2)
    | none => r) (true, s)

/-- A touch's unit obtains the block's bytes or its failure; an instruction of chapter 13 that receives a failed block counts it
once (R98). A load binds its parts; a normal one's sectors enter the L1, and others leave it (R47, R84, R97, R151); a prefetch has nobody
to tell. -/
def deliver (s : State) (who : Toucher) (x : Snap) (install : Bool) : State :=
  match who with
  | .load id =>
      let mine := fun (p : LoadPart) => p.st == .touching &&
        (match p.tgt with | .proc rn off => rn == x.rn && blockOf s rn off == x.bix | _ => false)
      let off := fun (p : LoadPart) => match p.tgt with | .proc _ off => off | _ => 0
      let part := fun (l : PendLoad) (p : LoadPart) =>
        if !mine p then p
        else match x.failed with
          | some (pol, c, d) => { p with st := .failed pol c d }
          | none => { p with st := .ready, val := some (loadValue l.n l.sx (snapBytes s x.data x.rn (off p) l.n)) }
      let s := match s.pend.loads.find? (fun l => l.id == id) with
        | some l =>
            if x.failed.isSome then s
            else (l.parts.filter mine).foldl (fun (s : State) (p : LoadPart) =>
              match keyOf s p.tgt with
              | some (k, o) =>
                  if l.hint != 0 then s.modCore l.core (fun c => l1DropSector c k (o / 48))
                  else if install && !x.own && !l.noInstall && !p.noInstall then
                    l1Install s l.core k (o / 48) (snapBytes s x.data x.rn (off p - o % 48) 48)
                  else s
              | none => s) s
        | none => s
      s.modPend (fun p => { p with loads := p.loads.map (fun (l : PendLoad) => if l.id == id then { l with parts := l.parts.map (part l) } else l) })
  | .cmd id _ => { s with cmds := s.cmds.map (fun c => if c.id == id then { c with snaps := c.snaps ++ [x] } else c) }
  | .sample id lib =>
      let x := { x with lib }
      let s := match s.pend.samples.find? (fun y => y.id == id) with
        | some y => if x.failed.isSome && !y.blockFail then countErr s y.ctx else s
        | none => s
      s.modPend (fun p => { p with
        samples := p.samples.map (fun y =>
          if y.id == id then { y with snaps := y.snaps ++ [x], blockFail := y.blockFail || x.failed.isSome } else y) })
  | .prefetch => s
  | .probe t g f => s.modGang t g (fun y => { y with genTouches := y.genTouches.map (fun q =>
      if q.lead == f && q.rn == x.rn && q.bix == x.bix && (q.ans.isNone || q.ans == some 4) then
        { q with ans := some (if x.failed.isSome then 5 else 0), data := x.data, failed := x.failed }
      else q) })

/-- A touch's answer that is no data: a held probe is told (R93). -/
def answerProbe (s : State) (who : Toucher) (rn bix ans : Nat) : State :=
  match who with
  | .probe t g f => s.modGang t g (fun y => { y with genTouches := y.genTouches.map (fun q =>
      if q.lead == f && q.rn == rn && q.bix == bix && q.ans.isNone then { q with ans := some ans } else q) })
  | _ => s

/-! ### Starting a fill -/

/-- Merge entries open to a fill at depth k (R86). -/
def entriesFor (k : Nat) : List Nat :=
  List.range 208 ++ (if k = 0 then [] else (List.range 16).map (fun i => 208 + 16 * (k - 1) + i))
def freeEntry (s : State) (slice k : Nat) : Option Nat :=
  (entriesFor k).find? (fun e => !s.felt.merges.any (fun m => m.slice == slice && m.ent == e))

/-- The FILLED block of a range whose publication is oldest (R94). -/
def budgetVictim (s : State) (rn : Nat) : Option (Nat × Block) :=
  (s.felt.blocks.filter (fun e => e.1.1 == rn && e.2.st == .filled)).foldl (fun v e =>
    match v with
    | some (_, b) => if e.2.pubAt < b.pubAt then some (e.1.2, e.2) else v
    | none => some (e.1.2, e.2)) none

/-- A frame for a page block's fill: a free one, or the victim's (R94); none for a line block. DESIGN CHOICE: the first of the free
frames (assumption 86). -/
def takeFrame (s : State) (rn : Nat) (r : Range) : Option (Option Nat × State) :=
  if !r.page then some (none, s)
  else
    match r.freeFrames with
    | f :: t => some (some f, s.modFelt (fun x => { x with ranges := mapMod rn (fun r => { r with freeFrames := t }) x.ranges }))
    | [] =>
        match budgetVictim s rn with
        | some (b, v) => some (v.frame, blockDel rn b (dropBlock s rn b))
        | none => none

/-- The fill record of R88. -/
def fillRecord (slice ent evc : Nat) (chain : List (Nat × Nat)) (rn bix rctx cctx dep : Nat) (page : Bool) (bva : Nat) : BitVec 512 :=
  let tag := fun k => match chain[k]? with | some (r, b) => (r * 2 ^ 32 + b) * 2 ^ (128 + 64 * k) | none => 0
  BitVec.ofNat 512 (slice * 2 ^ 456 + ent * 2 ^ 448 + evc * 2 ^ 400 + sliceAgent slice * 2 ^ 384 + tag 0 + tag 1 + tag 2 + tag 3
    + bix * 2 ^ 96 + rn * 2 ^ 88 + rctx * 2 ^ 80 + cctx * 2 ^ 72 + dep * 2 ^ 70 + (if page then 2 ^ 69 else 0) + bva)

/-- The leaf page of a range's fill-state table that a block's state lies in is taken from the Felt pool when the first fill in its span
starts (R514); none when the pool is empty. -/
def takeLeaf (s : State) (rn bix : Nat) : Option State :=
  let leaf := (rn, bix / (Config.fillSpan + 1))
  if s.felt.poolUsed.contains leaf then some s
  else if Config.poolPages ≤ s.felt.poolUsed.length then none
  else some (s.modFelt (fun f => { f with poolUsed := f.poolUsed ++ [leaf] }))

/-- Fill records of a stage that no gang has received (R88, R89). -/
def stageRecords (s : State) (ctx h stage : Nat) : List Merge :=
  s.felt.merges.filter (fun m => m.taken.isNone &&
    (match mapGet m.rn s.felt.ranges with | some r => r.owner == ctx && r.pipe == h && r.stage == stage | none => false))

/-- A stage that has no input begins to wait for a block (R462). -/
def beginWaiting (s : State) (ctx h k : Nat) : State :=
  { s with pipes := s.pipes.map (fun (p : Pipeline) => if p.ctx == ctx && p.h == h then
      { p with stages := (p.stages.zipIdx).map (fun (e : Stage × Nat) =>
          if e.2 == k && e.1.queue.isEmpty && (stageRecords s ctx h k).isEmpty then { e.1 with began := s.sched.now } else e.1) } else p) }

/-- Start a fill (R81, R82, R88); none when it is refused. -/
def startFill (s : State) (t : Touch) (r : Range) (dep : Nat) (chain : List (Nat × Nat)) (cctx : Nat) : Option State :=
  let slice := blockSlice t.rn t.bix
  match freeEntry s slice dep, (takeLeaf s t.rn t.bix).bind (fun s => takeFrame s t.rn r) with
  | some ent, some (frame, s) =>
      let (st, s) := s.stamp (sliceAgent slice)
      let size := if r.page then 12288 else 192
      let frec := fillRecord slice ent st.1 chain t.rn t.bix t.ctx cctx dep r.page (r.base + t.bix * size)
      let s := blockPut t.rn t.bix { st := .filling, frame } (dropBlock s t.rn t.bix)
      let m : Merge := { slice, ent, rn := t.rn, bix := t.bix, dep, frec,
                         waiters := if t.who = .prefetch then [] else [(t.who, t.ctx)], taken := none, first := some (t.who, t.ctx) }
      some ((beginWaiting s r.owner r.pipe r.stage).modFelt (fun f => { f with merges := f.merges ++ [m] }))
  | _, _ => none

/-- A refused touch (R87). -/
def refuseTouch (s : State) (t : Touch) : State :=
  if t.who = .prefetch then s.modPend (fun p => { p with touches := p.touches.filter (fun x => x.id != t.id) })
  else
    (s.modPend (fun p => { p with touches := p.touches.map (fun x =>
      if x.id == t.id then { x with refusedAt := some s.sched.now } else x) })).modCtx t.ctx
      (fun c => { c with pbpcnt := satQuad c.pbpcnt 1 })

/-- An error of a generator's touch (R92): a held instruction is told; another unit's touch fails the gang's rights and is
served by the policy. -/
def touchError (s : State) (t : Touch) (pol ans : Nat) : State :=
  match t.who with
  | .prefetch => s
  | .probe _ _ _ => answerProbe s t.who t.rn t.bix ans
  | w =>
      let cause := if ans = 1 then 0x10 else 0x11
      let sub := if ans = 3 then 1 else 0
      let held := match w with | .sample id _ => s.pend.samples.any (fun (x : PendSample) => x.id == id && x.held) | _ => false
      if held then
        s.modPend (fun p => { p with samples := p.samples.map (fun (x : PendSample) =>
          if (match w with | .sample id _ => id == x.id | _ => false) then
            let fs := (x.asks.filter (fun a => a.2 == (t.rn, t.bix))).map (·.1)
            let f := fs.foldl min (fs.headD 0)
            { x with genErr := match x.genErr with
                | some (c, u, g) => if g < f then some (c, u, g) else some (cause, sub, f)
                | none => some (cause, sub, f) }
          else x) })
      else
      let s := match toucherGang s w with | some (a, b) => failRights s a b cause sub | none => s
      deliver s w { rn := t.rn, bix := t.bix, failed := some (pol, cause, sub), data := [] } false

/-- `PROC_TOUCH` (R78, R82-R87, R92): a touch reaches its block's home. -/
def execProcTouch (id : Nat) (s : State) : Out :=
  match s.pend.touches.find? (fun t => t.id == id && t.refusedAt.isNone) with
  | none => .next s
  | some t =>
      let gone := s.modPend (fun p => { p with touches := p.touches.filter (fun x => x.id != id) })
      match heldBase s t.ctx t.rn, mapGet t.rn s.felt.ranges with
      | some _, some r =>
          let g := (toucherGang s t.who).bind (fun x => s.gang x.1 x.2)
          let own := match g with | some g => g.holdsRight t.rn t.bix | none => false
          let chains := match g with | some g => g.rights.flatMap (fun e => e.2.chain) | none => []
          let serve := fun (_ : Unit) =>
            -- a read that needs a way waits for it at the home (R64)
            match loadAccess s t.who t.rn t.bix with
            | (false, s) => s
            | (true, s) =>
                deliver (s.modPend (fun p => { p with touches := p.touches.filter (fun x => x.id != id) })) t.who
                  { rn := t.rn, bix := t.bix, failed := none, data := blockData s t.rn t.bix, own } (!own)
          let start := fun (dep : Nat) (chain : List (Nat × Nat)) (cctx : Nat) =>
            match startFill gone t r dep chain cctx with
            | some s => answerProbe s t.who t.rn t.bix 4
            | none => refuseTouch s t
          if own then .next (serve ())
          else
            match (blockGet t.rn t.bix s).getD { st := .unfilled } with
            | b =>
                match b.st with
                | .filled => .next (serve ())
                | .faulted =>
                    .next (deliver gone t.who { rn := t.rn, bix := t.bix, failed := some (r.pol, b.cause, b.code), data := [] } false)
                | .unfilled =>
                    match t.gen with
                    | none => .next (start 0 [(t.rn, t.bix)] t.ctx)
                    | some (d, chain, cctx) =>
                        if r.mdep < d + 1 then .next (touchError gone t r.pol 1)
                        else .next (start (d + 1) ((t.rn, t.bix) :: chain) cctx)
                | .filling =>
                    match s.felt.merges.find? (fun m => m.rn == t.rn && m.bix == t.bix) with
                    | none => .next s
                    | some m =>
                        let join := fun (_ : Unit) =>
                          if 16 ≤ m.waiters.length then refuseTouch s t
                          else
                            let s := gone.modFelt (fun f => { f with merges := f.merges.map (fun x =>
                              if x.rn == t.rn && x.bix == t.bix then { x with waiters := x.waiters ++ [(t.who, t.ctx)] } else x) })
                            answerProbe s t.who t.rn t.bix 4
                        if t.who = .prefetch then .next gone
                        else
                          match t.gen with
                          | none => .next (join ())
                          | some (d, chain, _) =>
                              if (chain ++ chains).contains (t.rn, t.bix) then .next (touchError gone t r.pol 2)
                              else if m.dep ≤ d then .next (touchError gone t r.pol 3)
                              else .next (join ())
      | _, _ =>
          -- the context was detached after the touch translated (R78 step 2)
          if t.who = .prefetch then .next gone
          else .next (countErr (deliver gone t.who { rn := t.rn, bix := t.bix, failed := none, data := [], own := true } false) t.ctx)

/-- `TOUCH_RESEND` (R87): a refused touch goes to its home again, no earlier than 32 cycles later. -/
def execTouchResend (id : Nat) (s : State) : Out :=
  .next (s.modPend (fun p => { p with touches := p.touches.map (fun t =>
    match t.refusedAt with
    | some n => if t.id == id && decide (n + 32 ≤ s.sched.now) then { t with refusedAt := none } else t
    | none => t) }))

/-! ### Generators -/

/-- Order of delivery (R89). -/
def recordLt (a b : Merge) : Bool :=
  decide (b.dep < a.dep) || (a.dep == b.dep && stampLt (bitsOf a.frec 447 400, bitsOf a.frec 399 384) (bitsOf b.frec 447 400, bitsOf b.frec 399 384))

/-- `PROCQ` (R361): the run and the right register become EMPTY, and the record is asked for. -/
def execProcq (p : Pred) (d : Dst) (sr : BitVec 6) (nb : Bool) (s : State) : Out :=
  let sd := match d with | .scal r => r.toNat | _ => 64
  let regs := (((List.range 16).filter (fun k => sd + k < 64)).map (fun k => RegRef.s (sd + k))) ++ [.s sr.toNat]
  direct s fun i =>
    match active i p with
    | [] => .ok () (advance s 1)
    | f :: _ =>
        (checked s i [] regs).bind fun _ s =>
          if ¬ (sd = 0 ∨ sd = 16 ∨ sd = 32 ∨ sd = 48) ∨ (sd ≤ sr.toNat ∧ sr.toNat < sd + 16) ∨ ¬ i.team.generator then
            .trap (illopnd 5 f) s
          else
            .ok () (advance (s.modCur (fun g => { g.markEmpty regs with procq := g.procq ++ [(sd, sr.toNat, nb)] })) 1)

/-- `PROCQ_DELIVER` (R89, R361): a record goes to a waiting gang's oldest PROCQ, with the fill right of its block; with no record, the
oldest `.nb` is answered. -/
def execProcqDeliver (team gang : Nat) (s : State) : Out :=
  match s.team team, s.gang team gang with
  | some t, some g =>
      match g.procq, t.pipe with
      | q0 :: qs, some (h, stage) =>
          let fits := fun (m : Merge) => match g.rights.head? with | some e => e.2.rn == m.rn && e.2.dep == m.dep | none => true
          let l := if 4 ≤ g.rights.length then [] else sortBy recordLt ((stageRecords s t.ctx h stage).filter fits)
          let put := fun (g : Gang) (q : Nat × Nat × Bool) (ws : Nat → Word) (r : Word) =>
            let (sd, sr, _) := q
            let g := (List.range 16).foldl (fun g k => g.replyReg (.s (sd + k)) { val := ws k }) g
            { g.replyReg (.s sr) { val := r } with procq := g.procq.erase q }
          match l with
          | [] =>
              match (q0 :: qs).find? (fun q => q.2.2) with
              | some q => .next (s.modGang team gang (fun g => put g q (fun _ => 0) 0xFFFFFFFF))
              | none => .next s
          | m :: _ =>
              let idx := ((List.range 4).find? (fun i => (mapGet i g.rights).isNone)).getD 0
              let tag := fun k => (bitsOf m.frec (128 + 64 * k + 39) (128 + 64 * k + 32), bitsOf m.frec (128 + 64 * k + 31) (128 + 64 * k))
              let right : Right := { rn := m.rn, bix := m.bix, dep := m.dep, chain := (List.range (m.dep + 1)).map tag,
                                     cctx := bitsOf m.frec 79 72 }
              let s := s.receive t.place.agent (bitsOf m.frec 447 400)
              let s := s.modFelt (fun f => { f with merges := f.merges.map (fun x =>
                if x.rn == m.rn && x.bix == m.bix then { x with taken := some (team, gang) } else x) })
              .next (s.modGang team gang (fun g =>
                { put g q0 (fun k => m.frec.extractLsb' (32 * k) 32) (BitVec.ofNat 32 idx) with rights := mapPut idx right g.rights }))
      | _, _ => .next s
  | _, _ => .next s

/-- A PROCDONE or PROCFAIL message to the block's home; the right ends for what the gang issues later (R91, R362). -/
def endRight (s : State) (i : Iss) (idx : Nat) (r : Right) (fail : Option (Nat × Nat)) : State :=
  let (st, s) := s.stamp i.team.place.agent
  let (id, s) := s.fresh
  let s := s.modPend (fun p => { p with pubs := p.pubs ++ [⟨id, i.team.place.core, i.tid, i.gid, r.rn, r.bix, fail, id, st⟩] })
  s.modCur (fun g => { g with rights := mapDel idx g.rights })

/-- `PROCDONE` (R362, R91). -/
def execProcdone (p : Pred) (x : Src) (s : State) : Out :=
  once s p [opA x] [] fun i vs s =>
    let idx := (loWord (vs.getD 0 0)).toNat
    match mapGet idx i.gang.rights with
    | none => .trap (illopnd 5 ((active i p).headD 0)) s
    | some r => .ok () (advance (endRight s i idx r none) (wordsOf [x]))

/-- `PROCFAIL` (R362, R96): the fill fails with PFAIL and the code. -/
def execProcfail (p : Pred) (x code : Src) (s : State) : Out :=
  once s p [opA x, opB code] [] fun i vs s =>
    let idx := (loWord (vs.getD 0 0)).toNat
    match mapGet idx i.gang.rights with
    | none => .trap (illopnd 5 ((active i p).headD 0)) s
    | some r => .ok () (advance (endRight s i idx r (some (0x12, (vs.getD 1 0).toNat % 65536))) (wordsOf [x, code]))

/-! ### Ends of fills -/

/-- The waiters of a closing entry are replayed in the order in which they joined, each stamped by the home (R91, R468). -/
def replayAll (s : State) (m : Merge) (failed : Option (Nat × Nat × Nat)) (data : Memory) : State :=
  let s := m.waiters.foldl (fun s w =>
    let (st, s) := s.stamp (sliceAgent m.slice)
    let (id, s) := s.fresh
    s.modPend (fun p => { p with replays := p.replays ++ [⟨id, w.1, m.rn, m.bix, failed, data, st.1⟩] })) s
  s.modFelt (fun f => { f with merges := f.merges.filter (fun x => !(x.rn == m.rn && x.bix == m.bix)) })

/-- Publish a block's lines (R81): what no store wrote is zero, in the lines and in the frame. True when a line block's line
holds no way. -/
def publishLines (s : State) (rn bix : Nat) (frame : Option Nat) : Bool × State :=
  match frame with
  | some f =>
      (false, (List.range 64).foldl (fun s l =>
        let k := LineKey.proc rn bix l
        match s.line k with
        | none => dramPut s (f + 192 * l) (List.replicate 192 0)
        | some _ =>
            let s := homeFill s k 0 192
            match s.line k with | some x => s.setLine k { x with dirty := 15 } | none => s) s)
  | none =>
      let k := LineKey.proc rn bix 0
      ((s.line k).isNone, if (s.line k).isSome then homeFill s k 0 192 else s)

/-- `PUBLICATION` (R91): the gang's earlier stores are performed at device scope; then the block is FILLED, its waiters are
replayed, and the entry closes. -/
def execPublication (id : Nat) (s : State) : Out :=
  match s.pend.pubs.find? (fun m => m.id == id && m.fail.isNone) with
  | none => .next s
  | some m =>
      if !releaseReady s m.core m.team m.gang 3 m.after then .next s
      else
        let s := s.modPend (fun p => { p with pubs := p.pubs.filter (fun x => x.id != id) })
        match s.felt.merges.find? (fun x => x.rn == m.rn && x.bix == m.bix), blockGet m.rn m.bix s with
        | some e, some b =>
            let s := s.receive (sliceAgent e.slice) m.stamp.1
            let (bare, s) := publishLines s m.rn m.bix b.frame
            let seq := s.felt.pubSeq + 1
            let s := s.modFelt (fun f => { f with pubSeq := seq })
            let s := blockPut m.rn m.bix { b with st := .filled, pubAt := seq } s
            let s := replayAll s e none (blockData s m.rn m.bix)
            .next (if bare then blockDel m.rn m.bix s else s)
        | _, _ => .next s

/-- The error records of a failed fill (R98): one to the owner, one to each other context that had a waiter. -/
def failRecords (s : State) (e : Merge) (cause code : Nat) : State :=
  match mapGet e.rn s.felt.ranges with
  | none => s
  | some r =>
      let others := (e.waiters.map (·.2)).eraseDups.filter (· != r.owner)
      (r.owner :: others).foldl (fun s c =>
        let n := (e.waiters.filter (fun w => w.2 == c)).length
        let base := if c = r.owner then some r.base else ((r.attached ++ r.detached).find? (fun x => x.1 == c)).map (·.2)
        let addr := match base with | some b => b + e.bix * blockBytesOf s e.rn | none => 0
        ctxRecord s c { agent := sliceAgent e.slice, cause, sub := if cause = 0x11 then code else 0, kind := 1, addr,
                        aux := e.rn + cause * 2 ^ 8 + code * 2 ^ 16 + min n 255 * 2 ^ 32 }) s

/-- `FILL_FAILURE` (R96-R98): the block is FAULTED once the gang's stores before the failure have translated. -/
def execFillFailure (id : Nat) (s : State) : Out :=
  match s.pend.pubs.find? (fun m => m.id == id) with
  | none => .next s
  | some m =>
      match m.fail with
      | none => .next s
      | some (cause, code) =>
          if (s.core m.core).sbuf.any (fun e => e.team == m.team && e.gang == m.gang && decide (e.id < m.after) && e.cause.isNone) then
            .next s
          else
            let s := s.modPend (fun p => { p with pubs := p.pubs.filter (fun x => x.id != id) })
            match s.felt.merges.find? (fun x => x.rn == m.rn && x.bix == m.bix), blockGet m.rn m.bix s with
            | some e, some b =>
                let s := s.receive (sliceAgent e.slice) m.stamp.1
                let s := freeFrame (dropBlock s m.rn m.bix) m.rn b.frame
                let s := blockPut m.rn m.bix { st := .faulted, cause, code } s
                let s := failRecords s e cause code
                let pol := (mapGet m.rn s.felt.ranges).elim 0 (·.pol)
                .next (replayAll s e (some (pol, cause, code)) [])
            | _, _ => .next s

/-- The agent that receives a replay (R468). -/
def toucherAgent (s : State) (w : Toucher) : Option Nat :=
  (toucherGang s w).bind (fun x => (s.team x.1).map (fun t => t.place.agent))

/-- `PROC_REPLAY` (R91, R97, R164): a waiter obtains the block; a replayed load is an acquire at device scope. -/
def execProcReplay (id : Nat) (s : State) : Out :=
  match s.pend.replays.find? (fun r => r.id == id) with
  | none => .next s
  | some r =>
      let s0 := s
      -- its access goes through the home while the block is as it was published (R84, R91)
      let (ready, s) := if r.failed.isNone && fillState s r.rn r.bix == .filled then loadAccess s r.who r.rn r.bix else (true, s0)
      if !ready then .next s
      else
      let s := s.modPend (fun p => { p with replays := p.replays.filter (fun x => x.id != id) })
      let s := match toucherAgent s r.who with | some a => s.receive a r.evc | none => s
      let s := match r.who with
        | .load n => s.modPend (fun p => { p with loads := p.loads.map (fun l => if l.id == n then { l with replayed := true } else l) })
        | .probe t g f => s.modGang t g (fun x => { x with genTouches := x.genTouches.map (fun q =>
            if q.lead == f && q.rn == r.rn && q.bix == r.bix then { q with replayed := true } else q) })
        | _ => s
      .next (deliver s r.who { rn := r.rn, bix := r.bix, failed := r.failed, data := r.data } true)

/-! ### PROCDECL and PROCRESET -/

/-- Ranges that a context holds, with base and pages. -/
def heldRanges (s : State) (ctx : Nat) : List (Nat × Nat) :=
  s.felt.ranges.filterMap (fun e => (heldBase s ctx e.1).map (fun b => (b, e.2.npg + 1)))
def rangeOverlap (s : State) (ctx base pages : Nat) : Bool :=
  (heldRanges s ctx).any (fun e => overlaps base (12288 * pages) e.1 (12288 * e.2))

/-- The rsvd fields of R73. -/
def declRsvd (w : Nat) : Bool :=
  natBits w 511 320 != 0 || natBits w 277 256 != 0 || natBits w 255 216 != 0 || natBits w 127 88 != 0

/-- Condition 2 of R74. -/
def baseBad (base npg : Nat) : Bool :=
  decide (globalTop ≤ base) || base % 12288 != 0 || decide (globalTop < base + 12288 * (npg + 1))

/-- Frames of the backing region: `error s` while a page's walk runs, none when a page is no writable normal page (R74, R75). -/
def backingFrames (s : State) (ctx fbase n : Nat) : Except State (Option (List Nat)) :=
  let vas := (List.range n).map (fun k => fbase + 12288 * k)
  let r := vas.foldl (fun (a : Bool × State) va =>
    match unitTranslate a.2 ctx va with
    | (.miss, s) => (true, s)
    | (_, _) => a) (false, s)
  if r.1 then .error r.2
  else
    .ok (allSome (vas.map (fun va =>
      match translate s ctx (unitCore 1) (va / 12288) with
      | .hit (.normal f lv true _) _ => some (f + va % pageSize lv)
      | _ => none)))

/-- The device lines of recorded frames are written back and leave their homes: from now on the frames hold blocks (R75). A line that a
stash owns or that is pinned stays, and has nothing left to write back. -/
def flushFrames (s : State) (frames : List Nat) : State :=
  s.mem.l2.foldl (fun s e =>
    match e.1 with
    | .dev pl =>
        if !frames.contains (pl / 64 * 12288) then s
        else
          let s := match e.2.wb with | some (m, d) => sectorsBack s e.1 (pl * 192) m d | none => s
          if e.2.owner.isSome || decide (0 < e.2.pins) then
            (sectorsBack s e.1 (pl * 192) e.2.dirty e.2.data).setLine e.1 { e.2 with dirty := 0, wb := none, again := false }
          else evictLine s e.1 e.2
    | _ => s) s

/-- A stage of a pipeline of the context whose kernel is a generator (R74). DESIGN CHOICE: a pipeline whose release goes on still
counts (assumption 84). -/
def generatorStage (s : State) (ctx h k : Nat) : Bool :=
  match s.pipes.find? (fun p => p.ctx == ctx && p.h == h) with
  | some p => match p.stages[k]? with | some st => s.felt.generators.contains (bitsOf st.lrec 63 0) | none => false
  | none => false

/-- A declaration (R74, R75, R395): result word and state, or none while the backing region's walks run. DESIGN CHOICE: it
takes the lowest number that is free (assumption 80). -/
def declare (s : State) (ctx w : Nat) : Option Nat × State :=
  let base := natBits w 63 0
  let npg := natBits w 87 64
  let page := natBits w 280 280 == 1
  let nfr := natBits w 215 192
  let fbase := natBits w 191 128
  let rej := fun (st : Nat) => (some (st * 256), dropUnit s)
  if natBits w 279 278 = 3 ∨ declRsvd w ∨ natBits w 303 296 ≠ 0 then rej 1
  else if baseBad base npg then rej 2
  else if rangeOverlap s ctx base (npg + 1) then rej 3
  else if (if page then nfr == 0 || decide (npg + 1 < nfr) || fbase % 12288 != 0 else nfr != 0 || fbase != 0) then rej 4
  else
    match (if page then (if globalTop < fbase + 12288 * nfr ∨ rangeOverlap s ctx fbase nfr then .ok none else backingFrames s ctx fbase nfr)
           else .ok (some [])) with
    | .error s => (none, s)
    | .ok none => rej 5
    | .ok (some frames) =>
        if !generatorStage s ctx (natBits w 295 288) (natBits w 287 284) then rej 6
        else if 64 ≤ (heldRanges s ctx).length then rej 7
        else
          match (List.range 256).find? (fun n => (mapGet n s.felt.ranges).isNone) with
          | none => rej 8
          | some rn =>
              let r : Range := { owner := ctx, base, attached := [], npg, page, frames, freeFrames := frames,
                                 mdep := natBits w 283 282, pol := natBits w 281 281, pipe := natBits w 295 288,
                                 stage := natBits w 287 284, skey := natBits w 319 304 }
              (some rn, (flushFrames (dropUnit s) frames).modFelt (fun f =>
                { f with ranges := mapPut rn r f.ranges, blocks := f.blocks.filter (fun e => e.1.1 != rn) }))

/-- An attach (R77, R395), its conditions in the order of R77. -/
def attach (s : State) (ctx w : Nat) : Nat × State :=
  let base := natBits w 63 0
  let npg := natBits w 87 64
  let arn := natBits w 303 296
  let skey := natBits w 319 304
  let rej := fun (st : Nat) => (st * 256, s)
  if baseBad base npg then rej 2
  else if declRsvd w ∨ natBits w 295 280 ≠ 0 ∨ natBits w 215 192 ≠ 0 ∨ natBits w 191 128 ≠ 0 then rej 9
  else
    match mapGet arn s.felt.ranges with
    | none => rej 0x0A
    | some r =>
        if r.releasing then rej 0x0A
        else if skey = 0 ∨ skey ≠ r.skey then rej 0x0B
        else if npg ≠ r.npg then rej 0x0C
        else if r.owner = ctx then rej 0x0D
        else if r.attached.any (fun e => e.1 == ctx) then rej 0x0E
        else if rangeOverlap s ctx base (npg + 1) then rej 3
        else if 64 ≤ (heldRanges s ctx).length then rej 7
        else (arn, s.modFelt (fun f => { f with ranges := mapMod arn (fun r => { r with attached := r.attached ++ [(ctx, base)] }) f.ranges }))

/-- A release is accepted (R78 step 1): an attached context is detached; the owner's release detaches all. -/
def releaseRange (s : State) (ctx w id : Nat) : Nat × Bool × State :=
  let arn := natBits w 303 296
  if declRsvd w then (0x100, false, s)
  else
    match mapGet arn s.felt.ranges with
    | none => (0xA00, false, s)
    | some r =>
        if r.releasing then (0xA00, false, s)
        else if r.owner = ctx then
          (arn, true, s.modFelt (fun f => { f with ranges := mapMod arn (fun r => { r with releasing := true, relId := id, detached := r.detached ++ (ctx, r.base) :: r.attached }) f.ranges }))
        else if r.attached.any (fun e => e.1 == ctx) then
          (arn, false, s.modFelt (fun f => { f with ranges := mapMod arn (fun r => { r with attached := r.attached.filter (fun e => e.1 != ctx), detached := r.detached ++ r.attached.filter (fun e => e.1 == ctx) }) f.ranges }))
        else (0xF00, false, s)

/-- Registers of a scalar destination. -/
def scalarRegs (d : Dst) (n : Nat) : List RegRef := match d with | .scal r => (List.range n).map (fun k => .s (r.toNat + k)) | _ => []
/-- Write a word to a scalar destination. -/
def putScalar (s : State) (d : Dst) (v : Nat) : State :=
  s.modCur (fun g => (scalarRegs d 1).foldl (fun g r => g.setReg r { val := BitVec.ofNat 32 v }) g)

/-- A PROCDECL reads its record (R73, R394) and goes on with it. -/
def withDecl (s : State) (p : Pred) (d : Dst) (a : Src) (k : Iss → Nat → State → Res Unit) : Out :=
  once s p [opA a] (scalarRegs d 1) fun i vs s =>
    let off := (loWord (vs.getD 0 0)).toNat
    if off % 64 ≠ 0 ∨ i.team.spsz < off + 64 then .trap (illopnd 5 ((active i p).headD 0)) s
    else k i (memNat i.team.spad off 64) s

/-- `PROCDECL`, declare (R74, R395). -/
def execProcdeclDeclare (p : Pred) (d : Dst) (a : Src) (s : State) : Out :=
  withDecl s p d a fun i w s =>
    match declare s i.team.ctx w with
    | (none, s) => .wait s
    | (some v, s) => .ok () (advance (putScalar s d v) (wordsOf [a]))

/-- `PROCDECL`, attach (R77, R395). -/
def execProcdeclAttach (p : Pred) (d : Dst) (a : Src) (s : State) : Out :=
  withDecl s p d a fun i w s =>
    let (v, s) := attach s i.team.ctx w
    .ok () (advance (putScalar s d v) (wordsOf [a]))

/-- `PROCDECL`, release (R78, R395): an owner's release waits until step 3 of R78 is complete. -/
def execProcdeclRelease (p : Pred) (d : Dst) (a : Src) (s : State) : Out :=
  withDecl s p d a fun i w s =>
    let done := fun (s : State) (v : Nat) =>
      .ok () (advance ((putScalar s d v).modFrag (fun f => { f with wait := .none })) (wordsOf [a]))
    match i.frag.wait with
    | .release id =>
        if s.felt.ranges.any (fun e => e.2.releasing && e.2.relId == id) then .wait s else done s (natBits w 303 296)
    | _ =>
        let (id, s) := s.fresh
        let (v, wait, s) := releaseRange s i.team.ctx w id
        if wait then .wait (s.modFrag (fun f => { f with wait := .release id })) else done s v

/-- A released frame is ordinary memory again and holds unspecified bytes (R78). -/
def openFrame (s : State) (f : Nat) : State :=
  dramPut s f ((List.range 12288).map (fun i => Config.openByte s.sched.now (f + i)))

/-- `RANGE_RELEASE_DONE` (R78 steps 3 and 4): no block FILLING, no touch under way, every waiter served, and every unit that has been
served done with what it reads; lines, L1 and texel
copies go, the frames return, and the number is free. -/
def execRangeReleaseDone (rn : Nat) (s : State) : Out :=
  match mapGet rn s.felt.ranges with
  | none => .next s
  | some r =>
      if !r.releasing || s.felt.blocks.any (fun e => e.1.1 == rn && e.2.st == .filling) || s.pend.touches.any (fun t => t.rn == rn)
          || s.pend.replays.any (fun x => x.rn == rn)
          || s.cmds.any (fun c => c.st != .complete && c.snaps.any (fun x => x.rn == rn))
          || s.pend.samples.any (fun x => x.snaps.any (fun y => y.rn == rn)) then
        .next s
      else
        let keep := fun (k : LineKey) => match k with
          | .proc n _ _ => n != rn
          | .dev pl => !r.frames.contains (pl / 64 * 12288)
          | _ => true
        let s := s.modMem (fun m => { m with l2 := m.l2.filter (fun e => keep e.1 || e.2.owner.isSome) })
        let s := { s with cores := s.cores.map (fun (c : Nat × Core) => (c.1, { c.2 with
          l1 := c.2.l1.filter (fun l => keep l.key), texel := c.2.texel.filter (fun l => keep l.key) })) }
        let s := r.frames.foldl openFrame s
        .next (s.modFelt (fun f => { f with ranges := mapDel rn f.ranges, blocks := f.blocks.filter (fun e => e.1.1 != rn)
                                            poolUsed := f.poolUsed.filter (fun e => e.1 != rn) }))

/-- The offset in a range of an address that a detached context had mapped it at, for a unit that has been served or waits (R78). -/
def oldOffset (s : State) (ctx rn va : Nat) : Option Nat :=
  match mapGet rn s.felt.ranges with
  | none => none
  | some r =>
      match r.detached.find? (fun e => e.1 == ctx) with
      | some (_, b) => if b ≤ va ∧ va < b + 12288 * (r.npg + 1) then some (va - b) else none
      | none => none

/-- One block's event of a PROCRESET (R100): true when it is skipped. -/
def resetBlock (s : State) (rn bix : Nat) (all : Bool) : Bool × State :=
  match blockGet rn bix s with
  | none => (false, s)
  | some b =>
      match b.st with
      | .filling => (true, s)
      | .unfilled => (false, s)
      | .faulted => (false, blockDel rn bix s)
      | .filled => if all then (false, blockDel rn bix (freeFrame (dropBlock s rn bix) rn b.frame)) else (false, s)

/-- `PROCRESET` (R396, R100). -/
def execProcreset (p : Pred) (d : Dst) (a b : Src) (all : Bool) (s : State) : Out :=
  once s p [opA a, opB b true] (scalarRegs d 1) fun i vs s =>
    let rn := (vs.getD 0 0).toNat % 256
    let first := (loWord (vs.getD 1 0)).toNat
    let count := (hiWord (vs.getD 1 0)).toNat
    match heldBase s i.team.ctx rn with
    | none => .trap (illopnd 5 ((active i p).headD 0)) s
    | some _ =>
        let span := (s.felt.blocks.filter (fun e => e.1.1 == rn && decide (first ≤ e.1.2 ∧ e.1.2 < first + count))).map (·.1.2)
        let (n, s) := span.foldl (fun (n, s) b => let (k, s) := resetBlock s rn b all; (if k then n + 1 else n, s)) (0, s)
        .ok () (advance (putScalar s d n) (wordsOf [a, b]))

end Sys2Proof.Machine
end

