-- ==== Sys2Proof/Machine/MatSum.lean ====
section
/-! DEFINITION. Matrix sums (R229-R235): products, windows, groups, the formats implemented for matrix use (R238), and MMA16
(R363-R366). -/

namespace Sys2Proof.Machine

/-- A product term (R229): NV of its own only for an infinite and a zero factor (R215, R230). -/
def matMul (a b : FV) : Exact := if a.isNan || b.isNan then ⟨.nan false, false⟩ else mulFV a b

/-- A product of two elements of a slot: integers multiply exactly (R233). -/
def elemMul (e : Elem) (a b : FV) : Exact :=
  match e with | .flt _ => matMul a b | _ => ⟨FV.ofRat false (a.rat * b.rat), false⟩

/-- win(T) of R230, with its NV. -/
def win (ts : List Exact) : Exact :=
  let vs := ts.map (·.v)
  let pinf := vs.contains (.inf false)
  let ninf := vs.contains (.inf true)
  let nv := ts.any (·.nv) || (pinf && ninf)
  if vs.any (·.isNan) || (pinf && ninf) then ⟨.nan false, nv⟩
  else if pinf then ⟨.inf false, nv⟩
  else if ninf then ⟨.inf true, nv⟩
  else
    let qs := (vs.map FV.rat).filter (· != 0)
    match qs with
    | [] => ⟨.fin (!vs.isEmpty && vs.all (·.neg?)) 0, nv⟩
    | q :: _ =>
        let e := qs.foldl (fun e x => max e (floorLog2 (ratAbs x))) (floorLog2 (ratAbs q))
        let sh := pow2 (63 - e)
        let n : Int := qs.foldl (fun (n : Int) x => if x < 0 then n - (ratAbs x * sh).floor else n + (x * sh).floor) 0
        ⟨FV.ofRat false ((n : Rat) * pow2 (e - 63)), nv⟩

/-- A result element: f32 or i32 code, flags, whether a group overflowed or was clamped (R222). -/
structure MatRes where
  code : Nat
  flags : Word := 0
  ovf : Bool := false
  deriving DecidableEq, Repr

/-- rmat of R231. -/
def rmat (sat : Bool) (e : Exact) : Exact × Bool :=
  let r := Fmt.f32.round .rne sat e.v
  let ovf := (match e.v with | .fin _ _ => true | _ => false) && r.flags &&& fOF != 0
  (⟨Fmt.f32.value r.code, e.nv⟩, ovf)

/-- A group: its product terms and, when the slot is scaled, its two scales. -/
structure MatGroup where
  prods : List Exact
  scales : Option (Option Rat × Option Rat)
  deriving DecidableEq, Repr

/-- One float group upon c (R230-R232): the new c, flags, overflow. -/
def floatGroup (sat : Bool) (c : FV) (g : MatGroup) : FV × Word × Bool :=
  match g.scales with
  | none =>
      let (r, o) := rmat sat (win (g.prods ++ [⟨c, false⟩]))
      (r.v, flagIf r.nv fNV ||| flagIf o fMOVF, o)
  | some (sa, sb) =>
      let p := win g.prods
      let w := flagIf p.nv fNV
      match sa, sb with
      | some x, some y =>
          if p.v.isNan || c.isNan then (.nan false, w, false)
          else match p.v, c with
            | .inf m, .inf n => if m = n then (.inf m, w, false) else (.nan false, w ||| fNV, false)
            | .inf m, _ => (.inf m, w, false)
            | _, .inf n => (.inf n, w, false)
            | v, c =>
                let z := v.rat * x * y + c.rat
                let e := if z = 0 then FV.fin (v.isZero && c.isZero && v.neg? && c.neg?) 0 else FV.ofRat false z
                let (r, o) := rmat sat ⟨e, false⟩
                (r.v, w ||| flagIf o fMOVF, o)
      | _, _ => (.nan false, w ||| fSNAN, false)

/-- Float groups in increasing k (R234). -/
def floatChain (sat : Bool) (c : FV) (gs : List MatGroup) : MatRes :=
  let r := gs.foldl (fun (r : FV × Word × Bool) g =>
    if g.prods.isEmpty && g.scales.isSome then r
    else let (v, w, o) := floatGroup sat r.1 g; (v, r.2.1 ||| w, r.2.2 || o)) (c, 0, false)
  ⟨(Fmt.f32.round .rne false (if r.1.isNan then .nan false else r.1)).code, r.2.1, r.2.2⟩

/-- Integer groups in increasing k (R233). -/
def intChain (sat : Bool) (c : Int) (gs : List (List Int)) : MatRes :=
  let lo := intLo true 32
  let hi := intHi true 32
  let r := gs.foldl (fun (r : Int × Bool) g =>
    let x := g.foldl (· + ·) r.1
    if sat then (clampInt lo hi x, r.2 || clampInt lo hi x != x) else (sextNat (x % 2 ^ 32).toNat 32, r.2)) (c, false)
  ⟨(r.1 % 2 ^ 32).toNat, flagIf r.2 fMOVF, r.2⟩

/-- Dense and sparse entries of a slot in R238; none when it has no row. -/
def matEntry (w : Word) : Option (Bool × Bool) :=
  let a := slotA w
  let b := slotB w
  let d := slotD w
  let s := slotSfmt w
  if (a = 1 ∨ a = 2) ∧ a = b ∧ d = 0 ∧ s = 0 then some (true, true)
  else if (a = 3 ∨ a = 4) ∧ (b = 3 ∨ b = 4) ∧ d = 0 ∧ s < 3 then some (true, true)
  else if a = 5 ∧ b = 5 ∧ d = 0 ∧ s < 3 then some (true, false)
  else if a = 6 ∧ b = 6 ∧ d = 8 ∧ s = 0 then some (true, false)
  else if a = 6 ∧ b = 6 ∧ d = 0 ∧ (s = 1 ∨ s = 2) then some (true, false)
  else if a = 7 ∧ b = 7 ∧ d = 8 ∧ s = 0 then some (true, true)
  else none

/-- Depths of a group (R229): the scale block, or one register row of depths by element width. -/
def groupSize (w : Word) : Nat :=
  if slotSfmt w = 0 then 256 / (elemFmt (slotA w)).width else slotBlock w

/-- One result element from its terms (k, A code, B code) in increasing k, the scale codes of a block, and c. -/
def matElem (w : Word) (terms : List (Nat × Nat × Nat)) (sA sB : Nat → Nat) (c : Nat) : MatRes :=
  let ea := elemFmt (slotA w)
  let eb := elemFmt (slotB w)
  let gs := groupSize w
  let n := (terms.getLast?).elim 0 (fun t => t.1 / gs + 1)
  let group := fun g => terms.filter (fun t => t.1 / gs == g)
  let q := terms.foldl (fun f t => f ||| (ea.value t.2.1).2 ||| (eb.value t.2.2).2) (0 : Word)
  let r :=
    if slotD w = 8 then
      intChain (slotSat w) (sextNat c 32)
        ((List.range n).map (fun g => (group g).map (fun t =>
          ((ea.value t.2.1).1.rat * (eb.value t.2.2).1.rat).floor)))
    else
      floatChain (slotSat w) (Fmt.f32.value c)
        ((List.range n).map (fun g =>
          { prods := (group g).map (fun t => elemMul ea (ea.value t.2.1).1 (eb.value t.2.2).1)
            scales := if slotSfmt w = 0 then none
                      else some (scaleValue (slotSfmt w) (sA g), scaleValue (slotSfmt w) (sB g)) }))
  { r with flags := r.flags ||| q }

/-- Kept positions of a pattern code (R366). -/
def patternPos : Nat → Option (Nat × Nat)
  | 0 => some (0, 1) | 1 => some (0, 2) | 2 => some (0, 3) | 3 => some (1, 2) | 4 => some (1, 3) | 5 => some (2, 3) | _ => none

/-- Count overflowed elements (R222). -/
def addOvf (s : State) (ctx n : Nat) : State := s.modCtx ctx (fun x => { x with ovfcnt := satQuad x.ovfcnt n })

/-! ### MMA16 -/

/-- The registers of an MMA16's runs by fibre slot (R364, R366): A, A scales, B, B scales. -/
structure MmaRuns where
  a : Nat
  patt : Option Nat
  sa : Option Nat
  b : Nat
  bLen : Nat
  sb : Option Nat
  deriving DecidableEq, Repr

def mmaRuns (sp scaled : Bool) (va vb : Nat) : MmaRuns :=
  if sp then ⟨va, some (va + 2), if scaled then some (va + 3) else none, vb, 4, if scaled then some (vb + 4) else none⟩
  else ⟨va, none, if scaled then some (va + 2) else none, vb, 2, if scaled then some (vb + 2) else none⟩

/-- Value of register v_r of a fibre slot. -/
def slotReg (S : Nat) (g : Gang) (f r : Nat) : Nat := ((g.reg (.v f (ringPos S (g.fib f) r))).read).toNat
/-- A row or column of n registers a slot, four slots a row. -/
def rowBits (S : Nat) (g : Gang) (row r n : Nat) : Nat :=
  (List.range 4).foldl (fun x j => (List.range n).foldl (fun x k =>
    x + slotReg S g (4 * row + j) (r + k) * 2 ^ (32 * (n * j + k))) x) 0

/-- The control word's masks. -/
def mRow (m : Quad) (r : Nat) : Bool := m.getLsbD r
def mCol (m : Quad) (c : Nat) : Bool := m.getLsbD (16 + c)
def mUnit (m : Quad) (u : Nat) : Bool := m.getLsbD (32 + u)

/-- Terms of row A and column B under the depth mask (R365, R366). -/
def mmaTerms (w : Word) (sp : Bool) (m : Quad) (aRow bCol patt : Nat) : List (Nat × Nat × Nat) :=
  let wa := (elemFmt (slotA w)).width
  let wb := (elemFmt (slotB w)).width
  let K := 256 / wa
  if sp then
    (List.range (K / 2)).flatMap (fun g =>
      match patternPos (patt >>> (3 * g) % 8) with
      | none => []
      | some (p, q) =>
          [(p, 2 * g), (q, 2 * g + 1)].filterMap (fun e =>
            let k := 4 * g + e.1
            if mUnit m (k / (2 * K / 16)) then some (k, elemAt aRow wa e.2, elemAt bCol wb k) else none))
  else
    (List.range K).filterMap (fun k =>
      if mUnit m (k / (K / 16)) then some (k, elemAt aRow wa k, elemAt bCol wb k) else none)

/-- The pattern codes of a row, group 0 lowest: each of the row's four slots holds those of its own values. -/
def rowPatterns (S : Nat) (g : Gang) (w : Word) (row r : Nat) : Nat :=
  let per := 32 / (elemFmt (slotA w)).width
  (List.range 4).foldl (fun x j => x + slotReg S g (4 * row + j) r % 2 ^ (3 * per) * 2 ^ (3 * per * j)) 0

/-- NV of pattern code 7 in a group that would contribute (R366). -/
def mmaBadPattern (w : Word) (m : Quad) (patt : Nat) : Bool :=
  let K := 256 / (elemFmt (slotA w)).width
  (List.range 16).any (mCol m) && (List.range (K / 2)).any (fun g =>
    patt >>> (3 * g) % 8 == 7 && (List.range 4).any (fun p => mUnit m ((4 * g + p) / (2 * K / 16))))

/-- The whole of R365: new gang, flags, elements that overflowed. -/
def mmaCompute (t : Team) (g : Gang) (sp : Bool) (w : Word) (m : Quad) (vd : Nat) (q : MmaRuns) : Gang × Word × Nat :=
  let S := t.S
  let scale := fun (r : Option Nat) (row blk : Nat) => r.elim 0 (fun x => slotReg S g (4 * row + blk) x)
  let aRows := (List.range 16).map (fun r => rowBits S g r q.a 2)
  let bCols := (List.range 16).map (fun c => rowBits S g c q.b q.bLen)
  let patts := (List.range 16).map (fun r => q.patt.elim 0 (rowPatterns S g w r))
  (List.range 16).foldl (fun acc r =>
    if !mRow m r then acc
    else
      let p := patts.getD r 0
      let acc := (acc.1, acc.2.1 ||| flagIf (sp && mmaBadPattern w m p) fNV, acc.2.2)
      (List.range 16).foldl (fun (acc : Gang × Word × Nat) c =>
        if !mCol m c then acc
        else
          let slot := 4 * r + c / 4
          let res := matElem w (mmaTerms w sp m (aRows.getD r 0) (bCols.getD c 0) p) (scale q.sa r) (scale q.sb c)
            (slotReg S g slot (vd + c % 4))
          (acc.1.setReg (.v slot (ringPos S (g.fib slot) (vd + c % 4))) { val := BitVec.ofNat 32 res.code },
           acc.2.1 ||| res.flags, if res.ovf then acc.2.2 + 1 else acc.2.2)) acc) (g, 0, 0)

/-- Registers of the whole gang that an MMA16 reads, by fibre (R365): runs, the scales of blocks that exist, its own operand. -/
def mmaNeeds (t : Team) (g : Gang) (sp : Bool) (w : Word) (vd : Nat) (q : MmaRuns) (ea eb : Bool) (own : List Need) : List Need :=
  let S := t.S
  let K := (256 / (elemFmt (slotA w)).width) * (if sp then 2 else 1)
  let reg := fun f pos ea r => (⟨f, pos, ea, .v f (ringPos S (g.fib f) r)⟩ : Need)
  (List.range 64).flatMap (fun f =>
    let sc := fun (r : Option Nat) => match r with | some x => if x < 64 ∧ f % 4 < K / slotBlock w then [x] else [] | none => []
    (([q.a, q.a + 1] ++ q.patt.toList ++ sc q.sa).map (reg f 0 ea)) ++
    (((List.range q.bLen).map (q.b + ·) ++ sc q.sb).map (reg f 1 eb)) ++ own.filter (·.fib == f) ++ ((List.range 4).map (fun k => reg f 3 false (vd + k))))

/-- `MMA16` and `MMA16.sp`: the fragments of the gang meet (R187); the merged gang executes once (R365). -/
def mmaOp (s : State) (p : Pred) (d : Dst) (a b m : Src) (sp : Bool) : Out :=
  direct s fun i =>
    let words := wordsOf [m]
    let low := i.frag.lowest
    if inHandler i then .trap (illopnd 5 low) s
    else if i.gang.frags.length ≠ 1 then
      .ok () (settleGang (s.modFrag (fun f => { f with st := .waitgang, wait := .mma })) i.tid i.gid)
    else
      match active i p with
      | [] => .ok () (advance (s.modFrag (fun f => { f with st := .running, wait := .none })) words)
      | f :: _ =>
          match d, a, b with
          | .vec vd, .vec va pa ea, .vec vb pb eb =>
              let S := i.team.S
              let own := needsOf S i.gang [opC m true] f
              let mv := (opndVal S i.gang (opC m true) f).getD 0
              let w := i.team.slot (bitsOf mv 50 48)
              let ok := match matEntry w with | some (dn, spr) => if sp then spr else dn | none => false
              let q := mmaRuns sp (ok && slotSfmt w != 0) va.toNat vb.toNat
              let known := own.all (fun n => (i.gang.reg n.ref).fe == .full)
              let q' := if known then q else mmaRuns sp false va.toNat vb.toNat
              let runs := mmaNeeds i.team i.gang sp w vd.toNat q' ea eb own
              (judged s i runs []).bind fun _ s =>
                if !ok then .trap { cause := 0x0B, sub := if sp then 1 else 0, fib := f } (readParity s i own)
                else if bitsOf mv 63 51 ≠ 0 ∨ pa ≠ 0 ∨ pb ≠ 0 ∨ vd.toNat % 4 ≠ 0 ∨ va.toNat % 2 ≠ 0 ∨ vb.toNat % 2 ≠ 0 then
                  .trap (illopnd 5 f) s
                else if (q.sa.toList ++ q.sb.toList).any (fun r => decide (63 < r)) then .trap (illopnd 1 f) s
                else
                  let s := readParity s i runs
                  match s.gang i.tid i.gid with
                  | none => .ok () s
                  | some g =>
                      let (g', fl, n) := mmaCompute i.team g sp w mv vd.toNat q
                      let s := s.modCur (fun _ => g'.setFlags fl)
                      .ok () (advance ((addOvf s i.team.ctx n).modFrag (fun f => { f with st := .running, wait := .none })) words)
          | _, _, _ => .trap (illopnd 0 f) s

/-- `MMA16` (R363-R365). -/
def execMma16 (p : Pred) (d : Dst) (a b m : Src) (s : State) : Out := mmaOp s p d a b m false
/-- `MMA16.sp` (R366). -/
def execMma16sp (p : Pred) (d : Dst) (a b m : Src) (s : State) : Out := mmaOp s p d a b m true

end Sys2Proof.Machine
end

