-- ==== Sys2Proof/Machine/Engine.lean ====
section
/-! DEFINITION. Engine commands: their segments, fix-ups and completion (R121-R125, R157-R161, R368-R386), and the
instructions that issue them. -/

namespace Sys2Proof.Machine

/-! ### Shape records after substitution -/

/-- Registers that a record names (R264). -/
def shapeRegs (r : Shape) : List RegRef :=
  (List.range 10).flatMap (fun k =>
    if r.sub k then
      let n := (r.field k).1 % 64
      if k = 0 then [.s n, .s (n + 1)] else [.s n]
    else [])

/-- A field of a record, read through its register when it is substituted; none out of range (R265). -/
def shapeField (g : Gang) (r : Shape) (k : Nat) : Option Nat :=
  let v := (r.field k).1
  if !r.sub k then some v
  else
    let x := ((g.reg (.s (v % 64))).read).toNat
    let top := if k = 0 then 2 ^ 64 else if k < 4 then 2 ^ 20 else if k < 6 then 2 ^ 31 else if k < 9 then 1024 else 8
    if k = 0 then some (quadOf (g.reg (.s (v % 64))).read (g.reg (.s (v % 64 + 1))).read).toNat
    else if top ≤ x ∨ ((k = 4 ∨ k = 5) ∧ x % 4 ≠ 0) then none else some x

/-- The record with its registers' values; none for ILLOPND sub-cause 4 (R265). A base in a scratchpad is a generic address. -/
def boxOf (g : Gang) (r : Shape) : Option Box :=
  match allSome ((List.range 10).map (shapeField g r)) with
  | some l =>
      let v := fun k => l.getD k 0
      let base := match r.sp with
        | 1 => 2 ^ 60 + v 0 % 2 ^ 20
        | 2 => 2 ^ 61 + v 0 / 2 ^ 20 % 16 * 2 ^ 52 + v 0 % 2 ^ 20
        | _ => v 0
      some { base, ext0 := v 1, ext1 := v 2, ext2 := v 3, stride1 := v 4, stride2 := v 5, box0 := v 6, box1 := v 7,
             box2 := v 8, slot := v 9, nd := r.nd, esel := r.esel, tr := r.tr, sp := r.sp }
  | none => none

/-- Element format code of a box (R263). -/
def Box.fmt (b : Box) (t : Team) : Nat :=
  let w := t.slot b.slot
  match b.esel with | 0 => slotA w | 1 => slotB w | _ => slotD w
/-- Unclipped extents (R263). -/
def Box.n0 (b : Box) : Nat := min (b.box0 + 1) b.ext0
def Box.n1 (b : Box) : Nat := if b.nd = 0 then 1 else min (b.box1 + 1) b.ext1
/-- Bit address of element (i0, i1) (R262). -/
def Box.bitAddr (b : Box) (w i0 i1 : Nat) : Nat :=
  8 * b.base + (if b.tr then i1 * w + 8 * i0 * b.stride1 else i0 * w + 8 * i1 * b.stride1)
/-- Runs of bytes (address, length) of the unclipped elements. -/
def Box.runs (b : Box) (w : Nat) : List (Nat × Nat) :=
  if b.n0 = 0 ∨ b.n1 = 0 then []
  else
    let (inner, outer) := if b.tr then (b.n1, b.n0) else (b.n0, b.n1)
    (List.range outer).map (fun j => (b.base + j * b.stride1, (inner * w + 7) / 8))

/-- Depths of a sparse line (R372). -/
def sparseDepths (w : Nat) : Nat := if w = 16 then 160 else 320
/-- Runs of a sparse A operand: the lines of each row (R372). -/
def Box.sparseRuns (b : Box) (w : Nat) : List (Nat × Nat) :=
  if b.n0 = 0 ∨ b.n1 = 0 then []
  else (List.range b.n1).map (fun m => (b.base + m * b.stride1, 192 * ((b.n0 + sparseDepths w - 1) / sparseDepths w)))

/-! ### Segments -/

/-- A segment (R121): an operand's runs in one 12 KiB-aligned span. Operands: 0 source or A, 1 destination or B, 2 scales. -/
structure Seg where
  op : Nat
  write : Bool
  page : Nat
  parts : List (Nat × Nat)
  deriving DecidableEq, Repr

def pagesOf (runs : List (Nat × Nat)) : List Nat :=
  (runs.flatMap (fun r => if r.2 = 0 then [] else
    (List.range ((r.1 + r.2 - 1) / 12288 - r.1 / 12288 + 1)).map (fun i => r.1 / 12288 + i))).eraseDups

def segsOfRuns (op : Nat) (write : Bool) (runs : List (Nat × Nat)) : List Seg :=
  (pagesOf runs).map (fun p =>
    { op, write, page := p,
      parts := runs.filterMap (fun r =>
        let a := max r.1 (p * 12288)
        let e := min (r.1 + r.2) (p * 12288 + 12288)
        if a < e then some (a, e - a) else none) })

/-- Fields of a copy request (R379). -/
def reqF (r : BitVec 512) (hi lo : Nat) : Nat := bitsOf r hi lo
def reqSrc (r : BitVec 512) : Nat := reqF r 63 0
def reqDst (r : BitVec 512) : Nat := reqF r 127 64
def reqLen (r : BitVec 512) : Nat := reqF r 159 128
def reqXf (r : BitVec 512) : Nat := reqF r 273 272
def reqTgt (r : BitVec 512) : Nat := reqF r 255 192
def reqTk (r : BitVec 512) : Nat := reqF r 283 282
def reqSlot (t : Team) (r : BitVec 512) : Word := t.slot (reqF r 276 274)
/-- Source and destination bytes of a request (R380). -/
def reqSrcLen (t : Team) (r : BitVec 512) : Nat :=
  match reqXf r with
  | 0 => reqLen r
  | 1 => (reqLen r * (elemFmt (slotA (reqSlot t r))).width + 7) / 8
  | _ => reqLen r / 192 * 193
def reqDstLen (t : Team) (r : BitVec 512) : Nat :=
  match reqXf r with
  | 1 => (reqLen r * (elemFmt (slotD (reqSlot t r))).width + 7) / 8
  | _ => reqLen r

/-- Scales of a row or column, and bytes of one (R371). -/
def scaleCount (w : Word) (k : Nat) : Nat := (k + slotBlock w - 1) / slotBlock w
def scaleBytes (w : Word) : Nat := if slotSfmt w = 2 then 2 else 1

/-- Segments of a command, in order. -/
def segsOf (t : Team) (k : CmdKind) : List Seg :=
  match k with
  | .copy r | .binding _ r => segsOfRuns 0 false [(reqSrc r, reqSrcLen t r)] ++ segsOfRuns 1 true [(reqDst r, reqDstLen t r)]
  | .mtile sp _ _ a b _ _ sc _ =>
      let w := t.slot a.slot
      let wa := (elemFmt (a.fmt t)).width
      let wb := (elemFmt (b.fmt t)).width
      segsOfRuns 0 false (if sp then a.sparseRuns wa else a.runs wa) ++ segsOfRuns 1 false (b.runs wb)
        ++ (if slotSfmt w = 0 then []
            else segsOfRuns 2 false [(sc, (a.box1 + b.box1 + 2) * scaleCount w (a.box0 + 1) * scaleBytes w)])
  | .drain _ _ _ r => segsOfRuns 1 true (r.runs (elemFmt (r.fmt t)).width)
  | .accld _ r _ => segsOfRuns 0 false (r.runs (elemFmt (r.fmt t)).width)
  | .accz _ => []

/-- Where a read byte is kept. -/
def bufKey (op a : Nat) : Nat := op * 2 ^ 64 + a

/-! ### Faults of commands -/

def Cmd.code (c : Cmd) : Nat := match c.cls with | .copy => 0 | .matrix => 1 | .drain => 2 | .peer => 3
/-- `src` of a command's fault record (R119). -/
def Cmd.src (c : Cmd) : Nat :=
  match c.kind with
  | .accld _ _ _ | .binding _ _ => 7
  | _ => match c.cls with | .copy => 2 | .matrix => 3 | .drain => 4 | .peer => 5

def modCmd (s : State) (id : Nat) (f : Cmd → Cmd) : State := { s with cmds := s.cmds.map (fun c => if c.id == id then f c else c) }
def getCmd (s : State) (id : Nat) : Option Cmd := s.cmds.find? (fun c => c.id == id)

/-- The error record of a request (R491 kind 3). -/
def cmdErr (s : State) (c : Cmd) (cause addr aux : Nat) : State :=
  errEvent s c.ctx { c.org.err 0 cause with kind := 3, addr, aux := c.code + aux }

/-- Drop the pins of a command whose lines have been consumed (R373). -/
def unpin (s : State) (c : Cmd) : State :=
  modCmd (c.pins.foldl (fun s k => match s.line k with
    | some l => s.setLine k { l with pins := l.pins - 1 }
    | none => s) s) c.id (fun c => { c with pins := [] })

/-- The tile fetch unit pins the line that it reads for a matrix operand (R373). -/
def pinLine (s : State) (c : Cmd) (k : LineKey) : State :=
  match c.kind, getCmd s c.id, s.line k with
  | .mtile _ _ _ _ _ _ _ _ _, some d, some l =>
      if d.pins.contains k then s
      else modCmd (s.setLine k { l with pins := l.pins + 1 }) c.id (fun c => { c with pins := c.pins ++ [k] })
  | _, _, _ => s

/-- Abandon a segment (R124): counted and recorded once for the request; what has been read of it reads as zeros. -/
def abandonSeg (s : State) (c : Cmd) (n cause : Nat) : State :=
  let seg := (s.team c.team).bind (fun t => (segsOf t c.kind)[n]?)
  let addr := seg.elim 0 (fun x => (x.parts.head?).elim 0 (·.1))
  let zero := fun (b : Memory) => seg.elim b (fun x => if x.write then b else
    x.parts.foldl (fun b p => memPutBytes b (bufKey x.op p.1) (List.replicate p.2 0)) b)
  let s := if c.failed then s else cmdErr s c cause addr (cause * 256)
  modCmd (unpin s c) c.id (fun c => { c with failed := true, cause := if c.failed then c.cause else cause,
                                             buf := zero c.buf, abandoned := c.abandoned ++ [n] })

/-- A request with a transform keeps no fix-up list (R123). -/
def Cmd.transforms (c : Cmd) : Bool := match c.kind with | .copy r | .binding _ r => reqXf r != 0 | _ => false

/-- A segment meets UNMAPPED (R122, R123). -/
def fixSeg (s : State) (c : Cmd) (n page : Nat) (fz : Bool) : State :=
  modCmd s c.id (fun c => { c with fixups := c.fixups ++ [(n, page, fz)], overflowed := c.overflowed || decide (8 ≤ c.fixups.length) })

/-- The first byte of a listed segment, and whether it is written; past the segments stands the barrier object to credit. -/
def fixAt (c : Cmd) (segs : List Seg) (n : Nat) : Nat × Bool :=
  match segs[n]? with
  | some x => ((x.parts.head?).elim 0 (·.1), x.write)
  | none => (match c.kind with | .copy r | .binding _ r => reqTgt r | _ => 0, true)

/-- The record of a request whose round is over with faulting segments (R119, R122). -/
def sendCmdRecord (s : State) (c : Cmd) (t : Team) : State :=
  let tag := freeTag s
  let segs := segsOf t c.kind
  let first := (c.fixups.head?).elim 0 (·.1)
  let fva := (fixAt c segs first).1
  let (ipc, gslot, ffib) : Quad × Nat × Nat := match c.kind with
    | .binding k _ => (0, t.tslot, k)
    | .accld _ _ _ => (c.ipc, c.org.gslot, 0)
    | _ => (0, c.org.gslot, 0)
  let r : FaultRec := { tag, who := .cmd c.id, ipc, fva := BitVec.ofNat 64 fva, ctx := c.ctx, core := t.place.coreid, gslot,
                        src := c.src, ra := 0, ffib, ovf := c.overflowed, agent := c.org.agent,
                        pages := (c.fixups.map (fun x => ⟨x.2.1, (fixAt c segs x.1).2, x.2.2⟩)).take 32 }
  modCmd (s.modXl (fun x => { x with recs := x.recs ++ [r] })) c.id (fun c => { c with st := .waitReply })

/-- The reply to a request's record (R120, R122, R123): a retry processes the listed segments again, or restarts; a deliver
abandons them. -/
def cmdReply (s : State) (id : Nat) (deliver : Bool) : State :=
  match getCmd s id with
  | none => s
  | some c =>
      let segs := match s.team c.team with | some t => (segsOf t c.kind).length | none => 0
      if deliver then
        let s := c.fixups.foldl (fun s f => match getCmd s id with | some c => abandonSeg s c f.1 4 | none => s) s
        modCmd s id (fun c => { c with st := .running, fixups := [], overflowed := false, redo := [] })
      else if c.overflowed || c.transforms then
        modCmd s id (fun c => { c with st := .running, fixups := [], overflowed := false, segsDone := [],
                                       buf := if c.readDone then c.buf else [], snaps := [], sent := [], readTo := 0,
                                       probed := [], redo := [] })
      else
        modCmd s id (fun c =>
          let l := (c.fixups.map (·.1)).filter (fun n => decide (n < segs))
          { c with st := .running, fixups := [], redo := l, probed := c.probed.filter (fun n => !l.contains n) })

/-! ### Reading and writing one chunk -/

/-- Access kinds of a command's segment (R30). DESIGN CHOICE: an ACCLD from global memory takes the row of matrix operands
(assumption 82). -/
def Cmd.access (c : Cmd) (write : Bool) : AK :=
  match c.kind with
  | .mtile _ _ _ _ _ _ _ _ _ => .matrix
  | .accld _ _ _ => .matrix
  | .drain _ _ _ _ => .copyW
  | _ => if c.cls = .peer then (if write then .peerW else .peerR) else (if write then .copyW else .copyR)

inductive ChunkAns where
  | at (t : Target)
  | cause (c : Nat)
  | unmapped (pn : Nat) (fz : Bool)
  | wait (s : State)

/-- Does an operand of a matrix command lie in a tile (R374)? It is read there as the engine reads scratchpads (R19). -/
def Cmd.tileOperand (c : Cmd) (op : Nat) : Bool :=
  match c.kind with
  | .mtile _ _ _ a b _ _ _ _ => (op == 0 && a.sp == 1) || (op == 1 && b.sp == 1)
  | .accld _ r _ => op == 0 && r.sp == 1
  | _ => false

/-- What is under way for a touch of this command's segment. -/
def touchPending (s : State) (who : Toucher) (rn bix : Nat) : Bool :=
  s.pend.touches.any (fun t => t.who == who && t.rn == rn && t.bix == bix)
    || s.felt.merges.any (fun m => m.rn == rn && m.bix == bix && m.waiters.any (fun w => w.1 == who))
    || s.pend.replays.any (fun r => r.who == who && r.rn == rn && r.bix == bix)

def snapFor (l : List Snap) (rn bix : Nat) : Option Snap := l.find? (fun x => x.rn == rn && x.bix == bix)

/-- Where a unit that had joined a block's fill, or been served the block, reads on once its context has released the range
(R78). -/
def readOn (s : State) (snaps : List Snap) (mine : Toucher → Bool) (ctx va : Nat) : Leaf → Option Target
  | .proc rn =>
      (oldOffset s ctx rn va).bind (fun off =>
        let b := blockOf s rn off
        if (snapFor snaps rn b).isSome || s.pend.touches.any (fun t => mine t.who && t.rn == rn && t.bix == b)
            || s.felt.merges.any (fun m => m.rn == rn && m.bix == b && m.waiters.any (fun w => mine w.1))
            || s.pend.replays.any (fun r => mine r.who && r.rn == rn && r.bix == b) then some (.proc rn off) else none)
  | _ => none

/-- R20 for an access of a command of a kind. -/
def accessAt (s : State) (c : Cmd) (t : Team) (k : AK) (a n : Nat) : ChunkAns :=
  match locate s c.team t 0 k n 1 (BitVec.ofNat 64 a) with
  | .error e => .cause e
  | .ok .notStarted => .wait s
  | .ok (.spad u off) => .at (.spad u off)
  | .ok (.page va) =>
      match translate s c.ctx c.core (va / 12288) with
      | .miss => .wait (startWalk s c.ctx c.core (va / 12288))
      | .fault 4 fz => .unmapped (va / 12288) fz
      | .fault e _ => .cause e
      | .hit l _ =>
          let right := fun rn b => match s.gang c.team c.gang with | some g => g.holdsRight rn b && !k.writes | none => false
          match landing s c.ctx va k right l with
          | .ok t => .at t
          | .error e =>
              let mine := fun (w : Toucher) => match w with | .cmd id _ => id == c.id | _ => false
              (match (if k.writes then none else readOn s c.snaps mine c.ctx va l) with
                | some t => .at t
                | none => .cause e)

/-- The same for a chunk of an operand. -/
def chunkAt (s : State) (c : Cmd) (t : Team) (write : Bool) (op a n : Nat) : ChunkAns :=
  accessAt s c t (if c.tileOperand op then .copyR else c.access write) a n

inductive StepAns where
  | done (s : State)
  | wait (s : State)
  | cause (c : Nat) (s : State)
  | unmapped (pn : Nat) (fz : Bool) (s : State)
  deriving DecidableEq, Repr

/-- Obtain a procedural block for a unit: the bytes it was served, a failure, or a wait after asking (R84, R97, R103). -/
def blockFor (s : State) (snaps : List Snap) (who : Toucher) (ctx rn bix : Nat) : Option Snap × State :=
  match snapFor snaps rn bix with
  | some x => (some x, s)
  | none =>
      if touchPending s who rn bix then (none, s)
      else
        let gen := ((toucherGang s who).bind (fun x => s.gang x.1 x.2)).bind genOf
        (none, sendTouch s who ctx rn bix gen)

/-- A stash line under a scratchpad access of an engine is filled first (R53). -/
def engineSpad (s : State) (c : Cmd) (u off n : Nat) (write : Bool) : Res Unit :=
  Res.each (chunks off n) (fun x s =>
    (spadCheck s u x.1 x.2 (if write then 4 else 3) (c.team, c.gang, c.ipc) (.cmd c.id) false).bind fun _ s =>
      .ok () (spadTake s u x.1 write (.cmd c.id) none)) s

/-- A transform's source bytes as they are found now, beside what was found before: where they differ, the destination will hold
unspecified bytes (R123). -/
def Cmd.seen (c : Cmd) (a : Nat) (bs : List Byte) : Cmd :=
  if !c.transforms then c
  else
    let old := c.priorAt.any (fun r => decide (r.1 ≤ a ∧ a + bs.length ≤ r.1 + r.2))
    if old then { c with stale := c.stale || memBytes c.prior a bs.length != bs }
    else { c with prior := memPutBytes c.prior a bs, priorAt := c.priorAt ++ [(a, bs.length)] }

/-- Read a chunk into the command's buffer. -/
def readChunk (s : State) (c : Cmd) (t : Team) (seg : Nat) (op a n : Nat) : StepAns :=
  let keep := fun (s : State) (bs : List Byte) => modCmd s c.id (fun c => { (c.seen a bs) with buf := memPutBytes c.buf (bufKey op a) bs })
  match chunkAt s c t false op a n with
  | .wait s => .wait s
  | .cause e => .cause e s
  | .unmapped p fz => .unmapped p fz s
  | .at (.spad u off) =>
      match engineSpad s c u off n false with
      | .wait s => .wait s
      | .trap x s => .cause x.cause s
      | .ok _ s => .done (keep s (spadRead s u off n))
  | .at (.peer part pa) =>
      if s.pend.peers.any (fun p => p.who == .cmd c.id seg && p.ga == a) then .wait s
      else if c.sent.contains a then .done s
      else
        .wait (modCmd (sendPeer s (.cmd c.id seg) c.ctx c.core part pa a .read n [] c.org) c.id (fun c => { c with sent := c.sent ++ [a] }))
  | .at (.proc rn off) =>
      let b := blockOf s rn off
      match blockFor s c.snaps (.cmd c.id seg) c.ctx rn b with
      | (none, s) => .wait s
      | (some x, s) =>
          match x.failed with
          | some _ =>
              let s := if c.counted then s else countErr s c.ctx
              .done (keep (modCmd s c.id (fun c => { c with counted := true })) (List.replicate n 0))
          | none =>
              -- the read goes through the home while the block is as it was served (R65, R84)
              let bs := snapBytes s x.data rn off n
              match keyOf s (.proc rn off) with
              | none => .done (keep s bs)
              | some (k, o) =>
                  (match snapAccess s x c.ctx k o n 3 with
                    | (false, s) => .wait s
                    | (true, s) => .done (keep (pinLine s c k) bs))
  | .at tg =>
      match keyOf s tg with
      | none => .wait s
      | some (k, off) =>
          match homeReady s k off n false true false c.id with
          | .wait s => .wait s
          | .failed s => .cause 8 s
          | .ready s => .done (keep (pinLine (homeFill (eccEvents s (some c.ctx) k off n 3) k off n) c k) (homeRead s k off n))

/-- Runs of bytes that are present, with their offsets. -/
def byteRuns (bs : List (Option Byte)) : List (Nat × List Byte) :=
  let out := (bs.zipIdx).foldl (fun (acc : List (Nat × List Byte)) b =>
    match b.1 with
    | none => acc
    | some v =>
        match acc with
        | (o, l) :: t => if o + l.length = b.2 then (o, l ++ [v]) :: t else (b.2, [v]) :: acc
        | [] => [(b.2, [v])]) []
  out.reverse

/-- Obtain what a write of n bytes in one line needs, and write nothing yet. -/
def readyWrite (s : State) (c : Cmd) (t : Team) (k : AK) (a n : Nat) : StepAns :=
  match accessAt s c t k a n with
  | .wait s => .wait s
  | .cause e => .cause e s
  | .unmapped p fz => .unmapped p fz s
  | .at (.spad u off) =>
      match engineSpad s c u off n true with
      | .wait s => .wait s
      | .trap x s => .cause x.cause s
      | .ok _ s => .done s
  | .at tg =>
      match keyOf s tg with
      | none => .done s
      | some (k, off) =>
          match homeReady s k off n true true false c.id true with
          | .wait s => .wait s
          | .failed s => .cause 8 s
          | .ready s => .done s

/-- Write bytes in one line. A sector that they cover whole is not read (R65). -/
def writeChunk (s : State) (c : Cmd) (t : Team) (seg : Nat) (a : Nat) (bs : List Byte) : StepAns :=
  let n := bs.length
  match readyWrite s c t (c.access true) a n, accessAt s c t (c.access true) a n with
  | .done s, .at (.spad u off) => .done (spadWrite s u off bs)
  | .done s, .at (.peer part pa) =>
      if s.pend.peers.any (fun p => p.who == .cmd c.id seg && p.ga == a) then .wait s
      else if c.sent.contains a then .done s
      else
        .wait (modCmd (sendPeer s (.cmd c.id seg) c.ctx c.core part pa a .write n bs c.org) c.id
          (fun c => { c with sent := c.sent ++ [a] }))
  | .done s, .at tg =>
      (match keyOf s tg with
        | none => .wait s
        | some (k, off) =>
            let part := (sectorsOf off n).filter (fun i => decide (48 * i < off ∨ off + n < 48 * i + 48))
            .done (homeWrite (part.foldl (fun s i => eccEvents s (some c.ctx) k (48 * i) 1 4) s) k off bs 0))
  | r, _ => r

/-- Bytes of an address range that are present: each run in one line. -/
def presentRuns (bs : List (Nat × List (Option Byte))) : List (Nat × List Byte) :=
  bs.flatMap (fun x => (byteRuns x.2).flatMap (fun r =>
    (chunks (x.1 + r.1) r.2.length).map (fun ch => (ch.1, (r.2.drop (ch.1 - x.1 - r.1)).take ch.2))))

/-- The chunks of a segment in turn. -/
def eachChunk (s : State) (f : Nat × Nat → State → StepAns) : List (Nat × Nat) → StepAns
  | [] => .done s
  | x :: l =>
      match f x s with
      | .done s => eachChunk s f l
      | r => r

/-- Write runs of a segment: every line is obtained before any byte is written, so that a segment is abandoned whole (R124). -/
def writeRuns (s : State) (c : Cmd) (t : Team) (seg : Nat) (l : List (Nat × List Byte)) : StepAns :=
  match eachChunk s (fun ch s => readyWrite s c t (c.access true) ch.1 ch.2) (l.map (fun r => (r.1, r.2.length))) with
  | .done s =>
      l.foldl (fun (r : StepAns) x => match r with | .done s => writeChunk s c t seg x.1 x.2 | r => r) (.done s)
  | r => r

/-! ### What a copy writes -/

/-- Source bytes that no abandoned segment covers. -/
def srcByte (c : Cmd) (segs : List Seg) (a : Nat) : Option Byte :=
  if c.abandoned.any (fun n => match segs[n]? with
      | some x => !x.write && x.op == 0 && x.parts.any (fun p => decide (p.1 ≤ a ∧ a < p.1 + p.2)) | none => false) then none
  else some (memGet c.buf (bufKey 0 a))

/-- Sector expansion (R380) of n lines from a position on: the destination bytes, how many source bytes they need, and none
where a mask is wrong or missing. -/
def expand (src : Nat → Option Byte) : Nat → Nat → List (Option Byte) × Nat
  | _, 0 => ([], 0)
  | pos, n + 1 =>
      match src pos with
      | none => (List.replicate (192 * (n + 1)) none, pos + 1)
      | some m =>
          if 16 ≤ m.toNat then (List.replicate (192 * (n + 1)) none, pos + 1)
          else
            let (body, e) := (List.range 4).foldl (fun (acc : List (Option Byte) × Nat) i =>
              if m.getLsbD i then (acc.1 ++ (List.range 48).map (fun j => src (acc.2 + j)), acc.2 + 48)
              else (acc.1 ++ List.replicate 48 (some 0), acc.2)) ([], pos + 1)
            let (r, e') := expand src e n
            (body ++ r, max e e')

/-- Source bytes of a sector expansion that are known to be needed, from those read so far. -/
def expandNeed (src : Nat → Byte) (readTo : Nat) : Nat → Nat → Nat
  | pos, 0 => pos
  | pos, n + 1 =>
      if readTo ≤ pos then pos + 1
      else
        let m := src pos
        if 16 ≤ m.toNat then pos + 1
        else expandNeed src readTo (pos + 1 + 48 * ((List.range 4).filter (fun i => m.getLsbD i)).length) n

/-- The destination bytes of a copy request, and its conversion flags (R380). -/
def copyBytes (c : Cmd) (t : Team) (r : BitVec 512) : List (Option Byte) × Word :=
  let segs := segsOf t c.kind
  let src := fun i => srcByte c segs (reqSrc r + i)
  match reqXf r with
  | 0 => ((List.range (reqLen r)).map src, 0)
  | 1 =>
      let w := reqSlot t r
      let ea := elemFmt (slotA w)
      let ed := elemFmt (slotD w)
      let bit := fun (a k : Nat) => (List.range ((k + 7) / 8 + 1)).map (fun j => src (a / 8 + j))
      let one := fun i =>
        let a := i * ea.width
        let bs := bit a ea.width
        if (bs.take ((a % 8 + ea.width + 7) / 8)).any (·.isNone) then none
        else
          let x := leNat (bs.map (·.getD 0)) / 2 ^ (a % 8) % 2 ^ ea.width
          some (ed.convert (rndOf (slotRnd w)) (slotSat w) (ea.value x).1)
      let rs := (List.range (reqLen r)).map one
      let flags := rs.foldl (fun f x => f ||| x.elim 0 (·.flags)) (0 : Word)
      let per := 8 / min ed.width 8
      let bytes := (List.range (reqDstLen t r)).map (fun b =>
        if ed.width = 4 then
          match rs.getD (2 * b) none, rs.getD (2 * b + 1) none with
          | some x, some y => some (BitVec.ofNat 8 (x.code + 16 * y.code))
          | _, _ => none
        else
          let k := ed.width / 8
          (rs.getD (b / k) none).map (fun x => BitVec.ofNat 8 (x.code >>> (8 * (b % k)))))
      (bytes, if per = 0 then 0 else flags)
  | _ => ((expand src 0 (reqLen r / 192)).1, 0)

/-- Free bytes for the destination bytes that lie in the source range as well (R381), and for all of them where a transform's source
has changed meanwhile (R123; assumption 1). -/
def freeOverlap (s : State) (stale : Bool) (r : BitVec 512) (n : Nat) (a : Nat) (bs : List (Option Byte)) : List (Option Byte) × State :=
  (bs.zipIdx).foldl (fun (acc : List (Option Byte) × State) b =>
    if b.1.isSome && (stale || decide (reqSrc r ≤ a + b.2 ∧ a + b.2 < reqSrc r + n)) then
      let (q, s) := acc.2.freeQ
      (acc.1 ++ [some (q.setWidth 8)], s)
    else (acc.1 ++ [b.1], acc.2)) ([], s)

/-! ### Accumulators -/

def accWord (t : Team) (acc m n : Nat) : Nat := memNat (mapGetD [] acc t.accs) (4 * (64 * m + n)) 4
def setAcc (s : State) (tid acc : Nat) (f : Memory → Memory) : State :=
  s.modTeam tid (fun t => { t with accs := mapPut acc (f (mapGetD [] acc t.accs)) t.accs })
/-- Words of an accumulator that are written have no error left (R489). -/
def clearAccBad (s : State) (tid acc : Nat) (written : Nat → Bool := fun _ => true) : State :=
  s.modTeam tid (fun t => { t with accBad := t.accBad.filter (fun e => !(e.1 == acc && written e.2)) })
/-- Word of an accumulator within the rows and columns of a box. -/
def inBox (m n : Nat) (w : Nat) : Bool := decide (w / 64 ≤ m ∧ w % 64 ≤ n)
def accPut (mm : Memory) (m n v : Nat) : Memory := memPutBytes mm (4 * (64 * m + n)) (leBytes 4 v)

/-- The accumulator a command acts on. -/
def CmdKind.acc : CmdKind → Option Nat
  | .mtile _ a _ _ _ _ _ _ _ | .drain a _ _ _ | .accld a _ _ | .accz a => some a
  | _ => none

/-- Does an earlier operation of the tile still act on it (R375, R378)? -/
def accBusy (s : State) (tid acc id : Nat) : Bool :=
  s.cmds.any (fun c => c.team == tid && decide (c.id < id) && c.kind.acc == some acc && c.st != .complete
    && !(match c.kind with | .drain _ _ _ _ => c.readDone | _ => false))

/-- Bits of one element from the buffer. -/
def bufElem (c : Cmd) (op bit w : Nat) : Nat :=
  leNat ((List.range ((bit % 8 + w + 7) / 8)).map (fun j => memGet c.buf (bufKey op (bit / 8 + j)))) / 2 ^ (bit % 8) % 2 ^ w

/-- Kept values of a sparse A row: (dense depth, code), and NV of pattern code 7 or a bad tail (R366, R372). -/
def sparseRow (c : Cmd) (b : Box) (w m : Nat) : List (Nat × Nat) × Bool :=
  let per := sparseDepths w
  let lines := (b.n0 + per - 1) / per
  (List.range lines).foldl (fun acc l =>
    let a := b.base + m * b.stride1 + 192 * l
    let tail := bufElem c 0 (8 * (a + 30)) 16
    if 128 ≤ tail then (acc.1, true)
    else if per / 4 < tail then acc
    else
      (List.range tail).foldl (fun (acc : List (Nat × Nat) × Bool) g =>
        let code := bufElem c 0 (8 * a + 3 * g) 3
        let k0 := per * l + 4 * g
        match patternPos code with
        | none => (acc.1, acc.2 || (code == 7 && decide (k0 < b.n0)))
        | some (p, q) =>
            (acc.1 ++ ([(k0 + p, bufElem c 0 (8 * (a + 32) + w * (2 * g)) w), (k0 + q, bufElem c 0 (8 * (a + 32) + w * (2 * g + 1)) w)].filter
              (fun e => decide (e.1 < b.n0))), acc.2)) acc) ([], false)

/-- An MTILE's sums (R370-R372): the accumulator after it, flags, overflowed elements. -/
def mtileCompute (c : Cmd) (t : Team) (sp : Bool) (acc : Nat) (z : Bool) (a b : Box) (sc : Nat) : Memory × Word × Nat :=
  let w := t.slot a.slot
  let wa := (elemFmt (a.fmt t)).width
  let wb := (elemFmt (b.fmt t)).width
  let nb := scaleCount w (a.box0 + 1)
  let scale := fun (row blk : Nat) => bufElem c 2 (8 * (sc + (row * nb + blk) * scaleBytes w)) (8 * scaleBytes w)
  let rows := (List.range (a.box1 + 1)).map (fun m =>
    if a.n1 ≤ m then ([], false)
    else if sp then sparseRow c a wa m
    else ((List.range a.n0).map (fun k => (k, bufElem c 0 (a.bitAddr wa k m) wa)), false))
  let init := mapGetD [] acc t.accs
  (List.range (a.box1 + 1)).foldl (fun st m =>
    let row := rows.getD m ([], false)
    let st := (st.1, st.2.1 ||| flagIf row.2 fNV, st.2.2)
    (List.range (b.box1 + 1)).foldl (fun (st : Memory × Word × Nat) n =>
      let terms := if b.n1 ≤ n then [] else
        (row.1.filter (fun e => decide (e.1 < b.n0))).map (fun e => (e.1, e.2, bufElem c 1 (b.bitAddr wb e.1 n) wb))
      let r := matElem w terms (scale m) (fun blk => scale (a.box1 + 1 + n) blk)
        (if z then 0 else memNat st.1 (4 * (64 * m + n)) 4)
      (accPut st.1 m n r.code, st.2.1 ||| r.flags, if r.ovf then st.2.2 + 1 else st.2.2)) st) (init, 0, 0)

/-- Element (i0, i1) of a drain in the record's format: code and flags (R378). -/
def drainElem (t : Team) (r : Box) (x : Nat) : Rounded :=
  match elemFmt (r.fmt t) with
  | .flt .f16 => Fmt.f16.round (rndOf (slotRnd (t.slot r.slot))) (slotSat (t.slot r.slot)) (Fmt.f32.value x)
  | .flt .bf16 => Fmt.bf16.round (rndOf (slotRnd (t.slot r.slot))) (slotSat (t.slot r.slot)) (Fmt.f32.value x)
  | _ => ⟨x, 0⟩

/-- Elements of a box that have a byte in a segment, or their first byte, as (address, i0, i1). -/
def segElems (r : Box) (w : Nat) (seg : Seg) (first : Bool) : List (Nat × Nat × Nat) :=
  let n := if first then 1 else w / 8
  ((List.range r.n0).flatMap (fun i => (List.range r.n1).map (fun j => (r.bitAddr w i j / 8, i, j)))).filter
    (fun e => seg.parts.any (fun p => decide (p.1 < e.1 + n ∧ e.1 < p.1 + p.2)))

/-- The value that an atomic add of a drain leaves (R378). -/
def drainAdd (isF : Bool) (old x : Nat) : Nat :=
  if isF then (Fmt.f32.finish .rne false (addFV .rne (Fmt.f32.value old) (Fmt.f32.value x))).code else (old + x) % 2 ^ 32

/-- Add to a word at its point of coherence; its lines have been obtained. A restart adds again (R123; assumption 96). -/
def addWord (s : State) (c : Cmd) (t : Team) (isF : Bool) (a x : Nat) : State :=
  let cs := chunks a 4
  let at_ := fun (s : State) (ch : Nat × Nat) => accessAt s c t (c.access true) ch.1 ch.2
  let s := cs.foldl (fun s ch => match at_ s ch with
    | .at tg => (match keyOf s tg with
        | some (k, off) => homeFill (eccEvents s (some c.ctx) k off ch.2 4) k off ch.2
        | none => s)
    | _ => s) s
  let old := leNat (cs.flatMap (fun ch => match at_ s ch with
    | .at (.spad u off) => spadRead s u off ch.2
    | .at tg => (match keyOf s tg with | some (k, off) => homeRead s k off ch.2 | none => [])
    | _ => []))
  let new := leBytes 4 (drainAdd isF old x)
  cs.foldl (fun s ch =>
    let bs := (new.drop (ch.1 - a)).take ch.2
    match at_ s ch with
    | .at (.spad u off) => spadWrite s u off bs
    | .at tg => (match keyOf s tg with | some (k, off) => homeWrite s k off bs 0 | none => s)
    | _ => s) s

/-- One segment of a drain (R378): each element with a byte in it is stored there; an element whose first byte lies in it is added at
its point of coherence. -/
def drainSeg (s : State) (c : Cmd) (t : Team) (n : Nat) (add : Bool) (r : Box) (seg : Seg) : StepAns :=
  let w := (elemFmt (r.fmt t)).width
  let isF := elemFmt (r.fmt t) = .flt .f32
  let x := fun (e : Nat × Nat × Nat) => memNat c.buf (bufKey 1 (4 * (64 * e.2.2 + e.2.1))) 4
  let es := segElems r w seg add
  if add then
    match eachChunk s (fun ch s => readyWrite s c t (c.access true) ch.1 ch.2) (es.flatMap (fun e => chunks e.1 4)) with
    | .done s => .done (es.foldl (fun s e => addWord s c t isF e.1 (x e)) s)
    | r => r
  else
    let put := es.flatMap (fun e => (leBytes (w / 8) (drainElem t r (x e)).code).zipIdx.map (fun b => (e.1 + b.2, b.1)))
    let bytes := fun (p : Nat × Nat) => (p.1, (List.range p.2).map (fun i => (put.find? (fun b => b.1 == p.1 + i)).map (·.2)))
    writeRuns s c t n (presentRuns (seg.parts.map bytes))

/-! ### Segments and rounds -/

/-- Is a segment needed, for a sector expansion (R380)? -/
def segNeeded (c : Cmd) (seg : Seg) : Bool :=
  match c.kind with
  | .copy r | .binding _ r =>
      if reqXf r = 2 ∧ !seg.write then
        let need := expandNeed (fun i => memGet c.buf (bufKey 0 (reqSrc r + i))) c.readTo 0 (reqLen r / 192)
        seg.parts.any (fun p => decide (p.1 < reqSrc r + need))
      else true
  | _ => true

/-- Segments still to be processed in this round. -/
def openSegs (c : Cmd) (t : Team) : List (Seg × Nat) :=
  if c.overflowed || (c.transforms && !c.fixups.isEmpty) then []
  else ((segsOf t c.kind).zipIdx).filter (fun x =>
    !c.segsDone.contains x.2 && !c.abandoned.contains x.2 && !c.fixups.any (fun f => f.1 == x.2) && segNeeded c x.1)

/-- Every source segment has been read or abandoned. -/
def readsOver (c : Cmd) (t : Team) : Bool :=
  ((segsOf t c.kind).zipIdx).all (fun x => x.1.write || c.segsDone.contains x.2 || c.abandoned.contains x.2 || !segNeeded c x.1)

/-- Are the bytes of a destination segment known: every source segment that holds them has been read or abandoned? With a transform
or where source and destination overlap, every source segment (R381). -/
def writable (c : Cmd) (t : Team) (seg : Seg) : Bool :=
  match c.kind with
  | .copy r | .binding _ r =>
      let n := reqLen r
      if reqXf r != 0 || decide (reqSrc r < reqDst r + n ∧ reqDst r < reqSrc r + n) then readsOver c t
      else
        ((segsOf t c.kind).zipIdx).all (fun x => x.1.write || c.segsDone.contains x.2 || c.abandoned.contains x.2 ||
          !x.1.parts.any (fun p => seg.parts.any (fun q =>
            let a := reqSrc r + (q.1 - reqDst r)
            decide (p.1 < a + q.2 ∧ a < p.1 + p.2))))
  | .drain _ _ _ _ => c.readDone
  | _ => true

/-- May a source segment be read now? A transform first finds its whole destination (R123). -/
def readable (c : Cmd) (t : Team) : Bool :=
  !c.transforms || ((segsOf t c.kind).zipIdx).all (fun x => !x.1.write || c.probed.contains x.2 || c.abandoned.contains x.2)

/-- A destination segment whose bytes are not known yet is translated (R122); with a transform its bytes are unspecified from now on
(R123). -/
def probeSeg (s : State) (c : Cmd) (t : Team) (seg : Seg) : StepAns :=
  eachChunk s (fun ch s =>
    match accessAt s c t (c.access true) ch.1 ch.2 with
    | .wait s => .wait s
    | .cause e => .cause e s
    | .unmapped p fz => .unmapped p fz s
    | .at tg =>
        let e := (tg, ch.2, c.id)
        let peer := match tg with | .peer _ _ => true | _ => false
        .done (if !c.transforms || peer || s.mem.unset.contains e then s
          else s.modMem (fun m => { m with unset := m.unset ++ [e] }))) (seg.parts.flatMap (fun p => chunks p.1 p.2))

/-- Read a source segment; a sector expansion reads only what it is known to need, in order. -/
def readSeg (s : State) (c : Cmd) (t : Team) (n : Nat) (seg : Seg) : StepAns :=
  match c.kind with
  | .copy r | .binding _ r =>
      if reqXf r = 2 then
        let need := expandNeed (fun i => memGet c.buf (bufKey 0 (reqSrc r + i))) c.readTo 0 (reqLen r / 192)
        let a := reqSrc r + c.readTo
        match seg.parts.head? with
        | none => .done s
        | some p =>
            if a < p.1 then .wait s
            else
              let e := min (p.1 + p.2) (reqSrc r + need)
              match eachChunk s (fun ch s => readChunk s c t n seg.op ch.1 ch.2) (chunks a (e - a)) with
              | .done s =>
                  let s := modCmd s c.id (fun c => { c with readTo := e - reqSrc r })
                  if e = p.1 + p.2 then .done s else .wait s
              | x => x
      else eachChunk s (fun ch s => readChunk s c t n seg.op ch.1 ch.2) (seg.parts.flatMap (fun p => chunks p.1 p.2))
  | _ => eachChunk s (fun ch s => readChunk s c t n seg.op ch.1 ch.2) (seg.parts.flatMap (fun p => chunks p.1 p.2))

def writeSeg (s : State) (c : Cmd) (t : Team) (n : Nat) (seg : Seg) : StepAns :=
  match c.kind with
  | .copy r | .binding _ r =>
      let (bs, fl) := copyBytes c t r
      let all := seg.parts.map (fun p => (p.1, (List.range p.2).map (fun i => bs.getD (p.1 - reqDst r + i) none)))
      let (all, s) := all.foldl (fun (acc : List (Nat × List (Option Byte)) × State) x =>
        let (b, s) := freeOverlap acc.2 c.stale r (reqSrcLen t r) x.1 x.2
        (acc.1 ++ [(x.1, b)], s)) ([], s)
      match writeRuns s c t n (presentRuns all) with
      | .done s => .done (modCmd s c.id (fun c => { c with flags := c.flags ||| fl }))
      | x => x
  | .drain _ add _ r => drainSeg s c t n add r seg
  | _ => .done s

/-- When a round is over with faulting segments, the record goes out (R122). -/
def roundOver (s : State) (id : Nat) : State :=
  match getCmd s id with
  | none => s
  | some c =>
      match s.team c.team with
      | none => s
      | some t =>
          if c.st == .running && !c.fixups.isEmpty
              && (openSegs c t).all (fun x => x.1.write && !writable c t x.1 && c.probed.contains x.2) then sendCmdRecord s c t
          else s

/-- `ENGINE_SEGMENT` (R121-R124): one segment of a running request is processed. -/
def execEngineSegment (id seg : Nat) (s : State) : Out :=
  match getCmd s id with
  | none => .next s
  | some c =>
      match s.team c.team with
      | none => .next s
      | some t =>
          match (openSegs c t).find? (fun x => x.2 == seg) with
          | none => .next (roundOver s id)
          | some (x, n) =>
              -- a retry processes the listed segments again in list order (R122)
              if c.st != .running || ((c.redo.filter (fun m => (openSegs c t).any (fun y => y.2 == m))).head?).any (· != n) then .next s
              else
                let known := !x.write || writable c t x
                if (if known then !x.write && !readable c t else c.probed.contains n) then
                  .next (roundOver (modCmd s id (fun c => { c with redo := c.redo.filter (· != n) })) id)
                else
                  match (if !known then probeSeg s c t x else if x.write then writeSeg s c t n x else readSeg s c t n x) with
                  | .wait s => .next s
                  | .done s =>
                      let s := modCmd s id (fun c =>
                        if known then { c with segsDone := c.segsDone ++ [n], redo := c.redo.filter (· != n) }
                        else { c with probed := c.probed ++ [n], redo := c.redo.filter (· != n) })
                      .next (roundOver (match getCmd s id with | some c => unpin s c | none => s) id)
                  | .cause e s =>
                      (match getCmd s id with
                        | some c => .next (roundOver (modCmd (abandonSeg s c n e) id (fun c => { c with redo := c.redo.filter (· != n) })) id)
                        | none => .next s)
                  | .unmapped p fz s =>
                      let s := fixSeg (useFault s c.ctx c.core p) c n p fz
                      .next (roundOver (modCmd s id (fun c => { c with redo := c.redo.filter (· != n) })) id)

/-! ### Start -/

/-- The gangs whose counter a command holds. -/
def Cmd.gangs (c : Cmd) : List Nat := match c.kind with | .mtile _ _ _ _ _ _ _ _ l => l | _ => [c.gang]
/-- A command that no engine counter counts (R156, R377). -/
def Cmd.uncounted (c : Cmd) : Bool := match c.kind with | .accld _ _ _ | .accz _ | .binding _ _ => true | _ => false

/-- The head of a gang's class queue (R381): the oldest command that has not left it. -/
def queueHead (s : State) (tid gid : Nat) (cls : EngClass) : Option Cmd :=
  s.cmds.find? (fun c => c.team == tid && c.cls == cls && !c.uncounted && c.st == .queued && c.gangs.contains gid)

/-- Retire what has completed at the head of a gang's list, with the flags of each operation (R157, R221). -/
def retire (s : State) (tid gid : Nat) (cls : EngClass) (id : Nat) : State :=
  match s.gang tid gid with
  | none => s
  | some g =>
      let g' := g.doneOp cls id
      let gone := (engGet cls g.ops).filter (fun e => !(engGet cls g'.ops).any (fun x => x.1 == e.1))
      let fl := gone.foldl (fun w e => w ||| (getCmd s e.1).elim 0 (·.flags)) (0 : Word)
      s.modGang tid gid (fun _ => g'.setFlags fl)

/-- Commands that have completed and that no gang's list still holds leave (a transform binding's leaves at BINDING_COMPLETE); a team that waited for them may go. -/
def sweep (s : State) (tid : Nat) : State :=
  let held := fun (c : Cmd) => c.gangs.any (fun g => match s.gang c.team g with
    | some x => x.ops.any (fun e => e.2.any (fun o => o.1 == c.id)) | none => false)
  let held := fun (c : Cmd) => match c.kind with | .binding _ _ => true | _ => held c
  let s := { s with cmds := s.cmds.filter (fun c => c.st != CmdSt.complete || held c) }
  teamRelease s tid

/-- A command completes: its pins and unspecified bytes go, its gangs' counters fall, and it is removed. -/
def completeCmd (s : State) (c : Cmd) : State :=
  let s := (unpin s ((getCmd s c.id).getD c)).modMem (fun m => { m with unset := m.unset.filter (fun e => e.2.2 != c.id) })
  let s := modCmd s c.id (fun c => { c with st := CmdSt.complete })
  let s := if c.uncounted then s else c.gangs.foldl (fun s g => retire s c.team g c.cls c.id) s
  sweep s c.team

/-- Tiles that a command's start waits for, and its moves when it starts (R58, R374, R382). None: it waits. -/
def startTiles (s : State) (c : Cmd) (t : Team) : Option State :=
  let ready := fun n => (t.tile n).st == .ready
  match c.kind with
  | .mtile _ _ _ a b ta tb _ _ => if (a.sp == 1 && !ready ta) || (b.sp == 1 && !ready tb) then none else some s
  | .accld _ r n => if r.sp == 1 && !ready n then none else some s
  | .copy r | .binding _ r =>
      let sd := reqF r 265 265 == 1
      let st := reqF r 271 266
      if sd && !ready st then none
      else
        let dt := reqTgt r % 64
        let x := t.tile dt
        if reqTk r = 1 ∧ (x.st = .ready ∨ x.st = .draining) then none
        else
          let s := if sd then s.setTile c.team st { t.tile st with st := .draining } else s
          some (if reqTk r = 1 then s.setTile c.team dt { x with st := .filling, promised := x.promised + reqDstLen t r } else s)
  | _ => some s

/-- Would a fill make promised exceed the tile's size (R58)? -/
def overfills (c : Cmd) (t : Team) : Bool :=
  match c.kind with
  | .copy r | .binding _ r =>
      let x := t.tile (reqTgt r % 64)
      reqTk r == 1 && (x.st == .empty || x.st == .filling) && decide (x.size < x.promised + reqDstLen t r)
  | _ => false

/-- What a transform's source holds as the request starts, as far as it translates (R123). -/
def firstSource (s : State) (c : Cmd) (t : Team) : State :=
  if !c.transforms then s
  else
    let l := (segsOf t c.kind).flatMap (fun x => if x.write then [] else x.parts.flatMap (fun p => chunks p.1 p.2))
    let bytes := fun (ch : Nat × Nat) => match accessAt s c t (c.access false) ch.1 ch.2 with
      | .at (.spad u off) => some (spadRead s u off ch.2)
      | .at (.peer _ _) | .at (.proc _ _) => none
      | .at tg => (keyOf s tg).map (fun k => homeRead s k.1 k.2 ch.2)
      | _ => none
    modCmd s c.id (fun c => l.foldl (fun c ch => match bytes ch with | some bs => c.seen ch.1 bs | none => c) c)

/-- A command leaves its queue: the release at its scope, its guard, its tiles and its accumulator's turn (R159, R375, R382,
R385). -/
def startCmd (s : State) (c : Cmd) : State :=
  match s.team c.team with
  | none => s
  | some t =>
      let guard := c.guard.map (fun g => mapGetD Guard.unresolved g t.guards)
      if guard = some .unresolved then s
      else if guard = some .isFalse then completeCmd s c
      else if !c.gangs.all (fun g => releaseReady s c.core c.team g c.scope c.id) then s
      else if (match c.kind.acc with | some a => accBusy s c.team a c.id | none => false) then s
      else if overfills c t then
        let dt := match c.kind with | .copy r | .binding _ r => reqTgt r % 64 | _ => 0
        let s := s.setTile c.team dt { t.tile dt with err := true }
        completeCmd (cmdErr s c 0x1F 0 0) c
      else
        match startTiles s c t with
        | none => s
        | some s =>
            let s := firstSource (modCmd s c.id (fun c => { c with st := .running })) c t
            let s := match c.kind with | .drain acc _ _ r => accEvents s c.team acc (inBox r.box1 r.box0) | _ => s
            match c.kind with
            | .drain acc _ z r =>
                -- the tile is read in its turn; `.z` zeroes it then
                let words := (List.range (r.box0 + 1)).flatMap (fun n => (List.range (r.box1 + 1)).map (fun m => (m, n)))
                let buf := words.foldl (fun b e => memPutBytes b (bufKey 1 (4 * (64 * e.1 + e.2))) (leBytes 4 (accWord t acc e.1 e.2))) []
                let es := words.filter (fun e => decide (e.2 < r.n0 ∧ e.1 < r.n1))
                let fl := es.foldl (fun f e => f ||| (drainElem t r (accWord t acc e.1 e.2)).flags) (0 : Word)
                let s := modCmd s c.id (fun c => { c with buf, readDone := true, flags := fl })
                if z then setAcc (clearAccBad s c.team acc) c.team acc (fun _ => []) else s
            | .accz acc => completeCmd (setAcc (clearAccBad s c.team acc) c.team acc (fun _ => [])) c
            | _ => s

/-- `ENGINE_COMMAND_START` (R381, R385): the head of a class queue leaves it; accumulator loads and clears, which stand in no
queue, start in their tile's turn with the matrix class. -/
def execEngineCommandStart (team gang : Nat) (c : EngClass) (s : State) : Out :=
  let head := match queueHead s team gang c with
    | some x => if x.gangs.all (fun g => (queueHead s team g c).map (·.id) == some x.id) then some x else none
    | none => none
  let free := s.cmds.find? (fun x => x.team == team && x.gang == gang && x.uncounted && x.st == .queued && c == .matrix &&
    (match x.kind.acc with | some a => !accBusy s team a x.id | none => false))
  match free with
  | some x => .next (startCmd s x)
  | none => match head with | some x => .next (startCmd s x) | none => .next s

/-! ### Completion -/

/-- CRC32C (R383). -/
def crcStep (c : Nat) : Nat → Nat
  | 0 => c
  | k + 1 => crcStep (if c % 2 = 1 then (c / 2) ^^^ 0x82F63B78 else c / 2) k
def crc32c (bs : List Byte) : Nat := (bs.foldl (fun c b => crcStep (c ^^^ b.toNat) 8) 0xFFFFFFFF) ^^^ 0xFFFFFFFF

/-- Source bytes a request read. -/
def srcBytes (c : Cmd) (t : Team) (r : BitVec 512) : List Byte :=
  let n := if reqXf r = 2 then c.readTo else reqSrcLen t r
  (List.range n).map (fun i => memGet c.buf (bufKey 0 (reqSrc r + i)))

/-- Add to a barrier object's count (R351, R353). -/
def boCredit (x n : Nat) (err : Bool) : Nat :=
  let arr := satAdd (x % 2 ^ 48) n (2 ^ 48 - 1)
  let y := x - x % 2 ^ 48 + arr
  if err && !y.testBit 63 then y + 2 ^ 63 else y

/-- What a credit of a copy's target finds (R383). -/
inductive CreditAns where
  | done (s : State)
  | wait (s : State)
  deriving DecidableEq, Repr

/-- Credit a copy's target (R383): the tile, or the barrier object by an atomic access (R351), which may have to wait for its page, its
line, its stash line (R53) or a peer (R38). DESIGN CHOICE: a credit that its page refuses is dropped, counted and recorded as an abandoned
segment is, once for the request (assumption 103). -/
def creditCopy (s : State) (c : Cmd) (t : Team) (r : BitVec 512) (err : Bool) : CreditAns :=
  let n := reqDstLen t r
  let bo := (segsOf t c.kind).length
  match reqTk r with
  | 1 =>
      let x := t.tile (reqTgt r % 64)
      let x := { x with arrived := x.arrived + n, err := x.err || err }
      .done (s.setTile c.team (reqTgt r % 64) (if x.arrived = x.promised ∧ x.arrived = x.size then { x with st := .ready } else x))
  | 2 =>
      let a := reqTgt r
      match readyWrite s c t .atom a 16, accessAt s c t .atom a 16 with
      | .wait s, _ => .wait s
      | .cause e s, _ => .done (if c.failed then s else cmdErr s c e a (e * 256))
      | .unmapped p fz s, _ =>
          -- the object's page is fixed up with the request (R122)
          if s.xl.recs.any (fun x => x.who == .cmd c.id) then .wait s
          else
            let s := modCmd (useFault s c.ctx c.core p) c.id (fun c => { c with fixups := [(bo, p, fz)] })
            .wait (match getCmd s c.id with | some c => sendCmdRecord s c t | none => s)
      | .done s, .at (.spad u off) => .done (spadWrite s u off (leBytes 16 (boCredit (leNat (spadRead s u off 16)) n err)))
      | .done s, .at (.peer part pa) =>
          if s.pend.peers.any (fun p => p.who == .cmd c.id bo) then .wait s
          else if c.segsDone.contains bo then .done s
          else
            .wait (modCmd (sendPeer s (.cmd c.id bo) c.ctx c.core part pa a .atomic 16
              (leBytes 4 n ++ [if err then 1 else 0]) c.org) c.id (fun c => { c with segsDone := c.segsDone ++ [bo] }))
      | .done s, .at tg =>
          (match keyOf s tg with
            | none => .done s
            | some (k, off) =>
                let s := homeFill (eccEvents s (some c.ctx) k off 16 2) k off 16
                .done (homeWrite s k off (leBytes 16 (boCredit (leNat (homeRead s k off 16)) n err)) 0))
      | .done s, _ => .wait s
  | _ => .done s

/-- Has the source of a transform changed since the request read it (R123)? -/
def sourceChanged (s : State) (c : Cmd) (t : Team) : Bool :=
  c.transforms && ((segsOf t c.kind).zipIdx).any (fun x => !x.1.write && c.segsDone.contains x.2 &&
    (x.1.parts.flatMap (fun p => chunks p.1 p.2)).any (fun ch =>
      let old := memBytes c.buf (bufKey 0 ch.1) ch.2
      match accessAt s c t (c.access false) ch.1 ch.2 with
      | .at (.spad u off) => spadRead s u off ch.2 != old
      | .at (.peer _ _) | .at (.proc _ _) => false
      | .at tg => (match keyOf s tg with | some (k, off) => homeRead s k off ch.2 != old | none => false)
      | _ => false))

/-- Did a failed block of a trapping range reach the request (R97)? -/
def failedTrap (c : Cmd) : Bool := c.snaps.any (fun x => match x.failed with | some (1, _, _) => true | _ => false)

/-- `ENGINE_COMPLETION` (R125, R157, R370, R377, R383): after the last segment and the fix-ups. DESIGN CHOICE: a mask byte that stops a
request has cause 0 in the record (assumption 104). -/
def execEngineCompletion (id : Nat) (s : State) : Out :=
  match getCmd s id with
  | none => .next s
  | some c =>
      match s.team c.team with
      | none => .next s
      | some t =>
          let allDone := ((segsOf t c.kind).zipIdx).all (fun x =>
            c.segsDone.contains x.2 || c.abandoned.contains x.2 || !segNeeded c x.1)
          if c.st != .running || !c.fixups.isEmpty || !allDone then .next s
          else
            match c.kind with
            | .copy r | .binding _ r =>
                let writes := (((segsOf t c.kind).zipIdx).filter (·.1.write)).map (·.2)
                if !c.stale && sourceChanged s c t then
                  -- the destination takes unspecified bytes before the request completes (R123)
                  .next (modCmd s id (fun c => { c with stale := true, sent := [], segsDone := c.segsDone.filter (fun n => !writes.contains n) }))
                else
                let short := (copyBytes c t r).1.any (·.isNone)
                -- what a mask byte has stopped counts as abandoned (R380)
                let crcBad := reqF r 284 284 == 1 && !c.failed && !short && decide (crc32c (srcBytes c t r) ≠ reqF r 191 160)
                let err := crcBad || c.failed || !c.abandoned.isEmpty || failedTrap c || (reqXf r == 2 && short)
                match (if c.abandoned.contains (segsOf t c.kind).length then .done s else creditCopy s c t r err) with
                | .wait s => .next s
                | .done s =>
                    let s := if crcBad then cmdErr s c 0x1B (reqSrc r) 0 else s
                    let s := if reqXf r == 2 && short && !c.failed then cmdErr s c 0 (reqSrc r) 0 else s
                    let s := if reqF r 265 265 == 1 then
                        match s.team c.team with
                        | some t => s.setTile c.team (reqF r 271 266) { t.tile (reqF r 271 266) with st := .empty }
                        | none => s
                      else s
                    .next (completeCmd s c)
            | .mtile sp acc z a b _ _ sc _ =>
                let (m, fl, n) := mtileCompute c t sp acc z a b sc
                let s := if z then clearAccBad s c.team acc (inBox a.box1 b.box1) else accEvents s c.team acc (inBox a.box1 b.box1)
                let s := addOvf (setAcc s c.team acc (fun _ => m)) c.ctx n
                let s := modCmd s id (fun c => { c with flags := fl })
                .next (completeCmd s { c with flags := fl })
            | .drain _ _ _ _ => .next (completeCmd s c)
            | .accld acc r _ =>
                let w := (elemFmt (r.fmt t)).width
                let f := elemFmt (r.fmt t)
                let cells := (List.range (r.box0 + 1)).flatMap (fun n => (List.range (r.box1 + 1)).map (fun m => (m, n)))
                let val := fun (m n : Nat) =>
                  if n < r.n0 ∧ m < r.n1 then
                    let x := bufElem c 0 (r.bitAddr w n m) w
                    match f with
                    | .flt .f16 => Fmt.f32.round .rne false (Fmt.f16.value x)
                    | .flt .bf16 => Fmt.f32.round .rne false (Fmt.bf16.value x)
                    | _ => (⟨x, 0⟩ : Rounded)
                  else ⟨0, 0⟩
                -- a signalling NaN that is converted sets NV (R215)
                let fl := cells.foldl (fun w e => w ||| (val e.1 e.2).flags) (0 : Word)
                let s := s.modGang c.team c.gang (fun g => g.setFlags fl)
                .next (completeCmd (setAcc (clearAccBad s c.team acc (inBox r.box1 r.box0)) c.team acc (fun mm => cells.foldl (fun mm e => accPut mm e.1 e.2 (val e.1 e.2).code) mm)) c)
            | .accz _ => .next (completeCmd s c)

/-! ### CPYGO and its checks -/

/-- Steps 1, 2 and 4 of R20 over a whole range (R381). -/
def rangeCheck (s : State) (tid : Nat) (t : Team) (k : AK) (a n : Nat) : Except Nat Unit :=
  let g : Quad := BitVec.ofNat 64 a
  if !canonical g then .error 1
  else if !spaceAccepts k (gaSel g) then .error 3
  else if gaSel g = 0 then (if a + n ≤ globalTop then .ok () else .error 1)
  else if 2 ^ 20 < a % 2 ^ 20 + n then .error 2
  else match locate s tid t 0 k n 1 g with | .error e => .error e | .ok _ => .ok ()

/-- Step 2 of R381: true when a field is rejected, or a `tgt` names no barrier object of R351. -/
def reqBad (s : State) (tid : Nat) (t : Team) (r : BitVec 512) : Bool :=
  let w := reqSlot t r
  let tgt := reqTgt r
  let sd := reqF r 265 265 == 1
  reqF r 511 288 != 0 || reqF r 263 256 != 0 || decide (4 < reqF r 287 285) || reqTk r == 3 || reqXf r == 3
    || (reqTk r == 0 && tgt != 0) || (reqTk r == 1 && decide (64 ≤ tgt))
    || (reqTk r == 2 && (match locate s tid t 0 .atom 16 16 (BitVec.ofNat 64 tgt) with | .error _ => true | .ok _ => false))
    || (reqXf r == 1 && ((cvtFmts w).isNone || slotRnd w == 4
          || (((elemFmt (slotA w)).width == 4 || (elemFmt (slotD w)).width == 4) && reqLen r % 2 == 1)))
    || (reqXf r == 2 && (reqDst r % 192 != 0 || reqLen r % 192 != 0))
    || (reqTk r == 1 && (decide (t.tileCount ≤ tgt) || decide ((t.tile tgt).size < reqDstLen t r)))
    || (sd && (decide (t.tileCount ≤ reqF r 271 266) ||
          (let x := t.tile (reqF r 271 266)
           match locate s tid t 0 .copyR (reqSrcLen t r) 1 (BitVec.ofNat 64 (reqSrc r)) with
           | .ok (.spad u off) => u != tid || decide (off < x.soff) || decide (x.soff + x.size < off + reqSrcLen t r)
           | _ => true)))

/-- A command of a gang enters its class queue; the counter rises (R157). -/
def issueCmd (s : State) (i : Iss) (cls : EngClass) (kind : CmdKind) (guard : Option Nat) (scope : Nat) : State :=
  let (id, s) := s.fresh
  let c : Cmd := { id, ctx := i.team.ctx, team := i.tid, gang := i.gid, core := i.team.place.core, ipc := i.frag.pc, cls, kind,
                   guard, scope, org := (mapGet i.gid i.team.gangs).elim i.origin (originOf i.team) }
  let s := { s with cmds := s.cmds ++ [c] }
  if c.uncounted then s else c.gangs.foldl (fun s g => s.modGang i.tid g (fun x => x.issueOp cls id scope)) s

/-- Procedural blocks that an engine's source runs touch, each with the offset that it starts at and the segment that reads it; and the pages
whose translation is not known (R93). -/
def engineTouches (s : State) (i : Iss) (k : AK) (segs : List Seg) : List Nat × List (Nat × Nat × Nat × Nat) :=
  (segs.zipIdx).foldl (fun r x => if x.1.write then r else x.1.parts.foldl (fun (r : List Nat × List (Nat × Nat × Nat × Nat)) p =>
    match locate s i.tid i.team 0 k p.2 1 (BitVec.ofNat 64 p.1) with
    | .ok (.page va) =>
        (match resolvePage s i k va with
          | .miss pn => (r.1 ++ [pn], r.2)
          | .at (.proc rn off) =>
              let w := if isPageRange s rn then 12288 else 192
              (r.1, r.2 ++ (List.range ((off + p.2 - 1) / w - off / w + 1)).map (fun j => (rn, off / w + j, (off / w + j) * w, x.2)))
          | _ => r)
    | _ => r) r) ([], [])

/-- An engine instruction of a gang with fill rights is held at issue until the home of every block that it touches has answered (R93). A
guarded request, and a sector expansion, whose reads depend on data, touch as they go (assumption 93). -/
def engineGate (s : State) (i : Iss) (fib : Nat) (k : AK) (segs : List Seg) : Res Unit :=
  if i.gang.rights.isEmpty && i.probes.isEmpty then .ok () s
  else
    match engineTouches s i k segs with
    | (p :: ps, _) => .wait (startWalks s i.team.ctx i.team.place.core false (p :: ps).eraseDups)
    | ([], l) => genTouchGate s i (l.map (fun e => (fib, Target.proc e.1 e.2.2.1))) 0 0

/-- The command goes on with the answers that its instruction's held touches got (R93). -/
def engineProbes (s : State) (i : Iss) (id : Nat) (k : AK) (segs : List Seg) : State :=
  if i.probes.isEmpty then s
  else
    let l := (engineTouches s i k segs).2
    let seg := fun (rn bix : Nat) => ((l.find? (fun e => e.1 == rn && e.2.1 == bix)).map (·.2.2.2)).getD 0
    let snaps := (i.probes.filter (fun t => t.ans == some 0 || t.ans == some 5)).map (fun t =>
      ({ rn := t.rn, bix := t.bix, failed := t.failed, data := t.data } : Snap))
    takeProbes (modCmd s id (fun c => { c with snaps := c.snaps ++ snaps })) i (fun rn bix => .cmd id (seg rn bix))

/-- `CPYGO` (R381). -/
def execCpygo (p : Pred) (a : Src) (s : State) : Out :=
  once s p [opA a] [] fun i vs s =>
    let off := (loWord (vs.getD 0 0)).toNat
    let fib := (active i p).headD 0
    let t := i.team
    if off % 64 ≠ 0 ∨ t.spsz < off + 64 then .trap (illopnd 5 fib) s
    else
      (spadReady s i.tid off 64 3 false (i.tid, i.gid, i.frag.pc)).bind fun _ s =>
        let r : BitVec 512 := BitVec.ofNat 512 (leNat (spadRead s i.tid off 64))
        if reqBad s i.tid t r then .trap (illopnd 5 fib) s
        else
          let peer := reqF r 264 264 == 1
          match rangeCheck s i.tid t (if peer then .peerR else .copyR) (reqSrc r) (reqSrcLen t r) with
          | .error c => .trap { cause := c, fib, addr := BitVec.ofNat 64 (reqSrc r) } s
          | .ok _ =>
              match rangeCheck s i.tid t (if peer then .peerW else .copyW) (reqDst r) (reqDstLen t r) with
              | .error c => .trap { cause := c, fib, addr := BitVec.ofNat 64 (reqDst r) } s
              | .ok _ =>
                  let cls : EngClass := if peer then .peer else .copy
                  let guard := if reqF r 281 281 == 1 then some (reqF r 280 277) else none
                  let segs := if guard.isSome ∨ reqXf r = 2 then [] else segsOf t (.copy r)
                  let k : AK := if peer then .peerR else .copyR
                  (engineGate s i fib k segs).bind fun _ s =>
                    if 63 ≤ i.gang.cnt cls then .wait s
                    else
                      let id := s.sched.nextId
                      .ok () (advance (engineProbes (issueCmd s i cls (.copy r) guard (reqF r 287 285)) i id k segs) (wordsOf [a]))

/-- `CPYQ` (R384). -/
def execCpyq (p : Pred) (d : Dst) (s : State) : Out :=
  direct s fun i =>
    let act := active i p
    let fs := if d.isScalar then act.take 1 else act
    (checked s i [] (fs.flatMap (dstRegs i.team.S i.gang d 1))).bind fun _ s =>
      let g := i.gang
      let v := g.cnt .copy + g.cnt .matrix * 2 ^ 8 + g.cnt .drain * 2 ^ 16 + g.cnt .peer * 2 ^ 24
      .ok () (advance (s.modCur (fun g => fs.foldl (fun g f => writeDst i.team.S g d false f (some (BitVec.ofNat 64 v))) g)) 1)

def fileIdx (d : Dst) : Nat := match d with | .file n => n.toNat | _ => 0

/-- Set a guard (R385). -/
def setGuard (s : State) (p : Pred) (d : Dst) (v : Iss → Nat → Guard) : Out :=
  direct s fun i =>
    match active i p with
    | [] => .ok () (advance s 1)
    | f :: _ => .ok () (advance (s.modTeam i.tid (fun t => { t with guards := mapPut (fileIdx d) (v i f) t.guards })) 1)

/-- `GUARDSET` (R385). -/
def execGuardset (p : Pred) (d : Dst) (a : Pred) (s : State) : Out :=
  setGuard s p d (fun i f => if i.gang.predVal f a then .isTrue else .isFalse)
/-- `GUARDCLR` (R385). -/
def execGuardclr (p : Pred) (d : Dst) (s : State) : Out := setGuard s p d (fun _ _ => .unresolved)

/-! ### GANGSET, MTILE and the accumulators -/

def setBits (x : BitVec 16) : List Nat := (List.range 16).filter (fun k => x.getLsbD k)

/-- `GANGSET` (R367). -/
def execGangset (p : Pred) (a : Src) (s : State) : Out :=
  once s p [opA a] [] fun i vs s =>
    let x := loWord (vs.getD 0 0)
    let b : BitVec 16 := x.extractLsb' 0 16
    let l := setBits b
    if x.toNat / 2 ^ 16 ≠ 0 ∨ !b.getLsbD i.gid ∨ l.length < 2 ∨ 6 < l.length ∨ l.any (fun k => decide (i.team.G ≤ k)) then
      .trap (illopnd 5 ((active i p).headD 0)) s
    else if i.gang.latch.isSome then .wait s
    else .ok () (advance (s.modCur (fun g => { g with gset := b })) (wordsOf [a]))

/-- A tile operand's extent holds every unclipped byte of the box, and an operand elsewhere names tile 0 (R368). -/
def tileHolds (t : Team) (b : Box) (tile : Nat) (runs : List (Nat × Nat)) : Bool :=
  if b.sp = 1 then
    let x := t.tile tile
    decide (tile < t.tileCount) && runs.all (fun r => decide (2 ^ 60 + x.soff ≤ r.1 ∧ r.1 + r.2 ≤ 2 ^ 60 + x.soff + x.size))
  else tile == 0

/-- The conditions of R368 and R371 on an MTILE's boxes. DESIGN CHOICE: the sparse lines of an MTILE.sp may stand at any multiple of 4 (R265),
whatever its `stride1` (assumption 105). -/
def mtileOk (t : Team) (sp : Bool) (a b : Box) (ta tb sc : Nat) (sco : Nat) (rel : Bool) : Bool :=
  let w := t.slot a.slot
  let wa := (elemFmt (a.fmt t)).width
  let wb := (elemFmt (b.fmt t)).width
  a.nd == 1 && b.nd == 1 && a.slot == b.slot && a.esel == 0 && b.esel == 1 && a.box0 == b.box0 && decide (a.box0 < 1024)
    && decide (a.box1 ≤ 63) && decide (b.box1 ≤ 63) && decide (a.sp < 2) && decide (b.sp < 2)
    && tileHolds t a ta (if sp then a.sparseRuns wa else a.runs wa) && tileHolds t b tb (b.runs wb)
    && (if rel then decide (sco < 5) else sco == 0) && (slotSfmt w != 0 || sc == 0)

/-- An MTILE reaches its latch, waits there, and opens it when it is the last (R369). -/
def mtileOp (s : State) (p : Pred) (i : Instr) (d : Dst) (ta tb : BitVec 6) (sc : Src) (g : BitVec 4) (ge z : Bool) (sco : BitVec 3)
    (rel : Bool) (ra rb : Shape) (sp : Bool) : Out :=
  direct s fun x =>
    let words := wordsOf [sc] + 8
    let low := x.frag.lowest
    let cancel := fun (s : State) => (s.modCur (fun g => { g with latch := none })).modFrag (fun f => { f with wait := .none })
    if x.team.nacc ≤ fileIdx d then .trap (illopnd 1 low) s
    else if inHandler x then .trap (illopnd 5 low) s
    else
      match active x p with
      | [] => .ok () (advance s words)
      | f :: _ =>
          let regs := (shapeRegs ra ++ shapeRegs rb).map (fun r => (⟨f, 3, false, r⟩ : Need))
          let needs := needsOf x.team.S x.gang [opB sc true] f ++ regs
          (judged s x needs []).bind fun _ s =>
            match boxOf x.gang ra, boxOf x.gang rb with
            | some a, some b =>
                let t := x.team
                let w := t.slot a.slot
                let scv := ((opndVal t.S x.gang (opB sc true) f).getD 0).toNat
                let ok := match matEntry w with | some (dn, spr) => if sp then spr else dn | none => false
                if !ok then .trap { cause := 0x0B, sub := if sp then 1 else 0, fib := f } s
                else if !mtileOk t sp a b ta.toNat tb.toNat scv sco.toNat rel ∨ x.gang.gset = 0 then .trap (illopnd 5 f) s
                else
                  let s := readParity s x needs
                  let set := setBits x.gang.gset
                  let mine : Latch := { gset := x.gang.gset, lead := f, instr := i, boxA := a, boxB := b, scales := scv,
                                        ipc := x.frag.pc, broken := false }
                  let same := fun (l : Latch) => l.gset == mine.gset && l.instr == mine.instr && l.boxA == a && l.boxB == b && l.scales == scv
                  match x.gang.latch with
                  | some l =>
                      if !x.frag.mask.getLsbD l.lead then .wait s
                      else if l.broken then .trap (illopnd 5 f) (cancel s)
                      else
                        let all := set.all (fun k => match (s.gang x.tid k).bind (·.latch) with | some m => same m && !m.broken | none => false)
                        let room := set.all (fun k => match s.gang x.tid k with | some y => decide (y.cnt .matrix < 63) | none => false)
                        -- a gang with fill rights issues the operation, so that its touches are the generator's (R93)
                        let holder := set.find? (fun k => match s.gang x.tid k with | some y => !y.rights.isEmpty | none => false)
                        if !all ∨ !room ∨ holder.any (· != x.gid) then .wait s
                        else
                          let guard := if ge then some g.toNat else none
                          let kind : CmdKind := .mtile sp (fileIdx d) z a b ta.toNat tb.toNat scv set
                          let segs := if guard.isSome then [] else segsOf t kind
                          (engineGate s x f .matrix segs).bind fun _ s =>
                          let id := s.sched.nextId
                          let s := engineProbes (issueCmd s { x with gid := holder.getD (set.headD x.gid) } .matrix kind guard
                            (if rel then sco.toNat else 1)) x id .matrix segs
                          let s := set.foldl (fun s k => settleGang (s.modGang x.tid k (fun y =>
                            let lead := y.latch.elim 64 (·.lead)
                            { y with
                              latch := none
                              frags := y.frags.map (fun fr => if fr.mask.getLsbD lead then
                                { fr with wait := .none, pc := fr.pc + BitVec.ofNat 64 (8 * words), passed := 0, young := false, oldest := false, rest := false } else fr) }))
                            x.tid k) s
                          .ok () s
                  | none =>
                      -- R369: the gang arrives; a mismatch breaks every gang of the set that waits
                      let others := set.filterMap (fun k => (s.gang x.tid k).bind (fun y => y.latch.map (fun l => (k, l))))
                      let named := (List.range 16).filterMap (fun k => (s.gang x.tid k).bind (fun y =>
                        y.latch.bind (fun l => if l.gset.getLsbD x.gid then some (k, l) else none)))
                      if (others ++ named).any (fun e => !same e.2) then
                        let s := (others ++ named).foldl (fun s e => s.modGang x.tid e.1 (fun y =>
                          { y with latch := y.latch.map (fun l => { l with broken := true }) })) s
                        .trap (illopnd 5 f) s
                      else
                        .wait ((s.modCur (fun y => { y with latch := some mine })).modFrag (fun fr => { fr with wait := .latch }))
            | _, _ => .trap (illopnd 4 f) s

/-- `MTILE` (R368-R374). -/
def execMtile (p : Pred) (d : Dst) (ta tb : BitVec 6) (sc : Src) (g : BitVec 4) (ge z : Bool) (sco : BitVec 3) (rel : Bool)
    (ra rb : Shape) (s : State) : Out :=
  mtileOp s p (.mtile p d ta tb sc g ge z sco rel ra rb) d ta tb sc g ge z sco rel ra rb false
/-- `MTILE.sp` (R370, R372). -/
def execMtilesp (p : Pred) (d : Dst) (ta tb : BitVec 6) (sc : Src) (g : BitVec 4) (ge z : Bool) (sco : BitVec 3) (rel : Bool)
    (ra rb : Shape) (s : State) : Out :=
  mtileOp s p (.mtilesp p d ta tb sc g ge z sco rel ra rb) d ta tb sc g ge z sco rel ra rb true

/-- `ACCZ` (R377): every word of the tile is zero, in the tile's order; the fragment does not wait. -/
def execAccz (p : Pred) (d : Dst) (s : State) : Out :=
  direct s fun i =>
    let a := fileIdx d
    if i.team.nacc ≤ a then .trap (illopnd 1 i.frag.lowest) s
    else
    match active i p with
    | [] => .ok () (advance s 1)
    | _ :: _ =>
        if accBusy s i.tid a s.sched.nextId then .ok () (advance (issueCmd s i .matrix (.accz a) none 0) 1)
        else .ok () (advance (setAcc (clearAccBad s i.tid a) i.tid a (fun _ => [])) 1)

/-- The conditions of R376 on a record; `add` and a conversion's rounding for ACCDRAIN. -/
def accBoxOk (t : Team) (r : Box) (tile : Nat) (drain add : Bool) : Bool :=
  let f := r.fmt t
  let conv := f == 1 || f == 2
  decide (r.nd < 2) && decide (r.box0 ≤ 63) && decide (r.box1 ≤ 63) && (f == 0 || f == 8 || conv)
    && (if drain then !(add && conv) && !(conv && slotRnd (t.slot r.slot) == 4)
        else decide (r.sp < 2) && tileHolds t r tile (r.runs (elemFmt f).width))

/-- `ACCLD` (R377): the fragment waits until the load completes. -/
def execAccld (p : Pred) (d : Dst) (n : BitVec 6) (r : Shape) (s : State) : Out :=
  direct s fun i =>
    match i.frag.wait with
    | .cmd id =>
        match getCmd s id with
        | some c => if c.st == CmdSt.complete then .ok () (advance (s.modFrag (fun f => { f with wait := .none })) 5) else .wait s
        | none => .ok () (advance (s.modFrag (fun f => { f with wait := .none })) 5)
    | _ =>
        if i.team.nacc ≤ fileIdx d then .trap (illopnd 1 i.frag.lowest) s
        else
        match active i p with
        | [] => .ok () (advance s 5)
        | f :: _ =>
            (checked s i ((shapeRegs r).map (fun x => (⟨f, 3, false, x⟩ : Need))) []).bind fun _ s =>
              match boxOf i.gang r with
              | none => .trap (illopnd 4 f) s
              | some b =>
                  if !accBoxOk i.team b n.toNat false false then .trap (illopnd 5 f) s
                  else
                    let segs := segsOf i.team (.accld (fileIdx d) b n.toNat)
                    (engineGate s i f .matrix segs).bind fun _ s =>
                    let id := s.sched.nextId
                    let s := engineProbes (issueCmd s i .matrix (.accld (fileIdx d) b n.toNat) none 0) i id .matrix segs
                    .wait (s.modFrag (fun f => { f with wait := .cmd id }))

/-- `ACCDRAIN` (R378). -/
def execAccdrain (p : Pred) (d : Dst) (add z : Bool) (g : BitVec 4) (ge : Bool) (sco : BitVec 3) (rel : Bool) (r : Shape)
    (s : State) : Out :=
  direct s fun i =>
    if i.team.nacc ≤ fileIdx d then .trap (illopnd 1 i.frag.lowest) s
    else
    match active i p with
    | [] => .ok () (advance s 5)
    | f :: _ =>
        (checked s i ((shapeRegs r).map (fun x => (⟨f, 3, false, x⟩ : Need))) []).bind fun _ s =>
          match boxOf i.gang r with
          | none => .trap (illopnd 4 f) s
          | some b =>
              if !accBoxOk i.team b 0 true add ∨ (if rel then decide (4 < sco.toNat) else sco != 0) then .trap (illopnd 5 f) s
              else if 63 ≤ i.gang.cnt .drain then .wait s
              else
                .ok () (advance (issueCmd s i .drain (.drain (fileIdx d) add z b) (if ge then some g.toNat else none)
                  (if rel then sco.toNat else 1)) 5)

end Sys2Proof.Machine
end

