-- ==== Sys2Proof/Machine/Sampler.lean ====
section
/-! DEFINITION. The Damask sampler (R399-R420, R437-R439): reads of the unit, headers, classic filtering, neural evaluation,
the weight cache, and the instructions. -/

namespace Sys2Proof.Machine

/-! ### Reads of the unit -/

/-- A result under way for one fibre: the state, the operation, what its reads have met. -/
structure Rd where
  s : State
  team : Team
  x : PendSample
  fib : Nat
  used : List Nat := []
  bad : Option (Nat × Nat) := none
  blk : Option (Nat × Nat × Nat) := none

/-- A computation that reads memory: it answers with the reads done, or stops with the state in which it waits. -/
abbrev RdM := StateT Rd (Except State)

/-- An abandoned access supplies zeros; the first one's cause and address are kept (R401). -/
def rdDrop (c a n : Nat) : RdM (List Byte) := fun r =>
  .ok (List.replicate n 0, { r with bad := r.bad.orElse (fun _ => some (c, a)) })

/-- Does an instruction's record for a page wait for its reply? Accesses to the page wait with it (R401). -/
def pageHeld (s : State) (x : PendSample) (pn : Nat) : Bool :=
  s.xl.recs.any (fun r => r.who == .sample x.id && r.pages.any (fun p => p.pn == pn))

/-- The fault record of a sampler or intersection operation (R119, R401): one for each page of an instruction. -/
def sampleRecord (s : State) (t : Team) (x : PendSample) (fib va : Nat) (w fz : Bool) : State :=
  if pageHeld s x (va / 12288) then s
  else
    let r : FaultRec := { tag := freeTag s, who := .sample x.id, ipc := x.ipc, fva := BitVec.ofNat 64 va, ctx := x.ctx,
                          core := t.place.coreid, gslot := x.org.gslot, src := 0, ra := 0, ffib := fib, ovf := false, agent := x.org.agent,
                          pages := [⟨va / 12288, w, fz⟩] }
    useFault (s.modXl (fun y => { y with recs := y.recs ++ [r] })) x.ctx x.core (va / 12288)

/-- An access waits for the reply to its page's record (R401). -/
def rdHold (s : State) (x : PendSample) (fib pn a : Nat) : State :=
  s.modPend (fun p => { p with samples := p.samples.map (fun y =>
    if y.id == x.id && !y.waitAt.contains (pn, fib, a) then { y with waitAt := y.waitAt ++ [(pn, fib, a)] } else y) })

/-- The touches of one operation. -/
def sampleTouch (id : Nat) (w : Toucher) : Bool := match w with | .sample n _ => n == id | _ => false

/-- Where an access of the unit lands; `none` for one that is abandoned with a cause. -/
def rdTarget (k : AK) (w : Bool) (a n : Nat) : RdM (Except Nat Target) := fun r =>
  let s := r.s
  match (if 2 ^ 64 ≤ a then .error 1 else locate s r.x.team r.team 0 .sampler n 1 (BitVec.ofNat 64 a)) with
  | .error c => .ok (.error c, r)
  | .ok (.page va) =>
      let pn := va / 12288
      if r.x.zeroAt.contains (r.fib, a) then .ok (.error 4, r)
      else if pageHeld s r.x pn then .error (rdHold s r.x r.fib pn a)
      else match translate s r.x.ctx r.x.core pn with
        | .miss => .error (startWalk s r.x.ctx r.x.core pn)
        | .fault 4 fz => .error (rdHold (sampleRecord s r.team r.x r.fib va w fz) r.x r.fib pn a)
        | .fault c _ => .ok (.error c, { r with used := pn :: r.used })
        | .hit l _ =>
            let right := fun rn b => match s.gang r.x.team r.x.gang with | some g => g.holdsRight rn b | none => false
            match landing s r.x.ctx va k right l with
            | .ok t => .ok (.ok t, r)
            | .error e =>
                (match (if w then none else readOn s r.x.snaps (sampleTouch r.x.id) r.x.ctx va l) with
                  | some t => .ok (.ok t, r)
                  | none => .ok (.error e, r))
  | .ok _ => .ok (.error 3, r)

/-- Texel-cache sector (R61). -/
def texHas (c : Core) (k : LineKey) (sec : Nat) : Option (List Byte) := l1Has { c with l1 := c.texel } k sec

/-- The fibre's reads go on later; the instruction keeps which fibres have been tried, and the block that one has asked for
(R93, R199). -/
def rdTried (s : State) (r : Rd) (b : Option (Nat × Nat)) : State :=
  let more := match b with | some (rn, bix) => [(r.fib, rn, bix)] | none => []
  s.modPend (fun p => { p with samples := p.samples.map (fun y =>
      if y.id == r.x.id then { y with tried := (r.fib :: y.tried).eraseDups, asks := (more ++ y.asks).eraseDups } else y) })

/-- The block whose failure marks a result: of a trap-policy range, where there is one (R97). -/
def worseBlock (a : Option (Nat × Nat × Nat)) (b : Nat × Nat × Nat) : Option (Nat × Nat × Nat) :=
  match a with
  | some x => if x.1 ≠ 1 ∧ b.1 = 1 then some b else some x
  | none => some b

/-- Read bytes that lie in one sector (R400), through the texel cache unless they are weights; a procedural line's sectors stay there
(R61, R79, R95), but not those of a block that the gang itself fills (R166), nor what was obtained before the cache was invalidated. A line
that a later store of the gang has replaced reads as it stood (R146 rule 3). -/
def rdSector (tex : Bool) (a n : Nat) : RdM (List Byte) := do
  match ← rdTarget .sampler false a n with
  | .error c => rdDrop c a n
  | .ok t =>
    fun r =>
      match keyOf r.s t with
      | none => rdDrop 3 a n r
      | some (k, off) =>
          match r.x.seen.find? (fun e => e.1 == k) with
          | some e => .ok (memBytes e.2 off n, r)
          | none =>
          match (if tex then texHas (r.s.core r.x.core) k (off / 48) else none) with
          | some bs => .ok ((List.range n).map (fun j =>
              if openAt r.s k (off + j) then Config.openByte r.s.sched.now (byteNumber k (off + j)) else bs.getD (off % 48 + j) 0), r)
          | none =>
              match t with
              | .proc rn o =>
                  let b := blockOf r.s rn o
                  let lib := match k with | .proc _ _ l => l | _ => 0
                  (match blockFor r.s (r.x.snaps.filter (fun x => x.lib == lib)) (.sample r.x.id lib) r.x.ctx rn b with
                    | (none, s) => .error (rdTried s r (some (rn, b)))
                    | (some y, s) =>
                        match y.failed with
                        | some f => .ok (List.replicate n 0, { r with s, blk := worseBlock r.blk f })
                        | none =>
                            match snapAccess s y r.x.ctx k off n 5 with
                            | (false, s) => .error (rdTried s r none)
                            | (true, s) =>
                                let s := if tex && !y.own && !r.x.quiet && fillState s rn b == .filled then
                                    texInstall s r.x.core k (off / 48) (snapBytes s y.data rn (o - off % 48) 48)
                                  else s
                                .ok (snapBytes s y.data rn o n, { r with s }))
              | _ =>
                  match homeReady r.s k off n false true false r.x.id with
                  | .wait s => .error (rdTried s r none)
                  | .failed s => rdDrop 8 a n { r with s }
                  | .ready s =>
                      let s := homeFill (eccEvents s (some r.x.ctx) k off n 5) k off n
                      let s' := if tex then texInstall s r.x.core k (off / 48) (homeRead s k (off / 48 * 48) 48) else s
                      .ok (homeRead s k off n, { r with s := s' })

/-- Pieces of a run that lie each in one sector. -/
def sectorPieces (a n : Nat) : List (Nat × Nat) :=
  if n = 0 then [] else
  (List.range ((a + n - 1) / 48 - a / 48 + 1)).map (fun i =>
    let s := max a ((a / 48 + i) * 48)
    (s, min (a + n) ((a / 48 + i + 1) * 48) - s))

def rdPieces (tex : Bool) : List (Nat × Nat) → RdM (List Byte)
  | [] => pure []
  | p :: t => do
      let x ← rdSector tex p.1 p.2
      let y ← rdPieces tex t
      pure (x ++ y)

/-- Where one piece of a read waits for the reply to its page's record, the rest of the read on that page waits with it (R401). -/
def holdRest (s : State) (id fib : Nat) (ps : List (Nat × Nat)) : State :=
  s.modPend (fun p => { p with samples := p.samples.map (fun y =>
    if y.id == id then
      match y.waitAt.find? (fun w => w.2.1 == fib && ps.any (fun q => q.1 == w.2.2)) with
      | some w =>
          let rest := (ps.dropWhile (fun q => q.1 != w.2.2)).filter (fun q => q.1 / 12288 == w.2.2 / 12288)
          { y with waitAt := (y.waitAt ++ rest.map (fun q => (w.1, fib, q.1))).eraseDups }
      | none => y
    else y) })

/-- The bytes of one read of the unit. -/
def rdBytes (tex : Bool) (a n : Nat) : RdM (List Byte) := fun r =>
  match rdPieces tex (sectorPieces a n) r with
  | .ok x => .ok x
  | .error s => .error (holdRest s r.x.id r.fib (sectorPieces a n))
/-- A little-endian number of n bytes, through the texel cache. -/
def rdNat (a n : Nat) : RdM Nat := do pure (leNat (← rdBytes true a n))

/-- For each element in turn. -/
def rdEach {α β : Type} (f : α → RdM β) : List α → RdM (List β)
  | [] => pure []
  | x :: t => do
      let y ← f x
      let ys ← rdEach f t
      pure (y :: ys)

/-! ### Headers -/

/-- Field of a header. -/
def hdrF (h hi lo : Nat) : Nat := natBits h hi lo
/-- The common part of a header of a kind (R404). -/
def hdrKind (h k : Nat) : Bool := hdrF h 3 0 == k && hdrF h 31 4 == 0 && hdrF h 63 48 == 0

/-- A classic texture (R405). -/
structure Tex where
  base : Nat
  dim3 : Bool
  nlev : Nat
  tfmt : Nat
  dep : Nat
  hgt : Nat
  wid : Nat
  deriving DecidableEq, Repr

def texOf (h : Nat) : Option Tex :=
  if hdrKind h 1 && hdrF h 1535 256 == 0 && hdrF h 191 142 == 0 && hdrF h 135 133 == 0 && hdrF h 79 64 == 0
      && decide (hdrF h 141 140 < 2 ∧ hdrF h 132 128 ≤ 10) && hdrF h 255 192 % 192 == 0 then
    some { base := hdrF h 255 192, dim3 := hdrF h 141 140 == 1, nlev := hdrF h 139 136, tfmt := hdrF h 132 128,
           dep := hdrF h 127 112, hgt := hdrF h 111 96, wid := hdrF h 95 80 }
  else none

/-- Channels, bytes of a channel (R406). -/
def texChans (f : Nat) : Nat × Nat :=
  match f with
  | 0 => (1, 1) | 1 => (2, 1) | 2 => (4, 1) | 3 => (1, 2) | 4 => (2, 2) | 5 => (4, 2)
  | 6 => (1, 4) | 7 => (2, 4) | 8 => (4, 4) | 9 => (4, 2) | _ => (1, 1)
def texBytes (f : Nat) : Nat := (texChans f).1 * (texChans f).2

/-- Value of a stored channel (R406). -/
def chanValue (f x : Nat) : FV :=
  match f with
  | 0 | 1 | 2 => .fin false ((x : Rat) / 255)
  | 3 | 4 | 5 => Fmt.f16.value x
  | 6 | 7 | 8 => Fmt.f32.value x
  | 9 => .fin false ((x : Rat) / 65535)
  | _ => Fmt.f8e4.value x
/-- The four channels of a texel; the lacking ones read 0, 0 and 1 (R406). -/
def texelChans (f x : Nat) : List FV :=
  let (n, b) := texChans f
  (List.range 4).map (fun c =>
    if c < n then chanValue f (elemAt x (8 * b) c) else if c = 3 then .fin false 1 else .fin false 0)

/-- Size of a level along an axis (R407). -/
def levelSize (n l : Nat) : Nat := max 1 (n / 2 ^ l)
def Tex.w (t : Tex) (l : Nat) : Nat := levelSize (t.wid + 1) l
def Tex.h (t : Tex) (l : Nat) : Nat := levelSize (t.hgt + 1) l
def Tex.d (t : Tex) (l : Nat) : Nat := if t.dim3 then levelSize (t.dep + 1) l else t.dep + 1
/-- Row pitch of w texels of tb bytes (R407). -/
def rowPitch (w tb : Nat) : Nat := 192 * ((w * tb + 191) / 192)
/-- Offset of level l where each level's bytes are given (R407). -/
def levelOff (bytes : Nat → Nat) (l : Nat) : Nat := (List.range l).foldl (fun o j => o + bytes j) 0
def Tex.addr (t : Tex) (l x y z : Nat) : Nat :=
  let tb := texBytes t.tfmt
  let sp := fun j => rowPitch (t.w j) tb * t.h j
  t.base + levelOff (fun j => sp j * t.d j) l + z * sp l + y * rowPitch (t.w l) tb + x * tb

/-! ### Filtering -/

/-- Texel of an index by an addressing code; none for the border (R413). -/
def addrTexel (code : Nat) (i : Int) (n : Nat) : Option Nat :=
  match code with
  | 0 => some (i % n).toNat
  | 1 => some (min (max i 0) (n - 1)).toNat
  | 2 => let m := (i % (2 * n : Nat)).toNat; some (if m < n then m else 2 * n - 1 - m)
  | _ => if 0 ≤ i ∧ i < n then some i.toNat else none

/-- Texels and weights along an axis (R415, R416): `rb` is the random byte of stochastic filtering. -/
def taps (c : Rat) (n code : Nat) (lin : Bool) (rb : Option Nat) : List (Option Nat × Rat) :=
  if !lin then [(addrTexel code (c * n).floor n, 1)]
  else
    let p := c * n - 1 / 2
    let i := p.floor
    let f256 := (256 * (p - i)).floor
    match rb with
    | some b => [(addrTexel code (if (b : Int) < f256 then i + 1 else i) n, 1)]
    | none =>
        let f : Rat := (f256 : Rat) / 256
        [(addrTexel code i n, 1 - f), (addrTexel code (i + 1) n, f)].filter (fun t => t.2 != 0)

/-- The exact weighted sum of one channel, rounded once (R415). A zero sum is -0 only when every term is. -/
def blend (l : List (Rat × FV)) : Word :=
  let vs := l.map (·.2)
  let pinf := vs.contains (.inf false)
  let ninf := vs.contains (.inf true)
  let v : FV :=
    if vs.any (·.isNan) || (pinf && ninf) then .nan false
    else if pinf then .inf false
    else if ninf then .inf true
    else
      let x := l.foldl (fun (x : Rat) t => x + t.1 * t.2.rat) 0
      if x = 0 then .fin (!vs.isEmpty && vs.all (fun v => v.isZero && v.neg?)) 0 else FV.ofRat false x
  BitVec.ofNat 32 (Fmt.f32.round .rne false v).code

/-- The stochastic sequence (R416). -/
def sseq (seed key n : Nat) : Nat :=
  let m := 2 ^ 32
  let h := (seed + key * 0x2C1B3C6D + n * 0x9A71E2B3) % m
  let h := ((h ^^^ (h >>> 16)) * 0x6A2F91C5) % m
  let h := ((h ^^^ (h >>> 15)) * 0xB3D40E67) % m
  h ^^^ (h >>> 16)

/-- Fields of a control word (R411). -/
structure Ctl where
  flt : Nat
  au : Nat
  av : Nat
  aw : Nat
  lod : Nat
  st : Bool
  nc : Nat
  rsvd : Nat
  seed : Nat
  deriving DecidableEq, Repr
def ctlOf (w : Quad) : Ctl :=
  { flt := bitsOf w 1 0, au := bitsOf w 3 2, av := bitsOf w 5 4, aw := bitsOf w 7 6, lod := bitsOf w 9 8, st := w.getLsbD 10,
    nc := bitsOf w 12 11, rsvd := bitsOf w 31 13, seed := bitsOf w 63 32 }
/-- Field values an instruction accepts (R411). -/
def Ctl.legal (c : Ctl) (k : SampKind) : Bool :=
  c.rsvd == 0 && match k with
    | .sample => c.flt != 3 && decide (c.lod < 2)
    | .sampleg => c.flt != 3 && c.lod == 2
    | .fetch => c.flt == 0 && c.lod == 0 && !c.st
    | _ => decide (c.flt < 2) && c.aw == 0 && c.lod == 1
/-- Registers of the coordinate run (R412). -/
def Ctl.coords (c : Ctl) (k : SampKind) : Nat :=
  (match k with | .sample => if c.lod = 0 then 4 else 3 | .sampleg => 7 | .fetch => 4 | _ => 2)
    + (if c.st && k != .fetch then 1 else 0)

/-- The texels of a level with their weights (R415, R416): three axes, the layer of an array unfiltered (R413). -/
def levelTaps (t : Tex) (c : Ctl) (u v w : Rat) (r : Option Nat) (l : Nat) (wt : Rat) : List (Option (Nat × Nat × Nat) × Rat) :=
  let lin := c.flt != 0
  let byte := fun k => r.map (fun x => natBits x (k + 7) k)
  let zs : List (Option Nat × Rat) :=
    if t.dim3 then taps w (t.d l) c.aw lin (byte 24) else [(addrTexel 1 (w + 1 / 2).floor (t.dep + 1), 1)]
  (taps u (t.w l) c.au lin (byte 0)).flatMap (fun x => (taps v (t.h l) c.av lin (byte 8)).flatMap (fun y => zs.map (fun z =>
    (match x.1, y.1, z.1 with | some a, some b, some d => some (a, b, d) | _, _, _ => none, wt * x.2 * y.2 * z.2))))

/-- Channels of a texel; all 0 in the border (R413). -/
def rdTexel (t : Tex) (l : Nat) (p : Option (Nat × Nat × Nat)) : RdM (List FV) :=
  match p with
  | none => pure (List.replicate 4 (.fin false 0))
  | some (x, y, z) => do pure (texelChans t.tfmt (← rdNat (t.addr l x y z) (texBytes t.tfmt)))

/-- λ of R414, over a list of values: lod for code 0, the gradients for code 2. -/
def lambdaOf (t : Tex) (c : Ctl) (x : List Rat) : Rat :=
  let clamp := fun (q : Rat) => min (max q 0) (t.nlev : Rat)
  match c.lod with
  | 0 => ((256 * clamp (x.getD 0 0)).floor : Rat) / 256
  | 2 =>
      let W : Rat := (t.wid + 1 : Nat)
      let H : Rat := (t.hgt + 1 : Nat)
      let sq := fun i j => (x.getD i 0 * W) * (x.getD i 0 * W) + (x.getD j 0 * H) * (x.getD j 0 * H)
      let rho := max (sq 0 1) (sq 2 3)
      if rho = 0 then 0 else clamp ((floorLog2 (rho ^ 128) : Rat) / 256)
  | _ => 0

def dnan32 : Word := BitVec.ofNat 32 Fmt.f32.dnan

/-- SAMPLE and SAMPLEG for one fibre (R413-R416, R438). -/
def classic (t : Tex) (k : SampKind) (c : Ctl) (pidx : Nat) (src : List Word) : RdM (List Word) := do
  let floats := (src.take (c.coords k - (if c.st then 1 else 0))).map f32
  if floats.any (fun v => match v with | .fin _ _ => false | _ => true) then pure (List.replicate 4 dnan32)
  else
    let q := floats.map FV.rat
    let r := if c.st then some (sseq c.seed pidx (src.getD (c.coords k - 1) 0).toNat) else none
    let lam := lambdaOf t c (q.drop 3)
    let levels : List (Nat × Rat) :=
      if c.flt = 2 then
        let l0 := lam.floor.toNat
        let l1 := min (l0 + 1) t.nlev
        let f := lam - lam.floor
        match r with
        | some x => [(if (natBits x 23 16 : Rat) < 256 * f then l1 else l0, 1)]
        | none => [(l0, 1 - f), (l1, f)].filter (fun e => e.2 != 0)
      else [((lam + 1 / 2).floor.toNat, 1)]
    let ts := levels.flatMap (fun e => (levelTaps t c (q.getD 0 0) (q.getD 1 0) (q.getD 2 0) r e.1 e.2).map (fun p => (e.1, p)))
    let cs ← rdEach (fun (e : Nat × Option (Nat × Nat × Nat) × Rat) => do pure (e.2.2, ← rdTexel t e.1 e.2.1)) ts
    pure ((List.range 4).map (fun ch => blend (cs.map (fun e => (e.1, e.2.getD ch (.fin false 0))))))

/-- FETCH for one fibre (R438). -/
def fetchTexel (t : Tex) (c : Ctl) (src : List Word) : RdM (List Word) := do
  let int := fun k => sextNat (src.getD k 0).toNat 32
  let l := (min (max (int 3) 0) t.nlev).toNat
  let z := addrTexel (if t.dim3 then c.aw else 1) (int 2) (t.d l)
  let p := match addrTexel c.au (int 0) (t.w l), addrTexel c.av (int 1) (t.h l), z with
    | some x, some y, some z => some (x, y, z)
    | _, _, _ => none
  let cs ← rdTexel t l p
  pure (cs.map (fun v => BitVec.ofNat 32 (Fmt.f32.round .rne false v).code))

/-! ### Neural textures -/

/-- A neural texture (R408). -/
structure Neural where
  gen : Nat
  wbase : Nat
  nfw : Word
  nwl : Nat
  layers : List (Nat × Nat)
  lbase : Nat
  lfmt : Fmt
  C : Nat
  nlv : Nat
  lw : Nat
  lh : Nat
  deriving DecidableEq, Repr

/-- Where a layer's parts lie in the weight block (R410). -/
structure LayerAt where
  I : Nat
  O : Nat
  act : Nat
  row : Nat
  w : Nat
  sc : Nat
  bias : Nat
  after : Nat
  deriving DecidableEq, Repr

def up (x m : Nat) : Nat := (x + m - 1) / m * m
def layerAt (nfw : Word) (start I O act : Nat) : LayerAt :=
  let w := up start 192
  let row := (I * (elemFmt (slotB nfw)).width + 7) / 8
  let sc := up (w + O * row) 4
  let scEnd := if slotSfmt nfw = 0 then sc else sc + O * scaleCount nfw I * scaleBytes nfw
  let bias := up scEnd 4
  { I, O, act, row, w, sc, bias, after := bias + 4 * O }
def layersAt (nfw : Word) : Nat → Nat → List (Nat × Nat) → List LayerAt
  | _, _, [] => []
  | start, I, (act, O) :: t =>
      let l := layerAt nfw start I O act
      l :: layersAt nfw l.after O t
def Neural.places (n : Neural) : List LayerAt := layersAt n.nfw 0 (n.nlv * n.C) n.layers

/-- A neural header, if it is well-formed (R408, R409). -/
def neuralOf (h : Nat) : Option Neural :=
  let nlay := hdrF h 175 174
  let word := fun l => natBits h (256 + 16 * l + 15) (256 + 16 * l)
  let used := (List.range (nlay + 1)).map word
  let lf := hdrF h 173 172
  let n : Neural := {
    gen := hdrF h 47 32, wbase := hdrF h 447 384, nfw := BitVec.ofNat 32 (hdrF h 383 352), nwl := hdrF h 344 336,
    layers := used.map (fun w => (natBits w 7 6, natBits w 5 0 + 1)), lbase := hdrF h 255 192,
    lfmt := if lf = 0 then .f8e4 else if lf = 1 then .f4e2 else .f16, C := if h.testBit 171 then 16 else 8,
    nlv := hdrF h 170 168 + 1, lw := hdrF h 95 80 + 1, lh := hdrF h 111 96 + 1 }
  let rsvd := [(1535, 448), (351, 345), (335, 320), (191, 176), (167, 112), (79, 64)].all (fun e => hdrF h e.1 e.2 == 0)
  let words := used.all (fun w => natBits w 15 8 == 0 && natBits w 7 6 != 3) &&
    ((List.range 4).drop (nlay + 1)).all (fun l => word l == 0)
  let nfwOk := bitsOf n.nfw 31 28 == 0 && bitsOf n.nfw 7 0 == 0 && slotD n.nfw == 0 && decide (slotRnd n.nfw < 4)
    && (match matEntry n.nfw with | some (d, _) => d | none => false)
  if hdrKind h 2 && rsvd && words && nfwOk && lf != 3 && decide (n.lw ≤ 4096 ∧ n.lh ≤ 4096 ∧ 1 ≤ n.nwl ∧ n.nwl ≤ 128)
      && decide (n.nlv * n.C ≤ 64) && decide (((n.layers.getLast?).elim 0 (·.2)) ≤ 4)
      && n.wbase % 192 == 0 && n.lbase % 192 == 0
      && n.nwl == (((n.places.getLast?).elim 0 (·.after)) + 191) / 192 then some n
  else none

/-- The feature vector (R417). -/
def features (n : Neural) (c : Ctl) (pidx sn : Nat) (u v : Rat) : RdM (List Word) := do
  let w := n.lfmt.width
  let tb := n.C * w / 8
  let lw := fun j => levelSize n.lw j
  let lh := fun j => levelSize n.lh j
  let off := fun j => levelOff (fun i => rowPitch (lw i) tb * lh i) j
  let xs ← rdEach (fun j => do
    let r := if c.st then some (sseq c.seed pidx ((8 * sn + j) % 2 ^ 32)) else none
    let byte := fun k => r.map (fun x => natBits x (k + 7) k)
    let ts := (taps u (lw j) c.au (c.flt != 0) (byte 0)).flatMap (fun x =>
      (taps v (lh j) c.av (c.flt != 0) (byte 8)).map (fun y => (x.1, y.1, x.2 * y.2)))
    let cs ← rdEach (fun (e : Option Nat × Option Nat × Rat) => do
      let x ← match e.1, e.2.1 with
        | some x, some y => rdNat (n.lbase + off j + y * rowPitch (lw j) tb + x * tb) tb
        | _, _ => pure 0
      pure (e.2.2, x)) ts
    pure ((List.range n.C).map (fun ch => blend (cs.map (fun e => (e.1, n.lfmt.value (elemAt e.2 w ch))))))) (List.range n.nlv)
  pure xs.flatten

/-- The activations of R418. -/
def activate (a : Nat) (y : Word) : Word :=
  match f32 y with
  | .nan _ => dnan32
  | v =>
      if a ≠ 0 ∧ v.neg? then 0
      else if a == 2 && (match v with | .inf _ => true | _ => decide (1 < v.rat)) then 0x3F800000
      else y

/-- Element codes of a layer's input and its scale codes (R418, R326). -/
def convertInput (nfw : Word) (xs : List Word) : List Nat × List Nat × Word :=
  let e := elemFmt (slotA nfw)
  let d := rndOf (slotRnd nfw)
  if slotSfmt nfw = 0 then
    let rs := xs.map (fun x => e.convert d (slotSat nfw) (f32 x))
    (rs.map (·.code), [], rs.foldl (fun f r => f ||| r.flags) 0)
  else
    let B := slotBlock nfw
    let blocks := (List.range ((xs.length + B - 1) / B)).map (fun b => ((xs.drop (b * B)).take B).map f32)
    let rs := blocks.map (fun vs =>
      let sc := packScale (slotSfmt nfw) e (vs.foldl (fun m v => match v with | .fin _ x => max m x | _ => m) (0 : Rat))
      let s := (scaleValue (slotSfmt nfw) sc).getD 1
      (vs.map (fun v => e.convert d true (match v with | .fin n x => .fin n (x / s) | v => v)), sc))
    ((rs.flatMap (·.1)).map (·.code), rs.map (·.2), (rs.flatMap (·.1)).foldl (fun f r => f ||| r.flags) 0)

/-- A layer: results, flags, overflows (R418, R222). -/
def runLayer (nfw : Word) (blk : List Byte) (l : LayerAt) (xs : List Word) : List Word × Word × Nat :=
  let (as, sas, fl) := convertInput nfw xs
  let wb := (elemFmt (slotB nfw)).width
  let num := fun a n => leNat ((blk.drop a).take n)
  let sb := scaleBytes nfw
  let rs := (List.range l.O).map (fun o =>
    let row := num (l.w + o * l.row) l.row
    matElem nfw ((List.range l.I).map (fun k => (k, as.getD k 0, elemAt row wb k)))
      (fun g => sas.getD g 0) (fun g => num (l.sc + sb * (o * scaleCount nfw l.I + g)) sb) (num (l.bias + 4 * o) 4))
  (rs.map (fun r => activate l.act (BitVec.ofNat 32 r.code)), rs.foldl (fun f r => f ||| r.flags) fl,
   (rs.filter (·.ovf)).length)

def runNet (nfw : Word) (blk : List Byte) : List LayerAt → List Word → List Word × Word × Nat
  | [], xs => (xs, 0, 0)
  | l :: t, xs =>
      let (ys, f, n) := runLayer nfw blk l xs
      let (zs, g, m) := runNet nfw blk t ys
      (zs, f ||| g, n + m)

/-! ### The weight cache -/

/-- A header is read with a generation: other generations of it leave (R419). -/
def seeGen (c : Core) (ctx hdr gen : Nat) : Core :=
  { c with weights := c.weights.filter (fun w => !(w.ctx == ctx && w.hdr == hdr && w.gen != gen)) }
/-- The block of a tag (R419). -/
def weightHit (c : Core) (ctx hdr : Nat) (n : Neural) : Option WBlock :=
  c.weights.find? (fun w => w.ctx == ctx && w.hdr == hdr && w.gen == n.gen)
def weightLines (l : List WBlock) : Nat := l.foldl (fun n w => n + w.lines) 0
/-- PRESENT blocks leave, the longest held first, until n lines fit (R419). -/
def evictWeights (n : Nat) : Nat → List WBlock → List WBlock
  | 0, l => l
  | k + 1, l =>
      if weightLines l + n ≤ 256 then l
      else match l.find? (fun w => !w.pinned) with
        | some w => evictWeights n k (l.erase w)
        | none => l
def weightAdd (c : Core) (b : WBlock) : Core :=
  let rest := c.weights.filter (fun w => !(w.ctx == b.ctx && w.hdr == b.hdr))
  { c with weights := evictWeights b.lines rest.length rest ++ [b] }
/-- Lines pinned, by blocks other than one. -/
def pinnedLines (c : Core) : Nat := weightLines (c.weights.filter (·.pinned))

def rdMod (f : State → State) : RdM Unit := fun r => .ok ((), { r with s := f r.s })

/-- The header of a neural texture, with its effect on the weight cache. -/
def rdNeural (hdr : Nat) : RdM (Option Neural) := do
  let h ← rdNat hdr 192
  fun r => .ok (neuralOf h,
    if hdrF h 3 0 = 2 then { r with s := r.s.modCore r.x.core (fun c => seeGen c r.x.ctx hdr (hdrF h 47 32)) } else r)

/-- The weight block, from the cache or fetched into it (R419, R420). Of a cached block that is shorter than its header now says, the bytes
behind its end are free values (assumption 44). -/
def rdWeights (hdr : Nat) (n : Neural) (pin : Bool) : RdM (List Byte) := do
  let r ← get
  match weightHit (r.s.core r.x.core) r.x.ctx hdr n with
  | some b =>
      rdMod (fun s => s.modCore r.x.core (fun c =>
        { c with weights := c.weights.map (fun w => if w == b then { w with pinned := w.pinned || pin } else w) }))
      pure (b.bytes ++ (List.range (192 * n.nwl - b.bytes.length)).map (fun j =>
        Config.openByte r.s.sched.now (2 ^ 59 + n.wbase + b.bytes.length + j)))
  | none =>
      let bs ← rdBytes false n.wbase (192 * n.nwl)
      rdMod (fun s => s.modCore r.x.core (fun c => weightAdd c ⟨r.x.ctx, hdr, n.gen, pin, n.nwl, bs⟩))
      pure bs

/-! ### Results -/

/-- What a fibre's operation answers: its registers, flags and overflows, or a malformed header. -/
inductive SampAns where
  | regs (l : List Word) (flags : Word) (ovf : Nat)
  | badHeader
  | pin (b : Bool)
  deriving DecidableEq, Repr

/-- NSAMPLE for one fibre (R417, R418, R415). -/
def neural (hdr : Nat) (c : Ctl) (pidx : Nat) (src : List Word) : RdM SampAns := do
  match ← rdNeural hdr with
  | none => pure .badHeader
  | some n =>
      match (src.take 2).map f32 with
      | [.fin a u, .fin b v] =>
          let sn := (src.getD 2 0).toNat
          let xs ← features n c pidx sn (FV.fin a u).rat (FV.fin b v).rat
          let blk ← rdWeights hdr n false
          let (ys, f, o) := runNet n.nfw blk n.places xs
          pure (.regs ((List.range 4).map (fun k => ys.getD k 0)) (f &&& (fQRES ||| fSNAN ||| fMOVF ||| fNV)) o)
      | _ => pure (.regs (List.replicate 4 dnan32) 0 0)

/-- WPIN (R419, R439). -/
def pinBlock (hdr : Nat) : RdM SampAns := do
  match ← rdNeural hdr with
  | none => pure .badHeader
  | some n =>
      let r ← get
      let c := r.s.core r.x.core
      match weightHit c r.x.ctx hdr n with
      | some b =>
          if b.pinned then pure (.pin true)
          else if pinnedLines c + n.nwl ≤ 128 then do let _ ← rdWeights hdr n true; pure (.pin true)
          else pure (.pin false)
      | none =>
          if pinnedLines c + n.nwl ≤ 128 then do let _ ← rdWeights hdr n true; pure (.pin true)
          else pure (.pin false)

/-- One fibre's operation. -/
def sampleOp (x : PendSample) (f : SampFib) (pidx : Nat) : RdM SampAns := do
  let c := ctlOf x.ctl
  match x.kind with
  | .nsample => neural f.hdr c pidx f.src
  | .wpin => pinBlock f.hdr
  | k =>
      -- non-finite coordinates read nothing (R415)
      if k != .fetch && ((f.src.take (c.coords k - (if c.st then 1 else 0))).map f32).any (fun v => match v with | .fin _ _ => false | _ => true) then
        pure (.regs (List.replicate 4 dnan32) 0 0)
      else
      match texOf (← rdNat f.hdr 192) with
      | none => pure .badHeader
      | some t =>
          let l ← (match k with | .fetch => fetchTexel t c f.src | _ => classic t k c pidx f.src)
          pure (.regs l 0 0)

def setSample (s : State) (x : PendSample) : State :=
  s.modPend (fun p => { p with samples := p.samples.map (fun y => if y.id == x.id then x else y) })

/-- What a fibre's reads met goes into the instruction's account: its lowest fibre counts. -/
def PendSample.note (x : PendSample) (f : Nat) (r : Rd) (bad : Option Nat) : PendSample :=
  let low := fun (e : Option Nat) => match e with | some g => decide (f < g) | none => true
  let x := match r.bad with
    | some (c, a) => if low (x.abandoned.map (·.1)) then { x with abandoned := some (f, c, a) } else x
    | none => x
  match bad with
  | some a => if low (x.badHdr.map (·.1)) then { x with badHdr := some (f, a) } else x
  | none => x

/-- Walks that failed and were acted on are forgotten. -/
def usedFaults (s : State) (x : PendSample) (l : List Nat) : State := l.foldl (fun s p => useFault s x.ctx x.core p) s

/-- Write registers of a fibre from a ring position on. -/
def writeRegs (s : State) (x : PendSample) (fib pos : Nat) (rs : List Reg) : State :=
  let S := match s.team x.team with | some t => t.S | none => 64
  let (gid, fib) := slotOf s x.id x.team x.gang fib
  s.modGang x.team gid (fun g => (rs.zipIdx).foldl (fun g v => g.replyReg (.v fib ((pos + v.2) % S)) v.1) g)

/-- A fibre's result (R399): its run at one moment, values or FAILED registers where a block of a trap-policy range failed (R97), the
flags, the overflows. A held instruction keeps them until it issues (R93; assumption 94). -/
def writeResult (s : State) (x : PendSample) (fib pos : Nat) (vals : List Word) (blk : Option (Nat × Nat × Nat)) (fl : Word) (ovf : Nat) :
    State :=
  let fe : Fe := match blk with | some (1, c, d) => .failed (BitVec.ofNat 8 c) (BitVec.ofNat 16 d) | _ => .full
  let rs : List Reg := vals.map (fun v => { val := if fe = .full then v else 0, fe })
  if x.held then
    s.modPend (fun p => { p with samples := p.samples.map (fun y =>
      if y.id == x.id then { y with outs := y.outs ++ [(fib, pos, rs)], outFlags := y.outFlags ||| fl, outOvf := y.outOvf + ovf } else y) })
  else addOvf ((writeRegs s x fib pos rs).modGang x.team x.gang (fun g => g.setFlags fl)) x.ctx ovf

/-- A fibre of an instruction is done, with what its reads met; the last one ends it. A WPIN and a held instruction are taken by their
fragment. -/
def fibDone (s : State) (x : PendSample) (fib : Nat) (note : PendSample → PendSample) : State :=
  let x := (s.pend.samples.find? (fun y => y.id == x.id)).getD x
  let x := note { x with fibs := x.fibs.map (fun (f : SampFib) => if f.fib == fib then { f with done := true } else f) }
  if x.held then setSample s x
  else if x.kind == .wpin && (s.gang x.team x.gang).isSome then sampleErrors (setSample s x) x
  else if x.fibs.all (·.done) then
    teamRelease (sampleErrors (s.modPend (fun p => { p with samples := p.samples.filter (fun y => y.id != x.id) })) x) x.team
  else setSample s x

/-- `SAMPLER_RESULT` (R399-R403): the unit computes a fibre's result, or goes on waiting. -/
def execSamplerResult (id fib : Nat) (s : State) : Out :=
  match s.pend.samples.find? (fun x => x.id == id && x.kind != .rayx && x.kind != .rastq) with
  | none => .next s
  | some x =>
      match x.fibs.find? (fun f => f.fib == fib && !f.done), s.team x.team with
      | some f, some t =>
          let (gid, slot) := slotOf s id x.team x.gang fib
          let g := (s.gang x.team gid).getD {}
          match sampleOp x f (g.fib slot).pidx.toNat { s, team := t, x, fib } with
          | .error s => .next s
          | .ok (ans, r) =>
              let s := usedFaults r.s x r.used
              match ans with
              | .regs l fl o =>
                  .next (fibDone (writeResult s x fib f.pos (l.take (x.nc + 1)) r.blk fl o) x fib (fun x => x.note fib r none))
              | .badHeader =>
                  let s := if x.kind = .wpin then s else writeResult s x fib f.pos (List.replicate (x.nc + 1) 0) r.blk 0 0
                  .next (fibDone s x fib (fun x => { x.note fib r (some f.hdr) with answer := some false }))
              | .pin b => .next (fibDone s x fib (fun x => { x.note fib r none with answer := some b }))
      | _, _ => .next s

/-! ### Instructions -/

/-- The header checks of R399 and R401: steps 1 to 4 of R20 and the translation for each active fibre. -/
def headerChecks (s : State) (i : Iss) (accs : List Acc) : Res (List (Acc × Target)) :=
  let l := accs.map (fun a => (a, resolve s i .sampler 192 192 a))
  if !(missing l).isEmpty then .wait (startWalks s i.team.ctx i.team.place.core false (missing l))
  else
    match firstCause l with
    | some t => .trap t s
    | none =>
        match l.find? (fun e => match e.2 with | .unmapped _ _ => true | _ => false) with
        | some e =>
            let pages := unmappedPages false l
            .wait (pages.foldl (fun s p => useFault s i.team.ctx i.team.place.core p.pn)
              (holdForRecord s i.tid i.gid i.team i.gang i.frag.pc e.1.ga 0 0 e.1.fib pages))
        | none => .ok (l.filterMap (fun e => match e.2 with | .at t => some (e.1, t) | _ => none)) s

/-- The line of its block that an offset touches (R79). -/
def GenTouch.lineOf (t : GenTouch) (off : Nat) : Nat := if t.page then off % 12288 / 192 else 0

/-- A unit's instruction is issued, with its fibres: its runs EMPTY (R399), or it is held with them unmarked while its gang holds fill
rights (R93). -/
def issueUnit (s : State) (i : Iss) (kind : SampKind) (d : Dst) (n : Nat) (ctl : Quad) (nc : Nat) (cull : Cull)
    (fibs : List SampFib) : State :=
  let (id, s) := s.fresh
  let held := !i.gang.rights.isEmpty
  let x : PendSample := { id, core := i.team.place.core, ctx := i.team.ctx, team := i.tid, gang := i.gid, ipc := i.frag.pc, kind,
                          ctl, nc, cull, dst := (match d with | .vec r => r.toNat | _ => 0), fibs, held, olds := fibs.map (fun f => (f.fib, (i.gang.fib f.fib).trav)), org := i.origin
                          snaps := i.probes.flatMap (fun t => if t.ans == some 0 || t.ans == some 5 then
                            (t.fibs.map (fun e => t.lineOf e.2)).eraseDups.map (fun lib =>
                              { rn := t.rn, bix := t.bix, failed := t.failed, data := t.data, lib }) else []) }
  let s := s.modPend (fun p => { p with samples := p.samples ++ [x] })
  let s := if held then s else s.modCur (fun g => g.markEmpty (fibs.flatMap (fun f => dstRegs i.team.S g d n f.fib)))
  let lib := fun (rn bix : Nat) => ((i.probes.find? (fun t => t.rn == rn && t.bix == bix)).bind (fun t =>
    t.fibs.head?.map (fun e => t.lineOf e.2))).getD 0
  takeProbes s i (fun rn bix => .sample id (lib rn bix))

/-- After issue the fragment goes on, or stands at the held instruction. -/
def unitIssued (s : State) (i : Iss) (id words : Nat) : Res Unit :=
  if i.gang.rights.isEmpty then .ok () (advance s words) else .wait (s.modFrag (fun f => { f with wait := .cmd id }))

/-- The fragment stands at a held instruction (R93): it traps on a depth or cycle error once every touch has been answered, and goes on,
with everything written, when the unit has every result. -/
def unitWait (s : State) (i : Iss) (id words : Nat) (fin : PendSample → State → State) : Res Unit :=
  match s.pend.samples.find? (fun x => x.id == id) with
  | none => .wait (s.modFrag (fun f => { f with wait := .none }))
  | some x =>
      match x.genErr with
      | some (c, sub, f) =>
          if s.pend.touches.any (fun t => sampleTouch id t.who) || !x.fibs.all (fun f => f.done || x.tried.contains f.fib) then .wait s
          else .trap { cause := c, sub, fib := f, fails := true } s
      | none =>
          if !x.fibs.all (·.done) then .wait s
          else
            let s := s.modPend (fun p => { p with samples := p.samples.filter (fun y => y.id != id) })
            let s := x.outs.foldl (fun s o => writeRegs s x o.1 o.2.1 o.2.2) s
            let s := addOvf (s.modGang i.tid i.gid (fun g => g.setFlags x.outFlags)) x.ctx x.outOvf
            let s := if x.held then sampleErrors s x else s
            .ok () (advance ((fin x s).modFrag (fun f => { f with wait := .none })) words)

/-- Registers of a run as R197 judges them; those that lie past v63 are judged by the entry. -/
def runNeeds (i : Iss) (a : Src) (n f : Nat) : List Need := (runOf i.team.S i.gang a (match a with | .vec r _ _ => min n (64 - r.toNat) | _ => n) f).map (fun r => ⟨f, 1, a.ea, r⟩)
def runVals (i : Iss) (a : Src) (n f : Nat) : List Word := (runOf i.team.S i.gang a n f).map (fun r => (i.gang.reg r).read)
/-- First register of a vector run. -/
def vecFirst : Src → Nat | .vec r _ _ => r.toNat | _ => 0
def dstFirst : Dst → Nat | .vec r => r.toNat | _ => 0
/-- A source run carries permutation code 0 (R399). -/
def runPermuted : Src → Bool | .vec _ p _ => p != 0 | _ => false

/-- SAMPLE, SAMPLEG, FETCH, NSAMPLE (R399, R411, R412, R437). DESIGN CHOICE: within step 9 of R270, a run that leaves the window (sub-cause 1)
is found before a control word or a run that the entry rejects (sub-cause 5; assumption 106). -/
def sampling (s : State) (p : Pred) (k : SampKind) (d : Dst) (a b c : Src) : Out :=
  direct s fun i =>
    let S := i.team.S
    let act := active i p
    let words := wordsOf [a, c]
    match act, i.frag.wait with
    | [], _ => .ok () (advance s words)
    | _, .cmd id => unitWait s i id words (fun _ s => s)
    | f0 :: _, _ =>
        let own := needsOf S i.gang [opC c true] f0
        let known := own.all (fun n => (i.gang.reg n.ref).fe == .full)
        let w := (opndVal S i.gang (opC c true) f0).getD 0
        let ctl := ctlOf w
        let n := ctl.coords k
        -- what does not depend on the control word, while it is not there
        let least := ({ ctl with lod := if k = .sampleg then 2 else 1, st := false } : Ctl).coords k
        let needs := fun f => needsOf S i.gang [opA a true] f ++ runNeeds i b (if known then n else least) f
          ++ (if f = f0 then own else [])
        let runs := act.flatMap (dstRegs S i.gang d (if known then min (ctl.nc + 1) (64 - dstFirst d) else 1))
        (checked s i (act.flatMap needs) runs).bind fun _ s =>
          if 64 < dstFirst d + ctl.nc + 1 ∨ 64 < vecFirst b + n then .trap (illopnd 1 f0) s
          else if !ctl.legal k || runPermuted b then .trap (illopnd 5 f0) s
          else
            let acc := fun f => ({ fib := f, ga := (opndVal S i.gang (opA a true) f).getD 0 } : Acc)
            (headerChecks s i (act.map acc)).bind fun ts s =>
              (genTouchGate s i (ts.map (fun e => (e.1.fib, e.2))) 0 0).bind fun _ s =>
                if !gangOpen s i.tid i.gid then .wait s
                else
                  let fib := fun f => ({ fib := f, hdr := (acc f).ga.toNat, src := runVals i b n f, pos := dstPos i d f } : SampFib)
                  let id := s.sched.nextId
                  unitIssued (issueUnit s i k d (ctl.nc + 1) w ctl.nc .none (act.map fib)) i id words

/-- `SAMPLE` (R437, R438). -/
def execSample (p : Pred) (d : Dst) (a b c : Src) (s : State) : Out := sampling s p .sample d a b c
/-- `SAMPLEG` (R437, R438). -/
def execSampleg (p : Pred) (d : Dst) (a b c : Src) (s : State) : Out := sampling s p .sampleg d a b c
/-- `FETCH` (R437, R438). -/
def execFetch (p : Pred) (d : Dst) (a b c : Src) (s : State) : Out := sampling s p .fetch d a b c
/-- `NSAMPLE` (R437, R438). -/
def execNsample (p : Pred) (d : Dst) (a b c : Src) (s : State) : Out := sampling s p .nsample d a b c

/-- `WPIN` (R419, R439): the fragment waits until the block is pinned or refused. -/
def execWpin (p : Pred) (d : Dst) (a : Src) (s : State) : Out :=
  direct s fun i =>
    let act := active i p
    match act, i.frag.wait with
    | [], _ => .ok () (advance s (wordsOf [a]))
    | _, .cmd id =>
        match (s.pend.samples.find? (fun x => x.id == id)).map (fun x => (x.answer, x.genErr)) with
        | some (none, none) => .wait s
        | _ =>
            unitWait s i id (wordsOf [a]) (fun x s =>
              s.modCur (fun g => act.foldl (fun g f => writeDst i.team.S g d false f (some (boolQ (x.answer == some true)))) g))
    | f0 :: _, _ =>
        (checked s i (act.flatMap (needsOf i.team.S i.gang [opA a true])) []).bind fun _ s =>
          let ga := (opndVal i.team.S i.gang (opA a true) f0).getD 0
          (headerChecks s i [{ fib := f0, ga }]).bind fun ts s =>
            (genTouchGate s i (ts.map (fun e => (e.1.fib, e.2))) 0 0).bind fun _ s =>
              if !gangOpen s i.tid i.gid then .wait s
              else
              let id := s.sched.nextId
              let s := issueUnit s i .wpin d 0 0 0 .none [{ fib := f0, hdr := ga.toNat, src := [], pos := 0 }]
              .wait (s.modFrag (fun f => { f with wait := .cmd id }))

/-- `WUNPIN` (R419, R439). -/
def execWunpin (p : Pred) (a : Src) (s : State) : Out :=
  once s p [opA a true] [] fun i vs s =>
    let hdr := (vs.getD 0 0).toNat
    let s := s.modCore i.team.place.core (fun c => { c with weights := c.weights.map (fun w =>
      if w.ctx == i.team.ctx && w.hdr == hdr then { w with pinned := false } else w) })
    .ok () (advance s (wordsOf [a]))

/-- `WINV` (R419, R420, R439): waits for every NSAMPLE that the core accepted before it, then drops blocks. -/
def execWinv (p : Pred) (a : Src) (all : Bool) (s : State) : Out :=
  once s p [opA a true] [] fun i vs s =>
    let core := i.team.place.core
    if all && a != .const 0 then .trap (illopnd 5 ((active i p).headD 0)) s
    else
    match i.frag.wait with
    | .inv id =>
        if s.pend.samples.any (fun x => x.core == core && x.kind == .nsample && decide (x.id < id)) then .wait s
        else
          let hdr := (vs.getD 0 0).toNat
          let s := s.modCore core (fun c => { c with
            weights := c.weights.filter (fun w => !(w.ctx == i.team.ctx && (all || w.hdr == hdr))) })
          .ok () (advance (s.modFrag (fun f => { f with wait := .none })) (wordsOf [a]))
    | _ =>
        let (id, s) := s.fresh
        .wait (s.modFrag (fun f => { f with wait := .inv id }))

end Sys2Proof.Machine
end

