-- ==== Sys2Proof/Machine/Rays.lean ====
section
/-! DEFINITION. The intersection unit and Jersey: raster mode (R422-R425, R440), ray mode (R426-R434, R441, R442), and REPACK
(R436, R443, R201, R202). -/

namespace Sys2Proof.Machine

/-! ### Raster mode -/

/-- A raster target header (R422). -/
structure Raster where
  vtab : Nat
  vbase : Nat
  nv : Nat
  hgt : Nat
  wid : Nat
  deriving DecidableEq, Repr

def rasterOf (h : Nat) : Option Raster :=
  if hdrKind h 4 && hdrF h 1535 256 == 0 && hdrF h 127 99 == 0 && hdrF h 255 192 % 64 == 0 && hdrF h 191 128 % 192 == 0 then
    some { vtab := hdrF h 255 192, vbase := hdrF h 191 128, nv := hdrF h 98 92, hgt := hdrF h 91 78, wid := hdrF h 77 64 }
  else none

/-- A vertex in a view: snapped coordinates and exact depth (R423). -/
structure Vert where
  x : Int
  y : Int
  z : Rat
  deriving DecidableEq, Repr

def isFin : FV → Bool | .fin _ _ => true | _ => false
/-- Rounding to the nearest integer, ties to even. -/
def rneInt (q : Rat) : Int := roundInt .rne (decide (q < 0)) (ratAbs q)

/-- A vertex through a view's matrix (R423); none when the view does not take the triangle. -/
def project (m : List Rat) (p : Rat × Rat × Rat) : Option Vert :=
  let row := fun r => m.getD (4 * r) 0 * p.1 + m.getD (4 * r + 1) 0 * p.2.1 + m.getD (4 * r + 2) 0 * p.2.2 + m.getD (4 * r + 3) 0
  let w := row 3
  if w ≤ pow2 (-20) then none
  else
    let x := rneInt (256 * row 0 / w)
    let y := rneInt (256 * row 1 / w)
    if x.natAbs < 2 ^ 26 ∧ y.natAbs < 2 ^ 26 then some ⟨x, y, row 2 / w⟩ else none

/-- E of the edge from a to b at a point, without negation (R424). -/
def edgeE (a b : Vert) (qx qy : Int) : Int := (b.x - a.x) * (qy - a.y) - (b.y - a.y) * (qx - a.x)

/-- Covered pixels of a triangle in one view with their depth codes (R424). -/
def coverView (t : Raster) (cull : Cull) (v0 v1 v2 : Vert) : List (Nat × Nat × Nat) :=
  let A := edgeE v0 v1 v2.x v2.y
  let culled := match cull with | .none => false | .back => decide (A < 0) | .front => decide (0 < A)
  if A == 0 || culled then []
  else
    let sg : Int := if A < 0 then -1 else 1
    let lo := fun (a b c : Int) => (max 0 ((min a (min b c) - 128) / 256)).toNat
    let hi := fun (a b c : Int) (n : Nat) => min n (((max a (max b c) - 128) / 256 + 1).toNat)
    let x0 := lo v0.x v1.x v2.x
    let y0 := lo v0.y v1.y v2.y
    let xs := (List.range (hi v0.x v1.x v2.x t.wid + 1)).filter (fun x => decide (x0 ≤ x))
    let ys := (List.range (hi v0.y v1.y v2.y t.hgt + 1)).filter (fun y => decide (y0 ≤ y))
    let inside := fun (a b : Vert) (e : Int) =>
      let dX := sg * (b.x - a.x)
      let dY := sg * (b.y - a.y)
      decide (0 < e) || (e == 0 && (decide (0 < dY) || (dY == 0 && decide (dX < 0))))
    ys.flatMap (fun (y : Nat) => xs.filterMap (fun (x : Nat) =>
      let qx : Int := 256 * x + 128
      let qy : Int := 256 * y + 128
      let e0 := sg * edgeE v0 v1 qx qy
      let e1 := sg * edgeE v1 v2 qx qy
      let e2 := sg * edgeE v2 v0 qx qy
      if inside v0 v1 e0 && inside v1 v2 e1 && inside v2 v0 e2 then
        let d : Rat := (v0.z * e1 + v1.z * e2 + v2.z * e0) / ((sg * A : Int) : Rat)
        let c := (Fmt.f32.round .rne false (FV.ofRat false d)).code
        match Fmt.f32.value c with
        | .fin n q => if n && q != 0 then none else if q ≤ 1 then some (x, y, if q = 0 then 0 else c) else none
        | _ => none
      else none))

/-- Writes of a submitted triangle: pixel address and value (R422-R425). -/
def rasterWrites (t : Raster) (cull : Cull) (src : List Word) : RdM (List (Nat × Quad)) := do
  let vs := (src.take 9).map f32
  if !vs.all isFin then pure []
  else
    let q := fun k => (vs.getD k (.fin false 0)).rat
    let id := (src.getD 9 0).toNat
    let ls ← rdEach (fun v => do
      let b ← rdBytes true (t.vtab + 64 * v) 64
      let m := (List.range 16).map (fun k => Fmt.f32.value (leNat ((b.drop (4 * k)).take 4)))
      if !m.all isFin then pure []
      else
        let m := m.map FV.rat
        match project m (q 0, q 1, q 2), project m (q 3, q 4, q 5), project m (q 6, q 7, q 8) with
        | some a, some b, some c =>
            pure ((coverView t cull a b c).map (fun p =>
              (t.vbase + 8 * ((v * (t.hgt + 1) + p.2.1) * (t.wid + 1) + p.1), BitVec.ofNat 64 (p.2.2 * 2 ^ 32 + id))))
        | _, _, _ => pure []) (List.range (t.nv + 1))
    pure ls.flatten

/-- The targets of the writes; an abandoned one is dropped (R401, R425). -/
def rasterTargets (ws : List (Nat × Quad)) : RdM (List (Nat × Quad × Target)) := do
  let l ← rdEach (fun (w : Nat × Quad) => do
    match ← rdTarget .atom true w.1 8 with
    | .ok t => pure (some (w.1, w.2, t))
    | .error c => do let _ ← rdDrop c w.1 0; pure none) ws
  pure (l.filterMap id)

/-- What a RASTQ does for a fibre: none for a malformed header. -/
def rasterOp (x : PendSample) (f : SampFib) : RdM (Option (Nat × List (Nat × Quad × Target))) := do
  match rasterOf (← rdNat f.hdr 192) with
  | none => pure none
  | some t =>
      let ws ← rasterWrites t x.cull f.src
      pure (some (ws.length, ← rasterTargets ws))

/-- The atomic mins of a fibre's writes are issued (R425). Accesses that the gang issued before come first: the mins leave behind them;
later ones have waited (`rastqOpen`). -/
def issueMins (s : State) (x : PendSample) (fib : Nat) (ws : List (Nat × Quad × Target)) : State :=
  ws.foldl (fun s w =>
    let (id, s) := s.fresh
    let a : PendAtom := { id, core := x.core, ctx := x.ctx, team := x.team, gang := x.gang, ipc := x.ipc, dst := none,
                          act := .op .min .n64, tgt := w.2.2, rel := none, acq := none, sc := 0, org := x.org,
                          fibs := [{ fib, pos := 0, ga := BitVec.ofNat 64 w.1, val := w.2.1, cmp := 0 }] }
    s.modPend (fun p => { p with atoms := p.atoms ++ [a] })) s

/-- A held RASTQ writes nothing until every fibre's reads have been answered (R93): the state in which it waits for one. -/
def rasterWaits (s : State) (t : Team) (x : PendSample) : Option State :=
  if !x.held then none
  else
    (x.fibs.filter (fun f => !f.done && f.writes.isNone)).findSome? (fun f =>
      match rasterOp x f { s, team := t, x, fib := f.fib } with | .error s => some s | .ok _ => none)

/-- `RASTQ_DONE` (R425, R440): a fibre's triangle is rasterised and its writes sent; once all are performed its count is
written. -/
def execRastqDone (id fib : Nat) (s : State) : Out :=
  match s.pend.samples.find? (fun x => x.id == id && x.kind == .rastq) with
  | none => .next s
  | some x =>
      match x.fibs.find? (fun f => f.fib == fib && !f.done), s.team x.team with
      | some f, some t =>
          match f.writes with
          | some (lo, hi, n) =>
              if s.pend.atoms.any (fun a => decide (lo ≤ a.id ∧ a.id < hi)) then .next s
              else .next (fibDone (writeResult s x fib f.pos [BitVec.ofNat 32 (min n (2 ^ 32 - 1))] f.blk 0 0) x fib (fun x => x))
          | none =>
              match rasterWaits s t x with
              | some s => .next s
              | none =>
              match rasterOp x f { s, team := t, x, fib } with
              | .error s => .next s
              | .ok (none, r) =>
                  .next (fibDone (writeResult (usedFaults r.s x r.used) x fib f.pos [0] r.blk 0 0) x fib (fun x => x.note fib r (some f.hdr)))
              | .ok (some (n, ws), r) =>
                  let s := usedFaults r.s x r.used
                  let lo := s.sched.nextId
                  let s := issueMins s x fib ws
                  let x := x.note fib r none
                  .next (setSample s { x with fibs := x.fibs.map (fun (g : SampFib) =>
                    if g.fib == fib then { g with writes := some (lo, s.sched.nextId, n), blk := r.blk } else g) })
      | _, _ => .next s

/-- `RASTQ` (R440). -/
def execRastq (p : Pred) (d : Dst) (a b : Src) (cull : Cull) (s : State) : Out :=
  direct s fun i =>
    let S := i.team.S
    let act := active i p
    let words := wordsOf [a]
    match act, i.frag.wait with
    | [], _ => .ok () (advance s words)
    | _, .cmd id => unitWait s i id words (fun _ s => s)
    | f0 :: _, _ =>
      let needs := fun f => needsOf S i.gang [opA a true] f ++ runNeeds i b 10 f
      (checked s i (act.flatMap needs) (act.flatMap (dstRegs S i.gang d 1))).bind fun _ s =>
        if runPermuted b then .trap (illopnd 5 f0) s else
        let acc := fun f => ({ fib := f, ga := (opndVal S i.gang (opA a true) f).getD 0 } : Acc)
        (headerChecks s i (act.map acc)).bind fun ts s =>
          (genTouchGate s i (ts.map (fun e => (e.1.fib, e.2))) 0 0).bind fun _ s =>
            if !gangOpen s i.tid i.gid then .wait s
            else
              let fib := fun f => ({ fib := f, hdr := (acc f).ga.toNat, src := runVals i b 10 f, pos := dstPos i d f } : SampFib)
              let id := s.sched.nextId
              unitIssued (issueUnit s i .rastq d 1 0 0 cull (act.map fib)) i id words

/-! ### Ray mode -/

/-- Fields of a structure header (R426). -/
def structOk (h : Nat) : Bool :=
  hdrKind h 3 && hdrF h 1535 320 == 0 && hdrF h 231 224 == 0 && hdrF h 143 64 == 0 && hdrF h 319 256 % 8 == 0
def structOmm (h : Nat) : Nat := hdrF h 319 256
def structBudget (h : Nat) : Nat := if hdrF h 255 232 = 0 then 2 ^ 16 else hdrF h 255 232
def structRoot (h : Nat) : Nat := hdrF h 223 184
def structBytes (h : Nat) : Nat := hdrF h 183 144

/-- Is a child good (R427)? -/
def childOk (h off : Nat) (leaf : Bool) (cnt : Nat) : Bool :=
  let n := if leaf then 48 * (cnt + 1) else 192
  off % (if leaf then 48 else 192) == 0 && decide (192 ≤ off ∧ off + n ≤ structBytes h)

/-- The interval of an axis in the slab method (R431); `none` in a pair stands for no bound, an outer `none` for a miss. -/
def axisSpan (lo hi : FV) (o d : Rat) : Option (Option Rat × Option Rat) :=
  if fvLt hi lo then none
  else match lo, hi with
    | .nan _, _ | _, .nan _ => none
    | .inf false, _ | _, .inf true => none
    | lo, hi =>
        let b := fun (v : FV) => match v with | .fin _ _ => some v.rat | _ => none
        let l := b lo
        let h := b hi
        if d = 0 then
          if (match l with | some x => decide (x ≤ o) | none => true) && (match h with | some x => decide (o ≤ x) | none => true)
          then some (none, none) else none
        else
          let t := fun (v : Option Rat) => v.map (fun x => (x - o) / d)
          if 0 < d then some (t l, t h) else some (t h, t l)

def maxO (a b : Option Rat) : Option Rat := match a, b with | some x, some y => some (max x y) | some x, none => some x | none, y => y
def minO (a b : Option Rat) : Option Rat := match a, b with | some x, some y => some (min x y) | some x, none => some x | none, y => y

/-- Does a ray hit a box, and where does it enter (R431)? The box as six f32 values; `none` inside is before every t. -/
def boxHit (b : List FV) (ray : List Rat) (tb : Rat) : Option (Option Rat) :=
  let ax := fun k => axisSpan (b.getD k (.nan false)) (b.getD (k + 3) (.nan false)) (ray.getD k 0) (ray.getD (k + 3) 0)
  match ax 0, ax 1, ax 2 with
  | some (a, x), some (b, y), some (c, z) =>
      let te := maxO a (maxO b c)
      let tx := minO x (minO y z)
      let tmin := ray.getD 6 0
      let low := (te.elim tmin (max tmin ·))
      let high := (tx.elim tb (min tb ·))
      if low ≤ high then some te else none
  | _, _, _ => none

def cross (a b : Rat × Rat × Rat) : Rat × Rat × Rat :=
  (a.2.1 * b.2.2 - a.2.2 * b.2.1, a.2.2 * b.1 - a.1 * b.2.2, a.1 * b.2.1 - a.2.1 * b.1)
def dot3 (a b : Rat × Rat × Rat) : Rat := a.1 * b.1 + a.2.1 * b.2.1 + a.2.2 * b.2.2
def sub3 (a b : Rat × Rat × Rat) : Rat × Rat × Rat := (a.1 - b.1, a.2.1 - b.2.1, a.2.2 - b.2.2)

/-- A triangle's test (R431): its bytes as a number (R428). -/
def triHit (tri : Nat) (ray : List Rat) (tb : Rat) : Option Hit :=
  let vs := (List.range 9).map (fun k => Fmt.f32.value (natBits tri (32 * k + 31) (32 * k)))
  if !vs.all isFin then none
  else
    let q := fun k => (vs.getD k (.fin false 0)).rat
    let v0 := (q 0, q 1, q 2)
    let o := (ray.getD 0 0, ray.getD 1 0, ray.getD 2 0)
    let d := (ray.getD 3 0, ray.getD 4 0, ray.getD 5 0)
    let e1 := sub3 (q 3, q 4, q 5) v0
    let e2 := sub3 (q 6, q 7, q 8) v0
    let P := cross d e2
    let det := dot3 e1 P
    if det = 0 then none
    else
      let t0 := sub3 o v0
      let Q := cross t0 e1
      let u := dot3 t0 P / det
      let v := dot3 d Q / det
      let t := dot3 e2 Q / det
      if 0 ≤ u ∧ 0 ≤ v ∧ u + v ≤ 1 ∧ ray.getD 6 0 ≤ t ∧ t ≤ tb then
        some { t, u, v, id := natBits tri 319 288, shx := natBits tri 351 336, back := decide (det < 0) }
      else none

/-- Class of a hit: 0 transparent, 1 opaque, 2 unknown (R429). -/
def hitClass (h tri : Nat) (x : Hit) : RdM Nat := do
  let omm := structOmm h
  if tri.testBit 320 then pure 1
  else if omm = 0 ∨ natBits tri 383 352 = 0xFFFFFFFF then pure 2
  else
    let e ← rdNat (omm + 8 * natBits tri 383 352) 8
    let lv := e % 8
    if 6 ≤ lv then pure 2
    else
      let N : Nat := 2 ^ lv
      let a : Nat := min (x.u * (N : Rat)).floor.toNat (N - 1)
      let b : Nat := min (x.v * (N : Rat)).floor.toNat (N - 1 - a)
      let upper := decide (a + b < N - 1) && decide (1 ≤ (x.u * (N : Rat) - (a : Rat)) + (x.v * (N : Rat) - (b : Rat)))
      let k := a * (2 * N - a) + 2 * b + (if upper then 1 else 0)
      let c ← rdNat (omm + natBits e 47 8 + k / 4) 1
      pure (match natBits c (2 * (k % 4) + 1) (2 * (k % 4)) with | 0 => 0 | 1 => 1 | _ => 2)

/-- A commit (R432): the traversal after it, and whether it ends. -/
def commitHit (v : Trav) (x : Hit) : Trav × Bool :=
  if v.first then ({ v with best := some x }, true)
  else
    let better := match v.best with | none => true | some b => decide (x.t < v.tb) || (x.t == v.tb && decide (x.id < b.id))
    (if better then { v with best := some x, tb := x.t } else v, false)

/-- How a leg of a traversal ends: at a candidate, or for good. -/
inductive TravEnd where
  | candidate | finished | goOn
  deriving DecidableEq, Repr

def rayRats (v : Trav) : List Rat := v.ray.map (fun w => (f32 w).rat)

/-- Triangles of a leaf from one on (R432). -/
def travTris (off cnt : Nat) : List Nat → Trav → RdM (Trav × TravEnd)
  | [], v => pure ({ v with leaf := none }, .goOn)
  | k :: t, v => do
      let tri ← rdNat (v.hdr + off + 48 * k) 48
      match triHit tri (rayRats v) v.tb with
      | none => travTris off cnt t v
      | some x =>
          let culled := match v.cull with | .none => false | .back => x.back | .front => !x.back
          if culled then travTris off cnt t v
          else do
            let c ← hitClass v.head tri x
            if c = 0 then travTris off cnt t v
            else if c = 2 ∧ v.ah then pure ({ v with leaf := some (off, cnt, k + 1), cand := some x }, .candidate)
            else
              match commitHit v x with
              | (v, true) => pure (v, .finished)
              | (v, false) => travTris off cnt t v

/-- Order of pushed children: the greater entry first, then the greater index, so that the least pops first (R432). -/
def pushBefore (a b : Option Rat × Nat × TravItem) : Bool :=
  match a.1, b.1 with
  | some x, some y => decide (y < x) || (x == y && decide (b.2.1 < a.2.1))
  | some _, none => true
  | none, some _ => false
  | none, none => decide (b.2.1 < a.2.1)

/-- A node is read: its bad children counted, its hit children pushed (R427, R432). -/
def travNode (off : Nat) (v : Trav) : RdM Trav := do
  let n ← rdNat (v.hdr + off) 192
  let kids := (List.range 4).map (fun c =>
    let e := natBits n (256 * c + 255) (256 * c)
    let typ := natBits e 233 232
    let o := natBits e 231 192
    let cnt := natBits e 255 250
    let bad := typ == 3 || (typ != 0 && !childOk v.head o (typ == 2) cnt)
    let b := (List.range 6).map (fun k => Fmt.f32.value (natBits e (32 * k + 31) (32 * k)))
    let item := if typ = 2 then TravItem.leaf o cnt else .node o
    (bad, if typ = 0 || bad then none else (boxHit b (rayRats v) v.tb).map (fun te => (te, c, item))))
  let bads := (kids.filter (·.1)).length
  let hits := sortBy pushBefore (kids.filterMap (·.2))
  let v := hits.foldl (fun (v : Trav) x =>
    let full := decide (64 ≤ v.stack.length)
    { v with stack := x.2.2 :: (if full then v.stack.take 63 else v.stack), dropped := v.dropped || full }) v
  pure { v with bads := v.bads + bads, badChild := v.badChild || decide (0 < bads) }

/-- Pops until the stack is empty, the budget is spent, or the leg ends (R432). -/
def travLoop : Nat → Trav → RdM (Trav × TravEnd)
  | 0, v => pure (v, .finished)
  | n + 1, v =>
      match v.stack with
      | [] => pure (v, .finished)
      | e :: st =>
          if v.visits = structBudget v.head then pure ({ v with stack := st, overBudget := true }, .finished)
          else
            let v := { v with stack := st, visits := v.visits + 1 }
            match e with
            | .node off => do travLoop n (← travNode off v)
            | .leaf off cnt => do
                match ← travTris off cnt (List.range (cnt + 1)) v with
                | (v, .goOn) => travLoop n v
                | r => pure r

/-- The result run (R433); `none` for a miss; `invalid` for the ray's own flag. -/
def travRun (v : Trav) (kind : Nat) (h : Option Hit) (invalid : Bool) : List Word :=
  let fl := (if v.dropped then 256 else 0) + (if v.overBudget then 128 else 0) + (if v.badChild then 64 else 0)
    + (if invalid then 32 else 0)
  let last := min v.visits (2 ^ 24 - 1) + min v.bads 255 * 2 ^ 24
  let f := fun (x : Rat) => BitVec.ofNat 32 (Fmt.f32.round .rne false (FV.ofRat false x)).code
  match h with
  | none => [BitVec.ofNat 32 fl, BitVec.ofNat 32 Fmt.f32.infCode, 0, 0, 0xFFFFFFFF, BitVec.ofNat 32 last]
  | some x => [BitVec.ofNat 32 (x.shx * 2 ^ 16 + fl + (if x.back then 16 else 0) + kind), f x.t, f x.u, f x.v,
               BitVec.ofNat 32 x.id, BitVec.ofNat 32 last]

/-- What a leg leads to: the run, and the traversal when it is suspended. -/
inductive LegAns where
  | badHeader
  | run (l : List Word) (keep : Option Trav)
  deriving DecidableEq, Repr

def legEnd (v : Trav) : TravEnd → LegAns
  | .candidate => .run (travRun v 2 v.cand false) (some { v with suspended := true })
  | _ => .run (travRun v (if v.best.isSome then 1 else 0) v.best false) none

/-- One leg of a traversal (R430, R432): from the ray's start, or behind an answered candidate. -/
def travLeg (v : Trav) : RdM LegAns := do
  if v.begun then
    let r ← match v.leaf with
      | some (off, cnt, k) => travTris off cnt ((List.range (cnt + 1)).drop k) v
      | none => pure (v, TravEnd.goOn)
    match r with
    | (v, .goOn) => do
        let r ← travLoop (structBudget v.head + 1) v
        pure (legEnd r.1 r.2)
    | (v, e) => pure (legEnd v e)
  else
    let h ← rdNat v.hdr 192
    if !structOk h then pure .badHeader
    else
      let fs := v.ray.map f32
      let q := rayRats v
      let v := { v with begun := true, head := h, tb := q.getD 7 0, stack := [.node (structRoot h)] }
      if !fs.all isFin || (q.getD 3 0 == 0 && q.getD 4 0 == 0 && q.getD 5 0 == 0) then
        pure (.run (travRun v 0 none true) none)
      else if q.getD 7 0 < q.getD 6 0 then pure (.run (travRun v 0 none false) none)
      else if !childOk h (structRoot h) false 0 then
        pure (.run (travRun { v with badChild := true, bads := 1 } 0 none false) none)
      else do
        let r ← travLoop (structBudget h + 1) v
        pure (legEnd r.1 r.2)

/-- The traversal of a fibre of an operation, where the slot stands now (R434, R436). -/
def setTrav (s : State) (x : PendSample) (fib : Nat) (v : Option Trav) : State :=
  let (gid, fib) := slotOf s x.id x.team x.gang fib
  s.modGang x.team gid (fun g => { g with fibres := mapMod fib (fun b => { b with trav := v }) g.fibres })
def travOf (s : State) (x : PendSample) (fib : Nat) : Option Trav :=
  let (gid, fib) := slotOf s x.id x.team x.gang fib
  (s.gang x.team gid).bind (fun g => (mapGet fib g.fibres).bind (·.trav))

/-- `TRAVERSAL_STOP` (R432-R434): a fibre's traversal stops, at a candidate or at its end, and writes its run. -/
def execTraversalStop (team gang fib : Nat) (s : State) : Out :=
  match s.pend.samples.find? (fun x => x.kind == .rayx && x.team == team && x.gang == gang &&
      x.fibs.any (fun f => f.fib == fib && !f.done)) with
  | none => .next s
  | some x =>
  match travOf s x fib, s.team team, x.fibs.find? (fun f => f.fib == fib && !f.done) with
  | some v, some t, some f =>
      match travLeg v { s, team := t, x, fib } with
      | .error s => .next s
      | .ok (ans, r) =>
          let s := usedFaults r.s x r.used
          match ans with
          | .badHeader =>
              let s := writeResult (setTrav s x fib none) x fib f.pos (List.replicate 6 0) r.blk 0 0
              .next (fibDone s x fib (fun x => x.note fib r (some v.hdr)))
          | .run l keep =>
              let s := writeResult (setTrav s x fib keep) x fib f.pos l r.blk 0 0
              .next (fibDone s x fib (fun x => x.note fib r none))
  | _, _, _ => .next s

/-- `RAYX` (R434, R441). -/
def execRayx (p : Pred) (d : Dst) (a b : Src) (first ah : Bool) (cull : Cull) (s : State) : Out :=
  direct s fun i =>
    let S := i.team.S
    let act := active i p
    let words := wordsOf [a]
    match act, i.frag.wait with
    | [], _ => .ok () (advance s words)
    | _, .cmd id => unitWait s i id words (fun _ s => s)
    | f0 :: _, _ =>
      let needs := fun f => needsOf S i.gang [opA a true] f ++ runNeeds i b 8 f
      (checked s i (act.flatMap needs) (act.flatMap (dstRegs S i.gang d 6))).bind fun _ s =>
        if runPermuted b then .trap (illopnd 5 f0) s else
        let acc := fun f => ({ fib := f, ga := (opndVal S i.gang (opA a true) f).getD 0 } : Acc)
        (headerChecks s i (act.map acc)).bind fun ts s =>
          (genTouchGate s i (ts.map (fun e => (e.1.fib, e.2))) 0 0).bind fun _ s =>
            let running := fun f => match (i.gang.fib f).trav with | some v => !v.suspended | none => false
            if !gangOpen s i.tid i.gid || act.any running then .wait s
            else
              let trav := fun f => ({
                ipc := i.frag.pc, vd := dstFirst d, hdr := (acc f).ga.toNat, ray := runVals i b 8 f, first, ah, cull,
                suspended := false, begun := false, stack := [], leaf := none, tb := 0, best := none, cand := none,
                visits := 0, bads := 0, dropped := false, head := 0, badChild := false, overBudget := false,
                pos := (i.gang.fib f).wb + dstFirst d } : Trav)
              let fibs := act.map (fun f => ({ fib := f, hdr := (acc f).ga.toNat, src := [], pos := dstPos i d f } : SampFib))
              let id := s.sched.nextId
              let s := issueUnit s i .rayx d 6 0 0 cull fibs
              let s := s.modCur (fun g => act.foldl (fun g f => g.modFib f (fun b => { b with trav := some (trav f) })) g)
              unitIssued s i id words

/-- A candidate is answered (R434): the traversal goes on behind it, or has ended. -/
def answerHit (v : Trav) (acc : Bool) : Trav :=
  let w := { v with suspended := false, cand := none }
  match acc, v.cand with
  | true, some x =>
      match commitHit w x with
      | (w, true) => { w with stack := [], leaf := none }
      | (w, false) => w
  | _, _ => w

/-- `RAYHIT` (R434, R442): it names a run by its logical registers, so one that a CALL has hidden is not named (R193). -/
def execRayhit (p : Pred) (d : Dst) (acc : Bool) (s : State) : Out :=
  direct s fun i =>
    let S := i.team.S
    let act := active i p
    match i.frag.wait with
    | .cmd id => unitWait s i id 1 (fun _ s => s)
    | _ =>
    (checked s i [] (act.flatMap (dstRegs S i.gang d 6))).bind fun _ s =>
      let fs := act.filter (fun f => match (i.gang.fib f).trav with
        | some v => v.suspended && v.pos == (i.gang.fib f).wb + dstFirst d | none => false)
      if fs.isEmpty then .ok () (advance s 1)
      else
        let fibs := fs.map (fun f => ({ fib := f, hdr := 0, src := [], pos := dstPos i d f } : SampFib))
        let id := s.sched.nextId
        let s := issueUnit s i .rayx d 6 0 0 .none fibs
        let s := s.modCur (fun g => fs.foldl (fun g f =>
          g.modFib f (fun b => { b with trav := b.trav.map (fun v => answerHit v acc) })) g)
        unitIssued s i id 1

/-! ### REPACK -/

/-- Gangs of the issuing gang's repack group that have not ended (R201). -/
def repackGroup (t : Team) (gid : Nat) : List (Nat × Gang) :=
  t.gangs.filter (fun e => e.1 / t.group == gid / t.group)

/-- Has a gang arrived at its REPACK? -/
def arrivedRepack (g : Gang) : Bool :=
  g.handler.isNone && (match g.frags with | [f] => f.wait == .repack && f.st == .running | _ => false)

/-- The spill steps of R202 for every slot of the group, as (gang, fibre, first register, count). -/
def repackSteps (S : Nat) (gs : List (Nat × Gang)) : List (Nat × Nat × Nat × Nat) :=
  gs.flatMap (fun e => e.2.fibres.flatMap (fun b =>
    (spillSteps S (b.2.lo) (b.2.wb + S - 64) 80).map (fun x => (e.1, b.1, x.1, x.2))))

/-- Run the steps until one cannot be done: the fibre's trap (R202). -/
def repackSpill (tid : Nat) (t : Team) : List (Nat × Nat × Nat × Nat) → State → Except (Nat × TrapInfo × State) State
  | [], s => .ok s
  | (gid, f, n, c) :: rest, s =>
      let fes := (List.range c).map (fun k => ((s.gang tid gid).getD {}).reg (.v f ((n + k) % t.S)))
      match fes.find? (fun r => r.fe.isFailed) with
      | some r =>
          let a : Quad := match r.fe with | .failed c k => BitVec.ofNat 64 (c.toNat + 65536 * k.toNat) | _ => 0
          .error (gid, { cause := 0x0A, sub := 1, fib := f, tcode := 3, addr := a }, s)
      | none =>
          match spillStep s tid gid t f n c false with
          | some s => repackSpill tid t rest s
          | none => .error (gid, { cause := 0x09, fib := f }, s)

/-- The slots of the group in their new places (R436 step 3, R202): per gang, its fibres, each with the pc that it takes with it.
DESIGN CHOICE: a fibre takes its whole ring with it, the registers above v63 too (assumption 89). -/
def repackPlaces (gs : List (Nat × Gang)) : List (Nat × List (Nat × Fibre × Quad)) :=
  let slots := gs.flatMap (fun e => (List.range 64).map (fun n =>
    (mapGetD ({} : Fibre) n e.2.fibres, (e.2.frags.head?).elim 0 (·.pc))))
  let order := slots.filter (·.1.live) ++ slots.filter (fun b => !b.1.live)
  (gs.zipIdx).map (fun e => (e.1.1, (((order.drop (64 * e.2)).take 64).zipIdx).map (fun b =>
    (b.2, { b.1.1 with lo := b.1.1.wb }, b.1.2))))

/-- The fragments of a gang after a REPACK: one; where its fibres bring different pcs, one for each (R202). -/
def repackFrags (f : Frag) (l : List (Nat × Fibre × Quad)) : List Frag :=
  let live := l.filter (fun b => b.2.1.live)
  orderFrags (((live.map (·.2.2)).eraseDups).map (fun pc =>
    { f with wait := .none, pc := pc + 8, mask := maskOf ((live.filter (fun b => b.2.2 == pc)).map (·.1)), passed := 0, young := false, oldest := false, rest := false }))

/-- Does a slot's EMPTY register hold the REPACK back: any of a LIVE fibre, and of a DORMANT one those to be spilled (R195, R199, R436;
assumption 43)? -/
def repackHolds (S : Nat) (b : Fibre) : Bool :=
  b.regs.any (fun r => r.2.fe == .empty && (b.live || ((spillSteps S b.lo (b.wb + S - 64) 80).any (fun x =>
    (List.range x.2).any (fun k => (x.1 + k) % S == r.1)))))

/-- The DORMANT slots with EMPTY registers, each with its new place: replies follow them (R199, R436). -/
def repackMoves (gs : List (Nat × Gang)) : List ((Nat × Nat) × (Nat × Nat)) :=
  let slots := gs.flatMap (fun e => (List.range 64).map (fun n => (e.1, n, mapGetD ({} : Fibre) n e.2.fibres)))
  let order := slots.filter (·.2.2.live) ++ slots.filter (fun b => !b.2.2.live)
  (order.zipIdx).filterMap (fun b =>
    if !b.1.2.2.live && (b.1.2.2.regs.any (fun r => r.2.fe == .empty)) then
      some ((b.1.1, b.1.2.1), ((gs.map (·.1)).getD (b.2 / 64) 0, b.2 % 64)) else none)

/-- `REPACK` (R436, R443): the gang merges, arrives, and with the last arrival of the group the slots move. -/
def execRepack (_ : Pred) (s : State) : Out :=
  direct s fun i =>
    if inHandler i then .trap (illopnd 5 i.frag.lowest) s
    else if i.gang.frags.length ≠ 1 then
      .ok () (settleGang (s.modFrag (fun f => { f with st := .waitgang, wait := .repack })) i.tid i.gid)
    else if !releaseReady s i.team.place.core i.tid i.gid 1 s.sched.nextId then .wait s
    else
      let s := s.modFrag (fun f => { f with st := .running, wait := .repack })
      match s.team i.tid with
      | none => .wait s
      | some t =>
          let gs := repackGroup t i.gid
          if !gs.all (fun e => arrivedRepack e.2) || gs.any (fun e => e.2.fibres.any (fun b => repackHolds t.S b.2))
          then .wait s
          else
            let steps := repackSteps t.S gs
            let words := steps.flatMap (fun e => (List.range e.2.2.2).map (fun k =>
              (e.2.1, (mapGetD ({} : Fibre) e.2.1 ((mapGetD ({} : Gang) e.1 t.gangs).fibres)).pidx.toNat, e.2.2.1 + k)))
            match windowWait s i.tid t words true with
            | (true, s) => .wait s
            | (false, s) =>
                match repackSpill i.tid t steps s with
                | .error (gid, x, s) =>
                    let s := s.modGang i.tid gid (fun g => { g with frags := g.frags.map (fun f => { f with wait := .none }) })
                    match (s.gang i.tid gid).bind (·.frags.head?) with
                    | some f => .ok () (takeTrap s i.tid gid f x false)
                    | none => .wait s
                | .ok s =>
                    -- the move reads v0 to v63 of every slot (R200)
                    let s := gs.foldl (fun s e => goodRegs s i.tid e.1
                      ((badRegs ((s.gang i.tid e.1).getD {}) t.S (List.range 64)).filter (fun r => match r with | .v _ _ => true | _ => false))) s
                    let gs := match s.team i.tid with | some t => repackGroup t i.gid | none => gs
                    let moved := repackMoves gs
                    let s := if moved.isEmpty then s
                      else s.modTeam i.tid (fun t => { t with moves := t.moves ++ [(s.sched.nextId, moved)] })
                    let s := (repackPlaces gs).foldl (fun s e =>
                      let s := s.modGang i.tid e.1 (fun g => { g with
                        fibres := e.2.map (fun b => (b.1, b.2.1))
                        frags := (g.frags.head?).elim [] (fun f => repackFrags f e.2) })
                      if !e.2.any (fun b => b.2.1.live) then endGang s i.tid e.1 0 else settleGang s i.tid e.1) s
                    .ok () (acquire s t.place.core 1)

end Sys2Proof.Machine
end

