-- ==== Sys2Proof/Machine/Fetch.lean ====
section
/-! DEFINITION. Fetching an instruction: the words at a pc (R20, R30, R108, R243) and the length of the instruction there. -/

namespace Sys2Proof.Machine

/-- What reading code gives: words; a wait, with what it waits for asked for; or a fault with its cause, `fz` and address. -/
inductive CodeAns where
  | words (ws : List Quad)
  | wait
  | fault (cause : Nat) (fz : Bool) (addr : Nat)
  deriving DecidableEq, Repr

/-- One word of code, read at its home (R30: normal pages with `x` alone). -/
def codeWord (s : State) (ctx core : Nat) (ahead : Bool) (pc : Nat) : CodeAns × State :=
  if globalTop ≤ pc then (.fault 1 false pc, s)
  else
    match translate s ctx core (pc / 12288) ahead with
    | .miss => (.wait, startWalk s ctx core (pc / 12288) ahead)
    | .fault c fz => (.fault c fz pc, useFault s ctx core (pc / 12288))
    | .hit l _ =>
        match landing s ctx pc .fetch (fun _ _ => false) l with
        | .error c => (.fault c false pc, s)
        | .ok (.dev pa) =>
            let k := LineKey.dev (pa / 192)
            match homeReady s k (pa % 192) 8 false with
            | .ready s =>
                let s := homeFill (eccEvents s (some ctx) k (pa % 192) 8 0) k (pa % 192) 8
                (.words [BitVec.ofNat 64 (leNat (homeRead s k (pa % 192) 8))], s)
            | .wait s | .failed s => (.wait, s)
        | .ok _ => (.fault 3 false pc, s)

/-- n words of code from a pc. -/
def codeWords (s : State) (ctx core : Nat) (ahead : Bool) (pc : Nat) : Nat → CodeAns × State
  | 0 => (.words [], s)
  | n + 1 =>
      match codeWord s ctx core ahead pc with
      | (.words w, s) =>
          match codeWords s ctx core ahead (pc + 8) n with
          | (.words ws, s) => (.words (w ++ ws), s)
          | r => r
      | r => r

/-- The words of the instruction at a pc: its first word gives how many there are (R243). -/
def fetchInstr (s : State) (ctx core : Nat) (ahead : Bool) (pc : Nat) : CodeAns × State :=
  match codeWord s ctx core ahead pc with
  | (.words [w], s) =>
      match codeWords s ctx core ahead (pc + 8) (lengthOf w - 1) with
      | (.words ws, s) => (.words (w :: ws), s)
      | r => r
  | r => r

end Sys2Proof.Machine
end

