-- ==== Sys2Proof/Machine/System.lean ====
section
/-! DEFINITION. System instructions: special registers (R387, R472), traps and their return (R389-R391, R476), mailboxes
(R392), semaphores (R397), TLBINV (R398), and the trap of a word that does not decode (R269, R270). -/

namespace Sys2Proof.Machine

/-! ### Special registers -/

/-- The slices that hold fibres of a fragment (R189). -/
def sliceMask (f : Frag) : Nat := ((f.fibres.map (· / 8)).eraseDups.map (2 ^ ·)).foldl (· + ·) 0

/-- The pass count of a place's cluster; a Twill core has none, and reads 1 (R189, R203). -/
def passCount (s : State) (p : Place) : Nat := match clusterOf p.core with | some n => (s.cluster n).pass | none => 1

/-- A quad of the gang's oldest store-fault record, 0 when it has none (R472). -/
def sfWord (s : State) (tid gid k : Nat) : Quad :=
  match gangRecs s tid gid with
  | r :: _ => r.bits.extractLsb' (64 * k) 64
  | [] => 0

/-- Special register n as fibre f of the issuing fragment reads it (R387, R472). `cyc` is the agent's cycle counter. DESIGN CHOICE: the
flags of an MTILE show in `gstat` from its retirement on, before a WAITCNT has named it (R221; assumption 107). -/
def specialVal (s : State) (i : Iss) (n : Nat) (cyc : Quad) (f : Nat) : Quad :=
  let t := i.team
  let g := i.gang
  let x := s.ctx t.ctx
  let q := fun (k : Nat) => BitVec.ofNat 64 k
  match n with
  | 0 => q f
  | 1 => q i.frag.fibres.length
  | 2 => q (sliceMask i.frag)
  | 3 => i.frag.mask
  | 4 => q (passCount s t.place)
  | 5 => g.gstat.setWidth 64
  | 6 => t.cbase
  | 7 => (g.fib f).pidx.setWidth 64
  | 8 => q t.spoff
  | 9 => t.rseed
  | 10 => x.energy
  | 11 => mapGetD 0 t.ctx s.sys.enQuota
  | 12 => x.errcnt
  | 13 => x.wincnt
  | 14 => x.pbpcnt
  | 15 => x.ovfcnt
  | 16 => g.gset.setWidth 64
  | 17 => cyc
  | 18 => q (mapGetD 0 t.place.agent s.evcnt % 2 ^ 32)
  | 19 => q t.place.agent
  | 20 => x.seq.setWidth 64
  | 21 => q t.ctx
  | 22 => q t.place.coreid
  | 23 => q g.gslot
  | 24 => q t.tslot
  | 25 => q t.member
  | 26 => q (match t.pipe with | some p => p.1 | none => 0xFF)
  | 27 => t.tvec
  | 28 => g.tcause.setWidth 64
  | 29 => g.tpc
  | 30 => g.taddr
  | 31 => g.tres
  | 40 => sfWord s i.tid i.gid 0
  | 41 => sfWord s i.tid i.gid 1
  | 42 => sfWord s i.tid i.gid 2
  | 43 => sfWord s i.tid i.gid 3
  | n => (t.slot (n - 32)).setWidth 64

/-- An SRD of `sfw3` removes the gang's oldest store-fault record (R472). -/
def dropRec (s : State) (tid gid : Nat) : State :=
  match s.team tid, gangRecs s tid gid with
  | some t, r :: _ => s.modCore t.place.core (fun c => { c with sfq := c.sfq.erase r })
  | _, _ => s

/-- An agent's cycle counter moves on by an amount that no rule gives, and never back (R466, assumption 1). -/
def State.tick (s : State) (agent : Nat) : Nat × State :=
  let (v, s) := s.freeQ
  let old := mapGetD 0 agent s.cycles
  let n := old + v.toNat % (2 ^ 64 - old)
  (n, { s with cycles := mapPutD 0 agent n s.cycles })

/-- `SRD` (R387): one read, of which a scalar destination takes the lowest active fibre's value. -/
def execSrd (p : Pred) (d : Dst) (n : BitVec 6) (s : State) : Out :=
  direct s fun i =>
    if (active i p).isEmpty then .ok () (advance s 1)
    else
      let s := if n.toNat = 17 then (s.tick i.team.place.agent).2 else s
      let cyc := BitVec.ofNat 64 (mapGetD 0 i.team.place.agent s.cycles)
      (lanesWith s i p d (specialWidth n.toNat == some 64) none (fun _ => [])
        (fun f => some { val := specialVal s i n.toNat cyc f }) 1).bind fun _ s =>
          .ok () (if n.toNat = 43 then dropRec s i.tid i.gid else s)

/-- `SWR` (R387, R27, R220, R472): `gstat`, `cbase` and `tvec` alone can be written. -/
def execSwr (p : Pred) (n : BitVec 6) (a : Src) (s : State) : Out :=
  let wide := specialWidth n.toNat == some 64
  once s p [opA a wide] [] fun i vs s =>
    let v := vs.getD 0 0
    let bad := Res.trap (illopnd 5 ((active i p).headD 0)) s
    let done := fun (s : State) => Res.ok () (advance s (wordsOf [a]))
    if n.toNat = 5 then done (s.modCur (fun g => { g with gstat := loWord v &&& 0xFF }))
    else if n.toNat = 6 then
      let b := v.toNat - v.toNat % 64
      if b < globalTop ∧ b % 192 = 0 then done (s.modTeam i.tid (fun t => { t with cbase := v })) else bad
    else if n.toNat = 27 then
      if v.toNat % 8 = 0 ∧ canonGlobal v then done (s.modTeam i.tid (fun t => { t with tvec := v })) else bad
    else bad

/-! ### Traps and team end -/

/-- `TRAP` (R389): SWTRAP with its code; the resume point is the following instruction. -/
def execTrap (p : Pred) (code : BitVec 12) (s : State) : Out :=
  withIss s fun i =>
    match active i p with
    | [] => if (unsure i p).isEmpty then .ok () (advance s 1) else endsAhead s
    | f :: _ => .trap { cause := 0x14, fib := f, tcode := code.toNat, after := 8 } s

/-- The handler's fragments and whether each stands at a TRET. -/
def handlerFrags (g : Gang) : List Frag := g.frags.filter (fun f => !f.held)

/-- `TRET` (R390, R476): the fragment waits until every fibre of the handler stands at a TRET; then the handler returns. The
length of a resume instruction that cannot be read counts as one word. -/
def execTret (_ : Pred) (skip : Bool) (s : State) : Out :=
  direct s fun i =>
    match i.gang.handler with
    | none => .trap (illopnd 5 i.frag.lowest) s
    | some _ =>
        let s := s.modFrag (fun f => { f with atTret := true, tretSkip := skip })
        match s.gang i.tid i.gid with
        | none => .ok () s
        | some g =>
            let fs := orderFrags (handlerFrags g)
            if fs.any (fun f => !f.atTret) then .ok () s
            else
              let sk := (fs.head?).elim false (·.tretSkip)
              let core := i.team.place.core
              match (if sk then fetchInstr s i.team.ctx core false g.tres.toNat else (.words [], s)) with
              | (.wait, s) => .wait s
              | (.words ws, s) => .ok () (trapReturn s i.tid i.gid sk (fun _ => ws.length))
              | (.fault _ _ _, s) => .ok () (trapReturn s i.tid i.gid sk (fun _ => 1))

/-- `TEAMKILL` (R391): every gang ends, with the handler's cause for its fill rights. -/
def execTeamkill (p : Pred) (s : State) : Out :=
  direct s fun i =>
    if (active i p).isEmpty then .ok () (advance s 1)
    else
      let c := match i.gang.handler with | some h => h.cause | none => 0
      .ok () (endTeam s i.tid i.gid 0x1C c c)

/-- `ILLEGAL_INSTRUCTION` (R269, R270): the word at the pc fails decoding with a cause and sub-cause; the trap names the lowest
fibre of the fragment. -/
def execIllegalInstruction (cause sub : Nat) (s : State) : Out :=
  withIss s fun i => .trap { cause, sub, fib := i.frag.lowest } s

/-! ### Mailboxes -/

def mailbox (s : State) (n : Nat) : Mailbox := mapGetD {} n s.sys.mbox
def setMailbox (s : State) (n : Nat) (m : Mailbox) : State := s.modSys (fun y => { y with mbox := mapPutD {} n m y.mbox })
def mailboxCtx (s : State) (n : Nat) : Option Nat := boundCtx (mapGetD 0 n s.sys.mbBindNow)

/-- Scalar registers from n on. -/
def sRegs (n k : Nat) : List RegRef := (List.range k).map (fun j => .s (n + j))
def wordsOfBytes (bs : List Byte) : List Word := (List.range 16).map (fun k => BitVec.ofNat 32 (leNat ((bs.drop (4 * k)).take 4)))
def bytesOfWords (ws : List Word) : List Byte := ws.flatMap (fun w => leBytes 4 w.toNat)
/-- Write a predicate of fibres. -/
def putPreds (s : State) (fs : List Nat) (pd : BitVec 3) (v : Nat → Bool) : State :=
  s.modCur (fun g => fs.foldl (fun g f => g.setPred f pd.toNat (some (v f))) g)

/-- `MBWAIT` (R392, R206): the oldest inbound message; an acquire at system scope. -/
def execMbwait (p : Pred) (d : Dst) (mb : BitVec 6) (nb : Bool) (pd : BitVec 3) (s : State) : Out :=
  once s p [] (scalarRegs d 16) fun i _ s =>
    let act := active i p
    let base := match d with | .scal r => r.toNat | _ => 1
    if base % 16 ≠ 0 ∨ mailboxCtx s mb.toNat ≠ some i.team.ctx then .trap (illopnd 5 (act.headD 0)) s
    else
      let m := mailbox s mb.toNat
      match m.inq with
      | [] =>
          if nb then
            let s := s.modCur (fun g => writeRun g (sRegs base 16) (List.replicate 16 0))
            .ok () (advance (putPreds s act pd (fun _ => false)) 1)
          else .wait s
      | (bs, ev) :: q =>
          let s := (setMailbox s mb.toNat { m with inq := q }).receive i.team.place.agent ev.1
          let s := s.modCur (fun g => writeRun g (sRegs base 16) (wordsOfBytes bs))
          .ok () (advance (acquire (putPreds s act pd (fun _ => true)) i.team.place.core 4) 1)

/-- `MBSEND` (R392, R206, R515): a release at system scope; it waits while the outbound queue is full. -/
def execMbsend (p : Pred) (mb sa : BitVec 6) (s : State) : Out :=
  direct s fun i =>
    match active i p with
    | [] => .ok () (advance s 1)
    | f :: _ =>
        let regs := sRegs sa.toNat 16
        if sa.toNat % 16 ≠ 0 ∨ mailboxCtx s mb.toNat ≠ some i.team.ctx then
          (checked s i (regs.map (fun r => (⟨f, 0, false, r⟩ : Need))) []).bind fun _ s => .trap (illopnd 5 f) s
        else
          (checked s i (regs.map (fun r => (⟨f, 0, false, r⟩ : Need))) []).bind fun _ s =>
            let m := mailbox s mb.toNat
            if 16 ≤ m.outq.length then .wait s
            else if !releaseReady s i.team.place.core i.tid i.gid 4 s.sched.nextId then settleWait s
            else
              let (st, s) := s.stamp i.team.place.agent
              let bs := bytesOfWords (regs.map (fun r => (i.gang.reg r).read))
              let s := if m.outq.isEmpty then s.raiseNote 4 else s
              .ok () (advance (setMailbox s mb.toNat { m with outq := m.outq ++ [(bs, st)] }) 1)

/-! ### Semaphores -/

/-- `SEMSIG` (R397): an addition at the point of coherence, a release at its scope. -/
def execSemsig (p : Pred) (a b : Src) (sco : BitVec 3) (s : State) : Out :=
  once s p [opA a true, opB b] [] fun i vs s =>
    let f := (active i p).headD 0
    if 4 < sco.toNat then .trap (illopnd 5 f) s
    else
      issueAtom s i .atom none false .sem 8 (some sco.toNat) none false [{ fib := f, ga := vs.getD 0 0 }]
        (fun _ => vs.getD 1 0) (fun _ => 0) (wordsOf [a, b])

/-- `SEMWAIT` (R397): waits until the semaphore is at least the threshold; an acquire at its scope. -/
def execSemwait (p : Pred) (a b : Src) (sco : BitVec 3) (s : State) : Out :=
  once s p [opA a true, opB b true] [] fun i vs s =>
    let f := (active i p).headD 0
    if 4 < sco.toNat then .trap (illopnd 5 f) s
    else
      (resolveAll s i .atom 8 8 [{ fib := f, ga := vs.getD 0 0 }]).bind fun ts s =>
        let spads := ts.filter (fun e => match e.2 with | .spad _ _ => true | _ => false)
        if !memOpen s i.tid i.gid || storeOverlap s i (ts.map (·.2)) then .wait s
        else
          (spadsReady s i 8 2 false spads).bind fun _ s =>
            match peekAll (takeSpads s i spads) i 8 ts with
            | (none, s) => .wait s
            | (some l, s) =>
                if l.all (fun e => decide ((vs.getD 1 0).toNat ≤ e.2)) then
                  .ok () (advance (acquire s i.team.place.core sco.toNat) (wordsOf [a, b]))
                else .wait s

/-! ### Translation invalidation -/

/-- Does a page entry of a level and number overlap a run of pages? -/
def pagesMeet (lv pn first cnt : Nat) : Bool := decide (pn * 64 ^ (lv - 1) < first + cnt ∧ first < (pn + 1) * 64 ^ (lv - 1))
def TlbInv.covers (v : TlbInv) (e : TlbEnt) : Bool := e.ctx == v.ctx && (v.all || pagesMeet e.lv e.pn v.pn v.cnt)

/-- Every TLB drops the translations that a request covers, and walks of the context end without a result (R112, R113). -/
def dropTranslations (s : State) (v : TlbInv) : State :=
  let keep := fun (e : TlbEnt) => !v.covers e
  let s := { s with
    cores := s.cores.map (fun (c : Nat × Core) => (c.1, { c.2 with tlb := c.2.tlb.filter keep }))
    clusters := s.clusters.map (fun (c : Nat × Cluster) => (c.1, { c.2 with tlb := c.2.tlb.filter keep })) }
  s.modXl (fun x => { x with walks := x.walks.filter (fun w => w.ctx != v.ctx), faults := x.faults.filter (fun f => f.ctx != v.ctx) })

/-- A request is taken: old translations go at once, and it completes as TLBINV_COMPLETE gives. -/
def startInv (s : State) (ctx : Nat) (all : Bool) (pn cnt : Nat) (who : Option (Nat × Nat × Nat)) : Nat × State :=
  let (id, s) := s.fresh
  let v : TlbInv := { id, ctx, all, pn, cnt, who }
  (id, (dropTranslations s v).modXl (fun x => { x with invs := x.invs ++ [v] }))

/-- `TLBINV` (R398, R112): its earlier stores are performed, then the fragment waits until the request has completed. -/
def execTlbinv (p : Pred) (a b : Src) (ctx : Bool) (s : State) : Out :=
  direct s fun i =>
    let words := wordsOf [a, b]
    match i.frag.wait with
    | .inv id =>
        if s.xl.invs.any (fun v => v.id == id) then .wait s
        else .ok () (advance (s.modFrag (fun f => { f with wait := .none })) words)
    | _ =>
        match active i p with
        | [] => .ok () (advance s words)
        | f :: fs =>
            let S := i.team.S
            (checked s i ((f :: fs).flatMap (needsOf S i.gang [opA a true, opB b])) []).bind fun _ s =>
              let va := ((opndVal S i.gang (opA a true) f).getD 0)
              let n := ((opndVal S i.gang (opB b) f).getD 0).toNat % 2 ^ 32
              if ctx && !(a == .const 0 && b == .const 0) then .trap (illopnd 5 f) s
              else if !ctx && !canonGlobal va then .trap (illopnd 5 f) s
              else if !ctx && n == 0 then .ok () (advance s words)
              else if !releaseReady s i.team.place.core i.tid i.gid 3 s.sched.nextId then settleWait s
              else
                let pn := va.toNat / 12288
                let (id, s) := startInv s i.team.ctx ctx pn (min n (globalTop / 12288 - pn)) (some (i.tid, i.gid, f))
                .wait (s.modFrag (fun f => { f with wait := .inv id }))

end Sys2Proof.Machine
end

