-- ==== Sys2Proof/Machine/Translate.lean ====
section
/-! DEFINITION. The steps of walkers, the first-touch unit and the fault-record ring, replies to fault records, and translation
invalidations (R104-R120). -/

namespace Sys2Proof.Machine

/-! ### Walks -/

def endWalk (s : State) (id : Nat) : State := s.modXl (fun x => { x with walks := x.walks.filter (fun w => w.id != id) })
/-- A walk ends with a cause for the cores that wait for it. -/
def failWalk (s : State) (w : Walk) (cause : Nat) (fz : Bool) : State :=
  (endWalk s w.id).modXl (fun x => { x with
    faults := x.faults ++ (w.cores.map (·.1)).eraseDups.map (fun c => ⟨w.ctx, c, w.va / 12288, cause, fz, false⟩) })

/-- A walk's leaf enters the TLBs of the cores that wait for it and of their cluster (R110, R111). -/
def landWalk (s : State) (w : Walk) (l : Leaf) : State :=
  let e : TlbEnt := { ctx := w.ctx, lv := w.lv, pn := w.va / 12288 / 64 ^ (w.lv - 1), leaf := l }
  w.cores.foldl (fun s c =>
    let s := s.modCore c.1 (fun x => { x with tlb := tlbAdd x.tlb e })
    match clusterOf c.1 with
    | some n => s.modCluster n (fun x => { x with tlb := tlbAdd x.tlb e })
    | none => s) (endWalk s w.id)

def legalSize (n lo hi : Nat) : Bool := decide (lo ≤ n ∧ n ≤ hi) && 2 ^ Nat.log2 n == n
/-- Entries of the zeroed-frame ring (R114); 0 while the unit is disabled (R104). -/
def ringCount (y : Sys) : Nat :=
  if legalSize y.fzSize.toNat 256 65536 then (y.fzTail - y.fzHead).toNat else 0

/-- A walk has met a first-touch entry (R115, R117): with frames in the ring a run-ahead has its entry not served, and is told so; the
other requesters go to the first-touch unit, which judges an empty or disabled ring for all of them. -/
def meetFirstTouch (s : State) (w : Walk) (e : Quad) : State :=
  let ahead := w.cores.filter (·.2)
  let keep := w.cores.filter (fun c => !c.2)
  if ringCount s.sys = 0 && keep.isEmpty then failWalk s w 4 true
  else
    let s := if ringCount s.sys = 0 then s else
      s.modXl (fun x => { x with faults := x.faults ++ ahead.map (fun c => ⟨w.ctx, c.1, w.va / 12288, 0, true, true⟩) })
    let w := if ringCount s.sys = 0 then w else { w with cores := keep }
    if w.cores.isEmpty then endWalk s w.id
    else (endWalk s w.id).modXl (fun x => { x with walks := x.walks ++ [{ w with st := .firstTouch e }] })

/-- Address of the entry a walk reads next. -/
def Walk.entry (w : Walk) : Nat := w.node + 8 * tableIdx (w.va / 12288) w.lv

/-- `PAGE_WALK_STEP` (R107, R115): one entry is read at its home. A first-touch entry goes to the first-touch unit, behind the
walks that came before; a run-ahead's walk ends there (R117). DESIGN CHOICE: every level is read anew, no pointer entry is kept
(R110; assumption 88). -/
def execPageWalkStep (id : Nat) (s : State) : Out :=
  match s.xl.walks.find? (fun w => w.id == id && w.st == .reading) with
  | none => .next s
  | some w =>
      let a := w.entry
      let k := LineKey.dev (a / 192)
      match homeReady s k (a % 192) 8 false with
      | .wait s | .failed s => .next s
      | .ready s =>
          let s := homeFill (eccEvents s (some w.ctx) k (a % 192) 8 0) k (a % 192) 8
          let e := BitVec.ofNat 64 (leNat (homeRead s k (a % 192) 8))
          match entryAns e w.lv with
          | .unmapped => .next (failWalk s w 4 false)
          | .malformed => .next (failWalk s w 7 false)
          | .firstTouch => .next (meetFirstTouch s w e)
          | .node n =>
              .next (s.modXl (fun x => { x with walks := x.walks.map (fun y =>
                if y.id == id then { y with lv := w.lv - 1, node := n } else y) }))
          | .leaf l => .next (landWalk s w l)

/-- The frame `f` goes into the first-touch entry `e` of a walk, unless the entry has changed; the walk starts anew (R115). -/
def swapFirstTouch (s : State) (w : Walk) (e : Quad) (f : Nat) : State :=
  let k := LineKey.dev (w.entry / 192)
  let off := w.entry % 192
  let s :=
    if BitVec.ofNat 64 (leNat (homeRead s k off 8)) = e then
      (homeWrite s k off (leBytes 8 (f * 2 ^ 12 + bitsOf e 5 4 * 2 ^ 4 + 3)) 0).modXl (fun x => { x with hold := none })
    else s
  w.cores.foldl (fun s c => startWalk s w.ctx c.1 (w.va / 12288) c.2) (endWalk s w.id)

/-- The hold slot takes the ring's oldest entry, `f`; a low ring is notified (R114, R115). -/
def takeRingFrame (s : State) (f : Nat) : State :=
  let s := (s.modXl (fun x => { x with hold := some f })).modSys (fun y => { y with fzHead := y.fzHead + 1 })
  if (s.sys.fzTail - s.sys.fzHead).toNat < s.sys.fzLow.toNat then s.raiseNote 1 else s

/-- `FIRST_TOUCH` (R115): the walk that arrived first is served, once the lines it needs can be. -/
def execFirstTouch (s : State) : Out :=
  match s.xl.walks.find? (fun w => match w.st with | .firstTouch _ => true | _ => false) with
  | none => .next s
  | some w =>
      match w.st with
      | .reading => .next s
      | .firstTouch e =>
          if ringCount s.sys = 0 then .next (failWalk s w 4 true)
          else
            match homeReady s (.dev (w.entry / 192)) (w.entry % 192) 8 true with
            | .wait s | .failed s => .next s
            | .ready s =>
                let s := eccEvents s (some w.ctx) (.dev (w.entry / 192)) (w.entry % 192) 8 0
                match s.xl.hold with
                | some f => .next (swapFirstTouch s w e f)
                | none =>
                    let a := s.sys.fzBase.toNat + 4 * (s.sys.fzHead.toNat % s.sys.fzSize.toNat)
                    match homeReady s (.dev (a / 192)) (a % 192) 4 false with
                    | .wait s | .failed s => .next s
                    | .ready s =>
                        let s := eccEvents s none (.dev (a / 192)) (a % 192) 4 0
                        let f := paNat s a 4 % 2 ^ 25
                        .next (swapFirstTouch (takeRingFrame s f) w e f)

/-! ### Run-ahead and fault records -/

/-- `RUN_AHEAD_END` (R117, R119): a run-ahead that has met its end rolls back, and its record is made. -/
def execRunAheadEnd (team gang : Nat) (s : State) : Out :=
  match (s.gang team gang).bind (·.ra) with
  | some r => .next (if r.reason = 0 then s else endRunAhead s team gang)
  | none => .next s

/-- A page slot (R119). -/
def PageSlot.bits (p : PageSlot) : Nat := 2 ^ 39 + (if p.fz then 2 ^ 37 else 0) + (if p.w then 2 ^ 36 else 0) + p.pn % 2 ^ 36

/-- The 192 bytes of a fault record (R119). -/
def recBytes (r : FaultRec) (evc agent : Nat) : List Byte :=
  leBytes 32 (r.ipc.toNat * 2 ^ 192 + r.fva.toNat * 2 ^ 128 + evc * 2 ^ 80 + agent * 2 ^ 64 + r.tag * 2 ^ 48 + r.ctx * 2 ^ 40
      + r.core * 2 ^ 32 + r.gslot % 32 * 2 ^ 27 + r.src * 2 ^ 24 + (r.pages.length - 1) % 32 * 2 ^ 18 + r.ra * 2 ^ 16
      + r.ffib % 64 * 2 ^ 10 + (if r.ovf then 2 ^ 9 else 0) + 4)
    ++ (List.range 32).flatMap (fun k => leBytes 5 (match r.pages[k]? with | some p => p.bits | none => 0))

/-- `FAULT_RECORD_WRITE` (R119): the oldest record that is not in the ring is written when the ring has room. -/
def execFaultRecordWrite (s : State) : Out :=
  match s.xl.recs.find? (fun r => !r.written) with
  | none => .next s
  | some r =>
      let y := s.sys
      if !legalSize y.fqSize.toNat 64 4096 || decide (y.fqSize.toNat ≤ (y.fqTail - y.fqHead).toNat) then .next s
      else
        let agent := r.agent
        let a := y.fqBase.toNat + 192 * (y.fqTail.toNat % y.fqSize.toNat)
        match paReady s a 192 true with
        | (false, s) => .next s
        | (true, s) =>
        let (st, s) := s.stamp agent
        let s := paWrite s a (recBytes r st.1 agent)
        let s := s.modXl (fun x => { x with recs := x.recs.map (fun q => if q.tag == r.tag then { q with written := true } else q) })
        .next ((s.modSys (fun y => { y with fqTail := y.fqTail + 1 })).raiseNote 0)

/-- The application processor that writes a register is one of sixteen; no rule says which (R467, assumption 1). -/
def apAgent (s : State) : Nat × State :=
  let (v, s) := s.freeQ
  (0x6000 + v.toNat % 16, s)

/-- Registers act while the operating system runs (R524, R525). -/
def State.running (s : State) : Bool := s.sys.state == 0

/-- A written record that a reply names, removed; the reply is stamped by its writer and received by the reporting agent
(R120, R468). -/
def takeReply (s : State) (tag : Nat) : Option (FaultRec × State) :=
  if !s.running then none
  else
    (s.xl.recs.find? (fun r => r.written && r.tag == tag)).map (fun r =>
      let (ap, s) := apAgent s
      let (st, s) := s.stamp ap
      let s := s.receive r.agent st.1
      (r, s.modXl (fun x => { x with recs := x.recs.filter (fun q => q.tag != tag) })))

/-- The accesses of a sampler operation that waited for a record's reply: a deliver abandons them, and no later one; a retry makes them
again (R401). -/
def samplesAnswered (s : State) (id : Nat) (pages : List PageSlot) (deliver : Bool) : State :=
  let mine := fun (w : Nat × Nat × Nat) => pages.any (fun p => p.pn == w.1)
  s.modPend (fun p => { p with samples := p.samples.map (fun x =>
    if x.id == id then { x with
      zeroAt := x.zeroAt ++ (if deliver then (x.waitAt.filter mine).map (·.2) else [])
      waitAt := x.waitAt.filter (fun w => !mine w) } else x) })

/-- `FAULT_REPLY_RETRY` (R120, R122, R123, R55, R401): the held gang or engine tries again with new walks. -/
def execFaultReplyRetry (tag : Nat) (s : State) : Out :=
  match takeReply s tag with
  | none => .next s
  | some (r, s) =>
      match r.who with
      | .gang t g | .stash _ _ _ t g =>
          .next (s.modGang t g (fun x => if x.heldFor = some tag then { x with heldFor := none } else x))
      | .cmd id => .next (cmdReply s id false)
      | .sample id => .next (samplesAnswered s id r.pages false)

/-- `FAULT_REPLY_DELIVER` (R120, R124, R55, R401): the page-fault trap, abandoned segments, or reads of zeros. -/
def execFaultReplyDeliver (tag : Nat) (s : State) : Out :=
  match takeReply s tag with
  | none => .next s
  | some (r, s) =>
      match r.who with
      | .gang t g =>
          if ((s.gang t g).bind (·.heldFor)) != some tag then .next s
          else
            -- an access that a restore has issued again ends with its trap (assumption 29)
            let s := s.modPend (fun p => { p with loads := p.loads.map (fun l =>
              if l.team == t && l.gang == g && l.ipc == r.ipc then
                { l with parts := l.parts.map (fun q => if q.st == .again && q.fib == r.ffib then { q with st := .ready, val := some 0 } else q) }
              else l) })
            .next (s.modGang t g (fun x => { x with heldFor := none, deliver := some (r.fva, r.ffib) }))
      | .stash t e l t' g =>
          -- a gang that has been saved meanwhile is not held any more, and the reply is discarded
          if ((s.gang t' g).bind (·.heldFor)) != some tag then .next s
          else
            let s := s.modGang t' g (fun x => { x with heldFor := none })
            match ((s.team t).bind (fun x => mapGet e x.stash)).bind (fun x => stashLine x l) with
            | some x => .next (setStashLine s t e l (some { x with bad := some 4 }))
            | none => .next s
      | .cmd id => .next (cmdReply s id true)
      | .sample id => .next (samplesAnswered s id r.pages true)

/-! ### Invalidations -/

/-- `XL_INV` (R113): a request is taken, or lost while another is in progress. -/
def execXlInv (v : Quad) (s : State) : Out :=
  if !s.running then .next s
  else if s.sys.invBusy then .next (s.modSys (fun y => { y with invLost := true }))
  else
    let all := v.getLsbD 60
    let cnt := bitsOf v 51 36
    if !all && cnt == 0 then .next (s.modSys (fun y => { y with invDone := y.invDone + 1 }))
    else
      let (_, s) := startInv s (bitsOf v 59 52) all (bitsOf v 35 0) cnt none
      .next (s.modSys (fun y => { y with invBusy := true }))

/-- `xl_invst` (R113). -/
def invStatus (y : Sys) : Quad :=
  BitVec.ofNat 64 (y.invDone.toNat * 2 ^ 32 + (if y.invLost then 2 else 0) + (if y.invBusy then 1 else 0))

/-- `XL_INVST_READ` (R113): the read clears the lost bit. -/
def execXlInvstRead (s : State) : Out :=
  if !s.running then .next s
  else .next (s.modSys (fun y => { y with lastRead := leBytes 8 (invStatus y).toNat, invLost := false }))

/-- Stash lines of a context on the pages that a request covers: team, entry, line. -/
def coveredStash (s : State) (v : TlbInv) : List (Nat × Nat × Nat × StashLine) :=
  (s.teams.filter (fun t => t.2.ctx == v.ctx)).flatMap (fun t => t.2.stash.flatMap (fun e =>
    (e.2.lines.filter (fun l => v.all || pagesMeet 1 ((e.2.gva + 192 * l.1) / 12288) v.pn v.cnt)).map (fun l => (t.1, e.1, l.1, l.2))))

/-- Has every access of the context that was resolved before a request been performed (R112 step 2)? -/
def accessesDone (s : State) (v : TlbInv) : Bool :=
  s.pend.loads.all (fun l => l.ctx != v.ctx || decide (v.id < l.id) ||
      l.parts.all (fun p => p.val.isSome || (match p.tgt with | .spad _ _ => true | _ => false)))
    && s.pend.prefs.all (fun p => p.ctx != v.ctx || decide (v.id < p.id))
    && s.cores.all (fun c => c.2.sbuf.all (fun e => e.ctx != v.ctx || (match e.sent with | some n => decide (v.id < n) | none => true)))
    && s.pend.atoms.all (fun a => a.ctx != v.ctx || decide (v.id < a.id) || a.fibs.all (fun x => x.ret.isSome))
    && s.pend.peers.all (fun p => p.ctx != v.ctx || decide (v.id < p.id))

/-- `TLBINV_COMPLETE` (R112, R113, R53, R49, R61). -/
def execTlbinvComplete (id : Nat) (s : State) : Out :=
  match s.xl.invs.find? (fun v => v.id == id) with
  | none => .next s
  | some v =>
      let st := coveredStash s v
      if !accessesDone s v || st.any (fun x => stashWaits s x.1 x.2.1 (fun l => l == x.2.2.1)) then .next s
      else
        let s := st.foldl (fun s x => stashWriteBack s x.1 x.2.1 x.2.2.1 false) s
        let s := dropTranslations s v
        let s := (s.cores.map (·.1)).foldl (fun s c => dropTexel (dropL1 s c) c) s
        let s := s.modXl (fun x => { x with invs := x.invs.filter (fun y => y.id != id) })
        .next (if v.who.isNone then s.modSys (fun y => { y with invBusy := false, invDone := y.invDone + 1 }) else s)

end Sys2Proof.Machine
end

