-- ==== Sys2Proof/Machine/Host.lean ====
section
/-! DEFINITION. The home slices' own steps and the accesses that come from outside the cores: evictions and write-backs
(R64-R66, R81, R489), CXL.cache and snoops (R129, R130), CXL.mem (R168, R521), peer parts (R36-R38, R522, R523) and the
application processors (R132). -/

namespace Sys2Proof.Machine

/-! ### Evictions and write-backs -/

/-- `L2_EVICTION` (R64, R66, R81, R129): a line that is not held leaves its home. -/
def execL2Eviction (k : LineKey) (s : State) : Out :=
  match s.line k with
  | none => .next s
  | some l => .next (if heldLine s k l then s else drainRecs (evictLine s k l))

/-- Sectors whose written-back values ECC could not correct are discarded: later reads find what memory held before (R489). -/
def dropSpoilt (s : State) (k : LineKey) (m : BitVec 4) : State :=
  let bad := (List.range 4).filter (fun i => m.getLsbD i && s.mem.eccL2.contains (k, i))
  match bad, s.line k with
  | [], _ => s
  | _, none => s
  | _, some l =>
      let off := bad.foldl (fun (b : BitVec 4) i => if l.dirty.getLsbD i then b else b ||| BitVec.ofNat 4 (2 ^ i)) 0
      (s.setLine k { l with valid := l.valid &&& ~~~off }).modMem (fun x => { x with
        eccL2 := x.eccL2.filter (fun e => !(e.1 == k && off.getLsbD e.2)) })

/-- `WRITE_BACK_DONE` (R66): the values held when the write-back started are in memory, sectors of a device line, granules of a host line
(R129). A line that has no place in memory keeps them dirty. A `.na` or `.by` store that merged meanwhile starts the next write-back. -/
def execWriteBackDone (k : LineKey) (s : State) : Out :=
  match s.line k with
  | none => .next s
  | some l =>
      match l.wb with
      | none => .next s
      | some (m, data) =>
          let again := l.again
          let l := { l with wb := none, again := false }
          let go := fun (l' : L2Line) => if again then l'.startBack k else l'
          match k, backAddr s k with
          | .host key, _ =>
              .next ((List.range 3).foldl (fun s j =>
                if m.getLsbD j then granuleBack s (key + j) (memBytes data (64 * j) 64) else s) (s.setLine k (go l)))
          | _, some a =>
              let s := dropSpoilt (sectorsBack (s.setLine k l) k a m data) k m
              .next (drainRecs (match s.line k with | some l => s.setLine k (go l) | none => s))
          | _, none => .next (s.setLine k { l with dirty := l.dirty ||| m })

/-! ### CXL.cache -/

/-- `CXL_CACHE_RESPONSE` (R129, R108, R519): the host answers a request that its port carries, with a granule or with an error. An error
meets the accesses that asked. The bytes of an RdCurr are for the loads that asked; ownership is for one line, and copies of the granule in
other lines of the device go (assumption 48). -/
def execCxlCacheResponse (g : Nat) (err : Bool) (s : State) : Out :=
  match s.mem.cxl.find? (fun e => e.g == g && e.port.isSome) with
  | none => .next s
  | some r =>
      let s := s.modMem (fun m => { m with cxl := m.cxl.filter (fun e => e.g != g) })
      if err then .next (s.modMem (fun m => { m with cxlErr := (m.cxlErr ++ r.asks.map (fun n => (g, n))).eraseDups }))
      else
        let bs := memBytes s.mem.host (64 * g) 64
        if r.want = .i then .next (s.modMem (fun m => { m with curr := m.curr ++
          (r.asks.filter (fun n => s.pend.loads.any (fun l => l.id == n))).map (fun n => (n, g, bs)) }))
        else
          let ks := if r.want = .e then r.keys.take 1 else r.keys
          .next ((linesWith s g).foldl (fun s (k, i, l) =>
            if !ks.any (fun n => k == LineKey.host n) then (if r.want = .e && l.granOf i != .i then granOut s k i l g .i else s)
            else if l.granOf i == .i then s.setLine k { l with gran := mapPut i r.want l.gran, data := memPutBytes l.data (64 * i) bs }
            else if l.granOf i == .s then s.setLine k { l with gran := mapPut i r.want l.gran }
            else s) s)

/-- A snoop moves a granule that the device holds to a state; data that the host lacks reaches it. -/
def snoop (s : State) (g : Nat) (st : Gran) : State :=
  (linesWith s g).foldl (fun s (k, i, l) => if l.granOf i == .i then s else granOut s k i l g st) s
/-- The bytes that a snoop returns: of a granule in one of some states. -/
def snoopData (s : State) (g : Nat) (ok : Gran → Bool) : List Byte :=
  match (linesWith s g).find? (fun e => ok (e.2.2.granOf e.2.1)) with
  | some (_, i, l) => memBytes l.data (64 * i) 64
  | none => []
def answer (s : State) (bs : List Byte) : State := s.modSys (fun y => { y with lastRead := bs })

/-- `SNP_INV` (R130): the data of an M granule; the granule is then I. -/
def execSnpInv (g : Nat) (s : State) : Out :=
  .next (snoop (answer s (snoopData s g (· == .m))) g .i)
/-- `SNP_DATA` (R130): the data; E and M become S. -/
def execSnpData (g : Nat) (s : State) : Out :=
  .next (snoop (answer s (snoopData s g (· != .i))) g .s)
/-- `SNP_CUR` (R130): the data, and no change. -/
def execSnpCur (g : Nat) (s : State) : Out := .next (answer s (snoopData s g (· != .i)))

/-! ### Device memory from outside -/

/-- Chunks of device memory, each in one line. -/
def outChunks (pa n : Nat) : List (Nat × Nat) := chunks pa n

/-- Read at the homes, with the error events of sectors that ECC cannot correct (R489, R521). -/
def outRead (s : State) (pa n acc : Nat) : List Byte × State :=
  let s := (outChunks pa n).foldl (fun s c =>
    let k := LineKey.dev (c.1 / 192)
    homeFill (eccEvents s none k (c.1 % 192) c.2 acc) k (c.1 % 192) c.2) s
  (paRead s pa n, s)

/-- Write at the homes; a sector that the write covers whole is not read (R489). -/
def outWrite (s : State) (pa : Nat) (bs : List Byte) : State :=
  (outChunks pa bs.length).foldl (fun s c =>
    let k := LineKey.dev (c.1 / 192)
    let o := c.1 % 192
    let part := (sectorsOf o c.2).filter (fun i => !decide (o ≤ 48 * i ∧ 48 * i + 48 ≤ o + c.2))
    homeWrite (part.foldl (fun s i => eccEvents s none k (48 * i) 1 1) s) k (c.1 % 192) ((bs.drop (c.1 - pa)).take c.2) 0) s

/-- Lines that an access touches. -/
def linesOf (pa n : Nat) : List Nat := (outChunks pa n).map (fun c => c.1 / 192)
def holdLines (l : List Nat) (h : List Nat) : List Nat := h ++ l.filter (fun x => !h.contains x)

/-- Do the links work: after the link training of a start that has not ended in RECOVERY (R524, R525)? -/
def State.linked (s : State) : Bool := match s.sys.start with | some t => decide (7 < t.step) | none => s.sys.state == 0
/-- Does the host reach the device: over a CXL port that is up (R519)? -/
def State.hostLinked (s : State) : Bool := s.linked && s.sys.cxlPort.any (fun p => p.2 != 0)

/-- A host read over CXL.mem (R521, R168); the host may then hold copies of the lines. -/
def hostRead (pa len : Nat) (s : State) : Out :=
  if !s.hostLinked then .next s
  else if reservedBase < pa + len then .next (answer s [])
  else
    match homesReady s (outChunks pa len) false with
    | (false, s) => .next s
    | (true, s) =>
        let (bs, s) := outRead s pa len 0
        .next ((answer s bs).modMem (fun m => { m with hostHeld := holdLines (linesOf pa len) m.hostHeld }))

/-- `HOST_MEM_WRITE` (R168, R521): a host write is performed at the home; one that the host marks poisoned is discarded. -/
def execHostMemWrite (pa : Nat) (bytes : List Byte) (poisoned : Bool) (s : State) : Out :=
  if !s.hostLinked || decide (reservedBase < pa + bytes.length) then .next s
  else if poisoned then
    .next (devRecord s { agent := sliceAgent (sliceOf (.dev (pa / 192))), cause := 8, addr := pa, aux := 0x100 })
  else
    match homesReady s (outChunks pa bytes.length) false with
    | (false, s) => .next s
    | (true, s) =>
        .next ((outWrite s pa bytes).modMem (fun m => { m with hostHeld := holdLines (linesOf pa bytes.length) m.hostHeld }))

/-- `BACK_INVALIDATE_RESPONSE` (R168): the host holds no copy of the line any more. -/
def execBackInvalidateResponse (pl : Nat) (s : State) : Out :=
  if s.mem.backInv.contains pl then
    .next (s.modMem (fun m => { m with backInv := m.backInv.filter (· != pl), hostHeld := m.hostHeld.filter (· != pl) }))
  else .next s

/-! ### Peer parts -/

/-- Fields of export window i (R522): base, size in bytes, admits. -/
def windowAdmits (s : State) (i : Nat) (a : PeerIn) (n : Nat) : Bool :=
  let b := (mapGetD 0 (2 * i) s.sys.sgExp).toNat
  let w := mapGetD 0 (2 * i + 1) s.sys.sgExp
  let kind := match a.kind with | .read => w.getLsbD 25 | .write => w.getLsbD 26 | .atomic => w.getLsbD 27
  w.getLsbD 63 && kind && (w.getLsbD 34 || bitsOf w 33 28 == a.src) && decide (b ≤ a.pa ∧ a.pa + n ≤ b + 12288 * bitsOf w 24 0)

/-- Bytes of an incoming access. -/
def peerSize (a : PeerIn) : Nat :=
  match a.kind with | .read => a.len | .write => a.bytes.length | .atomic => ATy.bytes a.ty

/-- What a combined request leaves at its word: the steps of its fibres in order, each with its operand and compare value (R38, R69). -/
def peerSteps (a : PeerIn) (old : Quad) : Quad :=
  let n := ATy.bytes a.ty
  (List.range (max 1 (a.bytes.length / (2 * n)))).foldl (fun v k =>
    atomStep a.op a.ty v (BitVec.ofNat 64 (leNat ((a.bytes.drop (2 * n * k)).take n)))
      (BitVec.ofNat 64 (leNat ((a.bytes.drop (2 * n * k + n)).take n)))) old

/-- `PEER_ACCESS_IN` (R37, R38, R523): performed when one valid export window admits it, else refused. -/
def execPeerAccessIn (a : PeerIn) (s : State) : Out :=
  let n := peerSize a
  let refuse := .next ((answer s []).modSys (fun y => { y with lastRefused := true }))
  if !s.linked then .next s
  else if reservedBase < a.pa + n ∨ !(List.range 16).any (fun i => windowAdmits s i a n) then refuse
  else
    let ok := fun (s : State) => s.modSys (fun y => { y with lastRefused := false })
    match homesReady s (outChunks a.pa n) (a.kind != .read) with
    | (false, s) => .next s
    | (true, s) =>
        match a.kind with
        | .read => let (bs, s) := outRead s a.pa n 0; .next (ok (answer s bs))
        | .write => .next (ok (answer (outWrite s a.pa a.bytes) []))
        | .atomic =>
            let (bs, s) := outRead s a.pa n 2
            .next (ok (answer (outWrite s a.pa (leBytes n (peerSteps a (BitVec.ofNat 64 (leNat bs))).toNat)) bs))

/-- A refusal is counted and recorded, with the part and the access kind, by whoever made the access (R37, R491). -/
def refusal (s : State) (p : PendPeer) (fib acc : Nat) : State :=
  errEvent s p.ctx { p.org.err fib 0x1A with addr := p.ga, aux := p.part + acc * 256 }

/-- Access code of an engine's request to a peer: a read, a write, a credit of a barrier object (R491). -/
def cmdAcc : PeerKind → Nat | .read => 3 | .write => 4 | .atomic => 2

/-- The operand a segment's bytes belong to. -/
def segOp (s : State) (c : Cmd) (seg : Nat) : Nat :=
  match s.team c.team with | some t => ((segsOf t c.kind)[seg]?).elim 0 (·.op) | none => 0

/-- `PEER_REPLY` (R37, R38, R522): data, an acknowledgement or a refusal. A request that no up link carries is refused at
once. -/
def execPeerReply (id : Nat) (ans : PeerAnswer) (s : State) : Out :=
  match s.pend.peers.find? (fun p => p.id == id) with
  | none => .next s
  | some p =>
      let ans := if p.link = 12 then .refusal else ans
      let fits := match p.kind, ans with
        | _, .refusal => true
        | .write, .ack => true
        | .read, .data bs | .atomic, .data bs => bs.length == p.n
        | _, _ => false
      if !fits then .next s
      else
        let s := s.modPend (fun x => { x with peers := x.peers.filter (fun q => q.id != id) })
        match p.who with
        | .load lid fib =>
            match s.pend.loads.find? (fun (l : PendLoad) => l.id == lid) with
            | none => .next (if ans = .refusal then refusal s p fib 0 else s)
            | some l =>
                let v := match ans with | .data bs => loadValue l.n l.sx bs | _ => 0
                let set := fun (q : LoadPart) => if q.fib == fib && q.st == .waiting then { q with st := .ready, val := some v } else q
                let s := s.modPend (fun x => { x with loads := x.loads.map (fun (y : PendLoad) =>
                  if y.id == lid then { y with parts := y.parts.map set } else y) })
                .next (if ans = .refusal then refusal s p fib 0 else s)
        | .atom aid =>
            match s.pend.atoms.find? (fun (a : PendAtom) => a.id == aid) with
            | none => .next (if ans = .refusal then refusal s p 0 2 else s)
            | some a =>
                match ans with
                | .data bs => .next (finishAtom s { a with fibs := (combine a.act (leNat bs) a.fibs).1 })
                | _ =>
                    let s := refusal s p ((a.fibs.head?).elim 0 (·.fib)) 2
                    .next (finishAtom s { a with fibs := a.fibs.map (fun x => { x with ret := some 0 }) })
        | .store _ _ _ fib _ => .next (if ans = .refusal then refusal s p fib 1 else s)
        | .peek t g ipc fib =>
            let v := match ans with | .data bs => leNat bs | _ => 0
            let s := s.modGang t g (fun x => { x with peeks := x.peeks.map (fun q =>
              if q.1 == ipc && q.2.1 == fib && q.2.2.isNone then (ipc, fib, some v) else q) })
            .next (if ans = .refusal then refusal s p fib 2 else s)
        | .cmd cid seg =>
            match getCmd s cid with
            | none => .next (if ans = .refusal then refusal s p 0 (cmdAcc p.kind) else s)
            | some _ =>
                match ans with
                | .data bs => .next (if p.kind = .atomic then s else modCmd s cid (fun c => { c with buf := memPutBytes c.buf (bufKey (segOp s c seg) p.ga) bs }))
                | .ack => .next s
                | .refusal =>
                    let s := refusal s p 0 (cmdAcc p.kind)
                    .next (if p.kind ≠ .read then s
                      else modCmd s cid (fun c => { c with abandoned := c.abandoned ++ [seg] }))

/-- `LINK_CHANGE` (R522, R523): the link's state; the accesses in flight on a link that goes down are refused. A link that comes up trains
first: up at once, or at a later change while it trains. What peer and how many of its 8 lanes it finds are free values (assumption 1). -/
def execLinkChange (link : Nat) (up : Bool) (s : State) : Out :=
  if 12 ≤ link then .next s
  else
    let (v, s) := s.freeQ
    let training := bitsOf (mapGetD 0 link s.sys.sgLink) 1 0 == 1
    -- it may take more than one change: training, then up with a part of 0 to 63 and 1 to 8 lanes
    let w : Nat := if !up then 0 else if !training && v.getLsbD 63 then 1
      else 2 + v.toNat % 64 * 2 ^ 8 + (v.toNat / 64 % 8 + 1) * 2 ^ 16
    let s := (s.modSys (fun y => { y with sgLink := mapPutD 0 link (BitVec.ofNat 64 w) y.sgLink })).raiseNote 6
    .next (if up && w % 4 = 2 then s
      else s.modPend (fun p => { p with peers := p.peers.map (fun q => if q.link == link then { q with link := 12 } else q) }))

/-- `CXL_LINK_CHANGE` (R519): a port trains to x16, x8 or x4, or goes down. -/
def execCxlLinkChange (port width : Nat) (s : State) : Out :=
  if 2 ≤ port ∨ !(width == 0 || width == 4 || width == 8 || width == 16) then .next s
  else
    let s := s.modSys (fun y => { y with cxlPort := mapPut port width y.cxlPort })
    -- requests whose port is down go over the other one
    let up := fun (n : Option Nat) => match n with | some n => mapGetD 0 n s.sys.cxlPort != 0 | none => false
    .next (s.modMem (fun m => { m with cxl := m.cxl.map (fun r => if up r.port then r else { r with port := cxlPortOf s r.g }) }))

end Sys2Proof.Machine
end

