-- ==== Sys2Proof/Machine/LaunchRules.lean ====
section
/-! DEFINITION. What the launch unit reads, checks and places: launch records (R444-R447, R239), the rectangle and its heat
(R453), free weave blocks (R43, R45, R178, R179, R454), and a weave with its teams (R22, R446, R450 step 1). -/

namespace Sys2Proof.Machine

/-! ### Reads -/

/-- Agent identity of the launch unit (R467). -/
def launchAgent : Nat := 0x3000

/-- A read of the launch unit: bytes, a fault's cause, or not yet. -/
inductive LRead where
  | bytes (bs : List Byte) (s : State)
  | fault (cause : Nat) (s : State)
  | wait (s : State)
  deriving DecidableEq, Repr

/-- Where an access of the launch unit lands (R30), its cause, or a walk under way. -/
inductive LTarget where
  | line (k : LineKey) (off : Nat) (s : State)
  | fault (cause : Nat) (s : State)
  | wait (s : State)
  deriving DecidableEq, Repr

def launchTarget (s : State) (ctx va : Nat) (k : AK) (u : Nat := 1) : LTarget :=
  if globalTop ≤ va then .fault 1 s
  else
    match unitTranslate s ctx va u with
    | (.miss, s) => .wait s
    | (.fault c _, s) => .fault c s
    | (.hit l _, s) =>
        match landing s ctx va k (fun _ _ => false) l with
        | .ok t => (match keyOf s t with | some x => .line x.1 x.2 s | none => .fault 3 s)
        | .error c => .fault c s

/-- Read n bytes of one line at their point of coherence. -/
def launchRead (s : State) (ctx va n : Nat) (u : Nat := 1) : LRead :=
  match launchTarget s ctx va .launchR u with
  | .wait s => .wait s
  | .fault c s => .fault c s
  | .line k off s =>
      match homeReady s k off n false true false (2 ^ 61 + u) with
      | .wait s => .wait s
      | .failed s => .fault 8 s
      | .ready s =>
          let s := homeFill (eccEvents s (some ctx) k off n 0) k off n
          .bytes (homeRead s k off n) s

/-- Read at several addresses, all or none. -/
def launchReads (s : State) (ctx n u : Nat) : List Nat → LRead
  | [] => .bytes [] s
  | va :: t =>
      match launchRead s ctx va n u with
      | .bytes b s => match launchReads s ctx n u t with | .bytes bs s => .bytes (b ++ bs) s | r => r
      | r => r

/-! ### The record -/

/-- A field of a launch record (R445). -/
abbrev recF (r : BitVec 1536) (hi lo : Nat) : Nat := bitsOf r hi lo

/-- Zero some fields. -/
def dropFields (r : BitVec 1536) (l : List (Nat × Nat)) : BitVec 1536 :=
  l.foldl (fun r f => r &&& ~~~(BitVec.ofNat 1536 ((2 ^ (f.1 + 1 - f.2) - 1) * 2 ^ f.2))) r

/-- Fields that a pipeline's stage ignores, and those that a Twill stage ignores besides (R456). -/
def stageIgnores (twill : Bool) : List (Nat × Nat) :=
  [(607, 592), (591, 576), (610, 608), (613, 611), (630, 630), (631, 631), (632, 632), (635, 633), (672, 670), (1343, 1280),
   (1023, 960), (1087, 1024), (1151, 1088), (1215, 1152), (1279, 1216)]
    ++ (if twill then [(616, 614), (649, 642), (641, 636), (654, 650), (661, 655), (666, 662), (629, 628)] else [])

/-- The control program uses `entry` to `eacct` less these fields of its record (R518); reserved fields are checked (R7). -/
def controlRecord (r : BitVec 1536) : BitVec 1536 :=
  dropFields r [(1343, 704), (672, 628), (619, 576)]

/-- What a record launches. -/
inductive RecUse where
  | grid | stage (twill : Bool) | control
  deriving DecidableEq, Repr

def RecUse.twill : RecUse → Bool | .grid => false | .stage t => t | .control => true

/-- The record with its ignored fields zero. -/
def RecUse.mask (u : RecUse) (r : BitVec 1536) : BitVec 1536 :=
  match u with | .grid => r | .stage t => dropFields r (stageIgnores t) | .control => controlRecord r

/-- Codes 0 to 4 of a size give 1, 2, 4, 8, 16 (R445). -/
def sizeOf (c : Nat) : Nat := 2 ^ c
/-- Width and height of a weave (R22). -/
def weaveShape : Nat → Nat × Nat | 0 => (1, 1) | 1 => (2, 1) | 2 => (2, 2) | 3 => (4, 2) | _ => (4, 4)
/-- Gangs per quad (R179). -/
def gangsPerQuad (S : Nat) : Nat := min 8 (32768 / (64 * S))
/-- Scratchpad pool of a partition code in bytes (R43). -/
def poolBytes : Nat → Nat | 0 => 480 * 1024 | 1 => 384 * 1024 | _ => 288 * 1024

/-- A team that has not started, from a record. -/
def newTeam (ctx launch : Nat) (r : BitVec 1536) (place : Place) : Team :=
  { ctx, launch, num := 0, weave := 0, member := 0, place, tslot := 0, linear := 0, gang0 := 0, lrec := r }

/-- Address and stride of transform binding i (R445). -/
def bindAddr (r : BitVec 1536) (i : Nat) : Nat := recF r (704 + 64 * i + 49) (704 + 64 * i)
def bindStride (r : BitVec 1536) (i : Nat) : Nat := recF r (704 + 64 * i + 63) (704 + 64 * i + 50)

/-- LFIELD (R447). -/
def badField (r : BitVec 1536) : Bool :=
  let f := recF r
  f 1535 1344 != 0 || f 703 689 != 0
    || (List.range 4).any (fun i =>
          let p := f (1280 + 16 * i + 15) (1280 + 16 * i)
          decide (256 ≤ p) || (decide (f 672 670 ≤ i) && p != 0)
            || (decide (f 669 667 ≤ i) && f (704 + 64 * i + 63) (704 + 64 * i) != 0) || bindAddr r i % 64 != 0)
    || decide (4 < f 672 670) || decide (4 < f 669 667) || decide (16 < f 666 662) || decide (64 < f 661 655)
    || decide (16 < f 654 650) || decide (160 < f 649 642) || f 629 628 == 3 || decide (12 < f 627 624)
    || decide (4 < f 619 617) || decide (4 < f 616 614) || decide (4 < f 613 611) || decide (4 < f 610 608)
    || decide (globalTop ≤ f 63 0) || f 63 0 % 8 != 0
    || (f 127 64 - f 127 64 % 64) % 192 != 0 || f 191 128 % 192 != 0 || f 287 256 % 192 != 0 || decide (2 ^ 24 < f 287 256)
    || f 319 288 % 64 != 0 || decide (f 287 256 ≤ f 319 288)
    || f 1279 1216 % 8 != 0 || f 1215 1152 % 4 != 0 || f 1151 1088 % 4 != 0 || f 1023 960 % 8 != 0
    || (f 1023 960 == 0 && f 1087 1024 != 0) || (f 631 631 == 1 && f 591 576 != 0) || (f 632 632 == 1 && f 607 592 != 0)

/-- Format slot k of a record. -/
def recSlot (r : BitVec 1536) (k : Nat) : Word := r.extractLsb' (320 + 32 * k) 32

/-- SLOTFIELD and SLOTCOMBO (R239). -/
def badSlot (w : Word) : Bool :=
  bitsOf w 31 28 != 0 || bitsOf w 7 0 != 0 || decide (4 < bitsOf w 26 24) || bitsOf w 21 20 == 3
    || (elemOf (bitsOf w 11 8)).isNone || (elemOf (bitsOf w 15 12)).isNone || (elemOf (bitsOf w 19 16)).isNone
def badCombo (w : Word) : Bool := w.getLsbD 27 && (match matEntry w with | some (dense, _) => !dense | none => true)

/-- LSHAPE (R447). A stage ignores its rectangle (R456). -/
def badShape (u : RecUse) (r : BitVec 1536) : Bool :=
  let f := recF r
  let (ww, wh) := weaveShape (f 616 614)
  let G := f 623 620 + 1
  (u == .grid && (decide (sizeOf (f 610 608) < ww) || decide (sizeOf (f 613 611) < wh)
    || (List.range (f 672 670)).any (fun i =>
          let p := f (1280 + 16 * i + 15) (1280 + 16 * i)
          p % 16 % sizeOf (f 610 608) != 0 || p / 16 % 16 % sizeOf (f 613 611) != 0)))
    || G % sizeOf (f 619 617) != 0
    || decide (2 ^ 26 < (f 591 576 + 1) * (f 607 592 + 1) * (ww * wh) * G)

/-- LBIND (R447): the copy requests of the bindings. -/
def badBinding (s : State) (u : RecUse) (r : BitVec 1536) (q : BitVec 512) : Bool :=
  let t := newTeam 0 0 r (if u.twill then .twill 0 else .main 0)
  let d := BitVec.ofNat 64 (reqDst q)
  reqBad s 0 t q || reqF q 264 264 != 0 || reqTk q != 0 || reqF q 281 281 != 0 || reqF q 265 265 != 0
    || gaSel d != 1 || !canonical d || decide (t.spsz < reqDst q % 2 ^ 20 + reqDstLen t q)

/-- The first failure among the checks that need no further read: a code of R447. -/
def recordCode (u : RecUse) (r : BitVec 1536) : Option Nat :=
  let slots := (List.range 8).map (recSlot r)
  if badField r then some 0x20
  else if slots.any badSlot then some 0x21
  else if slots.any badCombo then some 0x22
  else if badShape u r then some 0x23
  else none

/-- LFIT for one team (R447); a Twill team always fits (R203). -/
def badFit (u : RecUse) (r : BitVec 1536) : Bool :=
  let f := recF r
  !u.twill && (decide (gangsPerQuad (64 + 16 * f 627 624) < (f 623 620 + 1 + 3) / 4)
    || decide (poolBytes (f 629 628) < 3072 * f 649 642))

/-- A record with its bindings' requests, a rejection with its code, LREAD cause and `csem`, or not yet. -/
inductive RecAns where
  | ok (r : BitVec 1536) (reqs : List (BitVec 512)) (s : State)
  | reject (code cause csem : Nat) (s : State)
  | wait (s : State)
  deriving DecidableEq, Repr

/-- Cut bytes into requests. -/
def requests (n : Nat) (bs : List Byte) : List (BitVec 512) :=
  (List.range n).map (fun i => BitVec.ofNat 512 (leNat ((bs.drop (64 * i)).take 64)))

/-- Read and check a record up to LBIND (R447). -/
def readRecord (s : State) (ctx addr : Nat) (u : RecUse) : RecAns :=
  if addr % 192 ≠ 0 then .reject 0x27 0x0F 0 s
  else
    match launchRead s ctx addr 192 with
    | .wait s => .wait s
    | .fault c s => .reject 0x27 c 0 s
    | .bytes bs s =>
        let r := u.mask (BitVec.ofNat 1536 (leNat bs))
        match recordCode u r with
        | some code => .reject code 0 (recF r 1279 1216) s
        | none =>
            let n := recF r 669 667
            match launchReads s ctx 64 1 ((List.range n).map (bindAddr r)) with
            | .wait s => .wait s
            | .fault c s => .reject 0x27 c (recF r 1279 1216) s
            | .bytes bs s =>
                let l := requests n bs
                if l.any (badBinding s u r) then .reject 0x25 0 (recF r 1279 1216) s else .ok r l s

/-! ### Rectangles and blocks -/

/-- Heat of a rectangle (R453): the map's values of every cluster that holds one of its cores. -/
def heatOf (s : State) (x0 y0 w h : Nat) : Nat :=
  let cl := ((List.range h).flatMap (fun j => (List.range w).map (fun i => 8 * ((y0 + j) / 2) + (x0 + i) / 2))).eraseDups
  (cl.map (fun n => bitsOf (mapGetD 0 n s.sys.pwHeat) 7 0)).foldl (· + ·) 0

/-- The first element of a list with the least value. -/
def leastBy {α : Type} (f : α → Nat) : List α → Option α
  | [] => none
  | x :: t => match leastBy f t with | some y => if f y < f x then some y else some x | none => some x

/-- Aligned blocks of a rectangle, least y first, then least x. -/
def blocksIn (x0 y0 w h bw bh : Nat) : List (Nat × Nat) :=
  (List.range (h / bh)).flatMap (fun j => (List.range (w / bw)).map (fun i => (x0 + bw * i, y0 + bh * j)))

/-- The origin of a rectangle among given ones, or all aligned ones (R453). -/
def chooseOrigin (s : State) (w h : Nat) (given : List (Nat × Nat)) : Nat × Nat :=
  let l := if given.isEmpty then blocksIn 0 0 16 16 w h else given
  (leastBy (fun o => heatOf s o.1 o.2 w h) l).getD (0, 0)

/-- Sum of a list. -/
def total (l : List Nat) : Nat := l.foldl (· + ·) 0

/-- Gangs of a team on a quad; a team that has not started counts all it will have. -/
def gangsOnQuad (t : Team) (q : Nat) : Nat :=
  if t.started then (t.gangs.filter (fun g => quadOfGang g.1 == q)).length
  else ((List.range t.G).filter (fun g => quadOfGang g == q)).length

/-- Can core n hold one more team of a record (R43, R45, R179, R454)? -/
def coreFree (s : State) (r : BitVec 1536) (n : Nat) : Bool :=
  let t := newTeam 0 0 r (.main n)
  let all := s.teams.filter (fun e => e.2.place == .main n)
  let busy := all.filter (fun e => !e.2.ended || s.cmds.any (fun c => c.team == e.1))
  let live := (all.filter (fun e => !e.2.ended)).map (·.2)
  let sum := fun (l : List (Nat × Team)) (f : Team → Nat) => total (l.map (fun e => f e.2))
  (List.range 4).all (fun q =>
    let gs : List (Nat × Nat) := (t :: live).map (fun u => (gangsOnQuad u q, u.S))
    decide (total (gs.map (·.1)) ≤ 8) && decide (total (gs.map (fun e => 64 * e.2 * e.1)) ≤ 32768))
    && decide (sum all Team.spsz + t.spsz ≤ poolBytes (t.field 629 628))
    && decide (sum busy Team.nstash + t.nstash ≤ 16) && decide (sum busy Team.ntile + t.ntile ≤ 64)
    && decide (sum busy Team.nacc + t.nacc ≤ 16)
    && (live.isEmpty || (s.core n).part == t.field 629 628) && decide (all.length < 32)

/-- Cores of a block. -/
def blockCores (x y w h : Nat) : List Nat := (List.range h).flatMap (fun j => (List.range w).map (fun i => 16 * (y + j) + x + i))

/-- The free aligned weave block of a rectangle with the least y, then the least x (R454). -/
def freeBlock (s : State) (r : BitVec 1536) (x0 y0 w h : Nat) : Option (Nat × Nat) :=
  let (ww, wh) := weaveShape (recF r 616 614)
  (blocksIn x0 y0 w h ww wh).find? (fun b => (blockCores b.1 b.2 ww wh).all (coreFree s r))

/-- Is Twill context h bound to the context, for the control program or for stages, and free (R205, R460, R516)? -/
def twillFree (s : State) (ctx h : Nat) (control : Bool) : Bool :=
  let b := mapGetD 0 h s.sys.twBindNow
  b.getLsbD 8 && bitsOf b 7 0 == ctx && b.getLsbD 9 == control && !s.teams.any (fun e => e.2.place == .twill h)
def freeTwill (s : State) (ctx : Nat) (control : Bool) : Option Nat := (List.range 128).find? (fun h => twillFree s ctx h control)

/-! ### Weaves and teams -/

/-- The lowest number that a list does not hold. -/
def lowestFree (n : Nat) (l : List Nat) : Nat := ((List.range n).find? (fun k => !l.contains k)).getD 0

/-- Place of member m of a weave at a place of its first core. -/
def memberPlace (p : Place) (ww m : Nat) : Place :=
  match p with | .main n => .main (n + 16 * (m / ww) + m % ww) | .twill h => .twill h

/-- Allocate a weave of a launch at a block: its teams stand on their cores, none of them started (R450 step 1, R24).
`first` is the linear index of its first team. -/
def placeWeave (s : State) (l : Launch) (at_ : Place) (first : Nat) : State :=
  let (ww, wh) := if at_.isTwill then (1, 1) else weaveShape (recF l.lrec 616 614)
  let (wid, s) := s.fresh
  let entry := recF l.lrec 63 0
  let x0 := match at_ with | .main n => n % 16 | .twill _ => 0
  let y0 := match at_ with | .main n => n / 16 | .twill _ => 0
  let (ids, s) := (List.range (ww * wh)).foldl (fun (e : List Nat × State) m =>
    let (tid, s) := e.2.fresh
    let place := memberPlace at_ ww m
    let T := first + m
    let t0 := newTeam l.ctx l.id l.lrec place
    let t : Team := { t0 with
      num := l.num, weave := wid, member := m
      tslot := lowestFree 32 ((s.teams.filter (fun e => e.2.place == place)).map (fun e => e.2.tslot))
      linear := T, gang0 := T * t0.G, pipe := l.stage
      generator := l.stage.isSome && s.felt.generators.contains entry
      cbase := BitVec.ofNat 64 (recF l.lrec 127 64)
      bindings := List.range (recF l.lrec 669 667), reqs := l.reqs }
    let part := recF l.lrec 629 628
    let s := if at_.isTwill || (s.core place.core).part == part then s
      else (dropL1 s place.core).modCore place.core (fun c => { c with part })
    (e.1 ++ [tid], s.setTeam tid t)) ([], s)
  let w : Weave := { ctx := l.ctx, launch := l.id, w := ww, h := wh, x0, y0, teams := ids }
  { s with weaves := mapPut wid w s.weaves,
           launches := mapMod l.id (fun (x : Launch) => { x with live := x.live ++ [wid], teams := x.teams ++ ids }) s.launches }

/-- A context takes no new weaves while it is destroyed, exhausted or saved whole (R488, R518, R479). -/
def exhausted (s : State) (ctx : Nat) : Bool :=
  let q := mapGetD 0 ctx s.sys.enQuota
  q != 0 && decide (q.toNat ≤ (mapGetD 0 ctx s.sys.enUsed).toNat)
def placeable (s : State) (ctx : Nat) : Bool :=
  match s.ctx? ctx with
  | none => false
  | some x => !x.destroying && !exhausted s ctx
      && !s.saveReqs.any (fun r => r.ctx == ctx && r.whole && r.restoreEntries.isNone)

end Sys2Proof.Machine
end

