-- ==== Sys2Proof/Machine/Preempt.lean ====
section
/-! DEFINITION. Pre-emption (R479-R485), energy and quotas (R486-R488, R452), and the pass-over limit of issue (R464). -/

namespace Sys2Proof.Machine

/-! ### Stopping a weave -/

/-- Teams of a weave, by identifier. -/
def weaveTeams (s : State) (x : Weave) : List (Nat × Team) := x.teams.filterMap (fun t => (s.team t).map (fun y => (t, y)))

/-- Does an access wait for a fill, or does its touch still look for one (R101)? -/
def waitsFor (s : State) (mine : Toucher → Bool) (block : Nat → Nat → Bool) : Bool :=
  s.pend.touches.any (fun t => mine t.who && block t.rn t.bix)
    || s.felt.merges.any (fun m => block m.rn m.bix && m.waiters.any (fun x => mine x.1))
    || s.pend.replays.any (fun r => mine r.who && block r.rn r.bix)
def loadTouch (id : Nat) (w : Toucher) : Bool := match w with | .load n => n == id | _ => false
def loadWaits (s : State) (id : Nat) : Bool := waitsFor s (loadTouch id) (fun _ _ => true)

/-- Does a fibre of a sampler operation wait for the fill of a block that it has asked for (R199)? -/
def fibWaits (s : State) (x : PendSample) (f : SampFib) : Bool :=
  x.asks.any (fun a => a.1 == f.fib && waitsFor s (sampleTouch x.id) (fun rn bix => rn == a.2.1 && bix == a.2.2))

/-- A guarded command whose guard is UNRESOLVED and that has not started (R386). -/
def guardWaits (s : State) (c : Cmd) : Bool :=
  c.st == .queued && (match c.guard, s.team c.team with
    | some g, some t => mapGetD Guard.unresolved g t.guards == .unresolved
    | _, _ => false)

/-- Take an operation out of a gang's issue-order lists. -/
def Gang.dropOp (g : Gang) (id : Nat) : Gang := { g with ops := g.ops.map (fun e => (e.1, e.2.filter (fun o => o.1 != id))) }

/-- A weave stops at its next instruction boundaries (R480 step 1, R481): run-ahead and latches are withdrawn, a held gang
stands at its instruction, commands behind an unresolved guard leave queue and counter. -/
def stopWeave (s : State) (w : Nat) : State :=
  match mapGet w s.weaves with
  | none => s
  | some x =>
      if x.saving then s
      else
        let ts := x.teams
        let gone := s.cmds.filter (fun c => ts.contains c.team && guardWaits s c)
        let s := { s with cmds := s.cmds.filter (fun c => !gone.any (fun d => d.id == c.id)) }
        let s := { s with weaves := mapPut w { x with saving := true, withdrawn := gone } s.weaves }
        ts.foldl (fun s tid =>
          match s.team tid with
          | none => s
          | some t =>
              let s := t.gangs.foldl (fun s e =>
                let s := if e.2.ra.isSome then forgetWalks s t.ctx t.place.core else s
                s.modGang tid e.1 (fun g =>
                  let g := gone.foldl (fun (g : Gang) c => if c.gangs.contains e.1 then g.dropOp c.id else g) g
                  { g with
                    ra := none, heldFor := none, latch := none, genTouches := [], peeks := []
                    frags := g.frags.map (fun f => if f.wait = .latch then { f with wait := .none } else f) })) s
              let mine := fun (u : Toucher) => match u with | .probe a _ _ => a == tid | _ => false
              let s := s.modPend (fun p => { p with touches := p.touches.filter (fun y => !mine y.who) })
              s.modFelt (fun f => { f with merges := f.merges.map (fun m =>
                { m with waiters := m.waiters.filter (fun y => !mine y.1) }) })) (withdrawUnits s (fun x => ts.contains x.team))

/-- Withdrawn commands re-enter their queues and are counted again (R386, R482 step 3). -/
def readmit (s : State) (l : List Cmd) : State :=
  l.foldl (fun s c =>
    let core := match s.team c.team with | some t => t.place.core | none => c.core
    let s := { s with cmds := s.cmds ++ [{ c with core }] }
    c.gangs.foldl (fun s g => s.modGang c.team g (fun x => x.issueOp c.cls c.id c.scope)) s) s

/-- A fragment in the middle of an instruction that completes before the save, or of a trap's entry (R481, R474). -/
def midWait (s : State) (tid gid : Nat) (f : Frag) : Bool :=
  (match f.wait with | .inv _ | .cmd _ | .settle => true | _ => false) || f.sc != 0
    || ((s.gang tid gid).bind (·.entry)).any (fun e => e.1 == f.mask)

/-- No instruction, no engine and no access of the weave needs its stash lines any more, so that they can be written back (R480 step 3). -/
def calm (s : State) (x : Weave) : Bool :=
  (weaveTeams s x).all (fun e => e.2.gangs.all (fun g => g.2.frags.all (fun f => !midWait s e.1 g.1 f))
      && !e.2.stash.any (fun y => stashWaits s e.1 y.1 (fun _ => true)))
    && !s.cmds.any (fun c => x.teams.contains c.team) && !s.pend.spads.any (fun p => x.teams.contains p.team)

/-- R480 step 3 and R481: everything of the weave that must complete has done so. -/
def settled (s : State) (x : Weave) : Bool :=
  let mine := fun (t : Nat) => x.teams.contains t
  (weaveTeams s x).all (fun e => e.2.started && e.2.stash.all (fun y => y.2.lines.isEmpty)
      && e.2.gangs.all (fun g => g.2.frags.all (fun f => !midWait s e.1 g.1 f)))
    && !s.cmds.any (fun c => mine c.team)
    && s.cores.all (fun c => !c.2.sbuf.any (fun e => mine e.team))
    && !s.pend.spads.any (fun p => mine p.team)
    && s.pend.loads.all (fun l => !mine l.team ||
        (loadWaits s l.id && l.parts.all (fun p => p.val.isSome || p.st == .touching)))
    && s.pend.samples.all (fun l => !mine l.team || l.fibs.all (fun f => f.done || fibWaits s l f))
    && !s.pend.atoms.any (fun a => mine a.team)
    && !s.pend.peers.any (fun p => match p.who with | .store _ t _ _ _ => mine t | _ => false)

/-! ### The save image and its region -/

def upTo192 (n : Nat) : Nat := (n + 191) / 192 * 192

/-- Fibres of a load and of a sampler operation that a save records (R485). -/
def loadRecords (l : PendLoad) : Nat := (l.parts.filter (fun p => p.val.isNone)).length
def sampleRecords (x : PendSample) : Nat := if x.kind == .rayx then 0 else (x.fibs.filter (fun f => !f.done)).length

/-- Bytes of a team's image (R483). -/
def teamImage (t : Team) (records : Nat) : Nat :=
  let fibres := if t.place.isTwill then 1 else 64
  192 + upTo192 t.spsz + upTo192 (16 * t.nstash) + upTo192 (8 * t.ntile) + upTo192 (16384 * t.nacc)
    + t.G * (3840 + fibres * upTo192 (4 * t.S + t.S / 4 + 448)) + upTo192 (128 * records + 192)

/-- Bytes of a weave's image (R484). -/
def weaveImage (s : State) (x : Weave) : Nat :=
  192 + total ((weaveTeams s x).map (fun e =>
    teamImage e.2 (total ((s.pend.loads.filter (fun l => l.team == e.1)).map loadRecords)
      + total ((s.pend.samples.filter (fun l => l.team == e.1)).map sampleRecords))))

def saveBase (s : State) (ctx : Nat) : Nat := (mapGetD 0 ctx s.sys.save).toNat
/-- A quad of a context's save region (R484). -/
def saveQuad (s : State) (ctx off : Nat) : Nat := paNat s (saveBase s ctx + off) 8
def putSaveQuad (s : State) (ctx off v : Nat) : State := paWrite s (saveBase s ctx + off) (leBytes 8 v)
def dirQuad (s : State) (ctx i : Nat) : Nat := saveQuad s ctx (192 + 8 * i)
def dirValid (s : State) (ctx i : Nat) : Bool := decide (i < 256) && (dirQuad s ctx i).testBit 63

/-- Where an image of n bytes goes: its directory entry and offset, or none when the save is refused (R484). -/
def imagePlace (s : State) (ctx n : Nat) : Option (Nat × Nat) :=
  let base := saveBase s ctx
  if base = 0 then none
  else
    let size := saveQuad s ctx 0
    let used := saveQuad s ctx 8
    if reservedBase < base + size ∨ size < 2304 + used + n then none
    else ((List.range 256).find? (fun i => !dirValid s ctx i)).map (fun i => (i, 2304 + used))

/-- A destination as an instruction's specifier names it (R247). -/
def dstSpec (d : Dst) : Nat :=
  match d with
  | .vec r => r.toNat
  | .scal r => 64 + r.toNat
  | .pred p => 128 + p.toNat
  | .file n => 192 + n.toNat

/-- A record of a pending procedural access (R485). -/
def accessRecord (ipc a0 a1 ops dst size sx kind fib : Nat) : List Byte :=
  leBytes 128 (ipc * 2 ^ 960 + a0 * 2 ^ 896 + a1 * 2 ^ 832 + ops * 2 ^ 512 + dst * 2 ^ 56 + size * 2 ^ 54 + sx * 2 ^ 53
    + kind * 2 ^ 49 + fib)

/-- The records of a load, of a sampler operation. -/
def loadImage (t : Team) (l : PendLoad) : List (List Byte) :=
  let size := match l.n with | 1 => 0 | 2 => 1 | 4 => 2 | _ => 3
  (l.parts.filter (fun p => p.val.isNone)).map (fun p =>
    accessRecord l.ipc.toNat p.ga.toNat 0 0 (dstSpec l.dst) size (if l.sx then 1 else 0) (if l.const then 1 else 0)
      (t.slotNow l.id l.gang p.fib).2)
def sampleImage (t : Team) (x : PendSample) : List (List Byte) :=
  let kind := match x.kind with | .sample => 2 | .sampleg => 3 | .fetch => 4 | .nsample => 5 | _ => 6
  if x.kind == .rayx then []
  else (x.fibs.filter (fun f => !f.done)).map (fun f =>
    accessRecord x.ipc.toNat f.hdr (if x.kind == .rastq then 0 else x.ctl.toNat)
      (((f.src.take 10).zipIdx).foldl (fun n w => n + w.1.toNat * 2 ^ (32 * w.2)) 0) x.dst 2 0 kind (t.slotNow x.id x.gang f.fib).2)

/-- A stash map entry as an image holds it (R51); an entry that is not valid has free fields (assumption 26). -/
def stashImage (t : Team) (n : Nat) (free : Quad × Quad) : List Byte :=
  match mapGet n t.stash with
  | some e => leBytes 16 (e.gva * 2 ^ 64 + e.soff * 2 ^ 44 + e.nl * 2 ^ 32 + t.tslot % 32 * 16 + 1)
  | none => leBytes 16 (free.1.toNat * 2 ^ 64 + free.2.toNat / 2 ^ 32 * 2 ^ 32 + t.tslot % 32 * 16)
/-- A tile-table entry as an image holds it (R57, R60). DESIGN CHOICE: a tile that a partial fill left FILLING stands there as FILLING
(assumption 83). -/
def tileImage (t : Team) (n : Nat) : List Byte :=
  let x := mapGetD {} n t.tiles
  let st := match x.st with | .empty => 0 | .filling => 1 | .ready => 2 | .draining => 3
  leBytes 8 (st * 2 ^ 62 + (if x.err then 2 ^ 61 else 0) + t.tslot % 32 * 2 ^ 56 + x.nl * 2 ^ 32 + x.soff)

/-- Where the sections of a team's image begin (R483): stash map, tile table, accumulators, gangs, fibres, pending records. -/
structure ImagePlan where
  stash : Nat
  tiles : Nat
  accs : Nat
  gangs : Nat
  fibres : Nat
  records : Nat
  deriving DecidableEq, Repr
def slotsOf (t : Team) : Nat := if t.place.isTwill then 1 else 64
def fibreBytes (t : Team) : Nat := upTo192 (4 * t.S + t.S / 4 + 448)
def imagePlan (t : Team) : ImagePlan :=
  let o1 := 192 + upTo192 t.spsz
  let o2 := o1 + upTo192 (16 * t.nstash)
  let o3 := o2 + upTo192 (8 * t.ntile)
  let o4 := o3 + 16384 * t.nacc + (upTo192 (16384 * t.nacc) - 16384 * t.nacc)
  let o5 := o4 + 3840 * t.G
  ⟨o1, o2, o3, o4, o5, o5 + t.G * slotsOf t * fibreBytes t⟩

/-- A section of n bytes with a content, in the device's own layout. -/
def laidOut (content : List Nat) (n : Nat) : List Byte := (List.range (n / 8)).flatMap (fun k => leBytes 8 (Config.imageLayout content k).toNat)

def feNats : Fe → List Nat
  | .full => [0] | .empty => [1] | .failed c k => [2, c.toNat, k.toNat] | .unknown => [3]
def ratNats (q : Rat) : List Nat := [if q < 0 then 1 else 0, q.num.natAbs, q.den]
def hitNats : Option Hit → List Nat
  | some h => 1 :: ratNats h.t ++ ratNats h.u ++ ratNats h.v ++ [h.id, h.shx, if h.back then 1 else 0]
  | none => [0]
def bitNat (b : Bool) : Nat := if b then 1 else 0
/-- A traversal's content (R434). -/
def travNats (v : Trav) : List Nat :=
  [v.ipc.toNat, v.vd, v.hdr, bitNat v.first, bitNat v.ah, (match v.cull with | .none => 0 | .back => 1 | .front => 2), bitNat v.suspended,
   bitNat v.begun, v.visits, v.bads, bitNat v.dropped, v.head, bitNat v.badChild, bitNat v.overBudget, v.pos]
    ++ v.ray.map (·.toNat) ++ v.stack.flatMap (fun e => match e with | .node o => [0, o] | .leaf o n => [1, o, n])
    ++ (match v.leaf with | some (o, n, k) => [1, o, n, k] | none => [0]) ++ ratNats v.tb ++ hitNats v.best ++ hitNats v.cand
/-- A fibre section's content. -/
def fibreNats (t : Team) (g : Gang) (n : Nat) : List Nat :=
  let b := mapGetD ({} : Fibre) n g.fibres
  [((g.frags.find? (fun f => f.mask.getLsbD n)).elim 0 (fun f => f.pc.toNat)), b.preds.toNat, b.wb, b.lo, b.pidx.toNat, bitNat b.live]
    ++ (List.range t.S).flatMap (fun k => let r := mapGetD ({} : Reg) ((b.lo + k) % t.S) b.regs; r.val.toNat :: feNats r.fe)
    ++ (match b.trav with | some v => if v.suspended then 1 :: travNats v else 2 :: travNats v | none => [0])
def waitNats : FragWait → List Nat
  | .none => [0] | .bar n => [1, n] | .wbar n => [2, n] | .repack => [3] | .gbar => [4] | .mma => [5] | .latch => [6] | .regang => [7]
  | .release n => [8, n] | .inv n => [9, n] | .cmd n => [10, n] | .settle => [11]
def fragNats (f : Frag) : List Nat :=
  [f.pc.toNat, f.mask.toNat, (match f.st with | .running => 0 | .parked => 1 | .waitgang => 2), bitNat f.held, bitNat f.atTret, bitNat f.tretSkip,
   f.stack.length] ++ f.stack.flatMap (fun e => [e.1.toNat, e.2]) ++ waitNats f.wait
/-- A gang section's content: registers, status, fragments, fill rights, trap state, withdrawn commands, store-fault records. -/
def gangNats (t : Team) (n : Nat) (g : Gang) (cmds : List Cmd) (recs : List SfRec) : List Nat :=
  (List.range 64).flatMap (fun k => let r := mapGetD ({} : Reg) k g.sregs; r.val.toNat :: feNats r.fe)
    ++ [g.gstat.toNat, g.gset.toNat, (match t.pipe with | some p => p.1 | none => 0xFF)] ++ g.frags.flatMap fragNats
    ++ g.rights.flatMap (fun e => [e.1, e.2.rn, e.2.bix, e.2.dep, e.2.cctx] ++ e.2.chain.flatMap (fun c => [c.1, c.2]))
    ++ [g.tcause.toNat, g.tpc.toNat, g.taddr.toNat, g.tres.toNat]
    ++ (match g.handler with
        | some h => 1 :: fragNats h.frag ++ h.preds.flatMap (fun e => [e.1, e.2.toNat])
            ++ h.fes.flatMap (fun e => [e.1, e.2.1] ++ feNats e.2.2) ++ [h.cause]
        | none => [0])
    ++ (cmds.filter (fun c => c.gang == n)).flatMap (fun c => [c.id, c.guard.getD 64, c.scope])
    ++ (recs.filter (fun r => r.gang == n)).map (fun r => r.bits.toNat)
/-- A team header's content. -/
def teamNats (t : Team) : List Nat :=
  [t.num, t.member, t.G, t.S, t.spsz / 3072, t.nstash, t.ntile, t.nacc, t.cbase.toNat, t.tvec.toNat]
    ++ (List.range 64).map (fun n => match mapGetD Guard.unresolved n t.guards with | .unresolved => 0 | .isTrue => 1 | .isFalse => 2)
    ++ (List.range 16).flatMap (fun n => t.gangs.map (fun g => (g.2.frags.filter (fun f =>
        f.wait == (if n < 8 then FragWait.bar n else .wbar (n - 8)))).foldl (fun m f => m ||| f.mask.toNat) 0))

/-- The sections of a team's image, each with its place in the image (R483). -/
def teamSections (s : State) (tid : Nat) (t : Team) (cmds : List Cmd) (free : Quad × Quad) : List (Nat × List Byte) :=
  let recs := ((s.pend.loads.filter (fun l => l.team == tid)).flatMap (loadImage t)
    ++ (s.pend.samples.filter (fun x => x.team == tid)).flatMap (sampleImage t)).flatten
  let p := imagePlan t
  let sf := (s.core t.place.core).sfq.filter (fun r => r.team == tid)
  let mine := cmds.filter (fun c => c.team == tid)
  let gang := fun (j : Nat) => mapGetD ({} : Gang) j t.gangs
  [(0, laidOut (teamNats t) 192), (192, memBytes t.spad 0 t.spsz),
   (p.stash, (List.range t.nstash).flatMap (fun n => stashImage t n free)), (p.tiles, (List.range t.ntile).flatMap (tileImage t))]
    ++ (List.range t.nacc).map (fun a => (p.accs + 16384 * a, memBytes (mapGetD [] a t.accs) 0 16384))
    ++ (List.range t.G).map (fun j => (p.gangs + 3840 * j, laidOut (gangNats t j (gang j) mine sf) 3840))
    ++ (List.range t.G).flatMap (fun j => (List.range (slotsOf t)).map (fun n =>
        (p.fibres + (j * slotsOf t + n) * fibreBytes t, laidOut (fibreNats t (gang j) n) (fibreBytes t))))
    ++ [(p.records, recs ++ List.replicate 192 0)]

/-- Bytes that the device stores into a save region: at device scope, with no line taken. -/
def saveWrite (s : State) (pa : Nat) (bs : List Byte) : State :=
  (chunks pa bs.length).foldl (fun s c =>
    homeWrite s (.dev (c.1 / 192)) (c.1 % 192) ((bs.drop (c.1 - pa)).take c.2) 2) s

/-- The lines of the region that a save or a restore touches are obtained (R132): the directory, and the image's. -/
def saveReady (s : State) (ctx off n : Nat) : Bool × State :=
  let (a, s) := paReady s (saveBase s ctx) 2304 true
  (chunks (saveBase s ctx + off) n).foldl (fun r c =>
    match homeReady r.2 (.dev (c.1 / 192)) (c.1 % 192) c.2 true false with
    | .ready s => (r.1, s)
    | .wait s | .failed s => (false, s)) (a, s)

/-- The records of a team's pending procedural accesses. -/
def recordCount (loads : List PendLoad) (samples : List PendSample) (tid : Nat) : Nat :=
  total ((loads.filter (fun l => l.team == tid)).map loadRecords) + total ((samples.filter (fun l => l.team == tid)).map sampleRecords)

/-- Where each team's image begins in the weave's. -/
def teamPlaces (loads : List PendLoad) (samples : List PendSample) (ts : List (Nat × Team)) : List (Nat × Nat × Team) :=
  (ts.foldl (fun (a : Nat × List (Nat × Nat × Team)) e =>
    (a.1 + teamImage e.2 (recordCount loads samples e.1), a.2 ++ [(a.1, e.1, e.2)])) (192, [])).2

/-- The number of a weave's teams' weave: that of the first one. -/
def weaveNumber (ts : List (Nat × Team)) : Nat := match ts.head? with | some e => e.2.weave | none => 0

/-- Write an image (R483): a header line with the version and the weave's number, the team images, and free values between them
(assumption 26); then the directory (R484). -/
def writeImage (s : State) (ctx : Nat) (x : Weave) (entry off n : Nat) : State :=
  let bs := (List.range (n / 8)).flatMap (fun k => leBytes 8 (Config.freeQuad (s.sched.free + k)).toNat)
  let free := (Config.freeQuad (s.sched.free + n / 8), Config.freeQuad (s.sched.free + n / 8 + 1))
  let s := { s with sched := { s.sched with free := s.sched.free + n / 8 + 2 } }
  let base := saveBase s ctx + off
  let ts := weaveTeams s x
  let secs := (teamPlaces s.pend.loads s.pend.samples ts).flatMap (fun e =>
    (teamSections s e.2.1 e.2.2 x.withdrawn free).map (fun y => (e.1 + y.1, y.2)))
  let secs := (0, leBytes 8 Config.imageVersion.toNat ++ leBytes 8 (weaveNumber ts)) :: secs
  let s := secs.foldl (fun s y => saveWrite s (base + y.1) y.2) (saveWrite s base bs)
  let s := putSaveQuad s ctx (192 + 8 * entry) (off + 2 ^ 63)
  let s := putSaveQuad s ctx 8 (off - 2304 + n)
  putSaveQuad s ctx 16 (saveQuad s ctx 16 + 1)

/-- Read a team's memories back from its image at a device address (R482 step 2): scratchpad, stash map, tile table, accumulators. -/
def readImage (s : State) (a : Nat) (t : Team) : Team :=
  let p := imagePlan t
  let quad := fun (o : Nat) => paNat s (a + o) 8
  let stash := (List.range t.nstash).filterMap (fun n =>
    let e := paNat s (a + p.stash + 16 * n) 16
    if e.testBit 0 then some (n, ({ gva := natBits e 127 64, soff := natBits e 63 44, nl := natBits e 43 32 } : Stash)) else none)
  let tiles := (List.range t.ntile).foldl (fun l n =>
    let e := quad (p.tiles + 8 * n)
    let old := mapGetD ({} : Tile) n t.tiles
    let st := match natBits e 63 62 with | 0 => TileSt.empty | 1 => .filling | 2 => .ready | _ => .draining
    mapPut n { old with st, err := e.testBit 61, nl := natBits e 55 32, soff := natBits e 31 0 } l) t.tiles
  let accs := (List.range t.nacc).foldl (fun l k =>
    mapPutD [] k (memPutBytes [] 0 (paRead s (a + p.accs + 16384 * k) 16384)) l) t.accs
  { t with spad := memPutBytes [] 0 (paRead s (a + 192) t.spsz), stash, tiles, accs }

/-- Free a directory entry (R484). -/
def freeEntryOf (s : State) (ctx entry : Nat) : State :=
  let s := putSaveQuad s ctx (192 + 8 * entry) 0
  let n := saveQuad s ctx 16 - 1
  let s := putSaveQuad s ctx 16 n
  if n = 0 then putSaveQuad s ctx 8 0 else s

/-- What waits for the fills of an access leaves their entries (R101). -/
def withdrawFill (s : State) (mine : Toucher → Bool) : State :=
  let s := s.modPend (fun p => { p with touches := p.touches.filter (fun t => !mine t.who),
                                        replays := p.replays.filter (fun r => !mine r.who) })
  s.modFelt (fun f => { f with merges := f.merges.map (fun m => { m with waiters := m.waiters.filter (fun x => !mine x.1) }) })

/-- A save reads every register of a team's gangs, so that parity errors are found (R200). -/
def readRegisters (s : State) (tid : Nat) : State :=
  match s.team tid with
  | none => s
  | some t =>
      t.gangs.foldl (fun s g =>
        let refs := ((g.2.sregs.filter (fun r => r.2.bad)).map (fun r => RegRef.s r.1))
          ++ g.2.fibres.flatMap (fun f => (f.2.regs.filter (fun r => r.2.bad)).map (fun r => RegRef.v f.1 r.1))
        refs.foldl (fun s r => (goodReg s tid g.1 r).2) s) s

/-- The fibres of a load that have their values are FULL before a save records the others (R199). -/
def settleLoad (s : State) (l : PendLoad) : State :=
  let S := match s.team l.team with | some t => t.S | none => 64
  let has := fun (p : LoadPart) => p.val.isSome && (match p.st with | .failed _ _ _ => false | _ => true)
  let s := (l.parts.filter has).foldl (fun s p => replyTo s l.id l.team l.gang S l.dst l.wide p.fib p.pos (.ok (p.val.getD 0))) s
  s.modPend (fun p => { p with loads := p.loads.map (fun x =>
    if x.id == l.id then { x with parts := x.parts.filter (fun q => !has q) } else x) })

/-- A stash line of a saved team that can no longer be filled: its access stands at its instruction, and a later reply to its record
is discarded (R120, R481). -/
def dropFills (s : State) (tid : Nat) : State :=
  match s.team tid with
  | none => s
  | some t => t.stash.foldl (fun s e => e.2.lines.foldl (fun s l =>
      if l.2.st == .filling && !l.2.owned && (l.2.bad.isSome ||
          s.xl.recs.any (fun r => r.who == RecFor.stash tid e.1 l.1 l.2.team l.2.gang)) then setStashLine s tid e.1 l.1 none
      else s) s) s

/-- Take a weave off its cores into the saved set (R480 step 4), its tiles as they stand (assumption 83). -/
def packWeave (s : State) (w : Nat) (x : Weave) (entry off size : Nat) (unit : Bool) : State :=
  let mine := fun (t : Nat) => x.teams.contains t
  let teams := weaveTeams s x
  let loads := s.pend.loads.filter (fun l => mine l.team)
  let samples := s.pend.samples.filter (fun l => mine l.team)
  let recs := s.cores.flatMap (fun c => c.2.sfq.filter (fun r => mine r.team))
  let sv : Saved := { ctx := x.ctx, entry, off, size, weave := { x with saving := false, withdrawn := [] }, teams,
                      loads := loads.map (fun l => { l with parts := l.parts.map (fun p => if p.st == .touching then { p with st := .again, sent := none } else p) })
                      samples := samples.map (fun y => { y with snaps := [], asks := [], quiet := false })
                      cmds := x.withdrawn, sfrecs := recs, unit,
                      part := match teams.head? with | some e => (s.core e.2.place.core).part | none => 0 }
  let s := loads.foldl (fun s l => withdrawFill s (loadTouch l.id)) s
  let s := samples.foldl (fun s l => withdrawFill s (sampleTouch l.id)) s
  let s := s.modPend (fun p => { p with loads := p.loads.filter (fun l => !mine l.team),
                                        samples := p.samples.filter (fun l => !mine l.team) })
  let s := { s with
    cores := s.cores.map (fun (c : Nat × Core) => (c.1, { c.2 with sfq := c.2.sfq.filter (fun r => !mine r.team) }))
    teams := s.teams.filter (fun e => !mine e.1)
    weaves := mapDel w s.weaves
    saved := s.saved ++ [{ sv with weave := { sv.weave with teams := x.teams } }] }
  settleBindings (teams.foldl (fun s e => dropContextWeights (forgetWalks s x.ctx e.2.place.core) x.ctx e.2.place.core) s)

/-- The weave goes on running: its withdrawn commands come back (R484). -/
def resumeWeave (s : State) (w : Nat) (x : Weave) : State :=
  readmit { s with weaves := mapPut w { x with saving := false, withdrawn := [] } s.weaves } x.withdrawn

/-! ### Restoring -/

/-- The block for a saved weave: in its launch's rectangle, or a Twill context bound to the context (R482). -/
def restorePlace (s : State) (sv : Saved) : Option Place :=
  match mapGet sv.weave.launch s.launches, sv.teams.head? with
  | some l, some (_, t) =>
      if t.place.isTwill then (freeTwill s sv.ctx l.control).map .twill
      else (freeBlock s t.lrec l.x0 l.y0 l.w l.h).map (fun b => .main (16 * b.2 + b.1))
  | _, _ => none

/-- Slots of gangs at a new place: the lowest that the place does not use. -/
def gangSlots (s : State) (p : Place) (n : Nat) : List Nat :=
  let used := (s.teams.filter (fun e => e.2.place == p)).flatMap (fun e => e.2.gangs.map (fun g => g.2.gslot))
  ((List.range 32).filter (fun k => !used.contains k)).take n

/-- The number of a saved weave: that of its first team's record. -/
def Saved.id (sv : Saved) : Nat := weaveNumber sv.teams

/-- The saved weave of a directory entry (R484): its image names it, and its version is this device's (R483). -/
def savedAt (s : State) (ctx entry : Nat) : Option Saved :=
  if !dirValid s ctx entry then none
  else
    let a := saveBase s ctx + dirQuad s ctx entry % 2 ^ 48
    if paNat s a 8 = Config.imageVersion.toNat then s.saved.find? (fun y => y.ctx == ctx && y.id == paNat s (a + 8) 8) else none
/-- The directory entry of a saved weave. -/
def entryOf (s : State) (v : Saved) : Nat := ((List.range 256).find? (fun i => savedAt s v.ctx i == some v)).getD v.entry

/-- R482: the weave stands at a block with cold caches, its memories read back from the image at `base`, commands and store-fault records back in
their queues, each recorded access touching its block anew; its gangs are resident from now on (R463). None when no block is free. -/
def restoreWeave (s : State) (w base : Nat) (sv : Saved) (at_ : Option Place) : Option State :=
  at_.map (fun at_ =>
    let places := (List.range sv.teams.length).map (memberPlace at_ sv.weave.w)
    let images := (teamPlaces sv.loads sv.samples sv.teams).map (fun e => (e.2.1, readImage s (base + e.1) e.2.2))
    let s := { s with saved := s.saved.filter (fun y => y.weave != sv.weave) }
    let s := (images.zip places).foldl (fun s (e : (Nat × Team) × Place) =>
      let t := e.1.2
      let p := e.2
      let slots := gangSlots s p t.gangs.length
      let age := s.sched.nextId
      let t := { t with
        place := p
        tslot := lowestFree 32 ((s.teams.filter (fun y => y.2.place == p)).map (fun y => y.2.tslot))
        gangs := (t.gangs.zip (slots ++ List.replicate 16 0)).map (fun g => (g.1.1, { g.1.2 with gslot := g.2, age := age + g.1.1 })) }
      let s := { s with sched := { s.sched with nextId := age + 16 } }.setTeam e.1.1 t
      let s := if p.isTwill then s else s.modCore p.core (fun c => { c with part := sv.part })
      let s := dropTexel (dropL1 s p.core) p.core
      s.modCore p.core (fun c => { c with sfq := c.sfq ++ sv.sfrecs.filter (fun r => r.team == e.1.1) })) s
    let x0 := match at_ with | .main n => n % 16 | .twill _ => 0
    let y0 := match at_ with | .main n => n / 16 | .twill _ => 0
    let s := { s with weaves := mapPut w { sv.weave with x0, y0 } s.weaves }
    let s := readmit s sv.cmds
    let coreOf := fun (s : State) (t : Nat) => match s.team t with | some y => y.place.core | none => 0
    let org := fun (s : State) (t g : Nat) => match s.team t with | some y => originOf y ((mapGet g y.gangs).getD {}) | none => {}
    let loads := sv.loads.map (fun l => { l with core := coreOf s l.team, replayed := true, org := org s l.team l.gang })
    let samples := sv.samples.map (fun l => { l with core := coreOf s l.team, org := org s l.team l.gang })
    s.modPend (fun p => { p with loads := p.loads ++ loads, samples := p.samples ++ samples }))

/-! ### Requests -/

/-- A request is over (R513, R515, R484). -/
def endRequest (s : State) (r : SaveReq) : State :=
  let s := { s with saveReqs := s.saveReqs.tail }
  let s := if r.quota then
      errEvent s r.ctx { agent := launchAgent, cause := 0x1E, kind := 7, aux := (mapGetD 0 r.ctx s.sys.enUsed).toNat }
    else s
  (s.modSys (fun y => { y with pstatBusy := !s.saveReqs.isEmpty, pstatRefused := r.refused, pstatCtx := r.ctx })).raiseNote 2

/-- Is a weave one of a generator stage (R480)? -/
def generatorWeave (s : State) (w : Nat) : Bool :=
  match mapGet w s.weaves with | some x => (weaveTeams s x).any (fun e => e.2.generator) | none => false

/-- The request at the head goes on: weaves that are gone need no save; the others stop, a generator stage's after the rest
(R480); a request with nothing left is over. -/
def serviceReq (s : State) : State :=
  match s.saveReqs with
  | [] => s
  | r :: rest =>
      match r.restoreEntries with
      | some l =>
          let l := l.filter (fun e => dirValid s r.ctx e && (savedAt s r.ctx e).isSome)
          if l.isEmpty then endRequest s r else { s with saveReqs := { r with restoreEntries := some l } :: rest }
      | none =>
          let l := r.weaves.filter (fun w => (mapGet w s.weaves).isSome)
          if l.isEmpty then endRequest s r
          else
            let first := l.filter (fun w => !generatorWeave s w)
            let s := { s with saveReqs := { r with weaves := l } :: rest }
            (if first.isEmpty || !r.whole then l else first).foldl stopWeave s

/-- A request of the operating system, of an exhausted quota or of the launch unit enters the queue (R479, R513). -/
def addRequest (s : State) (r : SaveReq) : State :=
  let s := { s with saveReqs := s.saveReqs ++ [r] }
  serviceReq (s.modSys (fun y => { y with pstatBusy := true }))

def modPipe (s : State) (ctx h : Nat) (f : Pipeline → Pipeline) : State :=
  { s with pipes := s.pipes.map (fun p => if p.ctx == ctx && p.h == h then f p else p) }
def modStage (s : State) (ctx h k : Nat) (f : Stage → Stage) : State :=
  modPipe s ctx h (fun p => { p with stages := (p.stages.zipIdx).map (fun e => if e.2 == k then f e.1 else e.1) })
/-- The stage that the launch unit has asked a save for (R461). -/
def forStage (s : State) (r : SaveReq) (f : Stage → Stage) : State :=
  match r.forStage with
  | some (h, k) => modStage s r.ctx h k f
  | none => s

/-- `PREEMPT_SAVE` (R480, R481, R484): a stopped weave of the request at the head, once nothing of it is in flight, is
saved, or the save is refused. -/
def execPreemptSave (weave : Nat) (s : State) : Out :=
  match s.saveReqs, mapGet weave s.weaves with
  | r :: rest, some x =>
      if !x.saving || r.restoreEntries.isSome || !r.weaves.contains weave then .next s
      else
        let s := x.teams.foldl dropFills s
        if !calm s x then .next s
        else
        let s := x.teams.foldl (fun s t => match s.team t with
          | some y => y.stash.foldl (fun s e => stashUnmap s t e.1) s
          | none => s) s
        if !settled s x then .next s
        else
          let s := (s.pend.loads.filter (fun l => x.teams.contains l.team)).foldl settleLoad s
          let n := weaveImage s x
          match imagePlace s x.ctx n with
          | none =>
              let r := { r with weaves := r.weaves.filter (· != weave), refused := true }
              -- the starved stage waits for a block to free (R484)
              let s := forStage s r (fun q => { q with barred := true })
              .next (serviceReq { resumeWeave s weave x with saveReqs := r :: rest })
          | some (entry, off) =>
              let s := x.teams.foldl readRegisters s
              let (ready, s) := saveReady s x.ctx off n
              if !ready then .next s
              else
              -- the block goes to the starved stage that it has been freed for (R461)
              let place := (weaveTeams s x).head?.map (fun e => e.2.place)
              let s := packWeave (writeImage s x.ctx x entry off n) weave x entry off n r.unit
              let s := forStage s r (fun q => { q with due := place })
              .next (serviceReq { s with saveReqs := { r with weaves := r.weaves.filter (· != weave) } :: rest })
  | _, _ => .next s

/-- `RESTORE` (R482, R484, R488): a directory entry of the request at the head. -/
def execRestore (ctx entry : Nat) (s : State) : Out :=
  match s.saveReqs with
  | [] => .next s
  | r :: rest =>
      match r.restoreEntries, savedAt s ctx entry with
      | some l, some sv =>
          if r.ctx ≠ ctx ∨ !l.contains entry ∨ !dirValid s ctx entry ∨ exhausted s ctx then .next s
          else
            let off := dirQuad s ctx entry % 2 ^ 48
            let (ready, s) := saveReady s ctx off sv.size
            match (if ready then restoreWeave s sv.id (saveBase s ctx + off) sv (restorePlace s sv) else none) with
            | none => .next s
            | some s =>
                .next (serviceReq { freeEntryOf s ctx entry with
                  saveReqs := { r with restoreEntries := some (l.filter (· != entry)) } :: rest })
      | _, _ => .next s

/-- Weaves of a context that run. -/
def weavesOf (s : State) (ctx : Nat) : List Nat := (s.weaves.filter (fun e => e.2.ctx == ctx)).map (·.1)

/-- `SC_PREEMPT`, save (R513). -/
def execScPreemptSave (v : Quad) (s : State) : Out :=
  let ctx := bitsOf v 7 0
  let core := bitsOf v 23 16
  let ws := weavesOf s ctx
  let one := ws.filter (fun w => match mapGet w s.weaves with
    | some x => (weaveTeams s x).any (fun e => e.2.place == .main core)
    | none => false)
  let l := if v.getLsbD 8 then one.take 1 else ws
  if !s.running || saveBase s ctx == 0 || (v.getLsbD 8 && l.isEmpty) then .next s
  else
    match s.saveReqs with
    | r :: rest =>
        if r.ctx = ctx ∧ r.restoreEntries = none then
          .next (serviceReq { s with saveReqs := { r with weaves := (r.weaves ++ l).eraseDups, whole := r.whole || !v.getLsbD 8 } :: rest })
        else .next (addRequest s { ctx, weaves := l, restoreEntries := none, whole := !v.getLsbD 8 })
    | [] => .next (addRequest s { ctx, weaves := l, restoreEntries := none, whole := !v.getLsbD 8 })

/-- `SC_PREEMPT`, restore (R513, R488). -/
def execScPreemptRestore (v : Quad) (s : State) : Out :=
  let ctx := bitsOf v 7 0
  let all := (List.range 256).filter (fun i => dirValid s ctx i)
  let l := if v.getLsbD 8 then (if dirValid s ctx (bitsOf v 23 16) then [bitsOf v 23 16] else []) else all
  if !s.running || exhausted s ctx || saveBase s ctx == 0 || (v.getLsbD 8 && l.isEmpty) then .next s
  else .next (addRequest s { ctx, weaves := [], restoreEntries := some l })

/-! ### Energy -/

/-- An addition to an account waits for its line (R452, R487, R132); the rest of the queue goes on. -/
def drainAccounts (s : State) : State :=
  let r := s.acctq.foldl (fun (a : List (Nat × Nat) × State) q =>
    let p := a.2.sys.enAcct.toNat + 8 * q.1
    match paReady a.2 p 8 true with
    | (true, s) => (a.1, paWrite s p (leBytes 8 (satAdd (paNat s p 8) q.2 (2 ^ 64 - 1))))
    | (false, s) => (a.1 ++ [q], s)) ([], { s with acctq := [] })
  { r.2 with acctq := r.1 }

/-- Parts of a millijoule in which a cluster measures: any number of fill rights up to 16 shares a microjoule in whole parts. -/
def mjParts : Nat := 1000 * 720720

/-- A gang's energy (R99, R452, R486): in equal shares to the contexts of its fill rights, or to its own context. What reaches the
launch's context also reaches the account of its launch record. -/
def spend (s : State) (team gang uj : Nat) : State :=
  match s.team team, s.gang team gang with
  | some t, some g =>
      let payers := match g.rights.map (fun e => e.2.cctx) with | [] => [t.ctx] | l => l
      let part := uj * 720720 / payers.length
      let add := fun (l : List (Nat × Option Nat × Nat)) (c : Nat) =>
        let one := fun (l : List (Nat × Option Nat × Nat)) (a : Option Nat) =>
          if l.any (fun e => e.1 == c && e.2.1 == a) then l.map (fun e => if e.1 == c && e.2.1 == a then (c, a, e.2.2 + part) else e)
          else l ++ [(c, a, part)]
        if c = t.ctx then one (one l none) (some (t.field 688 673)) else one l none
      s.modCluster ((clusterOf t.place.core).getD (64 + t.place.core)) (fun x => { x with spent := payers.foldl add x.spent })
  | _, _ => s

/-- Whole millijoules reach a context, and an account (R486). -/
def chargeCtx (s : State) (c mj : Nat) : State :=
  let s := s.modCtx c (fun x => { x with energy := satQuad x.energy mj })
  s.modSys (fun y => { y with enUsed := mapPutD 0 c (satQuad (mapGetD 0 c y.enUsed) mj) y.enUsed })
def chargeAcct (s : State) (n mj : Nat) : State := { s with acctq := s.acctq ++ [(n % 65536, mj)] }

/-- An exhausted context's weaves are pre-empted, tried again at each later update (R484, R488). -/
def quotaSaves (s : State) (ctx : Nat) : State :=
  let l := weavesOf s ctx
  if !exhausted s ctx || l.isEmpty || s.saveReqs.any (fun r => r.ctx == ctx && r.quota) then s
  else addRequest s { ctx, weaves := l, restoreEntries := none, whole := true, quota := true }

/-- `ENERGY_UPDATE` (R486, R388, R452, R488): the whole millijoules that a cluster has measured for each context are added, and the
remainder is carried; `charges` is what it measured beside the gangs, as (context, account, mJ) (assumption 65). -/
def execEnergyUpdate (cluster : Nat) (charges : List (Nat × Nat × Nat)) (s : State) : Out :=
  let mine := (s.cluster cluster).spent
  let s := s.modCluster cluster (fun c => { c with
    spent := (c.spent.map (fun e => (e.1, e.2.1, e.2.2 % mjParts))).filter (fun e => e.2.2 != 0) })
  let s := mine.foldl (fun s e => if mjParts ≤ e.2.2 then
    (match e.2.1 with | none => chargeCtx s e.1 (e.2.2 / mjParts) | some a => chargeAcct s a (e.2.2 / mjParts)) else s) s
  let s := drainAccounts (charges.foldl (fun s c => chargeAcct (chargeCtx s c.1 c.2.2) c.2.1 c.2.2) s)
  .next (s.ctxs.foldl (fun s c => quotaSaves s c.1) s)

/-- `EN_ROLL` (R487, R488). -/
def execEnRoll (v : Quad) (s : State) : Out :=
  if !s.running then .next s
  else
    let l := if v.getLsbD 8 then List.range 256 else [bitsOf v 7 0]
    .next (s.modSys (fun y => { y with enUsed := l.foldl (fun u n =>
      let used := (mapGetD 0 n u).toNat
      mapPutD 0 n (BitVec.ofNat 64 (used - (mapGetD 0 n y.enQuota).toNat)) u) y.enUsed }))

/-! ### Issue order -/

/-- A fragment that has been passed over in 64 consecutive cycles ranks as oldest (R464). -/
def Frag.limited (f : Frag) : Frag := if 64 ≤ f.passed && f.st == .running && !f.held then { f with oldest := true } else f

/-- `PASSOVER_LIMIT` (R464): a RUNNING fragment that has been passed over in 64 consecutive cycles ranks as oldest until it issues. -/
def execPassoverLimit (team gang lead : Nat) (s : State) : Out :=
  .next (s.modGang team gang (fun g => { g with frags := g.frags.map (fun f => if f.mask.getLsbD lead then f.limited else f) }))

end Sys2Proof.Machine
end

