-- ==== Sys2Proof/Machine/Launch.lean ====
section
/-! DEFINITION. The launch unit's steps: dequeue and bound fields (R444, R447-R449), blocks among launches and stages
(R453-R455, R460-R462), team start with its transform bindings (R450), and completion (R451). -/

namespace Sys2Proof.Machine

/-! ### Dequeue -/

def addLaunch (s : State) (l : Launch) : State := { s with launches := mapPut l.id l s.launches }
def dropLaunch (s : State) (id : Nat) : State := { s with launches := mapDel id s.launches }
def modLaunch (s : State) (id : Nat) (f : Launch → Launch) : State := { s with launches := mapMod id f s.launches }

/-- The error record of a launch (R448, R451). -/
def launchErr (s : State) (ctx num code cause addr : Nat) : State :=
  errEvent s ctx { agent := launchAgent, cause := code, kind := 5, addr, aux := num % 2 ^ 32 + code * 2 ^ 32 + cause * 2 ^ 40 }

/-- A launch with an identifier of its own. -/
def freshLaunch (s : State) (ctx num : Nat) (r : BitVec 1536) : Launch × State :=
  let (id, s) := s.fresh
  ({ id, ctx, num, lrec := r, gx := 0, gy := 0, x0 := 0, y0 := 0, w := 1, h := 1, next := 0, st := .running,
     began := s.sched.now, live := [], stage := none, control := false }, s)

/-- R448: counted, recorded; a `csem` is signalled as for a grid that has ended. -/
def rejectLaunch (s : State) (ctx num code cause csem : Nat) : State :=
  let s := launchErr s ctx num code cause 0
  if csem = 0 then s
  else
    let (l, s) := freshLaunch s ctx num (BitVec.ofNat 1536 (csem * 2 ^ 1216))
    addLaunch s l

/-- Weave counts of a grid, a rejection, or not yet (R449). -/
inductive CountAns where
  | ok (gx gy : Nat) (s : State)
  | reject (code cause : Nat) (s : State)
  | wait (s : State)
  deriving DecidableEq, Repr

/-- R449: the bound words replace their dimensions; then LBOUND and LFIT (R447). -/
def bindCounts (s : State) (ctx u : Nat) (r : BitVec 1536) : CountAns :=
  let f := recF r
  let bx := f 631 631 == 1
  let bound := bx || f 632 632 == 1
  match launchReads s ctx 4 u ((if bx then [f 1151 1088] else []) ++ (if f 632 632 == 1 then [f 1215 1152] else [])) with
  | .wait s => .wait s
  | .fault c s => .reject 0x27 c s
  | .bytes bs s =>
      let word := fun (k : Nat) => leNat ((bs.drop (4 * k)).take 4)
      let gx := if bx then word 0 else f 591 576 + 1
      let gy := if f 632 632 == 1 then word (if bx then 1 else 0) else f 607 592 + 1
      let (ww, wh) := weaveShape (f 616 614)
      let blocks := (sizeOf (f 610 608) / ww) * (sizeOf (f 613 611) / wh)
      if bound && (decide (65536 < gx) || decide (65536 < gy)) then .reject 0x26 0 s
      else if gx * gy == 0 then .ok gx gy s
      else if badFit .grid r || (f 630 630 == 1 && decide (blocks < gx * gy)) then .reject 0x24 0 s
      else .ok gx gy s

/-- A grid whose counts are known goes to placement; an empty one has nothing to start (R449). -/
def handOver (s : State) (l : Launch) (gx gy : Nat) : State :=
  addLaunch s { l with gx, gy, st := if gx * gy = 0 then .running else .placing, began := s.sched.now }

/-- The rectangle of a grid (R453). -/
def fixRectangle (s : State) (l : Launch) : Launch :=
  let f := recF l.lrec
  let w := sizeOf (f 610 608)
  let h := sizeOf (f 613 611)
  let given := (List.range (f 672 670)).map (fun i => (f (1280 + 16 * i + 3) (1280 + 16 * i), f (1280 + 16 * i + 7) (1280 + 16 * i + 4)))
  let o := chooseOrigin s w h given
  { l with x0 := o.1, y0 := o.2, w, h }

/-- `LAUNCH_DEQUEUE` (R444, R447-R449, R453): the context's oldest launch is read, checked and given its rectangle. -/
def execLaunchDequeue (ctx : Nat) (s : State) : Out :=
  match s.ctx? ctx with
  | none => .next s
  | some x =>
      match x.queue with
      | [] => .next s
      | (num, addr) :: rest =>
          if !s.running || x.destroying || exhausted s ctx
              || s.launches.any (fun l => l.2.ctx == ctx && l.2.st == .bound) then .next s
          else
            let pop := fun (s : State) => s.modCtx ctx (fun x => { x with queue := rest })
            match readRecord s ctx addr .grid with
            | .wait s => .next s
            | .reject code cause csem s => .next (rejectLaunch (pop (dropUnit s)) ctx num code cause csem)
            | .ok r reqs s =>
                let (l, s) := freshLaunch s ctx num r
                let l := { fixRectangle s l with reqs }
                if recF r 1023 960 ≠ 0 then .next (addLaunch (pop (dropUnit s)) { l with st := .bound })
                else
                  match bindCounts s ctx 1 r with
                  | .wait s => .next s
                  | .reject code cause s => .next (rejectLaunch (pop (dropUnit s)) ctx num code cause (recF r 1279 1216))
                  | .ok gx gy s => .next (handOver (pop (dropUnit s)) l gx gy)

/-- `BOUND_WAIT_DONE` (R449): `bsem` is at its threshold; the bound words are read. -/
def execBoundWaitDone (ctx : Nat) (s : State) : Out :=
  match s.launches.find? (fun l => l.2.ctx == ctx && l.2.st == .bound) with
  | none => .next s
  | some (id, l) =>
      let csem := recF l.lrec 1279 1216
      match launchRead s ctx (recF l.lrec 1023 960) 8 (id + 1) with
      | .wait s => .next s
      | .fault c s => .next (rejectLaunch (dropLaunch (dropUnit s (id + 1)) id) ctx l.num 0x27 c csem)
      | .bytes bs s =>
          if leNat bs < recF l.lrec 1087 1024 then .next (dropUnit s (id + 1))
          else
            match bindCounts s ctx (id + 1) l.lrec with
            | .wait s => .next s
            | .reject code cause s => .next (rejectLaunch (dropLaunch (dropUnit s (id + 1)) id) ctx l.num code cause csem)
            | .ok gx gy s => .next (handOver (dropUnit s (id + 1)) l gx gy)

/-! ### Blocks -/

/-- Effective priority (R462); the unit's cycles are counted as steps. -/
def effPri (now pri began : Nat) : Nat := min 7 (pri + (now - began) / 2 ^ 20)

def inRect (x y x0 y0 w h : Nat) : Bool := decide (x0 ≤ x ∧ x < x0 + w ∧ y0 ≤ y ∧ y < y0 + h)

/-- Free blocks of a rectangle, each taken once (R455). -/
def freeBlocks (s : State) (l : Launch) : List (Nat × Nat) :=
  let (ww, wh) := weaveShape (recF l.lrec 616 614)
  (blocksIn l.x0 l.y0 l.w l.h ww wh).filter (fun b => (blockCores b.1 b.2 ww wh).all (coreFree s l.lrec))

def Launch.cor (l : Launch) : Bool := recF l.lrec 630 630 == 1
def Launch.perWeave (l : Launch) : Nat := (weaveShape (recF l.lrec 616 614)).1 * (weaveShape (recF l.lrec 616 614)).2

/-- The blocks that a grid's next weave, or a co-resident grid, takes (R454, R455); none when they are not all free. -/
def gridBlocks (s : State) (l : Launch) : List (Nat × Nat) :=
  if l.cor then
    let bs := freeBlocks s l
    if l.gx * l.gy ≤ bs.length then bs.take (l.gx * l.gy) else []
  else (freeBlock s l.lrec l.x0 l.y0 l.w l.h).toList

/-- Place it: weaves in ascending w. -/
def gridTake (s : State) (l : Launch) : State :=
  let n := l.gx * l.gy
  let bs := gridBlocks s l
  let s := (bs.zipIdx).foldl (fun s e => placeWeave s l (.main (16 * e.1.2 + e.1.1)) ((l.next + e.2) * l.perWeave)) s
  let next := l.next + bs.length
  modLaunch s l.id (fun l => { l with next, st := if next = n then .running else .placing, began := s.sched.now })

def Stage.full (q : Stage) : Bool := decide (q.qd + 1 ≤ q.queue.length)
/-- A weave that the launch unit has pre-empted for another stage (R461). -/
def savedOf (s : State) (q : Stage) : Option Saved := s.saved.find? (fun v => v.unit && v.weave.launch == q.launch)
/-- A stage has input (R458). -/
def wants (s : State) (p : Pipeline) (k : Nat) (q : Stage) : Bool := !q.queue.isEmpty || !(stageRecords s p.ctx p.h k).isEmpty
def stageWeaves (s : State) (q : Stage) : List Nat := (s.weaves.filter (fun w => w.2.launch == q.launch)).map (·.1)
/-- Teams that a stage holds. -/
def stageTeams (s : State) (q : Stage) : Nat := (s.teams.filter (fun t => t.2.launch == q.launch)).length
/-- A stage that may receive a block: it has input, and no successor's queue is full (R460). -/
def eligible (s : State) (p : Pipeline) (k : Nat) (q : Stage) : Bool :=
  !p.releasing && wants s p k q && (p.stages.zipIdx).all (fun e => !(q.succ.getLsbD e.2 && e.1.full))
/-- A stage that has input and holds no team (R460). -/
def starved (s : State) (p : Pipeline) (k : Nat) (q : Stage) : Bool := eligible s p k q && (stageWeaves s q).isEmpty

/-- The weave shape of a stage. -/
def Stage.shape (q : Stage) : Nat × Nat := weaveShape (recF q.lrec 616 614)
/-- The aligned block of a stage's weave that holds core (x, y), or Twill context y when x is 16. -/
def Stage.blockAt (q : Stage) (p : Pipeline) (x y : Nat) : Place :=
  if q.twill then .twill y
  else
    let (w, h) := q.shape
    .main (16 * (p.y0 + (y - p.y0) / h * h) + p.x0 + (x - p.x0) / w * w)
/-- Cores of a block. -/
def placeCores (shape : Nat × Nat) (a : Place) : List Nat :=
  match a with | .main n => blockCores (n % 16) (n / 16) shape.1 shape.2 | .twill h => [256 + h]

/-- The place that a freed block gives a stage, when it is free and fits its weave (R460). -/
def stagePlace (s : State) (p : Pipeline) (q : Stage) (x y : Nat) : Option Place :=
  let a := q.blockAt p x y
  if q.twill then (if x = 16 ∧ twillFree s p.ctx y false then some a else none)
  else if inRect x y p.x0 p.y0 p.w p.hh && (placeCores q.shape a).all (coreFree s q.lrec) then some a else none

/-- The stage that a freed block is offered to: index, stage, place (R460). DEDUCED: a block that no stage takes restores a weave that
the launch unit has pre-empted (R461; assumption 60). -/
def stageChoice (s : State) (p : Pipeline) (x y : Nat) : Option (Nat × Stage × Place) :=
  let l : List (Nat × Stage × Place) := (p.stages.zipIdx).filterMap (fun e => (stagePlace s p e.1 x y).map (fun a => (e.2, e.1, a)))
  (l.find? (fun e => starved s p e.1 e.2.1)).orElse (fun _ =>
    (leastBy (fun e => 2 ^ 32 - 256 * e.2.1.queue.length / (e.2.1.qd + 1)) (l.filter (fun e => eligible s p e.1 e.2.1))).orElse (fun _ =>
      l.find? (fun e => (savedOf s e.2.1).isSome)))

/-- A stage takes a place: a weave of it that the launch unit has pre-empted comes back first, once the lines of its image are at hand (R461,
R132, R168, R484). -/
def stageTake (s : State) (p : Pipeline) (k : Nat) (q : Stage) (a : Place) : State :=
  let s := modStage s p.ctx p.h k (fun q => { q with began := s.sched.now, barred := false, due := none })
  match savedOf s q with
  | some v =>
      let entry := entryOf s v
      let off := dirQuad s p.ctx entry % 2 ^ 48
      let (ready, s) := saveReady s p.ctx off v.size
      match (if ready then restoreWeave s v.id (saveBase s p.ctx + off) v (some a) else none) with
      | some s => (freeEntryOf s p.ctx entry).raiseNote 2
      | none => modStage s p.ctx p.h k (fun x => { x with began := q.began, barred := q.barred, due := q.due })
  | none =>
      match mapGet q.launch s.launches with
      | none => s
      | some l =>
          let n := if q.twill then 1 else l.perWeave
          modStage (placeWeave s l a q.started) p.ctx p.h k (fun x => { x with started := x.started + n })

/-- A pipeline whose stages may take blocks; one that is being released restores its pre-empted weaves, so that they end (R459). -/
def pipeOpen (s : State) (p : Pipeline) : Bool := placeable s p.ctx

/-- What competes for a freed block (R462). -/
inductive Offer where
  | grid (l : Launch)
  | stage (p : Pipeline) (k : Nat) (q : Stage) (a : Place)

def Offer.key (now : Nat) : Offer → Nat × Nat
  | .grid l => (effPri now (recF l.lrec 635 633) l.began, l.began)
  | .stage p _ q _ => (effPri now p.pri q.began, q.began)

/-- The cores that an offer takes. -/
def Offer.cores (s : State) : Offer → List Nat
  | .grid l =>
      let (w, h) := weaveShape (recF l.lrec 616 614)
      (gridBlocks s l).flatMap (fun b => blockCores b.1 b.2 w h)
  | .stage _ _ q a => placeCores q.shape a

/-- The offer that wins: greatest effective priority, then the earliest to begin waiting. -/
def bestOffer (now : Nat) : List Offer → Option Offer
  | [] => none
  | o :: t =>
      match bestOffer now t with
      | none => some o
      | some u =>
          let a := o.key now
          let b := u.key now
          if a.1 < b.1 ∨ (a.1 = b.1 ∧ b.2 < a.2) then some u else some o

/-- A stage whose block has been freed for it (R461). -/
def dueOffer (s : State) (p : Pipeline) : Option Offer :=
  ((p.stages.zipIdx).filterMap (fun e =>
    match e.1.due with
    | some a =>
        let (x, y) := match a with | .main n => (n % 16, n / 16) | .twill h => (16, h)
        if starved s p e.2 e.1 then (stagePlace s p e.1 x y).map (Offer.stage p e.2 e.1) else none
    | none => none)).head?

/-- Offers for a main-array block at core (x, y), or for Twill context y when x is 16. A block that has been freed for a starved stage
goes to it (R461). -/
def offers (s : State) (x y : Nat) : List Offer :=
  let n := if x = 16 then 256 + y else 16 * y + x
  let ps := s.pipes.filter (pipeOpen s)
  let due := ps.filterMap (dueOffer s)
  match due.filter (fun o => (o.cores s).contains n) with
  | o :: _ => [o]
  | [] =>
      let all := ((s.launches.map (·.2)).filter (fun l => l.st == .placing && placeable s l.ctx)).map Offer.grid
        ++ ps.filterMap (fun p => (stageChoice s p x y).map (fun e => .stage p e.1 e.2.1 e.2.2))
      all.filter (fun o => !(o.cores s).any (fun c => due.any (fun d => (d.cores s).contains c)))

/-- The offer that takes the block at (x, y): the best of those that would take a core of it (R462). -/
def winner (s : State) (x y : Nat) : Option Offer :=
  let n := if x = 16 then 256 + y else 16 * y + x
  let l := offers s x y
  match bestOffer s.sched.now (l.filter (fun o => (o.cores s).contains n)) with
  | none => none
  | some o => bestOffer s.sched.now (l.filter (fun u => (u.cores s).any (o.cores s).contains))

/-- The pre-emption that a starved stage without a block calls for (R461): pipeline, stage, weave. A stage that a save has been
refused for waits for a block (R484). -/
def starvedSave (s : State) (x y : Nat) : Option (Pipeline × Nat × Nat) :=
  let twill := decide (x = 16)
  let ps := s.pipes.filter (fun p => pipeOpen s p && (twill || inRect x y p.x0 p.y0 p.w p.hh))
  ps.findSome? (fun p =>
    let st := p.stages.zipIdx
    let room := fun (q : Stage) => if twill then (freeTwill s p.ctx false).isSome else (freeBlock s q.lrec p.x0 p.y0 p.w p.hh).isSome
    let asked := s.saveReqs.any (fun r => r.ctx == p.ctx && (r.forStage.map (·.1)) == some p.h)
    let many := (st.filter (fun e => e.1.twill == twill && decide (2 ≤ stageTeams s e.1))).reverse
    if asked then none
    else
      (st.find? (fun e => e.1.twill == twill && starved s p e.2 e.1 && !e.1.barred && !room e.1)).bind (fun k =>
        (leastBy (fun e => 2 ^ 32 - stageTeams s e.1) many).bind (fun e => ((stageWeaves s e.1).getLast?).map (fun w => (p, k.2, w)))))

/-- A block has freed: stages that a refused save has left without one may ask again (R484). -/
def unbar (s : State) (x y : Nat) : State :=
  { s with pipes := s.pipes.map (fun (p : Pipeline) =>
      if x = 16 || inRect x y p.x0 p.y0 p.w p.hh then { p with stages := p.stages.map (fun (q : Stage) => { q with barred := false }) } else p) }

/-- `BLOCK_FREED` (R454, R455, R460-R462): the best offer takes its block; with none, a starved stage may have a block taken
for it. -/
def execBlockFreed (x y : Nat) (s : State) : Out :=
  if !s.running then .next s
  else
    match winner s x y with
    | some (.grid l) => .next (gridTake (unbar s x y) l)
    | some (.stage p k q a) => .next (stageTake (unbar s x y) p k q a)
    | none =>
        match starvedSave s x y with
        | some (p, k, w) =>
            .next (addRequest s { ctx := p.ctx, weaves := [w], restoreEntries := none, unit := true, forStage := some (p.h, k) })
        | none => .next s

/-! ### Team start -/

/-- A gang as R181 and R446 start it. -/
def newGang (t : Team) (j age gslot : Nat) : Gang :=
  let n := if t.place.isTwill then 1 else 64
  let live := if t.place.isTwill then 1 else t.field 641 636 + 1
  { fibres := (List.range n).map (fun k => (k, { pidx := BitVec.ofNat 32 (64 * (t.gang0 + j) + k), live := decide (k < live) }))
    frags := [{ pc := BitVec.ofNat 64 (t.field 63 0), mask := BitVec.ofNat 64 (2 ^ live - 1) }]
    gslot, age }

/-- The gangs of a team become resident (R450 step 3); the launch unit's message is stamped (R468), and the core's caches hold
nothing older (R456, R450). -/
def startGangs (s : State) (tid : Nat) (t : Team) : State :=
  let (st, s) := s.stamp launchAgent
  let s := s.receive t.place.agent st.1
  let s := dropTexel (dropL1 s t.place.core) t.place.core
  let slots := gangSlots s t.place t.G
  let n := s.sched.nextId
  let gs := (List.range t.G).map (fun j => (j, newGang t j (n + j) (slots.getD j 0)))
  let s := { s with sched := { s.sched with nextId := n + t.G } }
  s.setTeam tid { t with started := true, gangs := gs }

/-- `TEAM_START` (R450): the next transform binding begins; with none left, the gangs start. -/
def execTeamStart (id : Nat) (s : State) : Out :=
  match s.team id with
  | none => .next s
  | some t =>
      if t.started || t.ended || s.cmds.any (fun c => c.team == id) then .next s
      else
        match t.bindings with
        | [] => .next (startGangs s id t)
        | k :: _ =>
            let q := t.reqs.getD k 0
            let src := BitVec.ofNat 64 (reqSrc q + t.linear * bindStride t.lrec k * 192)
            let q : BitVec 512 := (q >>> 64 <<< 64) ||| src.setWidth 512
            let (n, s) := s.fresh
            .next { s with cmds := s.cmds ++ [{ id := n, ctx := t.ctx, team := id, gang := 0, core := t.place.core, ipc := 0, cls := .copy,
                                                kind := .binding k q, guard := none, scope := reqF q 287 285, st := .running, org := originOf t {} }] }

/-- `BINDING_COMPLETE` (R450): the prologue engine goes on. -/
def execBindingComplete (team : Nat) (s : State) : Out :=
  match s.cmds.find? (fun c => c.team == team && c.st == CmdSt.complete && (match c.kind with | .binding _ _ => true | _ => false)) with
  | none => .next s
  | some c =>
      .next ({ s with cmds := s.cmds.filter (fun d => d.id != c.id) }.modTeam team (fun t => { t with bindings := t.bindings.tail }))

/-! ### Completion -/

/-- Nothing of a launch's teams is in flight (R451). -/
def storesDone (s : State) (l : Launch) : Bool :=
  let mine := fun (t : Nat) => l.teams.contains t
  s.cores.all (fun c => !c.2.sbuf.any (fun e => mine e.team))
    && !s.pend.atoms.any (fun a => mine a.team)
    && !s.pend.samples.any (fun x => x.kind == .rastq && mine x.team)
    && !s.pend.peers.any (fun p => match p.who with | .store _ t _ _ _ => mine t | _ => false)
    && !s.cmds.any (fun c => mine c.team)

/-- The signal of a `csem` (R451, R397): 1 is added at its point of coherence. False: it waits. -/
def signalCsem (s : State) (l : Launch) (a : Nat) : Bool × State :=
  let u := l.id + 1
  let drop := fun (s : State) (c : Nat) => (true, launchErr (dropUnit s u) l.ctx l.num 0x27 c a)
  if a % 8 ≠ 0 then drop s 0x0F
  else
    match launchTarget s l.ctx a .launchW u with
    | .wait s => (false, s)
    | .fault c s => drop s c
    | .line k off s =>
        match homeReady s k off 8 true true false (2 ^ 61 + u) with
        | .wait s => (false, s)
        | .failed s => drop s 8
        | .ready s =>
            let s := eccEvents (dropUnit s u) (some l.ctx) k off 8 2
            (true, homeWrite s k off (leBytes 8 (satAdd (leNat (homeRead s k off 8)) 1 (2 ^ 64 - 1))) 0)

/-- `LAUNCH_COMPLETE` (R451). -/
def execLaunchComplete (id : Nat) (s : State) : Out :=
  match mapGet id s.launches with
  | none => .next s
  | some l =>
      if l.stage.isSome || l.control || l.st != .running || !l.live.isEmpty || !storesDone s l then .next s
      else
        let a := recF l.lrec 1279 1216
        if a = 0 then .next (dropLaunch s id)
        else
          match signalCsem s l a with
          | (true, s) => .next (dropLaunch s id)
          | (false, s) => .next s

end Sys2Proof.Machine
end

