-- ==== Sys2Proof/Machine/Pipes.lean ====
section
/-! DEFINITION. PIPEDECL, LAUNCH, QPUSH and QPOP (R393, R394, R435, R444, R456-R459). -/

namespace Sys2Proof.Machine

/-! ### Pipeline descriptions -/

/-- A field of a description, as one number with byte 0 lowest (R456). -/
abbrev descF (d hi lo : Nat) : Nat := natBits d hi lo

/-- Stage k's 16 bytes. -/
def descStage (d k : Nat) : Nat := natBits d (128 + 128 * k + 127) (128 + 128 * k)
def descStages (d : Nat) : Nat := descF d 3 0 + 1

/-- Status 1 (R457): a reserved field, a code out of range, an origin that is not aligned. -/
def descBad (d : Nat) : Bool :=
  descF d 127 31 != 0 || decide (4 < descF d 9 7) || decide (4 < descF d 6 4)
    || (descF d 10 10 == 1 && (descF d 14 11 % sizeOf (descF d 6 4) != 0 || descF d 18 15 % sizeOf (descF d 9 7) != 0))
    || (List.range (descStages d)).any (fun k => natBits (descStage d k) 127 94 != 0)

/-- A stage record accepted, rejected with its code, or not yet. -/
inductive StageAns where
  | ok (l : List (BitVec 1536 × List (BitVec 512))) (s : State)
  | reject (stage code : Nat) (s : State)
  | wait (s : State)

/-- Read and check the stage records from k on (R456, R447). -/
def stageAll (s : State) (ctx d : Nat) : List Nat → StageAns
  | [] => .ok [] s
  | k :: t =>
      let e := descStage d k
      let u := RecUse.stage (natBits e 76 76 == 1)
      match readRecord s ctx (natBits e 63 0) u with
      | .wait s => .wait s
      | .reject code _ _ s => .reject k code s
      | .ok r reqs s =>
          if badFit u r then .reject k 0x24 s
          else match stageAll s ctx d t with | .ok l s => .ok ((r, reqs) :: l) s | a => a

/-- Records that the stage queues hold room for (R458). -/
def queueRoom (s : State) : Nat := total (s.pipes.map (fun p => total (p.stages.map (fun q => q.qd + 1))))

/-- A declaration (R457): its result word with the state, or none while it waits for a read. -/
def declarePipe (s : State) (ctx d : Nat) : Option (Nat × State) × State :=
  let n := descStages d
  let stage := fun (k : Nat) => descStage d k
  let rej := fun (st : Nat) (s : State) => (some (st * 256, s), s)
  let room := total ((List.range n).map (fun k => natBits (stage k) 75 64 + 1))
  if descBad d || descF d 30 23 != 0 then rej 1 s
  else if 16 ≤ (s.pipes.filter (fun p => p.ctx == ctx)).length ∨ 64 ≤ s.pipes.length then rej 2 s
  else if Config.queueRecords < queueRoom s + room then rej 3 s
  else
    match stageAll s ctx d (List.range n) with
    | .wait s => (none, s)
    | .reject k code s => (some (4 * 256 + code * 2 ^ 16 + k * 2 ^ 24, s), s)
    | .ok recs s =>
        let W := sizeOf (descF d 6 4)
        let H := sizeOf (descF d 9 7)
        let main := ((List.range n).zip recs).filter (fun e => natBits (stage e.1) 76 76 == 0)
        let shapes := main.map (fun e => weaveShape (recF e.2.1 616 614))
        if W * H < total (shapes.map (fun x => x.1 * x.2)) ∨ shapes.any (fun x => decide (W < x.1) || decide (H < x.2)) then rej 5 s
        else
          let h := lowestFree 255 ((s.pipes.filter (fun p => p.ctx == ctx)).map (·.h))
          let o := if descF d 10 10 = 1 then (descF d 14 11, descF d 18 15) else chooseOrigin s W H []
          let (stages, s) := ((List.range n).zip recs).foldl (fun (e : List Stage × State) x =>
            let (l, s) := freshLaunch e.2 ctx 0 x.2.1
            let s := addLaunch s { l with x0 := o.1, y0 := o.2, w := W, h := H, stage := some (h, x.1), reqs := x.2.2 }
            let b := stage x.1
            (e.1 ++ [{ lrec := x.2.1, succ := BitVec.ofNat 16 (natBits b 93 78), srt := natBits b 77 77 == 1,
                       twill := natBits b 76 76 == 1, qd := natBits b 75 64, queue := [], started := 0, launch := l.id, began := s.sched.now }], s)) ([], s)
          let p : Pipeline := { ctx, h, x0 := o.1, y0 := o.2, w := W, hh := H, pri := descF d 21 19, began := s.sched.now, stages }
          (some (h, { s with pipes := s.pipes ++ [p] }), s)

/-- A PIPEDECL reads its description from the team's scratchpad (R394, R456); it is a release at device scope (R457). -/
def withDesc (s : State) (p : Pred) (d : Dst) (a : Src) (k : Iss → Nat → State → Res Unit) : Out :=
  once s p [opA a] (scalarRegs d 1) fun i vs s =>
    let off := (loWord (vs.getD 0 0)).toNat
    let bad := Res.trap (illopnd 5 ((active i p).headD 0)) s
    if off % 64 ≠ 0 ∨ i.team.spsz < off + 16 then bad
    else
      let n := 16 * (descStages (memNat i.team.spad off 16) + 1)
      if i.team.spsz < off + n then bad
      else if !releaseReady s i.team.place.core i.tid i.gid 3 s.sched.nextId then settleWait s
      else (spadReady s i.tid off n 0 false (i.tid, i.gid, i.frag.pc)).bind fun _ s => k i (memNat i.team.spad off n) s

/-- `PIPEDECL`, declare (R456, R457). -/
def execPipedeclDeclare (p : Pred) (d : Dst) (a : Src) (s : State) : Out :=
  withDesc s p d a fun i w s =>
    match declarePipe s i.team.ctx w with
    | (some (v, s), _) => .ok () (advance (putScalar (dropUnit s) d v) (wordsOf [a]))
    | (none, s) => .wait s

/-- A release is accepted, or its status (R457, R459). -/
def releasePipe (s : State) (ctx d id : Nat) : Nat × Bool × State :=
  let h := descF d 30 23
  if descBad d then (0x100, false, s)
  else if !s.pipes.any (fun p => p.ctx == ctx && p.h == h && !p.releasing) then (0x600, false, s)
  else if s.felt.ranges.any (fun r => r.2.owner == ctx && r.2.pipe == h) then (0x700, false, s)
  else (h, true, modPipe s ctx h (fun p => { p with releasing := true, relId := id }))

/-- `PIPEDECL`, release (R457, R459): it waits until the pipeline's teams have ended. -/
def execPipedeclRelease (p : Pred) (d : Dst) (a : Src) (s : State) : Out :=
  withDesc s p d a fun i w s =>
    let done := fun (s : State) (v : Nat) =>
      .ok () (advance ((putScalar s d v).modFrag (fun f => { f with wait := .none })) (wordsOf [a]))
    match i.frag.wait with
    | .release id =>
        if s.pipes.any (fun p => p.releasing && p.relId == id) then .wait s else done s (descF w 30 23)
    | _ =>
        let (id, s) := s.fresh
        let (v, wait, s) := releasePipe s i.team.ctx w id
        if wait then .wait (s.modFrag (fun f => { f with wait := .release id })) else done s v

/-- `PIPELINE_RELEASE_DONE` (R459 steps 2 and 3). -/
def execPipelineReleaseDone (ctx h : Nat) (s : State) : Out :=
  match s.pipes.find? (fun p => p.ctx == ctx && p.h == h && p.releasing) with
  | none => .next s
  | some p =>
      let mine := fun (id : Nat) => p.stages.any (fun q => q.launch == id)
      if s.launches.any (fun l => mine l.1 && !l.2.live.isEmpty) then .next s
      else
        .next { s with pipes := s.pipes.filter (fun q => !(q.ctx == ctx && q.h == h))
                       launches := s.launches.filter (fun l => !mine l.1) }

/-! ### LAUNCH -/

/-- `LAUNCH` (R394, R444): a release at device scope; it waits while the queue is full. -/
def execLaunch (p : Pred) (d : Dst) (a : Src) (s : State) : Out :=
  once s p [opA a true] (scalarRegs d 1) fun i vs s =>
    let va := vs.getD 0 0
    let x := s.ctx i.team.ctx
    if !canonGlobal va || va.toNat % 192 != 0 then .trap (illopnd 5 ((active i p).headD 0)) s
    else if 64 ≤ x.queue.length then .wait s
    else if !releaseReady s i.team.place.core i.tid i.gid 3 s.sched.nextId then settleWait s
    else
      let s := s.modCtx i.team.ctx (fun x => { x with queue := x.queue ++ [(x.nextLaunch, va.toNat)], nextLaunch := x.nextLaunch + 1 })
      .ok () (advance (putScalar s d (x.nextLaunch % 2 ^ 32)) (wordsOf [a]))

/-! ### Stage queues -/

/-- The stage that a queue instruction names (R393). A QPUSH finds no stage in a pipeline that is being released (R459). -/
def stageOf (s : State) (ctx h k : Nat) (push : Bool) : Option Stage :=
  match s.pipes.find? (fun p => p.ctx == ctx && p.h == h) with
  | some p => if push && p.releasing then none else p.stages[k]?
  | none => none
def setQueue (s : State) (ctx h k : Nat) (l : List (BitVec 512 × (Nat × Nat))) : State :=
  modPipe s ctx h (fun p => { p with stages := (p.stages.zipIdx).map (fun e => if e.2 == k then { e.1 with queue := l } else e.1) })

def recordOf (ws : List Word) : BitVec 512 := BitVec.ofNat 512 (leNat (bytesOfWords ws))
def recordWords (r : BitVec 512) : List Word := (List.range 16).map (fun k => r.extractLsb' (32 * k) 32)

/-- Is a run's first register a multiple of 16 (R393)? -/
def runAligned (s : Src) : Bool := match s with | .vec r _ _ | .scal r _ => r.toNat % 16 == 0 | _ => false

/-- `QPUSH` (R393, R458, R459, R468): one record for a scalar run, one for each active fibre of a vector run; all of them, or
with `.nb` those that find room. -/
def execQpush (p : Pred) (q : BitVec 4) (a h : Src) (nb : Bool) (pd : BitVec 3) (s : State) : Out :=
  let pushers := fun (act : List Nat) => match a with | .vec _ _ _ => act | _ => act.take 1
  let needs := fun (i : Iss) (act : List Nat) =>
    (pushers act).flatMap (fun f => (runOf i.team.S i.gang a 16 f).map (fun r => (⟨f, 0, a.ea, r⟩ : Need)))
  onceWith s p [opB h] needs fun i vs s =>
    let act := active i p
    let f0 := act.headD 0
    let S := i.team.S
    let fs := pushers act
    let hn := (vs.getD 0 0).toNat % 256
    match stageOf s i.team.ctx hn q.toNat true with
    | none => .trap (illopnd 5 f0) s
    | some st =>
        if !runAligned a then .trap (illopnd 5 f0) s
        else
          let room := st.qd + 1 - st.queue.length
          if room < fs.length ∧ !nb then .wait s
          else if !releaseReady s i.team.place.core i.tid i.gid 3 s.sched.nextId then settleWait s
          else
            let put := fs.take room
            let (l, s) := put.foldl (fun (e : List (BitVec 512 × (Nat × Nat)) × State) f =>
              let (x, s) := e.2.stamp i.team.place.agent
              (e.1 ++ [(recordOf ((runOf S i.gang a 16 f).map (fun r => (i.gang.reg r).read)), x)], s)) ([], s)
            let s := setQueue (beginWaiting s i.team.ctx hn q.toNat) i.team.ctx hn q.toNat (st.queue ++ l)
            let ok := fun (f : Nat) => match a with | .vec _ _ _ => put.contains f | _ => !put.isEmpty
            .ok () (advance (putPreds s act pd ok) (wordsOf [h]))

/-- Sort key (R435). -/
def sortKey (r : BitVec 512) : Nat := bitsOf r 505 480

/-- The records that the next n pops deliver, and the rest of the queue (R393, R435). -/
def takeRecords (st : Stage) (n : Nat) : List (BitVec 512 × (Nat × Nat)) × List (BitVec 512 × (Nat × Nat)) :=
  if st.srt then
    let l := (st.queue.take 512).zipIdx
    let order := sortBy (fun a b => decide (sortKey a.1.1 < sortKey b.1.1) || (sortKey a.1.1 == sortKey b.1.1 && decide (a.2 < b.2))) l
    let got := order.take n
    (got.map (·.1), ((st.queue.zipIdx).filter (fun e => !got.any (fun g => g.2 == e.2))).map (·.1))
  else (st.queue.take n, st.queue.drop n)

/-- `QPOP` (R393, R435, R468): records to the runs in ascending fibre index, an acquire at device scope; all of them, or with
`.nb` zeros for a fibre that finds none. -/
def execQpop (p : Pred) (d : Dst) (q : BitVec 4) (nb : Bool) (h : Src) (pd : BitVec 3) (s : State) : Out :=
  once s p [opB h] [] fun i vs s =>
    let act := active i p
    let f0 := act.headD 0
    let S := i.team.S
    let fs := if d.isScalar then [f0] else act
    (checked s i [] (fs.flatMap (dstRegs S i.gang d 16))).bind fun _ s =>
      let hn := (vs.getD 0 0).toNat % 256
      match stageOf s i.team.ctx hn q.toNat false with
      | none => .trap (illopnd 5 f0) s
      | some st =>
          let base := match d with | .vec r | .scal r => r.toNat | _ => 1
          if base % 16 ≠ 0 then .trap (illopnd 5 f0) s
          else
            let n := min fs.length (if st.srt then 512 else fs.length)
            let (l, rest) := takeRecords st n
            if l.length < fs.length ∧ !nb then .wait s
            else
              let s := setQueue s i.team.ctx hn q.toNat rest
              let s := l.foldl (fun s e => s.receive i.team.place.agent e.2.1) s
              let s := s.modCur (fun g => (fs.zipIdx).foldl (fun g e =>
                writeRun g (dstRegs S i.gang d 16 e.1)
                  (match l[e.2]? with | some r => recordWords r.1 | none => List.replicate 16 0)) g)
              let ok := fun (f : Nat) => if d.isScalar then !l.isEmpty else (fs.take l.length).contains f
              let s := putPreds s act pd ok
              .ok () (advance (if l.isEmpty then s else acquire s i.team.place.core 3) (wordsOf [h]))

end Sys2Proof.Machine
end

