-- ==== Sys2Proof/Machine/Contexts.lean ====
section
/-! DEFINITION. Contexts from creation to destruction (R518), mailboxes and Twill bindings as the operating system and the host
see them (R516, R517). -/

namespace Sys2Proof.Machine

/-! ### Creation -/

/-- A context command is over: status, context and launch code (R518). -/
def endCommand (s : State) (ctx st code : Nat) : State :=
  s.modSys (fun y => { y with
    ctxCmds := y.ctxCmds.tail
    ctxst := BitVec.ofNat 64 (code * 2 ^ 24 + st * 2 ^ 16 + ctx * 2 ^ 8) })

/-- Create a context (R518). It waits while its Twill context is not free or a line of its record is not at hand. -/
def tryCreate (s : State) (ctx : Nat) : State :=
  if (s.ctx? ctx).isSome then endCommand s ctx 1 0
  else
    match readRecord s ctx (mapGetD 0 ctx s.sys.cpRec).toNat .control with
    | .wait s => s
    | .reject code _ _ s => endCommand (dropUnit s) ctx 2 code
    | .ok r _ s =>
        match freeTwill s ctx true with
        | none => s
        | some h =>
            let s := { dropUnit s with ctxs := mapPut ctx {} s.ctxs }
            let (l, s) := freshLaunch s ctx 0 r
            let l := { l with control := true }
            endCommand (placeWeave (addLaunch s l) l (.twill h) 0) ctx 0 0

/-! ### Destruction -/

/-- End a team as TEAMKILL does (R391, R518 step 2); one that has not started loses its bindings. -/
def destroyTeam (s : State) (tid : Nat) : State :=
  match s.team tid with
  | none => s
  | some t =>
      if t.ended then s
      else
        match t.gangs with
        | (g, _) :: _ => endTeam s tid g 0x1C 0 0
        | [] =>
            let s := { s with cmds := s.cmds.filter (fun c => c.team != tid) }
            let s := teamOver (s.modTeam tid (fun t => { t with bindings := [], started := true })) tid
            errEvent s t.ctx { gangErr t {} 0 0x1C with kind := 4 }

/-- A saved weave is discarded: its directory entry is freed, its gangs' fill rights fail, its teams end (R518 step 2, R102). The lines
of the directory are at hand. -/
def destroySaved (s : State) (v : Saved) : State :=
  let s := if saveBase s v.ctx = 0 then s else freeEntryOf s v.ctx (entryOf s v)
  let s := { s with saved := s.saved.filter (fun y => y != v)
                    launches := s.launches.map (fun l => (l.1, { l.2 with live := l.2.live.filter (· != v.id) })) }
  v.teams.foldl (fun s e =>
    let s := e.2.gangs.foldl (fun s g => g.2.rights.foldl (fun s r => sendFail s e.1 g.1 e.2 r.2.rn r.2.bix 0x13 0) s) s
    if e.2.ended then s
    else
      let g := (e.2.gangs.head?).elim {} (·.2)
      errEvent s v.ctx { gangErr e.2 g 0 0x1C with kind := 4, addr := g.tpc.toNat }) s

/-- A fill of a range of the context whose record no gang has taken fails (R96, R518 step 2). -/
def failUndelivered (s : State) (ctx : Nat) : State :=
  (s.felt.merges.filter (fun m => m.taken.isNone
      && (match mapGet m.rn s.felt.ranges with | some r => r.owner == ctx | none => false))).foldl (fun s m =>
    if s.pend.pubs.any (fun p => p.rn == m.rn && p.bix == m.bix) then s
    else
      let (st, s) := s.stamp (sliceAgent m.slice)
      let (id, s) := s.fresh
      s.modPend (fun p => { p with pubs := p.pubs ++ [⟨id, 0, 0, 0, m.rn, m.bix, some (0x13, 0), 0, st⟩] })) s

/-- The bindings of a context's mailboxes are cleared, and their queues emptied (R518 step 1). -/
def clearMailboxes (s : State) (ctx : Nat) : State :=
  let names := fun (b : Quad) => boundCtx b == some ctx
  let mine := (List.range 64).filter (fun n => names (mapGetD 0 n s.sys.mbBindNow))
  s.modSys (fun y => { y with
    mbox := mine.foldl (fun m n => mapPutD {} n { mapGetD {} n m with inq := [], outq := [] } m) y.mbox
    mbBind := y.mbBind.filter (fun e => !names e.2)
    mbBindNow := y.mbBindNow.filter (fun e => !names e.2) })

/-- A fault record of the context is discarded (R518 step 4). The gang or the stash fill it held is of an ended team.
DEDUCED: an engine command abandons the segments the record listed, and a sampler operation's accesses read as zeros, as
when no page is supplied (R124, R401), so that the destroy can complete (R518 step 5; assumption 67). -/
def discardRecord (s : State) (r : FaultRec) : State :=
  match r.who with
  | .gang _ _ | .stash _ _ _ _ _ => s
  | .cmd id => cmdReply s id true
  | .sample id => samplesAnswered s id r.pages true

/-- Steps 1 to 4 of a destroy (R518). -/
def beginDestroy (s : State) (ctx : Nat) : State :=
  let s := s.modCtx ctx (fun x => { x with destroying := true, queue := [] })
  let s := { s with launches := s.launches.filter (fun l => !(l.2.ctx == ctx && (l.2.st != .running || l.2.control))) }
  let s := clearMailboxes s ctx
  let s := ((s.teams.filter (fun t => t.2.ctx == ctx)).map (·.1)).foldl destroyTeam s
  let s := { s with cmds := s.cmds.filter (fun c => !(c.ctx == ctx && guardWaits s c)) }
  let s := (s.weaves.map (·.1)).foldl weaveTry s
  let s := (s.saved.filter (fun v => v.ctx == ctx)).foldl destroySaved s
  let s := failUndelivered s ctx
  let s := ((s.felt.ranges.filter (fun r => (heldBase s ctx r.1).isSome)).map (·.1)).foldl
    (fun s rn => (releaseRange s ctx (rn * 2 ^ 296) 0).2.2) s
  let s := { s with pipes := s.pipes.map (fun (p : Pipeline) => if p.ctx == ctx && !p.releasing then { p with releasing := true, relId := 0 } else p) }
  let s := (s.xl.recs.filter (fun r => r.ctx == ctx)).foldl discardRecord s
  let s := s.modXl (fun x => { x with recs := x.recs.filter (fun r => r.ctx != ctx) })
  (startInv s ctx true 0 0 (some (0, 0, 0))).2

/-- Has all of a context's work been performed or dropped (R518 step 5)? -/
def destroyed (s : State) (ctx : Nat) : Bool :=
  !s.teams.any (fun t => t.2.ctx == ctx) && !s.launches.any (fun l => l.2.ctx == ctx) && !s.pipes.any (fun p => p.ctx == ctx)
    && !s.cmds.any (fun c => c.ctx == ctx) && !s.felt.ranges.any (fun r => r.2.owner == ctx)
    && !s.xl.invs.any (fun v => v.ctx == ctx) && s.cores.all (fun c => !c.2.sbuf.any (fun e => e.ctx == ctx))
    && !s.pend.loads.any (fun l => l.ctx == ctx) && !s.pend.atoms.any (fun a => a.ctx == ctx)
    && !s.pend.samples.any (fun x => x.ctx == ctx) && !s.pend.peers.any (fun p => p.ctx == ctx)

/-- Destroy a context (R518). -/
def tryDestroy (s : State) (ctx : Nat) : State :=
  match s.ctx? ctx with
  | none => endCommand s ctx 1 0
  | some x =>
      if !x.destroying then
        -- the directory that saved weaves leave is obtained first (R132, R168)
        let (ready, s) := if saveBase s ctx == 0 || !s.saved.any (fun v => v.ctx == ctx) then (true, s)
          else paReady s (saveBase s ctx) 2304 true
        if ready then beginDestroy s ctx else s
      else if destroyed s ctx then endCommand { s with ctxs := mapDel ctx s.ctxs } ctx 0 0
      else s

/-- The command in progress goes on; commands run one at a time (R518). -/
def serviceCtx (s : State) : State :=
  match s.sys.ctxCmds with
  | [] => s
  | (1, ctx) :: _ => tryCreate s ctx
  | (_, ctx) :: _ => tryDestroy s ctx

def addCommand (s : State) (cmd ctx : Nat) : State :=
  let first := s.sys.ctxCmds.isEmpty
  let s := s.modSys (fun y => { y with ctxCmds := y.ctxCmds ++ [(cmd, ctx % 256)] })
  if first then serviceCtx s else s

/-- `CTX_CREATE` (R518). -/
def execCtxCreate (n : Nat) (s : State) : Out := if s.running then .next (addCommand s 1 n) else .next s
/-- `CTX_DESTROY` (R518). -/
def execCtxDestroy (n : Nat) (s : State) : Out := if s.running then .next (addCommand s 2 n) else .next s

/-! ### Mailboxes -/

/-- The staging bytes that an agent writes through: the host's window or the application processors' (R517, R520). -/
def writerWindow (agent : Nat) : Nat := if agent / 4096 = 7 then 1 else 0

/-- `MB_IN_PUSH` (R206, R516, R517, R468). -/
def execMbInPush (n agent : Nat) (s : State) : Out :=
  if !s.running || decide (64 ≤ n) then .next s
  else
    let m := mailbox s n
    if (mailboxCtx s n).isNone || decide (16 ≤ m.inq.length) then .next (setMailbox s n { m with refused := true })
    else
      let (st, s) := s.stamp agent
      let bs := memBytes (mapGetD [] (writerWindow agent) m.staged) 0 64
      .next (setMailbox s n { m with inq := m.inq ++ [(bs, st)] })

/-- A read of the quad at byte 64 of an outbound window by an agent (R516, R468): it answers 1 and removes the oldest message, or answers 0. -/
def popOut (s : State) (n agent : Nat) : State :=
  let m := mailbox s n
  match m.outq with
  | [] => answer s (leBytes 8 0)
  | (_, st) :: q => answer ((setMailbox s n { m with outq := q }).receive agent st.1) (leBytes 8 1)

/-- `MB_OUT_POP` (R516). Which processor reads, no rule says (assumption 19). -/
def execMbOutPop (n : Nat) (s : State) : Out :=
  if !s.running || decide (64 ≤ n) then .next s
  else
    let (ap, s) := apAgent s
    .next (popOut s n ap)

/-- `mb_stat` (R516). -/
def mbStat (s : State) (n : Nat) : Quad :=
  let m := mailbox s n
  BitVec.ofNat 64 (m.inq.length + m.outq.length * 2 ^ 8 + (if m.refused then 2 ^ 16 else 0))

/-- `MB_STAT_READ` (R516). -/
def execMbStatRead (n : Nat) (s : State) : Out :=
  if !s.running || decide (64 ≤ n) then .next s
  else .next (answer (setMailbox s n { mailbox s n with refused := false }) (leBytes 8 (mbStat s n).toNat))

/-! ### Bindings -/

/-- `BINDING_TAKES_EFFECT` (R516). -/
def execBindingTakesEffect (b : BindSlot) (s : State) : Out := .next (settleBinding s b)

end Sys2Proof.Machine
end

