-- ==== Sys2Proof/Machine/Start.lean ====
section
/-! DEFINITION. Start-up (R524, R525), firmware and attestation (R526-R528), and the management port. -/

namespace Sys2Proof.Machine

/-! ### Identity and status -/

/-- The firmware image that runs (R526). -/
def firmware (s : State) : List Byte := s.sys.image.getD Config.bootImage
def imgNat (img : List Byte) (a n : Nat) : Nat := leNat ((img.drop a).take n)
def imgPayload (img : List Byte) : List Byte := (img.drop 4096).take (imgNat img 8 8)

/-- `sc_id` (R513). -/
def scId (s : State) : Quad := Config.stepping ++ BitVec.ofNat 16 (imgNat (firmware s) 4 4) ++ (0x4D420D09 : BitVec 32)

/-- `sc_status` (R513). -/
def scStatus (s : State) : Quad :=
  let y := s.sys
  BitVec.ofNat 64 (y.state + y.warmFails * 2 ^ 4 + y.coldFails * 2 ^ 8 + y.lastStep * 2 ^ 12 + y.ignored * 2 ^ 16)

/-- Step 2 loads an image only if all of R526 holds. -/
def imageOk (img : List Byte) : Bool :=
  let key := (img.drop 48).take 1312
  Config.sha3 key == Config.romKeyDigest
    && Config.mldsaVerify key (Config.sha3 (img.take 1360)) ((img.drop 1360).take 2420)
    && (Config.sha3 (imgPayload img)).toNat == imgNat img 16 32
    && decide (Config.fusedMinVersion ≤ imgNat img 4 4)

/-! ### Starts -/

/-- Does retained state match the digest that it is held with (R524)? -/
def Sys.intact (y : Sys) : Bool := y.retainedDigest == y.digest
/-- A change of retained state, with its digest; state that does not match its digest goes on so (R524). -/
def keep (s : State) (f : Sys → Sys) : State :=
  s.modSys (fun y => let z := f y; { z with digest := if y.intact then z.retainedDigest else y.digest })

/-- Every start ends every context and clears every cache, queue, TLB, event counter and register that is not retained; device
memory keeps its contents until step 5 of a cold start (R524). What `sc_status` reports lives on. -/
def beginStart (s : State) (cold : Bool) (image : Option (List Byte)) : State :=
  let y := s.sys
  { ({} : State) with
    sched := { s.sched with cur := {} }
    mem := { dram := s.mem.dram, host := s.mem.host, eccBad := s.mem.eccBad }
    sys := { scPart := y.scPart, sgRoute := y.sgRoute, sgExp := y.sgExp, warmFails := y.warmFails, coldFails := y.coldFails,
             trims := y.trims, digest := y.digest, measured := y.measured, lastStep := y.lastStep, ignored := y.ignored, image := y.image, lastRead := y.lastRead,
             state := if cold then 1 else 2, start := some { cold, step := if cold then 1 else 2, image },
             cxlPort := [(0, 0), (1, 0)] } }

/-- A start request (R525). `port` tells the management port's, which alone leaves RECOVERY. -/
def requestStart (s : State) (cold port : Bool) (image : Option (List Byte)) : State :=
  match s.sys.state with
  | 0 => beginStart s cold image
  | 3 =>
      if port && cold then beginStart (keep s (fun y => { y with warmFails := 0, coldFails := 0 })) true image else s
  | _ => s.modSys (fun y => { y with ignored := satAdd y.ignored 1 (2 ^ 32 - 1) })

/-- `START_WARM` (R525). -/
def execStartWarm (_ : Asker) (s : State) : Out := .next (requestStart s false false none)
/-- `START_COLD` (R525). -/
def execStartCold (_ : Asker) (s : State) : Out := .next (requestStart s true false none)

/-- A step fails, and with it the start (R525): a second failed warm start is followed by a cold one; a third failed cold
start ends in RECOVERY. -/
def failStart (s : State) (t : Start) : State :=
  let s := s.modSys (fun y => { y with lastStep := t.step })
  if t.cold then
    let n := s.sys.coldFails + 1
    let s := keep s (fun y => { y with coldFails := n })
    if 3 ≤ n then s.modSys (fun y => { y with state := 3, start := none }) else beginStart s true t.image
  else
    let n := s.sys.warmFails + 1
    let s := keep s (fun y => { y with warmFails := n })
    beginStart s (decide (2 ≤ n)) none

/-- The step that follows (R524). -/
def nextStep (cold : Bool) (n : Nat) : Nat :=
  if cold then (if n = 5 then 7 else n + 1) else (if n = 2 then 6 else n + 1)

/-- What a step that succeeds leaves (R524, R526): training finds trims of its own, which no rule gives (assumption 1), and the last step
records the measurement (R527). -/
def stepDone (s : State) (t : Start) : State :=
  let s := match t.step with
    | 2 => s.modSys (fun y => { y with image := t.image })
    | 4 =>
        let (v, s) := s.freeQ
        s.modSys (fun y => let z := { y with trims := v }; { z with digest := z.retainedDigest })
    | 5 => s.modMem (fun m => { m with dram := [], eccBad := [] })
    | 7 => s.modSys (fun y => { y with cxlPort := [(0, 16), (1, 16)] })
    | _ => s
  if t.step = 8 then
    (keep s (fun y => { y with state := 0, start := none, warmFails := 0, coldFails := 0 })).modSys (fun y => { y with measured := y.digest })
  else s.modSys (fun y => { y with start := some { t with step := nextStep t.cold t.step } })

/-- Does the step's own check pass: firmware that verifies at step 2, retained state that matches its digest at step 6 (R524, R526)? -/
def stepOk (s : State) (t : Start) : Bool :=
  (t.step != 2 || imageOk (t.image.getD Config.bootImage)) && (t.step != 6 || s.sys.intact)

/-- `START_STEP_COMPLETE` (R524-R526). -/
def execStartStepComplete (ok : Bool) (s : State) : Out :=
  match s.sys.start with
  | none => .next s
  | some t =>
      .next (if ok && stepOk s t then stepDone s t else failStart s t)

/-- `START_STEP_TIMEOUT` (R524). -/
def execStartStepTimeout (s : State) : Out :=
  match s.sys.start with
  | none => .next s
  | some t => .next (failStart s t)

/-! ### Attestation -/

/-- Bytes 0 to 1,471 of a report (R528). No rule gives bytes 48 to 63 (assumption 1). -/
def reportBody (s : State) (nonce : List Byte) : List Byte × State :=
  let (f0, s) := s.freeQ
  let (f1, s) := s.freeQ
  let fw := firmware s
  (nonce ++ leBytes 8 (scId s).toNat ++ leBytes 8 s.sys.scPart.toNat ++ leBytes 8 f0.toNat ++ leBytes 8 f1.toNat
    ++ leBytes 32 (Config.sha3 (fw.take 4096)).toNat ++ leBytes 32 (Config.sha3 (imgPayload fw)).toNat ++ leBytes 32 s.sys.measured.toNat
    ++ leBytes 1312 Config.identityKey.toNat, s)

/-- A report with its signature over the digest of the body (R528). -/
def report (s : State) (nonce : List Byte) : List Byte × State :=
  let (b, s) := reportBody s nonce
  (b ++ leBytes 2420 (Config.identitySign (Config.sha3 b)).toNat, s)

/-- Do n bytes from a reach into the reserved region (R514)? -/
def reachesReserved (a n : Nat) : Bool := n != 0 && decide (a < memTop) && decide (reservedBase < a + n)

/-- `ATTEST_REQUEST` (R514, R528). -/
def execAttestRequest (a : Quad) (s : State) : Out :=
  if !s.running || s.sys.attest.isSome || a.toNat % 192 != 0 || decide (memTop ≤ a.toNat) || reachesReserved a.toNat 4084 then .next s
  else .next (s.modSys (fun y => { y with attest := some a.toNat }))

/-- `ATTESTATION_REPORT_DONE` (R528, R515): the report is written, with a record of kind 0 and cause 0. -/
def execAttestationReportDone (s : State) : Out :=
  match s.sys.attest with
  | none => .next s
  | some a =>
      match paReady s a 4084 true with
      | (false, s) => .next s
      | (true, s) =>
          let (bs, s) := report s (paRead s a 32)
          let s := paWrite s (a + 192) bs
          -- its notice follows the record (R132)
          .next ((devRecord s { agent := 0x5000, cause := 0, kind := 0, addr := a }).modSys (fun y => { y with attest := none }))

/-! ### The management port -/

/-- `MGMT_STATUS`: returns `sc_status`. A datagram whose signature fails is dropped. -/
def execMgmtStatus (signed : Bool) (s : State) : Out :=
  .next (if signed then answer s (leBytes 8 (scStatus s).toNat) else s)

/-- `MGMT_START_WARM` (R525): not served in RECOVERY. -/
def execMgmtStartWarm (signed : Bool) (s : State) : Out :=
  .next (if signed then requestStart s false true none else s)

/-- `MGMT_START_COLD` (R525). -/
def execMgmtStartCold (signed : Bool) (s : State) : Out :=
  .next (if signed then requestStart s true true none else s)

/-- `MGMT_LOAD_RECOVERY` (R526): an image that verifies is started cold. -/
def execMgmtLoadRecovery (signed : Bool) (image : List Byte) (s : State) : Out :=
  .next (if signed && imageOk image then requestStart s true true (some image) else s)

/-- `MGMT_ATTEST` (R528): the report is returned in the reply. -/
def execMgmtAttest (signed : Bool) (nonce : List Byte) (s : State) : Out :=
  if !signed then .next s
  else
    let (bs, s) := report s (memBytes (memPutBytes [] 0 (nonce.take 32)) 0 32)
    .next (answer s bs)

end Sys2Proof.Machine
end

