-- ==== Sys2Proof/Machine/Registers.lean ====
section
/-! DEFINITION. The device register space (R512-R516, R520, R522, R529-R531, R104, R487): reads, writes with the checks of
R514, and the power controller's steps. -/

namespace Sys2Proof.Machine

/-! ### Reads -/

/-- `pw_limit` as it acts (R529). -/
def powerLimit (y : Sys) : Nat := max 300 (min 1500 y.pwLimit.toNat)

/-- A register of the system control block (R513). -/
def readControl (s : State) (o : Nat) : Quad :=
  let y := s.sys
  if o = 0x000 then scId s
  else if o = 0x008 then y.scPart
  else if o = 0x018 then scStatus s
  else if o = 0x020 then BitVec.ofNat 64 reservedBase
  else if o = 0x030 then
    BitVec.ofNat 64 ((if y.pstatBusy then 1 else 0) + (if y.pstatRefused then 2 else 0) + y.pstatCtx * 2 ^ 8)
  else if o = 0x038 then y.note
  else if o = 0x040 then y.erBase
  else if o = 0x048 then y.erSize
  else if o = 0x060 then y.ctxst ||| (if y.ctxCmds.isEmpty then 0 else 1)
  else if 0x800 ≤ o ∧ o < 0x1000 then mapGetD 0 ((o - 0x800) / 8) y.save
  else 0

/-- A register of the translation control block (R104). -/
def readTranslation (y : Sys) (o : Nat) : Quad :=
  if o < 0x800 then mapGetD 0 (o / 8) y.xlRoot
  else if o = 0x800 then y.fzBase
  else if o = 0x808 then y.fzSize
  else if o = 0x810 then y.fzHead.setWidth 64
  else if o = 0x818 then y.fzTail.setWidth 64
  else if o = 0x820 then y.fzLow
  else if o = 0x828 then y.fqBase
  else if o = 0x830 then y.fqSize
  else if o = 0x838 then y.fqHead.setWidth 64
  else if o = 0x840 then y.fqTail.setWidth 64
  else if o = 0x858 then invStatus y
  else 0

/-- A register of the context service block (R487). -/
def readService (y : Sys) (o : Nat) : Quad :=
  if o < 0x800 then mapGetD 0 (o / 8) y.enUsed
  else if o < 0x1000 then mapGetD 0 ((o - 0x800) / 8) y.enQuota
  else if o = 0x1008 then y.enAcct
  else if 0x2000 ≤ o ∧ o < 0x2800 then mapGetD 0 ((o - 0x2000) / 8) y.ctxErBase
  else if 0x2800 ≤ o ∧ o < 0x3000 then mapGetD 0 ((o - 0x2800) / 8) y.ctxErSize
  else if 0x3000 ≤ o ∧ o < 0x3800 then mapGetD 0 ((o - 0x3000) / 8) y.cpRec
  else 0

/-- A quad of an outbound mailbox's window (R516); the quad at byte 64 tells whether a read of it would pop a message. -/
def readOut (s : State) (n k : Nat) : Quad :=
  match (mailbox s n).outq.head? with
  | none => 0
  | some (bs, _) => if k = 8 then 1 else if k < 8 then BitVec.ofNat 64 (leNat ((bs.drop (8 * k)).take 8)) else 0

/-- A register of the mailbox block (R516). -/
def readMailbox (s : State) (o : Nat) : Quad :=
  let y := s.sys
  if o < 0x200 then mapGetD 0 (o / 8) y.mbBind
  else if o < 0x400 then mbStat s ((o - 0x200) / 8)
  else if o < 0x800 then mapGetD 0 ((o - 0x400) / 8) y.twBind
  else if 0x8000 ≤ o ∧ o < 0xA000 then readOut s ((o - 0x8000) / 128) ((o - 0x8000) % 128 / 8)
  else 0

/-- A register of the Serge block (R522). -/
def readSerge (y : Sys) (o : Nat) : Quad :=
  if o < 0x200 then mapGetD 0 (o / 8) y.sgRoute
  else if o < 0x300 then mapGetD 0 ((o - 0x200) / 8) y.sgExp
  else if 0x400 ≤ o ∧ o < 0x460 then mapGetD 0 ((o - 0x400) / 8) y.sgLink
  else 0

/-- A register of the power block (R529). -/
def readPower (s : State) (o : Nat) : Quad :=
  let y := s.sys
  if o < 0x200 then mapGetD 0 (o / 8) y.pwRatio
  else if o < 0x400 then BitVec.ofNat 64 (s.cluster ((o - 0x200) / 8)).pass
  else if o < 0x600 then mapGetD 0 ((o - 0x400) / 8) y.pwHeat
  else if o = 0x600 then y.pwLimit
  else if 0x608 ≤ o ∧ o < 0x628 then mapGetD 0 ((o - 0x608) / 8) y.pwNet
  else 0

/-- What a read of the quad at an offset of the register space gives (R512). -/
def readReg (s : State) (off : Nat) : Quad :=
  let o := off % 2 ^ 16
  if off % 8 ≠ 0 then 0
  else
    match off / 2 ^ 16 with
    | 0 => readControl s o
    | 1 => readTranslation s.sys o
    | 2 => readService s.sys o
    | 3 => readMailbox s o
    | 4 => readSerge s.sys o
    | 5 => readPower s o
    | _ => 0

/-- What the host reads in BAR0 (R520). -/
def readBar (s : State) (off : Nat) : Quad :=
  if off = 0 then scId s
  else if off = 0x18 then scStatus s
  else if 0x8000 ≤ off ∧ off < 0xA000 ∧ off % 8 = 0 then readOut s ((off - 0x8000) / 128) ((off - 0x8000) % 128 / 8)
  else 0

/-! ### Writes -/

/-- `SC_NOTE_CLEAR` (R513, R515). -/
def execScNoteClear (v : Quad) (s : State) : Out :=
  if s.running then .next (s.modSys (fun y => { y with note := y.note &&& ~~~v })) else .next s

/-- Bytes of a ring with a legal size; a size that is not legal describes none (R514). -/
def ringBytes (size lo hi unit head : Nat) : Nat := if legalSize size lo hi then head + unit * size else 0

/-- A write of the system control block (R513, R514). -/
def writeControl (s : State) (o : Nat) (v : Quad) : Out :=
  let y := s.sys
  let n := v.toNat
  if o = 0x008 then
    .next (if y.sgLink.any (fun e => bitsOf e.2 1 0 == 2) then s else keep s (fun y => { y with scPart := v &&& 0x3F }))
  else if o = 0x010 then
    if bitsOf v 1 0 = 1 then execStartWarm .apps s else if bitsOf v 1 0 = 2 then execStartCold .apps s else .next s
  else if o = 0x028 then (if v.getLsbD 9 then execScPreemptRestore v s else execScPreemptSave v s)
  else if o = 0x038 then execScNoteClear v s
  else if o = 0x040 then
    .next (if n % 192 ≠ 0 ∨ reachesReserved n (max 1 (ringBytes y.erSize.toNat 16 4096 64 192)) then s
      else s.modSys (fun y => { y with erBase := v }))
  else if o = 0x048 then
    .next (if reachesReserved y.erBase.toNat (ringBytes n 16 4096 64 192) then s else s.modSys (fun y => { y with erSize := v }))
  else if o = 0x050 then execAttestRequest v s
  else if o = 0x058 then
    if bitsOf v 9 8 = 1 then execCtxCreate (bitsOf v 7 0) s
    else if bitsOf v 9 8 = 2 then execCtxDestroy (bitsOf v 7 0) s else .next s
  else if 0x800 ≤ o ∧ o < 0x1000 then
    .next (if n % 192 ≠ 0 ∨ reachesReserved n 192 then s
      else s.modSys (fun y => { y with save := mapPutD 0 ((o - 0x800) / 8) v y.save }))
  else .next s

/-- A fault reply: its tag and whether it delivers (R120). -/
def writeReply (s : State) (v : Quad) : Out :=
  if bitsOf v 17 16 = 0 then execFaultReplyRetry (bitsOf v 15 0) s
  else if bitsOf v 17 16 = 1 then execFaultReplyDeliver (bitsOf v 15 0) s else .next s

/-- A write of the translation control block (R104, R514). -/
def writeTranslation (s : State) (o : Nat) (v : Quad) : Out :=
  let y := s.sys
  let n := v.toNat
  if o < 0x800 then
    let w : Quad := v &&& 0x3FFFFFFF001
    .next (if reachesReserved (bitsOf w 41 12 * 512) 512 then s
      else s.modSys (fun y => { y with xlRoot := mapPutD 0 (o / 8) w y.xlRoot }))
  else if o = 0x800 then
    .next (if n % 64 ≠ 0 ∨ reachesReserved n (ringBytes y.fzSize.toNat 256 65536 4 0) then s
      else s.modSys (fun y => { y with fzBase := v }))
  else if o = 0x808 then
    .next (if reachesReserved y.fzBase.toNat (ringBytes n 256 65536 4 0) then s else s.modSys (fun y => { y with fzSize := v }))
  else if o = 0x818 then .next (s.modSys (fun y => { y with fzTail := loWord v }))
  else if o = 0x820 then .next (s.modSys (fun y => { y with fzLow := v }))
  else if o = 0x828 then
    .next (if n % 192 ≠ 0 ∨ reachesReserved n (ringBytes y.fqSize.toNat 64 4096 192 0) then s
      else s.modSys (fun y => { y with fqBase := v }))
  else if o = 0x830 then
    .next (if reachesReserved y.fqBase.toNat (ringBytes n 64 4096 192 0) then s else s.modSys (fun y => { y with fqSize := v }))
  else if o = 0x838 then .next (s.modSys (fun y => { y with fqHead := loWord v }))
  else if o = 0x848 then writeReply s v
  else if o = 0x850 then execXlInv v s
  else .next s

/-- A write of the context service block (R487, R514). -/
def writeService (s : State) (o : Nat) (v : Quad) : Out :=
  let n := v.toNat
  if 0x800 ≤ o ∧ o < 0x1000 then .next (s.modSys (fun y => { y with enQuota := mapPutD 0 ((o - 0x800) / 8) v y.enQuota }))
  else if o = 0x1000 then execEnRoll v s
  else if o = 0x1008 then
    .next (if n % 192 ≠ 0 ∨ reachesReserved n (512 * 1024) then s else s.modSys (fun y => { y with enAcct := v }))
  else if 0x2000 ≤ o ∧ o < 0x2800 then
    .next (if n % 192 ≠ 0 then s else s.modSys (fun y => { y with ctxErBase := mapPutD 0 ((o - 0x2000) / 8) v y.ctxErBase }))
  else if 0x2800 ≤ o ∧ o < 0x3000 then
    .next (s.modSys (fun y => { y with ctxErSize := mapPutD 0 ((o - 0x2800) / 8) v y.ctxErSize }))
  else if 0x3000 ≤ o ∧ o < 0x3800 then
    .next (if n % 192 ≠ 0 then s else s.modSys (fun y => { y with cpRec := mapPutD 0 ((o - 0x3000) / 8) v y.cpRec }))
  else .next s

/-- A write to the inbound windows of a writer (R516, R517). -/
def writeIn (s : State) (agent o : Nat) (v : Quad) : Out :=
  let n := o / 128
  let k := o % 128
  if k < 64 then
    let m := mailbox s n
    let w := writerWindow agent
    .next (setMailbox s n { m with staged := mapPutD [] w (memPutBytes (mapGetD [] w m.staged) k (leBytes 8 v.toNat)) m.staged })
  else if k = 64 then execMbInPush n agent s
  else .next s

/-- A write of the mailbox block (R516) by an application processor; where none is named, no rule says which (assumption 19). -/
def writeMailbox (s : State) (o : Nat) (v : Quad) (who : Option Nat) : Out :=
  if o < 0x200 then
    let n := o / 8
    .next (settleBinding (s.modSys (fun y => { y with mbBind := mapPutD 0 n (v &&& 0x1FF) y.mbBind })) (.mailbox n))
  else if 0x400 ≤ o ∧ o < 0x800 then
    let n := (o - 0x400) / 8
    .next (settleBinding (s.modSys (fun y => { y with twBind := mapPutD 0 n (v &&& 0x3FF) y.twBind })) (.twill n))
  else if 0x4000 ≤ o ∧ o < 0x6000 then
    match who with
    | some ap => writeIn s ap (o - 0x4000) v
    | none => let (ap, s) := apAgent s; writeIn s ap (o - 0x4000) v
  else .next s

/-- A write of the Serge block (R522). -/
def writeSerge (s : State) (o : Nat) (v : Quad) : Out :=
  if o < 0x200 then .next (keep s (fun y => { y with sgRoute := mapPutD 0 (o / 8) (v &&& 0x1FFF) y.sgRoute }))
  else if o < 0x300 then
    let k := (o - 0x200) / 8
    if k % 2 = 0 then
      .next (if v.toNat % 12288 ≠ 0 then s else keep s (fun y => { y with sgExp := mapPutD 0 k v y.sgExp }))
    else .next (keep s (fun y => { y with sgExp := mapPutD 0 k (v &&& 0x80000007FFFFFFFF) y.sgExp }))
  else .next s

/-- Is a clock ratio legal (R529)? -/
def ratioOk (v : Quad) : Bool := bitsOf v 2 1 != 3 && !(v.getLsbD 0 && bitsOf v 2 1 == 2)

/-- A write of the power block (R529). -/
def writePower (s : State) (o : Nat) (v : Quad) : Out :=
  if o < 0x200 then
    .next (if ratioOk v then s.modSys (fun y => { y with pwRatio := mapPutD 0 (o / 8) (v &&& 7) y.pwRatio }) else s)
  else if o = 0x600 then .next (s.modSys (fun y => { y with pwLimit := v }))
  else .next s

/-- A write of the host to BAR0 through a CXL port (R520, R519, R467). -/
def writeBar (s : State) (port o : Nat) (v : Quad) : Out :=
  if o = 0x10 then
    if bitsOf v 1 0 = 1 then execStartWarm .host s else if bitsOf v 1 0 = 2 then execStartCold .host s else .next s
  else if !s.running || mapGetD 0 port s.sys.cxlPort == 0 then .next s
  else if 0x4000 ≤ o ∧ o < 0x6000 then writeIn s (0x7000 + port) (o - 0x4000) v
  else .next s

/-- A write of a quad at an offset of the register space (R512). Outside RUN a start request is all that acts. -/
def writeReg (s : State) (off : Nat) (v : Quad) (who : Option Nat) : Out :=
  let o := off % 2 ^ 16
  if !s.running && off != 0x10 then .next s
  else
    match off / 2 ^ 16 with
    | 0 => writeControl s o v
    | 1 => writeTranslation s o v
    | 2 => writeService s o v
    | 3 => writeMailbox s o v who
    | 4 => writeSerge s o v
    | 5 => writePower s o v
    | _ => .next s

/-- `REGISTER_WRITE` (R512-R516, R520, R522, R529, R104, R487): a quad at an offset of the register space. Offsets from 2^20 on stand for
the host's BAR0 through CXL port 0, and those from 2^20 + 2^16 on through port 1 (assumption 19). -/
def execRegisterWrite (off : Nat) (v : Quad) (s : State) : Out :=
  if off % 8 ≠ 0 then .next s
  else if off < 2 ^ 20 then writeReg s off v none
  else
    let bar := (off - 2 ^ 20) / 2 ^ 16
    if bar < 2 then writeBar s bar (off % 2 ^ 16) v else .next s

/-! ### Application processors -/

/-- Base and size of the register space in the processors' addresses (R512). -/
def regBase : Nat := 0xE000000000
def regSpan : Nat := 2 ^ 20

/-- n free bytes are answered (assumption 108). -/
def freeAnswer (s : State) (n : Nat) : State :=
  let (bs, s) := (List.range n).foldl (fun (e : List Byte × State) _ =>
    let (q, s) := e.2.freeQ
    (e.1 ++ [q.extractLsb' 0 8], s)) ([], s)
  answer s bs

/-- A processor reads a quad of the register space; some reads act (R113, R516). -/
def loadReg (s : State) (agent off : Nat) : Out :=
  let o := off - 0x30000
  if off = 0x10858 then execXlInvstRead s
  else if 0x30200 ≤ off ∧ off < 0x30400 then execMbStatRead ((o - 0x200) / 8) s
  else if 0x38000 ≤ off ∧ off < 0x3A000 ∧ o % 128 = 64 then .next (popOut s ((o - 0x8000) / 128) agent)
  else .next (answer s (leBytes 8 (readReg s off).toNat))

/-- Where addresses of a host's read stand for offsets of BAR0: 2^16 of CXL port 0, then 2^16 of port 1 (assumption 19). -/
def barBase : Nat := 2 ^ 48

/-- The host reads BAR0 through a CXL port (R519, R520); a read of the quad at byte 64 of an outbound window pops (R516). -/
def hostBar (s : State) (port off len : Nat) : Out :=
  if 2 ≤ port ∨ mapGetD 0 port s.sys.cxlPort = 0 then .next s
  else if off % 8 ≠ 0 ∨ len ≠ 8 then .next (freeAnswer s len)
  else if 0x8000 ≤ off ∧ off < 0xA000 ∧ off % 128 = 64 then
    let (ap, s) := apAgent s
    .next (popOut s ((off - 0x8000) / 128) ap)
  else .next (answer s (leBytes 8 (readBar s off).toNat))

/-- `HOST_MEM_READ` (R521, R168, R520): a host read over CXL.mem, or from `barBase` on one of BAR0. -/
def execHostMemRead (pa len : Nat) (s : State) : Out :=
  if pa < barBase then hostRead pa len s
  else if !s.hostLinked then .next s
  else hostBar s ((pa - barBase) / 2 ^ 16) ((pa - barBase) % 2 ^ 16) len

/-- `APPLICATION_PROCESSOR_ACCESS` (R132, R512, R514): a load or store through the homes, outside the reserved region, or of a register.
DESIGN CHOICE: an access of the register space that is no aligned quad reads free bytes and writes nothing (assumption 108). -/
def execApplicationProcessorAccess (proc : Nat) (acc : ApAccess) (s : State) : Out :=
  let agent := 0x6000 + proc % 16
  if !s.running then .next s
  else
    match acc with
    | .load pa len =>
        if regBase ≤ pa ∧ pa < regBase + regSpan then
          if pa % 8 = 0 ∧ len = 8 then loadReg s agent (pa - regBase) else .next (freeAnswer s len)
        else if reservedBase < pa + len then .next (answer s [])
        else
          match homesReady s (outChunks pa len) false with
          | (false, s) => .next s
          | (true, s) =>
              let (bs, s) := outRead s pa len 0
              .next ((answer s bs).modMem (fun m => { m with apHeld := holdLines (linesOf pa len) m.apHeld }))
    | .store pa bs =>
        if regBase ≤ pa ∧ pa < regBase + regSpan then
          if pa % 8 = 0 ∧ bs.length = 8 then writeReg s (pa - regBase) (BitVec.ofNat 64 (leNat bs)) (some agent) else .next s
        else if reservedBase < pa + bs.length then .next s
        else
          match homesReady s (outChunks pa bs.length) true with
          | (false, s) => .next s
          | (true, s) =>
              .next ((outWrite s pa bs).modMem (fun m => { m with apHeld := holdLines (linesOf pa bs.length) m.apHeld }))

/-! ### Power -/

/-- `RATIO_APPLY` (R529). -/
def execRatioApply (cluster : Nat) (s : State) : Out :=
  if 64 ≤ cluster then .next s
  else .next (s.modCluster cluster (fun c => { c with ratio := mapGetD 0 cluster s.sys.pwRatio }))

/-- `PASS_COUNT_CHANGE` (R192, R530): 1, 2 and 4 are the pass counts. -/
def execPassCountChange (cluster : Nat) (raise : Bool) (s : State) : Out :=
  let p := (s.cluster cluster).pass
  let q := if raise then min 4 (2 * p) else max 1 (p / 2)
  if 64 ≤ cluster ∨ p = q then .next s else .next ((s.modCluster cluster (fun c => { c with pass := q })).raiseNote 5)

/-- `HEAT_REFRESH` (R529, R530): one value for each cluster. -/
def execHeatRefresh (heat : List Nat) (s : State) : Out :=
  .next (s.modSys (fun y => { y with pwHeat := (List.range 64).foldl (fun l n =>
    mapPutD 0 n (BitVec.ofNat 64 (min (heat.getD n 0) 255)) l) y.pwHeat }))

/-- `NET_STEP_CHANGE` (R529, R531). -/
def execNetStepChange (region step : Nat) (s : State) : Out :=
  if 4 ≤ region then .next s
  else .next (s.modSys (fun y => { y with pwNet := mapPutD 0 region (BitVec.ofNat 64 (step % 4)) y.pwNet }))

end Sys2Proof.Machine
end

