-- ==== Sys2Proof/Machine/Dispatch.lean ====
section
/-! DEFINITION. The one arm of every instruction. -/

namespace Sys2Proof.Machine

def exec (i : Instr) (s : State) : Host.Outcome State Fault Refusal :=
  match i with
  | .nop p => Sys2Proof.Machine.execNop p s
  | .bra p off => Sys2Proof.Machine.execBra p off s
  | .jmps p a => Sys2Proof.Machine.execJmps p a s
  | .call p k off => Sys2Proof.Machine.execCall p k off s
  | .calls p a k => Sys2Proof.Machine.execCalls p a k s
  | .ret p a k => Sys2Proof.Machine.execRet p a k s
  | .reconv p off => Sys2Proof.Machine.execReconv p off s
  | .parkTimeout team gang lead => Sys2Proof.Machine.execParkTimeout team gang lead s
  | .exit p => Sys2Proof.Machine.execExit p s
  | .fork p d a off => Sys2Proof.Machine.execFork p d a off s
  | .fend p => Sys2Proof.Machine.execFend p s
  | .yield p => Sys2Proof.Machine.execYield p s
  | .brkpt p code => Sys2Proof.Machine.execBrkpt p code s
  | .gbar p => Sys2Proof.Machine.execGbar p s
  | .vote p d a m => Sys2Proof.Machine.execVote p d a m s
  | .rfl p d a q => Sys2Proof.Machine.execRfl p d a q s
  | .shfl p d a b q pd m => Sys2Proof.Machine.execShfl p d a b q pd m s
  | .pset p d a b ty c => Sys2Proof.Machine.execPset p d a b ty c s
  | .pand p d a b => Sys2Proof.Machine.execPand p d a b s
  | .por p d a b => Sys2Proof.Machine.execPor p d a b s
  | .pxor p d a b => Sys2Proof.Machine.execPxor p d a b s
  | .pnot p d a => Sys2Proof.Machine.execPnot p d a s
  | .pmov p op => Sys2Proof.Machine.execPmov p op s
  | .iadd p d a b m => Sys2Proof.Machine.execIadd p d a b m s
  | .isub p d a b m => Sys2Proof.Machine.execIsub p d a b m s
  | .imul p d a b => Sys2Proof.Machine.execImul p d a b s
  | .imulh p d a b m => Sys2Proof.Machine.execImulh p d a b m s
  | .imad p d a b c => Sys2Proof.Machine.execImad p d a b c s
  | .imadw p d a b m => Sys2Proof.Machine.execImadw p d a b m s
  | .iabs p d a m => Sys2Proof.Machine.execIabs p d a m s
  | .ineg p d a m => Sys2Proof.Machine.execIneg p d a m s
  | .imin p d a b m => Sys2Proof.Machine.execImin p d a b m s
  | .imax p d a b m => Sys2Proof.Machine.execImax p d a b m s
  | .isad p d a b c => Sys2Proof.Machine.execIsad p d a b c s
  | .and p d a b m => Sys2Proof.Machine.execAnd p d a b m s
  | .or p d a b m => Sys2Proof.Machine.execOr p d a b m s
  | .xor p d a b m => Sys2Proof.Machine.execXor p d a b m s
  | .andn p d a b m => Sys2Proof.Machine.execAndn p d a b m s
  | .not p d a m => Sys2Proof.Machine.execNot p d a m s
  | .shl p d a b m => Sys2Proof.Machine.execShl p d a b m s
  | .shr p d a b m => Sys2Proof.Machine.execShr p d a b m s
  | .sar p d a b m => Sys2Proof.Machine.execSar p d a b m s
  | .rot p d a b m => Sys2Proof.Machine.execRot p d a b m s
  | .funnel p d a b c => Sys2Proof.Machine.execFunnel p d a b c s
  | .bfe p d a b m => Sys2Proof.Machine.execBfe p d a b m s
  | .bfi p d a b c => Sys2Proof.Machine.execBfi p d a b c s
  | .popc p d a m => Sys2Proof.Machine.execPopc p d a m s
  | .clz p d a m => Sys2Proof.Machine.execClz p d a m s
  | .brev p d a m => Sys2Proof.Machine.execBrev p d a m s
  | .sel p d a b c q => Sys2Proof.Machine.execSel p d a b c q s
  | .mov p d a m => Sys2Proof.Machine.execMov p d a m s
  | .movi p d a b => Sys2Proof.Machine.execMovi p d a b s
  | .lea p d a b sh u => Sys2Proof.Machine.execLea p d a b sh u s
  | .iadd64 p d a b sub => Sys2Proof.Machine.execIadd64 p d a b sub s
  | .cvtw p d a m => Sys2Proof.Machine.execCvtw p d a m s
  | .fadd p d a b m => Sys2Proof.Machine.execFadd p d a b m s
  | .fsub p d a b m => Sys2Proof.Machine.execFsub p d a b m s
  | .fmul p d a b m => Sys2Proof.Machine.execFmul p d a b m s
  | .ffma p d a b c => Sys2Proof.Machine.execFfma p d a b c s
  | .fmin p d a b np => Sys2Proof.Machine.execFmin p d a b np s
  | .fmax p d a b np => Sys2Proof.Machine.execFmax p d a b np s
  | .fclass p d a ty => Sys2Proof.Machine.execFclass p d a ty s
  | .frnd p d a r => Sys2Proof.Machine.execFrnd p d a r s
  | .ffrac p d a => Sys2Proof.Machine.execFfrac p d a s
  | .frcp p d a => Sys2Proof.Machine.execFrcp p d a s
  | .frsq p d a => Sys2Proof.Machine.execFrsq p d a s
  | .fsqrt p d a => Sys2Proof.Machine.execFsqrt p d a s
  | .fexp2 p d a => Sys2Proof.Machine.execFexp2 p d a s
  | .flog2 p d a => Sys2Proof.Machine.execFlog2 p d a s
  | .fsin p d a => Sys2Proof.Machine.execFsin p d a s
  | .fcos p d a => Sys2Proof.Machine.execFcos p d a s
  | .ftanh p d a => Sys2Proof.Machine.execFtanh p d a s
  | .hadd2 p d a b m => Sys2Proof.Machine.execHadd2 p d a b m s
  | .hmul2 p d a b m => Sys2Proof.Machine.execHmul2 p d a b m s
  | .hfma2 p d a b c => Sys2Proof.Machine.execHfma2 p d a b c s
  | .badd2 p d a b m => Sys2Proof.Machine.execBadd2 p d a b m s
  | .bfma2 p d a b c => Sys2Proof.Machine.execBfma2 p d a b c s
  | .cvtf p d a c slot si di => Sys2Proof.Machine.execCvtf p d a c slot si di s
  | .cvti p d a m => Sys2Proof.Machine.execCvti p d a m s
  | .pack p d a slot => Sys2Proof.Machine.execPack p d a slot s
  | .unpack p d a slot => Sys2Proof.Machine.execUnpack p d a slot s
  | .dp4i8 p d a b au bu => Sys2Proof.Machine.execDp4i8 p d a b au bu s
  | .dp8q4 p d a b => Sys2Proof.Machine.execDp8q4 p d a b s
  | .dp4f8 p d a b ae be => Sys2Proof.Machine.execDp4f8 p d a b ae be s
  | .dp2f16 p d a b bf => Sys2Proof.Machine.execDp2f16 p d a b bf s
  | .scale p d a b sf m => Sys2Proof.Machine.execScale p d a b sf m s
  | .rng p d a => Sys2Proof.Machine.execRng p d a s
  | .srnd p d a b di sat f => Sys2Proof.Machine.execSrnd p d a b di sat f s
  | .pFormPair h0 h1 => Sys2Proof.Machine.execPFormPair h0 h1 s
  | .ld p d a b m => Sys2Proof.Machine.execLd p d a b m s
  | .st p d a b m => Sys2Proof.Machine.execSt p d a b m s
  | .lds p d a b m => Sys2Proof.Machine.execLds p d a b m s
  | .sts p d a b m => Sys2Proof.Machine.execSts p d a b m s
  | .ldc p d a b m => Sys2Proof.Machine.execLdc p d a b m s
  | .pref p a b l2 => Sys2Proof.Machine.execPref p a b l2 s
  | .loadReply id => Sys2Proof.Machine.execLoadReply id s
  | .storeTranslate core id => Sys2Proof.Machine.execStoreTranslate core id s
  | .storeFaultEnter core id => Sys2Proof.Machine.execStoreFaultEnter core id s
  | .stfault team gang => Sys2Proof.Machine.execStfault team gang s
  | .atom p d a b m => Sys2Proof.Machine.execAtom p d a b m s
  | .atomsc p d a b op ty => Sys2Proof.Machine.execAtomsc p d a b op ty s
  | .red p a b m => Sys2Proof.Machine.execRed p a b m s
  | .atomicReply id => Sys2Proof.Machine.execAtomicReply id s
  | .scTicketGrant => Sys2Proof.Machine.execScTicketGrant s
  | .fence p ord sco => Sys2Proof.Machine.execFence p ord sco s
  | .bar p n => Sys2Proof.Machine.execBar p n s
  | .wbar p n => Sys2Proof.Machine.execWbar p n s
  | .boinit p a b ord sco => Sys2Proof.Machine.execBoinit p a b ord sco s
  | .boarr p a b ord sco e => Sys2Proof.Machine.execBoarr p a b ord sco e s
  | .bowait p d a sco => Sys2Proof.Machine.execBowait p d a sco s
  | .sdrain p => Sys2Proof.Machine.execSdrain p s
  | .waitcnt p c n => Sys2Proof.Machine.execWaitcnt p c n s
  | .stashmap p a b n => Sys2Proof.Machine.execStashmap p a b n s
  | .stashwb p n first count => Sys2Proof.Machine.execStashwb p n first count s
  | .stashinv p n first count => Sys2Proof.Machine.execStashinv p n first count s
  | .stashFillReply team entry line => Sys2Proof.Machine.execStashFillReply team entry line s
  | .stashRecall team entry line => Sys2Proof.Machine.execStashRecall team entry line s
  | .tileq p op => Sys2Proof.Machine.execTileq p op s
  | .tilewait p d t => Sys2Proof.Machine.execTilewait p d t s
  | .procq p d sr nb => Sys2Proof.Machine.execProcq p d sr nb s
  | .procqDeliver team gang => Sys2Proof.Machine.execProcqDeliver team gang s
  | .procdone p n => Sys2Proof.Machine.execProcdone p n s
  | .procfail p n code => Sys2Proof.Machine.execProcfail p n code s
  | .cpygo p a => Sys2Proof.Machine.execCpygo p a s
  | .cpyq p d => Sys2Proof.Machine.execCpyq p d s
  | .guardset p d a => Sys2Proof.Machine.execGuardset p d a s
  | .guardclr p d => Sys2Proof.Machine.execGuardclr p d s
  | .mma16 p d a b m => Sys2Proof.Machine.execMma16 p d a b m s
  | .mma16sp p d a b m => Sys2Proof.Machine.execMma16sp p d a b m s
  | .gangset p a => Sys2Proof.Machine.execGangset p a s
  | .mtile p d ta tb sc g ge z sco rel ra rb => Sys2Proof.Machine.execMtile p d ta tb sc g ge z sco rel ra rb s
  | .mtilesp p d ta tb sc g ge z sco rel ra rb => Sys2Proof.Machine.execMtilesp p d ta tb sc g ge z sco rel ra rb s
  | .accz p d => Sys2Proof.Machine.execAccz p d s
  | .accld p d t r => Sys2Proof.Machine.execAccld p d t r s
  | .accdrain p d add z g ge sco rel r => Sys2Proof.Machine.execAccdrain p d add z g ge sco rel r s
  | .engineCommandStart team gang c => Sys2Proof.Machine.execEngineCommandStart team gang c s
  | .engineSegment id seg => Sys2Proof.Machine.execEngineSegment id seg s
  | .engineCompletion id => Sys2Proof.Machine.execEngineCompletion id s
  | .sample p d a b c => Sys2Proof.Machine.execSample p d a b c s
  | .sampleg p d a b c => Sys2Proof.Machine.execSampleg p d a b c s
  | .fetch p d a b c => Sys2Proof.Machine.execFetch p d a b c s
  | .nsample p d a b c => Sys2Proof.Machine.execNsample p d a b c s
  | .samplerResult id fib => Sys2Proof.Machine.execSamplerResult id fib s
  | .wpin p d a => Sys2Proof.Machine.execWpin p d a s
  | .wunpin p a => Sys2Proof.Machine.execWunpin p a s
  | .winv p a all => Sys2Proof.Machine.execWinv p a all s
  | .rastq p d a b cull => Sys2Proof.Machine.execRastq p d a b cull s
  | .rastqDone id fib => Sys2Proof.Machine.execRastqDone id fib s
  | .rayx p d a b first ah cull => Sys2Proof.Machine.execRayx p d a b first ah cull s
  | .traversalStop team gang fib => Sys2Proof.Machine.execTraversalStop team gang fib s
  | .rayhit p d acc => Sys2Proof.Machine.execRayhit p d acc s
  | .repack p => Sys2Proof.Machine.execRepack p s
  | .srd p d n => Sys2Proof.Machine.execSrd p d n s
  | .swr p n a => Sys2Proof.Machine.execSwr p n a s
  | .trap p code => Sys2Proof.Machine.execTrap p code s
  | .tret p skip => Sys2Proof.Machine.execTret p skip s
  | .teamkill p => Sys2Proof.Machine.execTeamkill p s
  | .mbwait p d mb nb pd => Sys2Proof.Machine.execMbwait p d mb nb pd s
  | .mbsend p mb sa => Sys2Proof.Machine.execMbsend p mb sa s
  | .pipedeclDeclare p d a => Sys2Proof.Machine.execPipedeclDeclare p d a s
  | .pipedeclRelease p d a => Sys2Proof.Machine.execPipedeclRelease p d a s
  | .pipelineReleaseDone ctx h => Sys2Proof.Machine.execPipelineReleaseDone ctx h s
  | .qpush p q a h nb pd => Sys2Proof.Machine.execQpush p q a h nb pd s
  | .qpop p d q nb h pd => Sys2Proof.Machine.execQpop p d q nb h pd s
  | .launch p d a => Sys2Proof.Machine.execLaunch p d a s
  | .semsig p a b sco => Sys2Proof.Machine.execSemsig p a b sco s
  | .semwait p a b sco => Sys2Proof.Machine.execSemwait p a b sco s
  | .procdeclDeclare p d a => Sys2Proof.Machine.execProcdeclDeclare p d a s
  | .procdeclAttach p d a => Sys2Proof.Machine.execProcdeclAttach p d a s
  | .procdeclRelease p d a => Sys2Proof.Machine.execProcdeclRelease p d a s
  | .rangeReleaseDone rn => Sys2Proof.Machine.execRangeReleaseDone rn s
  | .procreset p d a b all => Sys2Proof.Machine.execProcreset p d a b all s
  | .tlbinv p a b ctx => Sys2Proof.Machine.execTlbinv p a b ctx s
  | .tlbinvComplete id => Sys2Proof.Machine.execTlbinvComplete id s
  | .pageWalkStep id => Sys2Proof.Machine.execPageWalkStep id s
  | .firstTouch => Sys2Proof.Machine.execFirstTouch s
  | .runAheadEnd team gang => Sys2Proof.Machine.execRunAheadEnd team gang s
  | .faultRecordWrite => Sys2Proof.Machine.execFaultRecordWrite s
  | .faultReplyRetry tag => Sys2Proof.Machine.execFaultReplyRetry tag s
  | .faultReplyDeliver tag => Sys2Proof.Machine.execFaultReplyDeliver tag s
  | .xlInv v => Sys2Proof.Machine.execXlInv v s
  | .xlInvstRead => Sys2Proof.Machine.execXlInvstRead s
  | .procTouch id => Sys2Proof.Machine.execProcTouch id s
  | .touchResend id => Sys2Proof.Machine.execTouchResend id s
  | .publication id => Sys2Proof.Machine.execPublication id s
  | .fillFailure id => Sys2Proof.Machine.execFillFailure id s
  | .procReplay id => Sys2Proof.Machine.execProcReplay id s
  | .l2Eviction k => Sys2Proof.Machine.execL2Eviction k s
  | .writeBackDone k => Sys2Proof.Machine.execWriteBackDone k s
  | .cxlCacheResponse g err => Sys2Proof.Machine.execCxlCacheResponse g err s
  | .snpInv g => Sys2Proof.Machine.execSnpInv g s
  | .snpData g => Sys2Proof.Machine.execSnpData g s
  | .snpCur g => Sys2Proof.Machine.execSnpCur g s
  | .hostMemRead pa len => Sys2Proof.Machine.execHostMemRead pa len s
  | .hostMemWrite pa bytes poisoned => Sys2Proof.Machine.execHostMemWrite pa bytes poisoned s
  | .backInvalidateResponse pl => Sys2Proof.Machine.execBackInvalidateResponse pl s
  | .peerAccessIn a => Sys2Proof.Machine.execPeerAccessIn a s
  | .peerReply id ans => Sys2Proof.Machine.execPeerReply id ans s
  | .linkChange link up => Sys2Proof.Machine.execLinkChange link up s
  | .launchDequeue ctx => Sys2Proof.Machine.execLaunchDequeue ctx s
  | .boundWaitDone ctx => Sys2Proof.Machine.execBoundWaitDone ctx s
  | .blockFreed x y => Sys2Proof.Machine.execBlockFreed x y s
  | .teamStart id => Sys2Proof.Machine.execTeamStart id s
  | .bindingComplete team => Sys2Proof.Machine.execBindingComplete team s
  | .launchComplete id => Sys2Proof.Machine.execLaunchComplete id s
  | .passoverLimit team gang lead => Sys2Proof.Machine.execPassoverLimit team gang lead s
  | .preemptSave weave => Sys2Proof.Machine.execPreemptSave weave s
  | .restore ctx entry => Sys2Proof.Machine.execRestore ctx entry s
  | .scPreemptSave v => Sys2Proof.Machine.execScPreemptSave v s
  | .scPreemptRestore v => Sys2Proof.Machine.execScPreemptRestore v s
  | .energyUpdate cluster charges => Sys2Proof.Machine.execEnergyUpdate cluster charges s
  | .enRoll v => Sys2Proof.Machine.execEnRoll v s
  | .ctxCreate n => Sys2Proof.Machine.execCtxCreate n s
  | .ctxDestroy n => Sys2Proof.Machine.execCtxDestroy n s
  | .mbInPush n agent => Sys2Proof.Machine.execMbInPush n agent s
  | .mbOutPop n => Sys2Proof.Machine.execMbOutPop n s
  | .mbStatRead n => Sys2Proof.Machine.execMbStatRead n s
  | .bindingTakesEffect b => Sys2Proof.Machine.execBindingTakesEffect b s
  | .scNoteClear v => Sys2Proof.Machine.execScNoteClear v s
  | .attestRequest a => Sys2Proof.Machine.execAttestRequest a s
  | .startWarm who => Sys2Proof.Machine.execStartWarm who s
  | .startCold who => Sys2Proof.Machine.execStartCold who s
  | .startStepTimeout => Sys2Proof.Machine.execStartStepTimeout s
  | .mgmtStatus signed => Sys2Proof.Machine.execMgmtStatus signed s
  | .mgmtStartWarm signed => Sys2Proof.Machine.execMgmtStartWarm signed s
  | .mgmtStartCold signed => Sys2Proof.Machine.execMgmtStartCold signed s
  | .mgmtLoadRecovery signed image => Sys2Proof.Machine.execMgmtLoadRecovery signed image s
  | .mgmtAttest signed nonce => Sys2Proof.Machine.execMgmtAttest signed nonce s
  | .ratioApply cluster => Sys2Proof.Machine.execRatioApply cluster s
  | .passCountChange cluster raise => Sys2Proof.Machine.execPassCountChange cluster raise s
  | .heatRefresh heat => Sys2Proof.Machine.execHeatRefresh heat s
  | .netStepChange region step => Sys2Proof.Machine.execNetStepChange region step s
  | .registerWrite off v => Sys2Proof.Machine.execRegisterWrite off v s
  | .applicationProcessorAccess proc acc => Sys2Proof.Machine.execApplicationProcessorAccess proc acc s
  | .illegalInstruction cause sub => Sys2Proof.Machine.execIllegalInstruction cause sub s
  | .cxlLinkChange port width => Sys2Proof.Machine.execCxlLinkChange port width s
  | .startStepComplete ok => Sys2Proof.Machine.execStartStepComplete ok s
  | .attestationReportDone => Sys2Proof.Machine.execAttestationReportDone s

end Sys2Proof.Machine
end

