-- ==== Sys2Proof/Machine/Turns.lean ====
section
/-! DEFINITION. What happens next (assumption 4): the head of the agenda, or, when the agenda is empty, one of the things that
can happen, taken in rotation. The issue of a fragment's next instruction (R183, R188, R463, R464) with its fetch. -/

namespace Sys2Proof.Machine

/-! ### Instructions that other agents perform -/

/-- Steps of other agents; all other constructors are program instructions or the trap of a word that does not decode. -/
def isAgent : Instr → Bool
  | .parkTimeout _ _ _ | .loadReply _ | .storeTranslate _ _ | .storeFaultEnter _ _ | .stfault _ _ | .atomicReply _
  | .scTicketGrant | .stashFillReply _ _ _ | .stashRecall _ _ _ | .procqDeliver _ _ | .engineCommandStart _ _ _
  | .engineSegment _ _ | .engineCompletion _ | .samplerResult _ _ | .rastqDone _ _ | .traversalStop _ _ _
  | .pipelineReleaseDone _ _ | .rangeReleaseDone _ | .tlbinvComplete _ | .pageWalkStep _ | .firstTouch | .runAheadEnd _ _
  | .faultRecordWrite | .faultReplyRetry _ | .faultReplyDeliver _ | .xlInv _ | .xlInvstRead | .procTouch _ | .touchResend _
  | .publication _ | .fillFailure _ | .procReplay _ | .l2Eviction _ | .writeBackDone _ | .cxlCacheResponse _ _ | .snpInv _
  | .snpData _ | .snpCur _ | .hostMemRead _ _ | .hostMemWrite _ _ _ | .backInvalidateResponse _ | .peerAccessIn _
  | .peerReply _ _ | .linkChange _ _ | .launchDequeue _ | .boundWaitDone _ | .blockFreed _ _ | .teamStart _
  | .bindingComplete _ | .launchComplete _ | .passoverLimit _ _ _ | .preemptSave _ | .restore _ _ | .scPreemptSave _
  | .scPreemptRestore _ | .energyUpdate _ _ | .enRoll _ | .ctxCreate _ | .ctxDestroy _ | .mbInPush _ _ | .mbOutPop _
  | .mbStatRead _ | .bindingTakesEffect _ | .scNoteClear _ | .attestRequest _ | .startWarm _ | .startCold _
  | .startStepTimeout | .mgmtStatus _ | .mgmtStartWarm _ | .mgmtStartCold _ | .mgmtLoadRecovery _ _ | .mgmtAttest _ _
  | .ratioApply _ | .passCountChange _ _ | .heatRefresh _ | .netStepChange _ _ | .registerWrite _ _
  | .applicationProcessorAccess _ _ | .cxlLinkChange _ _ | .startStepComplete _ | .attestationReportDone => true
  | _ => false

/-! ### Issue -/

/-- Can a fragment issue or try its instruction again (R188, R463, R480)? The fragment of a trap that has been taken enters its handler. -/
def issuable (s : State) (tid : Nat) (t : Team) (gid : Nat) (g : Gang) (f : Frag) : Bool :=
  let stopped := match mapGet t.weave s.weaves with | some w => w.saving && !midWait s tid gid f | none => false
  s.running && t.started && !t.ended && !stopped && (match g.entry with
    | some (m, _) => f.mask == m
    | none =>
        g.heldFor.isNone && !f.held && f.st == .running
          && (match f.wait with | .bar _ | .wbar _ | .gbar | .mma => false | _ => true)
          && (match g.ra with | some r => r.reason == 0 && r.frag.mask == f.mask | none => true))

/-- The fragments of a gang that the scheduler looks at: in run-ahead, the one that runs ahead. -/
def Gang.runFrags (g : Gang) : List Frag := match g.ra with | some r => [r.frag] | none => g.frags

/-- A fragment with its gang and team. -/
structure Cand where
  tid : Nat
  gid : Nat
  lead : Nat
  core : Nat
  quad : Nat
  rank : Nat
  deriving DecidableEq, Repr

/-- Rank of a candidate (R463, R464, R465): passed over in 64 cycles first, then by age and lead slice, a fragment after YIELD last. -/
def fragRank (g : Gang) (f : Frag) : Nat :=
  (if f.oldest then 0 else if f.young then 2 else 1) * 2 ^ 80 + g.age * 64 + f.lowest

/-- Every fragment that can issue. -/
def issuables (s : State) : List Cand :=
  s.teams.flatMap (fun t => t.2.gangs.flatMap (fun g => (g.2.runFrags.filter (issuable s t.1 t.2 g.1 g.2)).map (fun f =>
    { tid := t.1, gid := g.1, lead := f.lowest, core := t.2.place.agent
      quad := if t.2.place.isTwill then 0 else quadOfGang g.1, rank := fragRank g.2 f })))

/-- One fragment for each quad. -/
def onePerQuad (l : List Cand) : List Cand :=
  l.foldl (fun r c => if r.any (fun d => d.core == c.core && d.quad == c.quad) then r else r ++ [c]) []

/-- Header bit 22 of the description that a PIPEDECL names, and the `op` of a PROCDECL's record (R394, R456, R73). -/
def declField (i : Iss) (p : Pred) (a : Src) (n lo w : Nat) : Nat :=
  match active i p with
  | [] => 0
  | f :: _ =>
      let off := (loWord ((opndVal i.team.S i.gang (opA a) f).getD 0)).toNat
      memNat i.team.spad off n / 2 ^ lo % 2 ^ w

/-- One word of memory holds PIPEDECL and PROCDECL for every operation; the record that they read tells which (R394). A
fragment that waits for a release goes on with it. -/
def resolveDecl (i : Iss) (x : Instr) : Instr :=
  let rel := match i.frag.wait with | .release _ => true | _ => false
  match x with
  | .pipedeclDeclare p d a => if rel || declField i p a 16 22 1 == 1 then .pipedeclRelease p d a else x
  | .procdeclDeclare p d a =>
      if rel then .procdeclRelease p d a
      else
        match declField i p a 64 278 2 with
        | 1 => .procdeclAttach p d a
        | 2 => .procdeclRelease p d a
        | _ => x
  | _ => x

/-- What a turn comes to: an instruction to execute at a state, or a state reached without one. -/
inductive Choice where
  | run (i : Instr) (s : State)
  | done (s : State)

/-- Fetch and decode at the fragment's pc (R30, R107, R119, R268-R270). A page that is not mapped holds the gang for its
record, or ends a run-ahead. -/
def fetchIssue (s : State) (i : Iss) : Choice :=
  let pc := i.frag.pc.toNat
  let ahead := i.gang.ra.isSome
  match fetchInstr s i.team.ctx i.team.place.core ahead pc with
  | (.wait, s) => .done s
  | (.fault c fz a, s) =>
      if ahead then .done (stopAhead s i.tid i.gid 3)
      else if c = 4 then
        .done (holdForRecord s i.tid i.gid i.team i.gang i.frag.pc (BitVec.ofNat 64 a) 1 0 i.frag.lowest [⟨a / 12288, false, fz⟩])
      else .done (raise s i { cause := c, fib := i.frag.lowest, addr := BitVec.ofNat 64 a })
  | (.words ws, s) =>
      match decodeAt (fun n => slotA (i.team.slot n.toNat) == 9) i.team.place.pool ws with
      | .ok x => .run (resolveDecl i x) s
      | .error e => .run (.illegalInstruction e.cause e.sub) s

/-- A fragment issues. A trap that has been taken goes on to its handler (R474); the trap of a fault reply and a store fault come first (R120,
R478); a re-gang has its acquire and release before the merged fragment goes on (R163). -/
def issueTurn (s : State) (tid gid lead : Nat) : Choice :=
  let s := { s with sched := { s.sched with cur := ⟨tid, gid, lead⟩ } }
  match s.iss with
  | none => .done s
  | some i =>
      if !issuable s tid i.team gid i.gang i.frag then .done s
      else if i.gang.entry.isSome then .done (enterTrap s tid gid)
      else
        let hit := match i.gang.deliver with | some (a, f) => if i.frag.mask.getLsbD f then some (a, f) else none | none => none
        match hit with
        | some (a, f) =>
            .done (raise (s.modGang tid gid (fun g => { g with deliver := none })) i { cause := 4, fib := f, addr := a })
        | none =>
            if stfaultReady s i.gang then .run (.stfault tid gid) s
            else if i.frag.wait = .regang then
              if releaseReady s i.team.place.core tid gid 0 s.sched.nextId then
                fetchIssue (s.modFrag (fun f => { f with wait := .none })) { i with frag := { i.frag with wait := .none } }
              else .done s
            else fetchIssue s i

/-! ### The front-end cycle -/

/-- A candidate's turn run to its end. -/
def tryTurn (s : State) (c : Cand) : State :=
  match issueTurn s c.tid c.gid c.lead with
  | .done t => t
  | .run x u => match exec x u with | .next t => t | _ => u

/-- Where an instruction that has not issued stands after its attempt: its fragment as it was, but for the mark of a wait. -/
def stands (g : Gang) (f : Frag) (t : Gang) : Bool :=
  let same := fun (x : Frag) => x.mask == f.mask && x.pc == f.pc && x.passed == f.passed && (x.wait == f.wait || x.wait == .settle)
  t.heldFor == g.heldFor && t.entry == g.entry && t.ra.isSome == g.ra.isSome
    && (match t.ra with | some r => same r.frag | none => t.frags.any same)

/-- Would a fragment's next instruction issue now (R463)? If not, the state in which it goes on waiting: its attempt may have sent for what
it lacks. -/
def attempt (s : State) (c : Cand) : Option State :=
  -- an instruction that issues sets the count anew
  let m := { s with sched := { s.sched with cur := ⟨c.tid, c.gid, c.lead⟩ } }.modFrag (fun f => { f with passed := f.passed + 1 })
  match m.iss with
  | none => some s
  | some i =>
      let t := tryTurn m c
      if stfaultReady m i.gang || (i.gang.deliver.any (fun d => i.frag.mask.getLsbD d.2)) then none
      else
        match t.gang c.tid c.gid with
        | some g => if stands i.gang i.frag g then some (t.modFrag (fun f => { f with passed := 0 })) else none
        | none => none

/-- The slice pipes, and as bit 8 the scalar unit, that a fragment's next instruction uses (R191, R192, R463); an instruction of a Twill
context uses all of them (R465). -/
def pipesOf (s : State) (c : Cand) : BitVec 9 :=
  match { s with sched := { s.sched with cur := ⟨c.tid, c.gid, c.lead⟩ } }.iss with
  | none => 0
  | some i =>
      let slices := fun (l : List Nat) => (l.map (· / 8)).eraseDups.foldl (fun (b : BitVec 9) n => b ||| BitVec.ofNat 9 (2 ^ n)) 0
      if i.team.place.isTwill then 511
      else
        match fetchIssue s i with
        | .done _ => slices i.frag.fibres
        | .run x _ =>
            match (sig x).dst with
            | some (_, _, .scal _) => 256
            | _ => slices (active i ⟨(toRaw x).pn, (toRaw x).pi⟩)

/-- The front-end cycle of a candidate's quad. -/
def frontOf (s : State) (c : Cand) : FrontCycle :=
  (s.sched.front.find? (fun x => x.agent == c.core && x.quad == c.quad)).getD { agent := c.core, quad := c.quad }
def setFront (s : State) (x : FrontCycle) : State :=
  { s with sched := { s.sched with front := x :: s.sched.front.filter (fun y => !(y.agent == x.agent && y.quad == x.quad)) } }

/-- Change the fragment of a candidate. -/
def modCand (s : State) (c : Cand) (h : Frag → Frag) : State :=
  s.modGang c.tid c.gid (fun g => { g with frags := g.frags.map (fun f => if f.mask.getLsbD c.lead then h f else f) })
def candFrag (s : State) (c : Cand) : Option Frag := (s.gang c.tid c.gid).bind (fun g => g.runFrags.find? (fun f => f.mask.getLsbD c.lead))

/-- Has a candidate's fragment issued in the cycle? -/
def FrontCycle.has (x : FrontCycle) (s : State) (c : Cand) : Bool :=
  x.issued.any (fun e => e.1 == c.tid && e.2.1 == c.gid && (candFrag s c).any (fun f => e.2.2 &&& f.mask != 0))
/-- May a candidate issue in the cycle: it has not yet, and no instruction of the cycle uses what it needs (R463)? -/
def FrontCycle.admits (x : FrontCycle) (s : State) (c : Cand) : Bool := !x.has s c && x.pipes &&& pipesOf s c == 0
def FrontCycle.claim (x : FrontCycle) (s : State) (c : Cand) : FrontCycle :=
  { x with pipes := x.pipes ||| pipesOf s c, issued := x.issued ++ [(c.tid, c.gid, (candFrag s c).elim 0 (·.mask))] }

/-- A cycle of a quad ends: candidates that have not issued have been passed over, and fragments that rest are no candidates in the next one
(R464). -/
def endCycle (s : State) (x : FrontCycle) (all ready : List Cand) : State :=
  let over_ := ready.filter (fun c => !x.has s c)
  let rests := all.filter (fun c => (candFrag s c).any (·.rest))
  let s := over_.foldl (fun s c => modCand s c (fun f => { f with passed := f.passed + 1 }.limited)) s
  let s := rests.foldl (fun s c => modCand s c (fun f => { f with rest := false })) s
  setFront s { agent := x.agent, quad := x.quad, issued := rests.map (fun c => (c.tid, c.gid, (candFrag s c).elim 0 (·.mask))) }

/-- The oldest of some candidates. -/
def oldestOf (l : List Cand) : Option Cand := leastBy (·.rank) l

/-- What a quad issues next: in each front-end cycle its candidates in age order, each as far as the pipes and the scalar unit that it needs are
not claimed (R463-R465). Fragments whose instruction would not issue make their attempts. -/
def quadTurn (s : State) (c : Cand) : Choice :=
  let all := (issuables s).filter (fun d => d.core == c.core && d.quad == c.quad)
  match all with
  | [d] => issueTurn s d.tid d.gid d.lead
  | _ =>
      let (ready, s) := all.foldl (fun (e : List Cand × State) d =>
        match attempt e.2 d with | none => (e.1 ++ [d], e.2) | some s => (e.1, s)) ([], s)
      let go := fun (s : State) (x : FrontCycle) (d : Cand) => issueTurn (setFront s (x.claim s d)) d.tid d.gid d.lead
      let x := frontOf s c
      match oldestOf (ready.filter (x.admits s)) with
      | some d => go s x d
      | none =>
          let s := endCycle s x all ready
          let x := frontOf s c
          match (oldestOf (ready.filter (x.admits s))).orElse (fun _ => oldestOf ready) with
          | some d => go s x d
          | none => .done s

/-! ### What the world outside and the implementation do -/

def dropNth {α : Type} (l : List α) (n : Nat) : List α := l.take n ++ l.drop (n + 1)

/-- A register's parity goes bad; slot 64 and above stands for the scalar registers (R200). -/
def upsetReg (s : State) (tid gid fib pos : Nat) (copy : Bool) : State :=
  s.modGang tid gid (fun g =>
    let bad := fun (l : RegFile) => mapPutD {} pos { mapGetD {} pos l with bad := true, copy } l
    if 64 ≤ fib then { g with sregs := bad g.sregs }
    else { g with fibres := mapMod fib (fun (b : Fibre) => { b with regs := bad b.regs }) g.fibres })

/-- A turn that is no instruction. -/
def worldTurn (s : State) : Turn → State
  | .hostStore ha bs =>
      if (List.range (bs.length / 64 + 2)).any (fun n => (List.range 3).any (fun i =>
          let g := ha / 64 + n
          i ≤ g && (match s.line (.host (g - i)) with | some l => l.granOf i != .i | none => false))) then s
      else s.modMem (fun m => { m with host := memPutBytes m.host ha bs })
  | .dropTlb c n => s.modCore c (fun c => { c with tlb := dropNth c.tlb n })
  | .dropClusterTlb c n => s.modCluster c (fun c => { c with tlb := dropNth c.tlb n })
  | .dropL1 c n => s.modCore c (fun c => { c with l1 := dropNth c.l1 n })
  | .dropTexel c n => s.modCore c (fun c => { c with texel := dropNth c.texel n })
  | .dropWeights c n =>
      s.modCore c (fun c => { c with weights := if (c.weights[n]?).elim true (·.pinned) then c.weights else dropNth c.weights n })
  | .upsetReg t g f p copy => upsetReg s t g f p copy
  | .upsetSector n => s.modMem (fun m => { m with eccBad := (m.eccBad ++ [n]).eraseDups })
  | .upsetL2 k sec =>
      match s.line k with
      | some l => if l.valid.getLsbD sec then s.modMem (fun m => { m with eccL2 := (m.eccL2 ++ [(k, sec)]).eraseDups }) else s
      | none => s
  | .upsetSpad t w =>
      s.modTeam t (fun t => { t with spad := memPutBytes t.spad (4 * w) [0, 0, 0, 0], spadBad := (t.spadBad ++ [w]).eraseDups })
  | .upsetAcc t a w =>
      s.modTeam t (fun t => { t with accs := mapPutD [] a (memPutBytes (mapGetD [] a t.accs) (4 * w) [0, 0, 0, 0]) t.accs
                                     accBad := (t.accBad ++ [(a, w)]).eraseDups })
  | .upsetTrims v => s.modSys (fun y => { y with trims := v })
  | .markKernel e => s.modFelt (fun f => { f with generators := (f.generators ++ [e]).eraseDups })
  | .service => ((s.teams.filter (fun t => t.2.ended)).map (·.1)).foldl teamRelease (serviceReq (serviceCtx s))
  | .records => drainAccounts (drainRecs s)
  | .spend t g n => spend s t g n
  | .issue _ _ _ => s
  | .agent _ => s

/-- A turn of the agenda. One that names a fragment lets its quad issue, in the order of R463. -/
def takeTurn (s : State) (t : Turn) : Choice :=
  match t with
  | .issue a b c =>
      match (issuables s).find? (fun d => d.tid == a && d.gid == b && (candFrag s d).any (fun f => f.mask.getLsbD c)) with
      | some d => quadTurn s d
      | none => .done s
  | .agent i => if isAgent i then .run i { s with sched := { s.sched with cur := {} } } else .done s
  | t => .done (worldTurn s t)

/-! ### The default turn -/

/-- What cores, engines and units have under way. -/
def coreTurns (s : State) : List Instr :=
  s.pend.loads.map (fun (l : PendLoad) => Instr.loadReply l.id)
    ++ s.pend.prefs.map (fun (x : PendPref) => Instr.loadReply x.id)
    ++ s.cores.flatMap (fun c => c.2.sbuf.map (fun e => if e.cause.isNone then .storeTranslate c.1 e.id else .storeFaultEnter c.1 e.id))
    ++ s.pend.spads.map (fun (x : PendSpad) => Instr.storeTranslate x.core x.id)
    ++ s.pend.atoms.map (fun (a : PendAtom) => Instr.atomicReply a.id)
    ++ (if s.seq.queue.isEmpty then [] else [.scTicketGrant])
    ++ s.teams.flatMap (fun t =>
      t.2.stash.flatMap (fun e => e.2.lines.filterMap (fun l =>
        if l.2.st = .filling then some (.stashFillReply t.1 e.1 l.1)
        else if (match s.line l.2.key with | some x => x.recalled | none => false) then some (.stashRecall t.1 e.1 l.1) else none))
      ++ t.2.gangs.flatMap (fun g =>
        (if !g.2.procq.isEmpty then [.procqDeliver t.1 g.1] else [])
        ++ (if s.running && t.2.started && !t.2.ended && stfaultReady s g.2
              && !(match mapGet t.2.weave s.weaves with | some w => w.saving | none => false) then [.stfault t.1 g.1] else [])
        ++ (match g.2.ra with | some r => if r.reason = 0 then [] else [.runAheadEnd t.1 g.1] | none => [])))
    ++ ((s.cmds.filter (fun c => c.st == .queued)).map (fun c =>
        Instr.engineCommandStart c.team c.gang (if c.uncounted then .matrix else c.cls))).eraseDups
    ++ s.cmds.flatMap (fun c =>
      match (if c.st = .running then s.team c.team else none) with
      | none => []
      | some t =>
          match (openSegs c t).map (·.2) with
          | [] => [Instr.engineCompletion c.id]
          | l => l.map (.engineSegment c.id))
    ++ s.pend.samples.flatMap (fun x => (x.fibs.filter (fun f => !f.done)).map (fun f =>
      match x.kind with
      | .rastq => Instr.rastqDone x.id f.fib
      | .rayx => .traversalStop x.team x.gang f.fib
      | _ => .samplerResult x.id f.fib))

/-- What translation, Felt and the home slices have under way. -/
def memoryTurns (s : State) : List Instr :=
  (s.xl.walks.filter (fun w => w.st == .reading)).map (fun (w : Walk) => Instr.pageWalkStep w.id)
    ++ (if s.xl.walks.any (fun w => w.st != .reading) then [.firstTouch] else [])
    ++ (if s.xl.recs.any (fun r => !r.written) then [.faultRecordWrite] else [])
    ++ s.xl.invs.map (fun (v : TlbInv) => Instr.tlbinvComplete v.id)
    ++ s.pend.touches.map (fun (t : Touch) => if t.refusedAt.isNone then Instr.procTouch t.id else .touchResend t.id)
    ++ s.pend.pubs.map (fun (m : PubMsg) => if m.fail.isNone then Instr.publication m.id else .fillFailure m.id)
    ++ s.pend.replays.map (fun (r : Replay) => Instr.procReplay r.id)
    ++ (s.mem.l2.filter (fun e => e.2.wb.isSome)).map (fun (e : LineKey × L2Line) => Instr.writeBackDone e.1)
    ++ (s.felt.ranges.filter (fun r => r.2.releasing)).map (fun (r : Nat × Range) => Instr.rangeReleaseDone r.1)
    ++ (s.pend.peers.filter (fun p => p.link == 12)).map (fun (p : PendPeer) => Instr.peerReply p.id .refusal)

/-- What the launch unit and the operating system's requests have under way. -/
def launchTurns (s : State) : List Instr :=
  (s.ctxs.filter (fun c => !c.2.queue.isEmpty)).map (fun (c : Nat × Ctx) => Instr.launchDequeue c.1)
    ++ s.launches.flatMap (fun (l : Nat × Launch) =>
      match l.2.st with
      | .bound => [Instr.boundWaitDone l.2.ctx]
      | .placing => ((gridBlocks s l.2).take 1).map (fun b => .blockFreed b.1 b.2)
      | .running => if l.2.live.isEmpty && l.2.stage.isNone && !l.2.control then [.launchComplete l.1] else [])
    ++ s.pipes.flatMap (fun (p : Pipeline) =>
      let main := (List.range p.hh).flatMap (fun j => (List.range p.w).map (fun i => (p.x0 + i, p.y0 + j)))
      let free := (main ++ (freeTwill s p.ctx false).toList.map (fun h => (16, h))).find? (fun (b : Nat × Nat) => (stageChoice s p b.1 b.2).isSome)
      (if p.releasing then [Instr.pipelineReleaseDone p.ctx p.h] else [])
        ++ (match free with
            | some b => [.blockFreed b.1 b.2]
            | none => ([(p.x0, p.y0), (16, 0)].filter (fun (b : Nat × Nat) => (starvedSave s b.1 b.2).isSome)).map (fun (b : Nat × Nat) => Instr.blockFreed b.1 b.2)))
    ++ s.teams.flatMap (fun (t : Nat × Team) =>
      if t.2.started || t.2.ended then []
      else if s.cmds.any (fun c => c.team == t.1) then [Instr.bindingComplete t.1] else [.teamStart t.1])
    ++ (s.weaves.filter (fun w => w.2.saving)).map (fun (w : Nat × Weave) => Instr.preemptSave w.1)
    ++ (match s.saveReqs with
        | r :: _ => (r.restoreEntries.getD []).map (Instr.restore r.ctx)
        | [] => [])
    ++ (pendingBinds s).map Instr.bindingTakesEffect
    ++ (if s.sys.start.isSome then [.startStepComplete true] else [])
    ++ (if s.sys.attest.isSome then [.attestationReportDone] else [])

/-- The time-outs of PARKED fragments (R186). -/
def parkTurns (s : State) : List Turn :=
  s.teams.flatMap (fun t => t.2.gangs.flatMap (fun g =>
    (g.2.frags.filter (fun f => f.st == .parked && !f.held)).map (fun f => Turn.agent (.parkTimeout t.1 g.1 f.lowest))))

/-- Everything that can happen now without the world outside, with one fragment for each quad. A fragment that stays PARKED times out when nothing else can
happen, or at a step whose number is a multiple of 8192 (R186; assumption 18). -/
def candidates (s : State) : List Turn :=
  let l := (coreTurns s ++ memoryTurns s ++ launchTurns s).map Turn.agent
    ++ (onePerQuad (issuables s)).map (fun c => Turn.issue c.tid c.gid c.lead)
    ++ (if s.sys.ctxCmds.isEmpty && s.saveReqs.isEmpty && !s.teams.any (fun t => t.2.ended) then [] else [Turn.service])
    ++ (if s.recq.isEmpty && s.acctq.isEmpty then [] else [Turn.records])
  if !(parkTurns s).isEmpty && (l.isEmpty || s.sched.now % 8192 == 0) then parkTurns s else l

/-- The default turn: the candidates in rotation; with none, the machine idles. -/
def defaultTurn (s : State) : Choice :=
  let l := candidates s
  match l[s.sched.now % l.length]? with
  | some t => takeTurn s t
  | none => .done s

/-- The next turn. -/
def choose (s : State) : Choice :=
  let s' := { s with sched := { s.sched with now := s.sched.now + 1, cur := {} } }
  match s.sched.agenda with
  | t :: rest => takeTurn { s' with sched := { s'.sched with agenda := rest } } t
  | [] => defaultTurn s'

/-! ### A program placed from outside -/

/-- Where `placeWord` puts its code: page 1 of the context, at the same device address. -/
def codeBase : Nat := 12288

/-- A launch record for one gang of 64 LIVE fibres at `codeBase`, with 256 registers, 3 KiB of scratchpad and 3 KiB for each fibre's private
window. -/
def wordRecord : BitVec 1536 := BitVec.ofNat 1536 (codeBase + 3072 * 2 ^ 256 + 12 * 2 ^ 624 + 63 * 2 ^ 636 + 2 ^ 642)

/-- The core that a table word runs on: one that holds no team if there is one, and a Twill core where the main array does not have the
instruction (R204). -/
def wordPlace (s : State) (ws : List Quad) : Place :=
  let twill := match decode .main ws with
    | .error e => e.cause == 0x0C && e.sub == 2
    | .ok _ => false
  let at_ := fun (n : Nat) => if twill then Place.twill n else .main n
  at_ (((List.range 128).find? (fun n => !s.teams.any (fun t => t.2.place == at_ n))).getD 0)

/-- A program of one instruction loaded from outside: the machine runs, a context holds a team of one gang whose code page is
mapped and holds the words, and the gang issues next (assumption 23). -/
def placeWord (s : State) (nbits w : Nat) : State :=
  let ws := tableWords nbits w
  let place := wordPlace s ws
  let tid := s.sched.nextId
  let wid := tid + 1
  let t := { newTeam 0 0 wordRecord place with weave := wid, started := true }
  let t := { t with gangs := [(0, newGang t 0 (tid + 2) 0)] }
  let ent : TlbEnt := { ctx := 0, lv := 1, pn := codeBase / 12288, leaf := .normal codeBase 1 true true }
  let k := LineKey.dev (codeBase / 192)
  let s := s.modCore place.core (fun c => { c with tlb := ent :: c.tlb })
  let s := s.modMem (fun m => { m with
    dram := memPutBytes m.dram codeBase (ws.flatMap (fun q => leBytes 8 q.toNat))
    eccBad := m.eccBad.filter (fun n => decide (n < codeBase / 48 ∨ codeBase / 48 + 2 ≤ n))
    l2 := l2Del k m.l2 })
  { s with
    sys := { s.sys with state := 0, start := none }
    ctxs := if (s.ctx? 0).isSome then s.ctxs else mapPut 0 {} s.ctxs
    teams := mapPut tid t s.teams
    weaves := mapPut wid { ctx := 0, launch := 0, w := 1, h := 1, x0 := 0, y0 := 0, teams := [tid] } s.weaves
    sched := { s.sched with nextId := tid + 3, agenda := .issue tid 0 0 :: s.sched.agenda } }

end Sys2Proof.Machine
end

