-- ==== Sys2Proof/Machine/Step.lean ====
section
/-! DEFINITION. One step of the machine: the next turn, and the meaning of the instruction that it comes to. -/

namespace Sys2Proof.Machine

/-- One step (assumption 4). -/
def step (s : State) : Host.Outcome State Fault Refusal :=
  match choose s with
  | .run i s => exec i s
  | .done s => .next s

/-- The state with one instruction, given by its bits, stored where the next step fetches it. -/
def State.withFetchWord (s : State) (nbits w : Nat) : State := placeWord s nbits w

end Sys2Proof.Machine
end

