-- ==== Sys2Proof/Safety.lean ====
section
/-! DEFINITION. The terms that the statements use: a fragment that issues and finds its registers ready, what a slice
instruction does to its gang and leaves alone, canonical memories, and a step that goes on. -/

namespace Sys2Proof.Machine

/-! ### Safe steps and canonical memories -/

/-- The machine goes on: every outcome but a stop. -/
def goesOn (o : Out) : Bool := match o with | .next _ => true | _ => false

/-- The memory behind the cores, and each team's scratchpad and accumulators, are canonical: addresses strictly rising and no
entry 0. -/
def State.memoriesWf (s : State) : Bool :=
  Memory.wf s.mem.dram && Memory.wf s.mem.host
    && s.teams.all (fun t => Memory.wf t.2.spad && t.2.accs.all (fun a => Memory.wf a.2))

/-- One byte of a memory of the machine, named by where it lies. -/
inductive BytePlace where
  | dram (a : Nat)
  | host (a : Nat)
  | spad (team off : Nat)
  | acc (team acc off : Nat)

def State.byteAt (s : State) : BytePlace → Byte
  | .dram a => memGet s.mem.dram a
  | .host a => memGet s.mem.host a
  | .spad t off => match s.team t with | some x => memGet x.spad off | none => 0
  | .acc t n off => match s.team t with | some x => memGet (mapGetD [] n x.accs) off | none => 0

/-! ### The issuing fragment -/

/-- `i` is the fragment that issues (R183), and its gang is not in run-ahead (R117). -/
abbrev Issues (s : State) (i : Iss) : Prop := s.iss = some i ∧ i.gang.ra = none

/-- Every register read is FULL with good parity (R196, R200), and no register written is EMPTY (R197). -/
abbrev Ready (g : Gang) (ns : List Need) (ds : List RegRef) : Prop :=
  (∀ n ∈ ns, (g.reg n.ref).fe = .full ∧ (g.reg n.ref).bad = false) ∧ ∀ r ∈ ds, (g.reg r).fe ≠ .empty

/-- The operands' values for a fibre. -/
def valuesOf (i : Iss) (ops : List Opnd) (f : Nat) : List Quad :=
  ops.map (fun o => (opndVal i.team.S i.gang o f).getD 0)

/-- The fragments of a gang once the one that issued has advanced by some words: parked and merged as R185 to R188 say. -/
def advanced (g : Gang) (lead words : Nat) (fs : List Frag) : List Frag :=
  let fs := fs.map (fun (x : Frag) =>
    if x.mask.getLsbD lead then x.next words else x)
  if g.handler.isSome || g.entry.isSome then fs else settleFrags g.liveFibres 130 fs

/-! ### Slice instructions -/

/-- What a slice instruction reads and computes for each fibre (R190, R246). -/
structure Slice where
  p : Pred
  d : Dst
  wide : Bool
  needs : Iss → Nat → List Need
  lane : Iss → Nat → Lane
  words : Nat
  /-- The predicate written beside the destination (SHFL, R294). -/
  pd : Option (BitVec 3) := none

namespace Slice

/-- The fibres that it computes for: one for a scalar destination (R192, R246). -/
def lanes (x : Slice) (i : Iss) : List Nat := if x.d.isScalar then (active i x.p).take 1 else active i x.p

/-- The registers that its destination names for a fibre. -/
def dsts (x : Slice) (i : Iss) (f : Nat) : List RegRef := dstRegs i.team.S i.gang x.d (if x.wide then 2 else 1) f

/-- R197 lets it go on. -/
abbrev Go (x : Slice) (i : Iss) : Prop :=
  Ready i.gang ((x.lanes i).flatMap (x.needs i)) ((x.lanes i).flatMap (x.dsts i))

/-- A destination register holds the result, FULL; a destination predicate the result's truth. -/
def Written (x : Slice) (i : Iss) (g : Gang) (f : Nat) : Prop :=
  match x.d with
  | .pred n => n = 7 ∨ g.predBit f n.toNat = ((x.lane i f).val != 0)
  | .file _ => True
  | _ => (x.dsts i f).map g.reg =
      if x.wide then [{ val := loWord (x.lane i f).val }, { val := hiWord (x.lane i f).val }]
      else [{ val := loWord (x.lane i f).val }]

/-- Does it write predicate n of a fibre? -/
def writesPred (x : Slice) (i : Iss) (f n : Nat) : Bool :=
  (x.lanes i).contains f
    && ((match x.d with | .pred k => k.toNat == n | _ => false) || (match x.pd with | some k => k.toNat == n | none => false))

/-- What it does: only the gang of its fragment changes, and of that its destinations, predicates, flags and fragments. -/
def Effect (x : Slice) (s t : State) (i : Iss) : Prop :=
  ∃ F : Gang → Gang, t = s.modGang i.tid i.gid F ∧
    (∀ f ∈ x.lanes i, x.Written i (F i.gang) f) ∧
    (∀ n, x.pd = some n → n ≠ 7 → ∀ f ∈ x.lanes i, (F i.gang).predBit f n.toNat = (x.lane i f).ok) ∧
    (∀ r, (∀ f ∈ x.lanes i, r ∉ x.dsts i f) → (F i.gang).reg r = i.gang.reg r) ∧
    (∀ f n, x.writesPred i f n = false → (F i.gang).predBit f n = i.gang.predBit f n) ∧
    (∀ f, { (F i.gang).fib f with regs := [], preds := 0 } = { i.gang.fib f with regs := [], preds := 0 }) ∧
    (F i.gang).gstat = i.gang.gstat ||| (((x.lanes i).foldl (fun w f => w ||| (x.lane i f).flags) 0) &&& 0xFF) ∧
    (F i.gang).frags = advanced (F i.gang) s.sched.cur.lead x.words i.gang.frags ∧
    { F i.gang with sregs := [], fibres := [], gstat := 0, frags := [] }
      = { i.gang with sregs := [], fibres := [], gstat := 0, frags := [] }

end Slice

/-- A slice instruction over operands that each fibre reads for itself. -/
def Slice.ofOps (p : Pred) (d : Dst) (wide : Bool) (ops : List Opnd) (f : List Quad → Lane) : Slice :=
  { p, d, wide, needs := fun i => needsOf i.team.S i.gang ops, lane := fun i n => f (valuesOf i ops n)
    words := wordsOf (ops.map (·.src)) }

def Slice.of1 (p : Pred) (d : Dst) (wide : Bool) (a : Opnd) (f : Quad → Lane) : Slice :=
  .ofOps p d wide [a] (fun l => match l with | [x] => f x | _ => {})
def Slice.of2 (p : Pred) (d : Dst) (wide : Bool) (a b : Opnd) (f : Quad → Quad → Lane) : Slice :=
  .ofOps p d wide [a, b] (fun l => match l with | [x, y] => f x y | _ => {})
def Slice.of3 (p : Pred) (d : Dst) (wide : Bool) (a b c : Opnd) (f : Quad → Quad → Quad → Lane) : Slice :=
  .ofOps p d wide [a, b, c] (fun l => match l with | [x, y, z] => f x y z | _ => {})
/-- A predicate instruction over predicate fields (R278, R297). -/
def Slice.ofPreds (p : Pred) (d : Dst) (fs : List Pred) (f : List Bool → Bool) : Slice :=
  { p, d, wide := false, needs := fun _ _ => [], words := 1
    lane := fun i n => { val := boolQ (f (fs.map (fun q => i.gang.predVal n q))) } }

/-! ### Results of the slice instructions, as their rules write them -/

/-- `zext` or `sext` of the low w bits (R8, R300). -/
def extBits (u : Bool) (w : Nat) (x : Quad) : Int := if u then ((x.setWidth w).toNat : Int) else (x.setWidth w).toInt

/-- x mod 2^w, in the low bits of the value (R300). -/
def modulo (w : Nat) (x : Int) : Lane := { val := (BitVec.ofInt w x).setWidth 64 }

/-- The result of the arithmetic group: saturated to i32, or to n32 when `u` = 1, if `sat` = 1; then modulo 2^w (R300). -/
def arithResult (m : IntMod) (x : Int) : Lane :=
  let lo : Int := if m.u then 0 else -2 ^ 31
  let hi : Int := if m.u then 2 ^ 32 - 1 else 2 ^ 31 - 1
  modulo (if m.q then 64 else 32) (if m.sat then max lo (min hi x) else x)

/-- The arithmetic group (R300). -/
def arithSlice (i : Instr) : Option Slice :=
  let ext := fun (m : IntMod) => extBits m.u (if m.q then 64 else 32)
  match i with
  | .iadd p d a b m => some (.of2 p d false (opA a) (opB b) (fun x y => arithResult m (ext m x + ext m y)))
  | .isub p d a b m => some (.of2 p d false (opA a) (opB b) (fun x y => arithResult m (ext m x - ext m y)))
  | .imul p d a b => some (.of2 p d false (opA a) (opB b) (fun x y => modulo 32 (extBits false 32 x * extBits false 32 y)))
  | .imulh p d a b m =>
      some (.of2 p d false (opA a) (opB b) (fun x y => modulo 32 (extBits m.u 32 x * extBits m.u 32 y / 2 ^ 32)))
  | .imin p d a b m => some (.of2 p d m.q (opA a m.q) (opB b m.q) (fun x y => arithResult m (min (ext m x) (ext m y))))
  | .imax p d a b m => some (.of2 p d m.q (opA a m.q) (opB b m.q) (fun x y => arithResult m (max (ext m x) (ext m y))))
  | .iabs p d a m => some (.of1 p d false (opA a) (fun x => arithResult m |extBits false 32 x|))
  | .ineg p d a m => some (.of1 p d false (opA a) (fun x => arithResult m (-extBits false 32 x)))
  | _ => none

/-- n as a value. -/
def number (n : Nat) : Lane := { val := BitVec.ofNat 64 n }
/-- Number of 1 bits of a[w-1:0] (R301). -/
def oneBits (w : Nat) (x : Quad) : Nat := ((List.range w).map (fun i => if x.getLsbD i then 1 else 0)).sum
/-- a[w-1:0] with its bits in the other order (R301). -/
def reversed (w : Nat) (x : Quad) : Nat := ((List.range w).map (fun i => if x.getLsbD (w - 1 - i) then 2 ^ i else 0)).sum

/-- The bitwise, shift and counting instructions (R301). -/
def bitsSlice (i : Instr) : Option Slice :=
  let w := fun (m : IntMod) => if m.q then 64 else 32
  let zext := fun (m : IntMod) (x : Quad) => x.toNat % 2 ^ w m
  let cnt := fun (y : Quad) => y.toNat % 2 ^ 32
  match i with
  | .and p d a b m => some (.of2 p d m.q (opA a m.q) (opB b m.q) (fun x y => number (zext m (x &&& y))))
  | .or p d a b m => some (.of2 p d m.q (opA a m.q) (opB b m.q) (fun x y => number (zext m (x ||| y))))
  | .xor p d a b m => some (.of2 p d m.q (opA a m.q) (opB b m.q) (fun x y => number (zext m (x ^^^ y))))
  | .andn p d a b m => some (.of2 p d m.q (opA a m.q) (opB b m.q) (fun x y => number (zext m (x &&& ~~~y))))
  | .not p d a m => some (.of1 p d m.q (opA a m.q) (fun x => number (zext m (~~~x))))
  | .shl p d a b m =>
      some (.of2 p d m.q (opA a m.q) (opB b) (fun x y => number (zext m x * 2 ^ cnt y % 2 ^ w m)))
  | .shr p d a b m => some (.of2 p d m.q (opA a m.q) (opB b) (fun x y => number (zext m x / 2 ^ cnt y)))
  | .sar p d a b m =>
      some (.of2 p d m.q (opA a m.q) (opB b) (fun x y => modulo (w m) (extBits false (w m) x / (2 ^ cnt y : Nat))))
  | .rot p d a b m => some (.of2 p d m.q (opA a m.q) (opB b) (fun x y =>
      let n := cnt y % w m
      number ((zext m x * 2 ^ n + zext m x / 2 ^ (w m - n)) % 2 ^ w m)))
  | .popc p d a m => some (.of1 p d false (opA a m.q) (fun x => number (oneBits (w m) x)))
  | .clz p d a m => some (.of1 p d false (opA a m.q) (fun x =>
      number (if zext m x = 0 then w m else w m - 1 - Nat.log2 (zext m x))))
  | .brev p d a m => some (.of1 p d m.q (opA a m.q) (fun x => number (reversed (w m) x)))
  | _ => none

/-- |a[8i+7:8i] - b[8i+7:8i]| (R302). -/
def byteGap (x y : Quad) (i : Nat) : Nat := (Int.natAbs ((bitsOf x (8 * i + 7) (8 * i) : Int) - bitsOf y (8 * i + 7) (8 * i)))

/-- The three-source instructions (R302) and the field instructions (R303). -/
def wideSlice (i : Instr) : Option Slice :=
  match i with
  | .imad p d a b c =>
      some (.of3 p d false (opA a) (opB b) (opC c) (fun x y z => number ((x.toNat * y.toNat + z.toNat) % 2 ^ 32)))
  | .imadw p d a b m =>
      some (.of3 p d true (opA a) (opB b) (opD d true) (fun x y D =>
        modulo 64 (D.toNat + extBits m.u 32 x * extBits m.u 32 y)))
  | .isad p d a b c => some (.of3 p d false (opA a) (opB b) (opC c) (fun x y z =>
      number ((z.toNat + ((List.range 4).map (byteGap x y)).sum) % 2 ^ 32)))
  | .funnel p d a b c => some (.of3 p d false (opA a) (opB b) (opC c) (fun x y z =>
      number ((y.toNat % 2 ^ 32 * 2 ^ 32 + x.toNat % 2 ^ 32) / 2 ^ (z.toNat % 32) % 2 ^ 32)))
  | .bfe p d a b m => some (.of2 p d false (opA a) (opB b) (fun x y =>
      let pos := bitsOf y 4 0
      let len := min (bitsOf y 13 8) 32
      let f := extBits m.u 32 x / (2 ^ pos : Nat) % (2 ^ len : Nat)
      modulo 32 (if m.u ∨ len = 0 ∨ f < (2 ^ (len - 1) : Nat) then f else f - (2 ^ len : Nat))))
  | .bfi p d a b c => some (.of3 p d false (opA a) (opB b) (opC c) (fun x y z =>
      let pos := bitsOf y 4 0
      let len := min (bitsOf y 13 8) 32
      let m : Word := BitVec.ofNat 32 ((2 ^ len - 1) * 2 ^ pos)
      { val := ((loWord z &&& ~~~m) ||| (BitVec.ofNat 32 (x.toNat * 2 ^ pos) &&& m)).setWidth 64 }))
  | _ => none

/-- Selection, moves, addresses and widths (R304-R306). -/
def moveSlice (i : Instr) : Option Slice :=
  match i with
  | .sel p d a b c q =>
      some { p, d, wide := q, words := wordsOf [a, b]
             needs := fun i => needsOf i.team.S i.gang [opA a q, opB b q]
             lane := fun i f =>
               { val := (opndVal i.team.S i.gang (if i.gang.predVal f c then opA a q else opB b q) f).getD 0 } }
  | .mov p d a m => some (.of1 p d m.q (opA a m.q) (fun x => { val := x }))
  | .movi p d a b => some (.of2 p d true (opA a) (opB b) (fun x y => { val := loWord y ++ loWord x }))
  | .lea p d a b sh u =>
      some (.of2 p d true (opA a true) (opB b) (fun x y => modulo 64 (x.toNat + extBits u 32 y * (2 ^ sh.toNat : Nat))))
  | .iadd64 p d a b sub => some (.of2 p d true (opA a true) (opB b true) (fun x y => { val := if sub then x - y else x + y }))
  | .cvtw p d a m =>
      some (.of1 p d m.dw (opA a (m.sw == 3)) (fun x =>
        let X := extBits m.su (8 * 2 ^ m.sw.toNat) x
        let w := if m.dw then 64 else 32
        let lo : Int := if m.du then 0 else -(2 ^ (w - 1) : Nat)
        let hi : Int := if m.du then (2 ^ w : Nat) - 1 else (2 ^ (w - 1) : Nat) - 1
        if m.sat ∧ (X < lo ∨ hi < X) then { modulo w (max lo (min hi X)) with flags := 0x08 } else modulo w X))
  | _ => none

/-- Predicate instructions (R295-R298), PSET with a comparison that its type has. -/
def predSlice (i : Instr) : Option Slice :=
  match i with
  | .pset p d a b ty c =>
      if CmpTy.isInt ty && (c == .num || c == .nan) then none
      else some (.of2 p d false (opA a ty.wide (CmpTy.oty ty)) (opB b ty.wide (CmpTy.oty ty)) (psetLane ty c))
  | .pand p d a b => some (.ofPreds p d [a, b] (fun l => l.all id))
  | .por p d a b => some (.ofPreds p d [a, b] (fun l => l.any id))
  | .pxor p d a b => some (.ofPreds p d [a, b] (fun l => l.foldl (· != ·) false))
  | .pnot p d a => some (.ofPreds p d [a] (fun l => !l.all id))
  | .pmov p (.move d a) => some (.ofPreds p d [a] (fun l => l.all id))
  | .pmov p (.pack d) =>
      some { p, d, wide := false, needs := fun _ _ => [], words := 1
             lane := fun i f => number (((List.range 8).map (fun n => if i.gang.predBit f n then 2 ^ n else 0)).sum) }
  | _ => none

/-- Instructions over the active fibres of the fragment together (R292-R294), SHFL with the permutation code 0. -/
def crossSlice (i : Instr) : Option Slice :=
  match i with
  | .vote p d a m =>
      some { p, d, wide := m == .ballot, words := wordsOf [a]
             needs := fun i f => if (active i p).head? = some f then (active i p).flatMap (needsOf i.team.S i.gang [opA a]) else []
             lane := fun i _ =>
               let t := fun f => (opndVal i.team.S i.gang (opA a) f).getD 0 != 0
               match m with
               | .any => { val := if (active i p).any t then 1 else 0 }
               | .all => { val := if (active i p).all t then 1 else 0 }
               | .ballot => { val := maskOf ((active i p).filter t) } }
  | .rfl p d a q =>
      some { p, d, wide := q, words := wordsOf [a]
             needs := fun i f => if (active i p).head? = some f then needsOf i.team.S i.gang [opA a q] f else []
             lane := fun i _ =>
               { val := (((active i p).head?).bind (opndVal i.team.S i.gang (opA a q))).getD 0 } }
  | _ => none

/-- f32, f16 and bf16 arithmetic (R310-R320). -/
def floatSlice (i : Instr) : Option Slice :=
  let one := fun (p : Pred) (d : Dst) (a : Src) (f : Quad → Lane) => some (Slice.of1 p d false (opA a false .f32) f)
  match i with
  | .fadd p d a b m => some (.of2 p d false (opA a false .f32) (opB b false .f32) (faddL m))
  | .fsub p d a b m => some (.of2 p d false (opA a false .f32) (opB b false .f32) (fsubL m))
  | .fmul p d a b m => some (.of2 p d false (opA a false .f32) (opB b false .f32) (fmulL m))
  | .ffma p d a b c => some (.of3 p d false (opA a false .f32) (opB b false .f32) (opC c false .f32) ffmaL)
  | .fmin p d a b np => some (.of2 p d false (opA a false .f32) (opB b false .f32) (fminmaxL false np))
  | .fmax p d a b np => some (.of2 p d false (opA a false .f32) (opB b false .f32) (fminmaxL true np))
  | .fclass p d a ty => some (.of1 p d false (opA a false (FTy.oty ty)) (fclassL (FTy.fmt ty)))
  | .frnd p d a r => one p d a (frndL r)
  | .ffrac p d a => one p d a ffracL
  | .frcp p d a => one p d a frcpL
  | .frsq p d a => one p d a frsqL
  | .fsqrt p d a => one p d a fsqrtL
  | .fexp2 p d a => one p d a fexp2L
  | .flog2 p d a => one p d a flog2L
  | .fsin p d a => one p d a fsinL
  | .fcos p d a => one p d a fcosL
  | .ftanh p d a => one p d a ftanhL
  | .hadd2 p d a b m => some (.of2 p d false (opA a false .f16) (opB b false .f16) (add2L .f16 m))
  | .hmul2 p d a b m => some (.of2 p d false (opA a false .f16) (opB b false .f16) (mul2L .f16 m))
  | .hfma2 p d a b c => some (.of3 p d false (opA a false .f16) (opB b false .f16) (opC c false .f16) (fma2L .f16))
  | .badd2 p d a b m => some (.of2 p d false (opA a false .bf16) (opB b false .bf16) (add2L .bf16 m))
  | .bfma2 p d a b c => some (.of3 p d false (opA a false .bf16) (opB b false .bf16) (opC c false .bf16) (fma2L .bf16))
  | _ => none

/-- Conversions, dot products, scaling and the random sequence (R323-R331). -/
def narrowSlice (i : Instr) : Option Slice :=
  match i with
  | .cvti p d a m =>
      some (.of1 p d (!m.toFloat && m.it.wide) (if m.toFloat then opA a m.it.wide else opA a false (FTy.oty m.ft)) (cvtiL m))
  | .dp4i8 p d a b au bu => some (.of3 p d false (opA a) (opB b) (opD d) (dp4i8L au bu))
  | .dp8q4 p d a b => some (.of3 p d false (opA a) (opB b) (opD d) dp8q4L)
  | .dp4f8 p d a b ae be => some (.of3 p d false (opA a) (opB b) (opD d) (dp4f8L ae be))
  | .dp2f16 p d a b bf =>
      some (.of3 p d false (opA a) (opB b) (opD d) (dp2f16L bf))
  | .scale p d a b sf m => some (.of2 p d false (opA a false .f32) (opB b) (scaleL sf m))
  | .rng p d a =>
      some { p, d, wide := false, words := wordsOf [a], needs := fun i => needsOf i.team.S i.gang [opA a]
             lane := fun i f =>
               { val := rword i.team.rseed (i.gang.fib f).pidx.toNat (((opndVal i.team.S i.gang (opA a) f).getD 0).toNat % 2 ^ 32) } }
  | .srnd p d a b di sat f => some (.of3 p d false (opA a false .f32) (opB b) (opD d) (srndL (SrndFmt.fmt f) di.toNat sat))
  | _ => none

/-- Every instruction that computes a value for each active fibre from the fibres' registers. -/
def sliceForm (i : Instr) : Option Slice :=
  (arithSlice i).orElse fun _ => (bitsSlice i).orElse fun _ => (wideSlice i).orElse fun _ => (moveSlice i).orElse fun _ =>
    (predSlice i).orElse fun _ => (floatSlice i).orElse fun _ => narrowSlice i

/-- An instruction runs as a slice instruction: wherever its fragment issues outside run-ahead and its registers are ready, it
goes on to a next state with that effect and no other. -/
def RunsAs (i : Instr) (x : Slice) : Prop :=
  ∀ s iss, Issues s iss → x.Go iss → ∃ t, exec i s = .next t ∧ x.Effect s t iss

/-! ### Fragments -/

/-- Only the fragments of the issuing fragment's gang change: they become `pre`, parked and merged as R185 to R188 say. -/
def FragsBecome (s t : State) (i : Iss) (pre : List Frag) : Prop :=
  ∃ F : Gang → Gang, t = s.modGang i.tid i.gid F ∧ { F i.gang with frags := [] } = { i.gang with frags := [] } ∧
    (F i.gang).frags = if i.gang.handler.isSome || i.gang.entry.isSome then pre else settleFrags i.gang.liveFibres 130 pre

/-- The gang's fragments with the issuing fragment n words on. -/
def stepped (s : State) (i : Iss) (n : Nat) : List Frag :=
  i.gang.frags.map (fun (x : Frag) =>
    if x.mask.getLsbD s.sched.cur.lead then x.next n else x)

/-- Every fibre of the issuing fragment goes to its address, and the fragments that hold them keep its stack; the gang's other
fragments stay (R184). -/
def Sends (s : State) (i : Iss) (dest : Nat → Quad) (pre : List Frag) : Prop :=
  (∀ f ∈ i.frag.fibres, ∃ x ∈ pre, f ∈ x.fibres ∧ x.pc = dest f) ∧
  (∀ x ∈ pre, (x ∈ i.gang.frags ∧ x.mask.getLsbD s.sched.cur.lead = false) ∨
    (x.stack = i.frag.stack ∧ ∀ f ∈ x.fibres, f ∈ i.frag.fibres ∧ x.pc = dest f)) ∧
  (∀ x ∈ i.gang.frags, x.mask.getLsbD s.sched.cur.lead = false → x ∈ pre)

/-- R197 stops nothing: the registers of an operand list are ready for a fibre. -/
abbrev OpsReady (i : Iss) (ops : List Opnd) (fs : List Nat) (ds : List RegRef) : Prop :=
  Ready i.gang (fs.flatMap (needsOf i.team.S i.gang ops)) ds

/-- The value of a scalar 64-bit target or mask as the lowest active fibre reads it. -/
def valueOf (i : Iss) (o : Opnd) (f : Nat) : Quad := (opndVal i.team.S i.gang o f).getD 0

/-- A gang differs from another in registers, predicates and flags at most. -/
def OnlyLanes (g h : Gang) : Prop :=
  { h with sregs := [], fibres := [], gstat := 0 } = { g with sregs := [], fibres := [], gstat := 0 } ∧
    ∀ f, { h.fib f with regs := [], preds := 0 } = { g.fib f with regs := [], preds := 0 }

/-! ### Instructions that reach memory or another agent -/

/-- The gang of the issuing fragment once its instruction has gone on: the listed registers hold what is listed; its other
registers, its fibres' predicates, windows and marks, its flags, trap registers and rights are as they were, but for what `h`
says of the gang and `b` of its fibres; the fragment has advanced; no other gang has changed. -/
def GangAfter (s t : State) (i : Iss) (words : Nat) (ds : List (RegRef × Reg)) (h : Gang → Gang := id)
    (b : Nat → Fibre → Fibre := fun _ x => x) : Prop :=
  ∃ g, t.gang i.tid i.gid = some g ∧ (∀ e ∈ ds, g.reg e.1 = e.2) ∧ (∀ r, r ∉ ds.map (·.1) → g.reg r = i.gang.reg r) ∧
    (∀ f, { g.fib f with regs := [] } = { b f (i.gang.fib f) with regs := [] }) ∧
    g.frags = advanced g s.sched.cur.lead words i.gang.frags ∧
    { g with sregs := [], fibres := [], frags := [], genTouches := [] }
      = { h i.gang with sregs := [], fibres := [], frags := [], genTouches := [] } ∧
    ∀ u v, (u, v) ≠ (i.tid, i.gid) → t.gang u v = s.gang u v

/-- Registers as they are, but EMPTY. -/
def emptied (g : Gang) (ds : List RegRef) : List (RegRef × Reg) := ds.map (fun r => (r, { g.reg r with fe := .empty }))

/-- Every byte of memory is as it was. -/
def SameBytes (s t : State) : Prop := ∀ x, t.byteAt x = s.byteAt x

/-- No scratchpad word holds an error that ECC cannot correct, nor does a sector of memory or of L2 (R489). -/
abbrev State.spadsSound (s : State) : Prop := ∀ e ∈ s.teams, e.2.spadBad = []
abbrev State.eccSound (s : State) : Prop := s.mem.eccBad = [] ∧ s.mem.eccL2 = []

/-- A line that its home holds already, or that finds a free way there (R64): no other line has to leave for it. -/
abbrev WayFree (s : State) (k : LineKey) : Prop :=
  (s.line k).isSome = true ∨ ((setLines s k).length < 16 ∧ fillBound s k (setLines s k) = false)

/-- Every byte of a run of a line has a definite value (R75, R123). -/
abbrev Definite (s : State) (k : LineKey) (off n : Nat) : Prop := ∀ j < n, openAt s k (off + j) = false

/-- What a held instruction of a unit leaves once it issues (R93): the results that its unit has kept. -/
def heldEffect (s : State) (i : Iss) (x : PendSample) : State :=
  let s := s.modPend (fun p => { p with samples := p.samples.filter (fun y => y.id != x.id) })
  let s := x.outs.foldl (fun s o => writeRegs s x o.1 o.2.1 o.2.2) s
  let s := addOvf (s.modGang i.tid i.gid (fun g => g.setFlags x.outFlags)) x.ctx x.outOvf
  if x.held then sampleErrors s x else s

/-- A fibre's access by its operands (R334). -/
def accessOf (i : Iss) (f : Form) (a b : Src) (n : Nat) : Acc :=
  let g := addrOf f (valueOf i (opA a (f == .pair)) n) (valueOf i (opB b) n)
  ⟨n, g.1, g.2⟩

/-- R17: the selector and the reserved fields. -/
def Canonical (g : Quad) : Prop :=
  let a := g.toNat
  (a / 2 ^ 60 = 0 ∧ a < 0x0003000000000000) ∨ (a / 2 ^ 60 = 1 ∧ a % 2 ^ 60 < 2 ^ 20) ∨
    (a / 2 ^ 60 = 2 ∧ a % 2 ^ 60 < 2 ^ 56 ∧ a % 2 ^ 52 < 2 ^ 20) ∨ (a / 2 ^ 60 = 3 ∧ a % 2 ^ 60 < 2 ^ 16) ∨
    (a / 2 ^ 60 = 4 ∧ a % 2 ^ 60 < 2 ^ 24)

/-- R19 for the access kinds of instructions. -/
def Accepted (k : AK) (g : Quad) : Prop :=
  match g.toNat / 2 ^ 60 with
  | 0 => True
  | 1 | 2 => k ≠ .atomsc
  | 3 => k = .load ∨ k = .pref
  | _ => k = .load ∨ k = .store ∨ k = .pref

/-- R18 BOUND: n bytes lie inside the aperture that the address names. -/
def InBounds (s : State) (t : Team) (n : Nat) (g : Quad) : Prop :=
  let a := g.toNat
  match a / 2 ^ 60 with
  | 0 => True
  | 1 => a % 2 ^ 20 + n ≤ t.spsz
  | 2 =>
      let m := a / 2 ^ 52 % 16
      m < weaveCores s t ∧
        a % 2 ^ 20 + n ≤ (if t.place.isTwill ∨ m = t.member then t.spsz else ((memberTeam s t m).map (·.2.spsz)).getD 0)
  | 3 => a % 2 ^ 24 + n ≤ windowSize t
  | _ => a % 2 ^ 24 + n ≤ t.pstride

/-- The precise traps of an instruction's accesses: an order that it does not accept is an illegal operand (R138); else the lowest fibre
whose access fails a check traps with its cause and its address, and nothing else happens (R20). -/
def AccessTraps (ins : Instr) (s : State) (i : Iss) (legal : Bool) (f : Nat) (l : List (Acc × AccAns)) : Prop :=
  (legal = false → exec ins s = .next (takeTrap s i.tid i.gid i.frag (illopnd 5 f) false)) ∧
  (legal = true → missing l = [] → ∀ x c, l.find? (fun e => match e.2 with | .cause _ => true | _ => false) = some (x, .cause c) →
    exec ins s = .next (takeTrap s i.tid i.gid i.frag { cause := c, fib := x.fib, addr := x.ga } false))

/-- No stash line holds back an access of the issuing instruction at its scratchpad targets (R53). -/
abbrev SpadsNow (s : State) (i : Iss) (ts : List Target) : Prop :=
  ∀ u o, Target.spad u o ∈ ts → spadStands s u o (.instr i.tid i.gid i.frag.pc) = .now

/-- Scratchpad bytes under some writes of n bytes, a later write over an earlier one (R42). -/
def spadUnder (s : State) (n : Nat) (ws : List (Target × Quad)) (u o : Nat) : Byte :=
  match ws.reverse.find? (fun w => match w.1 with | .spad v p => v == u && decide (p ≤ o ∧ o < p + n) | _ => false) with
  | some (.spad _ p, v) => (leBytes n v.toNat).getD (o - p) 0
  | _ => s.byteAt (.spad u o)

/-- An atomic access as its instruction gives it (R341-R344, R351, R397). -/
structure AtomForm where
  p : Pred
  d : Option Dst := none
  wide : Bool := false
  kind : AK := .atom
  addr : Opnd
  ops : List Opnd
  val : Iss → Nat → Quad
  cmp : Iss → Nat → Quad := fun _ _ => 0
  act : AtomDo
  al : Nat
  rel : Option Nat
  acq : Option Nat := none
  words : Nat
  legal : Bool
  /-- The lowest active fibre alone makes the access (R397). -/
  single : Bool := false

/-- The type that an inline constant takes in an atomic operand (R251). -/
def atomTy : ATy → OTy | .f32 => .f32 | .f16x2 => .f16 | .bf16x2 => .bf16 | _ => .int

def atomForm : Instr → Option AtomForm
  | .atom p d a b m =>
      some { p, d := some d, wide := m.ty.wide, addr := opA a true
             ops := [opA a true, opB b m.ty.wide (atomTy m.ty)] ++ (if m.op = .cas then [opD d m.ty.wide] else [])
             val := fun i => valueOf i (opB b m.ty.wide (atomTy m.ty)), cmp := fun i => valueOf i (opD d m.ty.wide)
             act := .op m.op m.ty, al := ATy.bytes m.ty, rel := relOf m.ord m.sco, acq := acqOf m.ord m.sco
             words := wordsOf [a, b], legal := orderOk [1, 2, 3] m.ord m.sco }
  | .atomsc p d a b op ty =>
      some { p, d := some d, wide := ty.wide, kind := .atomsc, addr := opA a true
             ops := [opA a true, opB b ty.wide (atomTy ty)] ++ (if op = .cas then [opD d ty.wide] else [])
             val := fun i => valueOf i (opB b ty.wide (atomTy ty)), cmp := fun i => valueOf i (opD d ty.wide)
             act := .op op ty, al := ATy.bytes ty, rel := some 3, acq := some 3, words := wordsOf [a, b], legal := true }
  | .red p a b m =>
      some { p, wide := m.ty.wide, addr := opA a true, ops := [opA a true, opB b m.ty.wide (atomTy m.ty)]
             val := fun i => valueOf i (opB b m.ty.wide (atomTy m.ty)), act := .op m.op m.ty, al := ATy.bytes m.ty
             rel := relOf m.ord m.sco, words := wordsOf [a, b], legal := orderOk [2] m.ord m.sco }
  | .boinit p a b ord sco =>
      some { p, addr := opA a true, ops := [opA a true, opB b], val := fun i => valueOf i (opB b), act := .boInit, al := 16
             rel := relOf ord sco, words := wordsOf [a, b], legal := orderOk [2] ord sco }
  | .boarr p a b ord sco e =>
      some { p, addr := opA a true, ops := [opA a true, opB b], val := fun i => valueOf i (opB b), act := .boArr e, al := 16
             rel := relOf ord sco, words := wordsOf [a, b], legal := orderOk [2] ord sco }
  | .semsig p a b sco =>
      some { p, addr := opA a true, ops := [opA a true, opB b], val := fun i => valueOf i (opB b), act := .sem, al := 8
             rel := some sco.toNat, words := wordsOf [a, b], legal := decide (sco.toNat < 5), single := true }
  | _ => none

namespace AtomForm

/-- Fibres that make the access. -/
def fibres (x : AtomForm) (i : Iss) : List Nat :=
  match x.d with
  | some d => accFibs (active i x.p) d
  | none => if x.single then (active i x.p).take 1 else active i x.p
/-- Fibres whose operands are judged (R197). -/
def readers (x : AtomForm) (i : Iss) : List Nat := match x.d with | some d => accFibs (active i x.p) d | none => active i x.p
def dsts (x : AtomForm) (i : Iss) : List RegRef :=
  match x.d with
  | some d => (x.fibres i).flatMap (dstRegs i.team.S i.gang d (if x.wide then 2 else 1))
  | none => []
def accs (x : AtomForm) (i : Iss) : List Acc := (x.fibres i).map (fun f => { fib := f, ga := valueOf i x.addr f })
/-- The parts of the request for a word, before it is performed. -/
def parts (x : AtomForm) (i : Iss) (l : List Acc) : List AtomPart :=
  l.map (fun a => { fib := a.fib, pos := (x.d.map (fun d => dstPos i d a.fib)).getD 0, ga := a.ga, val := x.val i a.fib, cmp := x.cmp i a.fib })

end AtomForm

/-! ### What the register states decide -/

/-- The issuing fragment goes on waiting, past its instruction's checks (R481). -/
def State.waiting (s : State) : State := s.modFrag (fun f => if f.wait = .none then { f with wait := .settle } else f)

/-- Source and destination lengths of PACK or UNPACK for a slot word (R325); one register stands for what an illegal slot leaves open. -/
def packRuns (w : Word) (e : Elem) (unpack : Bool) : Nat × Nat :=
  let n := slotBlock w * e.width / 32 + 1
  if unpack then (n, slotBlock w) else (slotBlock w, n)
def packReads (w : Word) (unpack : Bool) : Nat × Nat :=
  match packElem w unpack with
  | some e => packRuns w e unpack
  | none => if unpack then (1, slotBlock w) else (slotBlock w, 1)

/-- The registers that R197 judges for an instruction that is no slice instruction: those that it reads, and those that it writes. -/
def gateOf (i : Iss) (ins : Instr) : Option (List Need × List RegRef) :=
  let S := i.team.S
  let needs := fun (fs : List Nat) (ops : List Opnd) => fs.flatMap (needsOf S i.gang ops)
  let load := fun (p : Pred) (d : Dst) (a b : Src) (m : MemMod) (f : Form) =>
    let fs := accFibs (active i p) d
    some (needs fs (addrOps f a b), fs.flatMap (dstRegs S i.gang d (if m.quad then 2 else 1)))
  let each := fun (p : Pred) (ops : List Opnd) (ds : List RegRef) =>
    some (needs (active i p) ops, if (active i p).isEmpty then [] else ds)
  let run := fun (p : Pred) (r k : BitVec 6) (c : BitVec 5) (ea : Bool) (slot : BitVec 3) (un : Bool) =>
    let q := packReads (i.team.slot slot.toNat) un
    some ((active i p).flatMap (fun f => (runOf S i.gang (.vec k c ea) (min q.1 (64 - k.toNat)) f).map (fun x => (⟨f, 0, ea, x⟩ : Need))),
      (active i p).flatMap (dstRegs S i.gang (.vec r) (min q.2 (64 - r.toNat))))
  match ins with
  | .ld p d a b m => load p d a b m .pair
  | .lds p d a b m => load p d a b m (if m.w then .weave else .spad)
  | .ldc p d a b m => load p d a b m .window
  | .st p d a b m => each p (addrOps .pair a b ++ [opD d m.quad]) []
  | .sts p d a b m => each p (addrOps (if m.w then .weave else .spad) a b ++ [opD d m.quad]) []
  | .pref p a b _ => each p (addrOps .pair a b) []
  | .bowait p _ a _ => each p [opA a true] []
  | .semwait p a b _ => each p [opA a true, opB b true] []
  | .jmps p a | .calls p a _ | .ret p a _ => each p [opA a true] []
  | .fork p (.scal r) a _ => each p [opA a true] [.s r.toNat, .s (r.toNat + 1)]
  | .pmov p (.unpack a) => each p [opA a] []
  | .pack p (.vec r) (.vec k c ea) slot => run p r k c ea slot false
  | .unpack p (.vec r) (.vec k c ea) slot => run p r k c ea slot true
  | .swr p n a => each p [opA a (specialWidth n.toNat == some 64)] []
  | .stashmap p a b _ => each p [opA a true, opB b true] []
  | .stashwb p _ x y | .stashinv p _ x y => each p [opB x, opC y] []
  | .tileq p (.deff x y) => each p [opA x, opB y] []
  | .tileq p (.rel x y) => each p [opA x, opB y] []
  | .tilewait p _ x => each p [opA x] []
  | .procdone p x => each p [opA x] []
  | .procfail p x y => each p [opA x, opB y] []
  | .procreset p d x y _ => each p [opA x, opB y true] (scalarRegs d 1)
  | .launch p d x => each p [opA x true] (scalarRegs d 1)
  | .mbwait p d _ _ _ => each p [] (scalarRegs d 16)
  | .wunpin p a | .winv p a _ => each p [opA a true] []
  | .gangset p a | .cpygo p a => each p [opA a] []
  | .tlbinv p a b _ => if i.frag.wait = .none then each p [opA a true, opB b] [] else none
  | _ => (atomForm ins).map (fun x => (needs (x.readers i) x.ops, x.dsts i))

/-- R196, R197 for the registers that an instruction reads and writes: the first FAILED one of those read traps with its cause and code;
else the first EMPTY one whose source has the trap action; else an EMPTY one makes the instruction wait, with nothing changed. -/
def Gates (ins : Instr) (s : State) (i : Iss) (ns : List Need) (ds : List RegRef) : Prop :=
  let fe := fun (n : Need) => (i.gang.reg n.ref).fe
  (∀ n c k, ns.find? (fun n => (fe n).isFailed) = some n → fe n = .failed c k →
    exec ins s = .next (takeTrap s i.tid i.gid i.frag
      { cause := 0x0A, sub := 1, fib := n.fib, tcode := n.pos, addr := BitVec.ofNat 64 (c.toNat + 65536 * k.toNat) } false)) ∧
  (∀ n, (∀ m ∈ ns, (fe m).isFailed = false) → ns.find? (fun n => n.ea && fe n == .empty) = some n →
    exec ins s = .next (takeTrap s i.tid i.gid i.frag { cause := 0x0A, sub := 0, fib := n.fib, tcode := n.pos } false)) ∧
  ((∀ m ∈ ns, fe m = .full ∨ (fe m = .empty ∧ m.ea = false)) → ((∃ m ∈ ns, fe m = .empty) ∨ ∃ r ∈ ds, (i.gang.reg r).fe = .empty) →
    exec ins s = .next s)

/-- The registers of a window move's steps, as fibre and logical number, in the order of the steps (R194). -/
def windowRegs (g : Gang) (S : Nat) (fs : List Nat) (up : Bool) (k : Nat) : List (Nat × Nat) :=
  (moveSteps g S fs up k).flatMap (fun e => (List.range e.2.2).map (fun j => (e.1, e.2.1 + j)))

/-- No instruction of a fragment is held at issue by its unit (R93). -/
abbrev NoneHeld (s : State) (tid gid : Nat) (f : Frag) : Prop :=
  ∀ x ∈ s.pend.samples, x.held = true → x.team = tid → x.gang = gid → f.wait ≠ .cmd x.id

/-- Nothing that a REPACK has moved since an operation was issued (R436): its destinations lie where they lay. -/
abbrev Unmoved (s : State) (tid id : Nat) : Prop := ∀ t, s.team tid = some t → ∀ m ∈ t.moves, m.1 ≤ id

/-! ### Replies -/

/-- The registers that a reply writes. -/
def replyRegs (S : Nat) (d : Dst) (wide : Bool) (fib pos : Nat) : List RegRef :=
  (match d with
   | .vec _ => [RegRef.v fib pos, .v fib ((pos + 1) % S)]
   | .scal n => [RegRef.s n.toNat, .s (n.toNat + 1)]
   | _ => []).take (if wide then 2 else 1)

end Sys2Proof.Machine
end

