-- ==== Sys2Proof/Certificates/Slice0/Obligations.lean ====
section
/-! DEFINITION. The statements about the model. Each says, for every state and operands that meet its hypotheses, that the
instruction answers a next state, and what that state holds and leaves alone. -/

open Sys2Proof Sys2Proof.Machine

/-! ### Instructions that compute for each fibre -/

/-- R300: what IADD, ISUB, IMUL, IMULH, IMIN, IMAX, IABS and INEG write, and their frame. -/
def Obligations.ArithmeticGroupResultAndFrame : Prop :=
  ∀ i x, arithSlice i = some x → RunsAs i x

/-- R301: what AND, OR, XOR, ANDN, NOT, SHL, SHR, SAR, ROT, POPC, CLZ and BREV write, and their frame. -/
def Obligations.BitwiseShiftCountResultAndFrame : Prop :=
  ∀ i x, bitsSlice i = some x → RunsAs i x

/-- R302, R303: what IMAD, IMADW, ISAD, FUNNEL, BFE and BFI write, and their frame. -/
def Obligations.ThreeSourceAndFieldResultAndFrame : Prop :=
  ∀ i x, wideSlice i = some x → RunsAs i x

/-- R304 to R306: what SEL, MOV, MOVI, LEA, IADD64 and CVTW write, and their frame. -/
def Obligations.MoveAddressWidthResultAndFrame : Prop :=
  ∀ i x, moveSlice i = some x → RunsAs i x

/-- R295 to R298: what PSET, PAND, POR, PXOR, PNOT and the move and pack modes of PMOV write, and their frame; PMOV.unpack
sets p0 to p6 of each active fibre, and PSET with num or nan and an integer type traps; every f32 comparison with a NaN,
and the flag that it sets. -/
def Obligations.PredicateInstructionsResultAndFrame : Prop :=
  (∀ i x, predSlice i = some x → RunsAs i x) ∧
  (∀ s i p a, Issues s i → OpsReady i [opA a] (active i p) [] →
    ∃ F : Gang → Gang, exec (.pmov p (.unpack a)) s = .next (advance (s.modGang i.tid i.gid F) (wordsOf [a])) ∧
      (∀ f ∈ active i p, ∀ n < 7, (F i.gang).predBit f n = (valueOf i (opA a) f).getLsbD n) ∧
      (∀ f n, (f ∉ active i p ∨ n = 7) → (F i.gang).predBit f n = i.gang.predBit f n) ∧
      (∀ r, (F i.gang).reg r = i.gang.reg r) ∧ OnlyLanes i.gang (F i.gang) ∧ (F i.gang).gstat = i.gang.gstat) ∧
  (∀ s i p d a b ty c f, Issues s i → CmpTy.isInt ty = true → c = .num ∨ c = .nan → (active i p).head? = some f →
    OpsReady i [opA a ty.wide (CmpTy.oty ty), opB b ty.wide (CmpTy.oty ty)] (active i p) [] →
    exec (.pset p d a b ty c) s = .next (takeTrap s i.tid i.gid i.frag (illopnd 5 f) false)) ∧
  (∀ (c : Cmp) (a b : Quad),
    let x := Fmt.f32.value (a.toNat % 2 ^ 32)
    let y := Fmt.f32.value (b.toNat % 2 ^ 32)
    (x.isNan = true ∨ y.isNan = true) →
    (psetLane .f32 c a b).val = (if c = .ne ∨ c = .nan then 1 else 0) ∧
    (psetLane .f32 c a b).flags =
      (if c = .lt ∨ c = .le ∨ c = .gt ∨ c = .ge ∨ x.isSnan = true ∨ y.isSnan = true then fNV else 0))

/-- The fibre that SHFL reads for fibre f, and whether it lies in the fragment (R294). -/
def Sys2Proof.Machine.shflPick (i : Iss) (m : ShflMode) (f B : Nat) : Nat × Bool :=
  let j : Int := match m with | .idx => (B : Int) | .up => (f : Int) - B | .down => (f : Int) + B | .xor => ((f ^^^ B : Nat) : Int)
  if 0 ≤ j ∧ j ≤ 63 ∧ i.frag.mask.getLsbD j.toNat then (j.toNat, true) else (f, false)

/-- R294: what SHFL reads and writes. -/
def Sys2Proof.Machine.shflSlice (p : Pred) (d : Dst) (a b : Src) (q : Bool) (pd : BitVec 3) (m : ShflMode) : Slice :=
  { p, d, wide := q, words := wordsOf [a, b], pd := if pd = 7 then none else some pd
    needs := fun i f =>
      (regsOf i.team.S i.gang (opA a q) (shflPick i m f (valueOf i (opB b) f).toNat).1).map (fun x => ⟨f, 0, a.ea, x⟩)
        ++ needsOf i.team.S i.gang [opB b] f
    lane := fun i f =>
      let e := shflPick i m f (valueOf i (opB b) f).toNat
      { val := valueOf i (opA a q) e.1, ok := e.2 } }

/-- R292, R293, R294: what VOTE, RFL and SHFL write, and their frame. -/
def Obligations.CrossFibreResultAndFrame : Prop :=
  (∀ i x, crossSlice i = some x → RunsAs i x) ∧
  ((∀ p r a ea b q pd m, RunsAs (.shfl p (.vec r) (.vec a 0 ea) b q pd m) (shflSlice p (.vec r) (.vec a 0 ea) b q pd m)) ∧
  (∀ s i p d r c ea b q pd m f, Issues s i → c ≠ 0 → (active i p).head? = some f →
    Ready i.gang ((active i p).flatMap ((shflSlice p d (.vec r c ea) b q pd m).needs i)) [] →
    exec (.shfl p d (.vec r c ea) b q pd m) s = .next (takeTrap s i.tid i.gid i.frag (illopnd 5 f) false)))

/-- R223 to R225, R214: a finite value is rounded to a neighbour that the format has: the nearest, of two the even one, or
the one toward zero, above or below; NX tells a change, UF a tiny one; beyond the format the result is the one that R224
gives, with OF and NX; NaN, infinity and zero convert as R225 gives. -/
def Obligations.RoundingIsToNearestOrDirected : Prop :=
  (∀ (f : Fmt) (d : Rnd) (sat neg : Bool) (x : Rat), 0 < x →
    let r := f.round d sat (.fin neg x)
    let X : Rat := if neg then -x else x
    (x ≤ f.maxFin → r.flags &&& fOF = 0) ∧ (2 * f.maxFin ≤ x → r.flags &&& fOF = fOF) ∧
    (r.flags &&& fOF = 0 → ∃ y, f.value r.code = .fin neg y ∧
      let Y : Rat := if neg then -y else y
      (∀ c m z, c < 2 ^ f.width → f.value c = .fin m z →
        let Z : Rat := if m then -z else z
        (d = .rne → |X - Y| ≤ |X - Z| ∧ (|X - Y| = |X - Z| → Y ≠ Z → r.code % 2 = 0)) ∧
        (d = .rtz → z ≤ x → z ≤ y) ∧ (d = .rup → X ≤ Z → Y ≤ Z) ∧ (d = .rdn → Z ≤ X → Z ≤ Y)) ∧
      (d = .rtz → y ≤ x) ∧ (d = .rup → X ≤ Y) ∧ (d = .rdn → Y ≤ X) ∧
      (r.flags &&& fNX = if y = x then 0 else fNX) ∧
      (y ≠ x → y < f.minNormal → r.flags &&& fUF = fUF) ∧ (y = x ∨ f.minNormal ≤ x → r.flags &&& fUF = 0)) ∧
    (r.flags &&& fOF = fOF → r.flags &&& fNX = fNX ∧
      let away := match d with | .rne => true | .rtz => false | .rup => !neg | .rdn => neg
      r.code = (if neg then 2 ^ (f.width - 1) else 0) +
        (if f = .f4e2 ∨ sat = true ∨ away = false then f.maxCode else if f = .f8e4 then 0x7F else f.infCode))) ∧
  (∀ (f : Fmt) (d : Rnd) (sat neg : Bool),
    f.round d sat (.fin neg 0) = ⟨f.signBit neg, 0⟩ ∧
    (∀ sn, (f.round d sat (.nan sn)).code = f.dnan ∧ 
      (f.round d sat (.nan sn)).flags = (if sn = true ∨ f = .f4e2 then fNV else 0)) ∧
    (f ≠ .f8e4 → f ≠ .f4e2 → f.round d sat (.inf neg) = ⟨f.signBit neg + f.infCode, 0⟩) ∧
    (f = .f8e4 → f.round d sat (.inf neg) = ⟨f.signBit neg + (if sat then f.maxCode else 0x7F), fOF⟩) ∧
    (f = .f4e2 → f.round d sat (.inf neg) = ⟨f.signBit neg + f.maxCode, fOF⟩))

/-- R310 to R320: the f32, f16 and bf16 instructions write the result that the model's number formats give, with its
flags, and nothing else. Model choices it rests on: notes/assumptions entries 3, 109. -/
def Obligations.FloatInstructionsResultAndFrame : Prop :=
  ∀ i x, floatSlice i = some x → RunsAs i x

/-- R323 to R331: CVTI, the lane dot products, SCALE, RNG and SRND write their result with its flags, and nothing else.
Model choices it rests on: notes/assumptions entry 90. -/
def Obligations.NarrowInstructionsResultAndFrame : Prop :=
  ∀ i x, narrowSlice i = some x → RunsAs i x

/-- The operands of CVTF through a slot word (R322). -/
def Sys2Proof.Machine.cvtfOps (w : Word) (f : Fmt) (d : Dst) (a c : Src) : List Opnd :=
  opA a (slotA w == 9) (fmtOty f) :: (if slotRnd w = 4 then [opC c] else []) ++ [opD d]

/-- CVTF through a slot word with two formats (R322). -/
def Sys2Proof.Machine.cvtfSlice (w : Word) (f g : Fmt) (p : Pred) (d : Dst) (a c : Src) (si di : BitVec 3) : Slice :=
  { Slice.ofOps p d false (cvtfOps w f d a c) (fun l =>
      match l with
      | [x, r, y] => cvtfL w f g si.toNat di.toNat x r y
      | [x, y] => cvtfL w f g si.toNat di.toNat x 0 y
      | _ => {}) with words := wordsOf [a, c] }

/-- R322: what CVTF writes, through a slot whose formats convert and with element indices inside its words; the traps of
the other slots, indices and registers come in the order of R322. A vector source of the random bits beside a scalar
destination traps first. Model choices it rests on: notes/assumptions entries 53, 81, 91. -/
def Obligations.ConvertThroughSlotResultAndTraps : Prop :=
  ∀ s i p d a c slot si di e, Issues s i → (active i p).head? = some e →
    let w := i.team.slot slot.toNat
    let mixed := slotRnd w = 4 ∧ d.isScalar = true ∧ c.isVec = true
    let read := fun ty => (((if d.isScalar then (active i p).take 1 else active i p)).flatMap
      (needsOf i.team.S i.gang (opA a (slotA w == 9 && !(slotA w == 9 && oddReg a.regNo)) ty :: (if slotRnd w = 4 then [opC c] else []) ++ [opD d])))
    (mixed → exec (.cvtf p d a c slot si di) s = .next (takeTrap s i.tid i.gid i.frag (illopnd 3 i.frag.lowest) false)) ∧
    (∀ f g, ¬ mixed → cvtFmts w = some (f, g) → si.toNat < perWord f → di.toNat < perWord g → (slotA w == 9 && oddReg a.regNo) = false →
      let x := cvtfSlice w f g p d a c si di
      x.Go i → ∃ t, exec (.cvtf p d a c slot si di) s = .next t ∧ x.Effect s t i) ∧
    (¬ mixed → cvtFmts w = none → Ready i.gang (read .int) [] →
      exec (.cvtf p d a c slot si di) s = .next (takeTrap s i.tid i.gid i.frag { cause := 0x0B, sub := 2, fib := e } false)) ∧
    (∀ f g, ¬ mixed → cvtFmts w = some (f, g) → (perWord f ≤ si.toNat ∨ perWord g ≤ di.toNat ∨ (slotA w == 9 && oddReg a.regNo) = true) →
      Ready i.gang (read (fmtOty f)) [] →
      exec (.cvtf p d a c slot si di) s = .next (takeTrap s i.tid i.gid i.frag
        (if perWord f ≤ si.toNat ∨ perWord g ≤ di.toNat then illopnd 5 e else illopnd 2 e) false))

/-- What PACK or UNPACK does through a slot word and its element format (R325 to R327): the run of each active fibre holds the
result of the run that it read, all sources read before any destination is written, and nothing else changes but flags. -/
def Sys2Proof.Machine.PackRuns (s t : State) (i : Iss) (p : Pred) (r : BitVec 6) (c : Nat → List RegRef) (w : Word) (e : Elem)
    (unpack : Bool) : Prop :=
  let dn := (packRuns w e unpack).2
  let S := i.team.S
  ∃ F : Gang → Gang, t = advance (s.modGang i.tid i.gid F) 1 ∧
    (∀ f ∈ active i p, ∀ n < dn, (F i.gang).reg (.v f (ringPos S (i.gang.fib f) (r.toNat + n))) =
      { val := ((if unpack then unpackRun else packRun) w e ((c f).map (fun x => (i.gang.reg x).read))).1.getD n 0 }) ∧
    (∀ q, (∀ f ∈ active i p, q ∉ dstRegs S i.gang (.vec r) dn f) → (F i.gang).reg q = i.gang.reg q) ∧
    (∀ f n, (F i.gang).predBit f n = i.gang.predBit f n) ∧ OnlyLanes i.gang (F i.gang)

/-- R325 to R327: PACK and UNPACK write the run of each active fibre from the run that it read, all sources before any
destination; a slot outside R325 and a run past v63 trap once the registers that the instruction names can be read. Model
choices it rests on: notes/assumptions entry 110. -/
def Obligations.PackUnpackRuns : Prop :=
  ∀ s i p (r k : BitVec 6) c ea slot f0, Issues s i → (active i p).head? = some f0 →
    let w := i.team.slot slot.toNat
    let S := i.team.S
    let regs := fun n f => runOf S i.gang (.vec k c ea) n f
    let judge := fun (sn dn : Nat) => Ready i.gang ((active i p).flatMap (fun f => (regs sn f).map (fun x => (⟨f, 0, ea, x⟩ : Need))))
      ((active i p).flatMap (dstRegs S i.gang (.vec r) dn))
    (packElem w false = none → judge (min (slotBlock w) (64 - k.toNat)) (min 1 (64 - r.toNat)) → exec (.pack p (.vec r) (.vec k c ea) slot) s =
      .next (takeTrap s i.tid i.gid i.frag { cause := 0x0B, sub := 3, fib := f0 } false)) ∧
    (packElem w true = none → judge (min 1 (64 - k.toNat)) (min (slotBlock w) (64 - r.toNat)) → exec (.unpack p (.vec r) (.vec k c ea) slot) s =
      .next (takeTrap s i.tid i.gid i.frag { cause := 0x0B, sub := 3, fib := f0 } false)) ∧
    (∀ e, packElem w false = some e →
      let n := packRuns w e false
      (64 < k.toNat + n.1 ∨ 64 < r.toNat + n.2 → judge (min n.1 (64 - k.toNat)) (min n.2 (64 - r.toNat)) →
        exec (.pack p (.vec r) (.vec k c ea) slot) s = .next (takeTrap s i.tid i.gid i.frag (illopnd 1 f0) false)) ∧
      (k.toNat + n.1 ≤ 64 → r.toNat + n.2 ≤ 64 → judge n.1 n.2 →
        ∃ t, exec (.pack p (.vec r) (.vec k c ea) slot) s = .next t ∧ PackRuns s t i p r (regs n.1) w e false)) ∧
    (∀ e, packElem w true = some e →
      let n := packRuns w e true
      (64 < k.toNat + n.1 ∨ 64 < r.toNat + n.2 → judge (min n.1 (64 - k.toNat)) (min n.2 (64 - r.toNat)) →
        exec (.unpack p (.vec r) (.vec k c ea) slot) s = .next (takeTrap s i.tid i.gid i.frag (illopnd 1 f0) false)) ∧
      (k.toNat + n.1 ≤ 64 → r.toNat + n.2 ≤ 64 → judge n.1 n.2 →
        ∃ t, exec (.unpack p (.vec r) (.vec k c ea) slot) s = .next t ∧ PackRuns s t i p r (regs n.1) w e true))

/-- R258 to R261: a P-form pair runs both halves on the values that its registers held before it. -/
def Obligations.PairOfHalvesRunsBoth : Prop :=
  ∀ s i h0 h1, Issues s i → WF (.pFormPair h0 h1) = true →
    Ready i.gang ([h0, h1].flatMap (fun h => (halfFibs i h).flatMap (needsOf i.team.S i.gang (halfOps h))))
      ([h0, h1].flatMap (fun h => (halfFibs i h).flatMap (dstRegs i.team.S i.gang h.dst 1))) →
    ∃ F : Gang → Gang, exec (.pFormPair h0 h1) s = .next (advance (s.modGang i.tid i.gid F) 1) ∧
      (∀ h ∈ [h0, h1], h.op ≠ .nop → ∀ f ∈ halfFibs i h, ∀ q ∈ dstRegs i.team.S i.gang h.dst 1 f,
        (F i.gang).reg q = { val := loWord (POp.lane h.op (valueOf i (opD h.dst) f) (valueOf i (opB h.src false (POp.oty h.op)) f)).val }) ∧
      (∀ q, (∀ h ∈ [h0, h1], ∀ f ∈ halfFibs i h, q ∉ dstRegs i.team.S i.gang h.dst 1 f) → (F i.gang).reg q = i.gang.reg q) ∧
      (∀ f n, (F i.gang).predBit f n = i.gang.predBit f n) ∧ OnlyLanes i.gang (F i.gang)

/-- R196, R197, R257: a FAILED register traps its reader with its cause and code, an EMPTY one traps a source with the
trap action, and else the instruction waits with nothing changed, also for an EMPTY register that it writes: slice
instructions, VOTE, RFL, SHFL, CVTF, PACK, UNPACK, and the control, memory and system forms that `gateOf` lists. -/
def Obligations.RegisterStatesGateIssue : Prop :=
  (∀ ins x s i, sliceForm ins = some x ∨ crossSlice ins = some x → Issues s i →
    Gates ins s i ((x.lanes i).flatMap (x.needs i)) ((x.lanes i).flatMap (x.dsts i))) ∧
  (∀ s i p d r ea b q pd m, Issues s i →
    let x := shflSlice p d (.vec r 0 ea) b q pd m
    (∀ f ∈ x.lanes i, ∀ n ∈ needsOf i.team.S i.gang [opB b] f, (i.gang.reg n.ref).fe = .full) →
    Gates (.shfl p d (.vec r 0 ea) b q pd m) s i ((x.lanes i).flatMap (x.needs i)) ((x.lanes i).flatMap (x.dsts i))) ∧
  (∀ s i p d a c slot si di f g, Issues s i →
    let w := i.team.slot slot.toNat
    let x := cvtfSlice w f g p d a c si di
    ¬ (slotRnd w = 4 ∧ d.isScalar = true ∧ c.isVec = true) → cvtFmts w = some (f, g) → si.toNat < perWord f → di.toNat < perWord g →
    (slotA w == 9 && oddReg a.regNo) = false →
    Gates (.cvtf p d a c slot si di) s i ((x.lanes i).flatMap (x.needs i)) ((x.lanes i).flatMap (x.dsts i))) ∧
  (∀ ins s i g, Issues s i → gateOf i ins = some g → Gates ins s i g.1 g.2)

/-! ### Control flow, traps and the system registers -/

/-- R280, R281: BRA and JMPS send each active fibre to the target and every other fibre to the following instruction; with
no active fibre they act as NOP; a misaligned target traps. Only the gang's fragments change. -/
def Obligations.BranchSendsActiveFibres : Prop :=
  ∀ s i p, Issues s i →
    (∀ off, active i p ≠ [] → ∃ t pre, exec (.bra p off) s = .next t ∧ FragsBecome s t i pre ∧
      Sends s i (fun f => if f ∈ active i p then relTarget i.frag.pc off else i.frag.pc + 8) pre) ∧
    (∀ off, active i p = [] → ∃ t, exec (.bra p off) s = .next t ∧ FragsBecome s t i (stepped s i 1)) ∧
    (∀ a, active i p = [] → ∃ t, exec (.jmps p a) s = .next t ∧ FragsBecome s t i (stepped s i (wordsOf [a]))) ∧
    (∀ a f, (active i p).head? = some f → OpsReady i [opA a true] (active i p) [] →
      let target := valueOf i (opA a true) f
      if target.toNat % 8 = 0 then
        ∃ t pre, exec (.jmps p a) s = .next t ∧ FragsBecome s t i pre ∧
          Sends s i (fun f => if f ∈ active i p then target else i.frag.pc + BitVec.ofNat 64 (8 * wordsOf [a])) pre
      else exec (.jmps p a) s = .next (takeTrap s i.tid i.gid i.frag (illopnd 5 f) false))

/-- The callee's registers of a call with frame size k: v0 and v1 after the advance (R282). -/
def Sys2Proof.Machine.linkRegs (i : Iss) (k f : Nat) : List RegRef :=
  [.v f (ringPos i.team.S (i.gang.fib f) k), .v f (ringPos i.team.S (i.gang.fib f) (k + 1))]

/-- R282, R281: CALL and CALLS, once the window has moved, write the link and send the active fibres to the target; where
no register has to be spilled they change windows, link registers and fragments alone. R283: RET reads every active
fibre's address, then moves the window back and sends each fibre to its address; an address that is misaligned or a window
that cannot retreat traps with the first such fibre, and nothing has changed. R194, R195: where a window move has to spill
or fill, the instruction waits or traps with it; a step waits for an EMPTY register, a FAILED one traps before any window
changes, a faulting address is WSPILL; a word that moves is the register's, at its place of the private aperture. -/
def Obligations.CallAndReturnMoveTheWindow : Prop :=
  (∀ s i p k, Issues s i → active i p ≠ [] →
    Ready i.gang [] ((active i p).flatMap (linkRegs i (4 * BitVec.toNat k))) →
    ∀ (ins : Instr) (target : Quad) (words : Nat),
      ((∃ off, ins = .call p k off ∧ target = relTarget i.frag.pc off ∧ words = 1) ∨
        (∃ a f, ins = .calls p a k ∧ (active i p).head? = some f ∧ OpsReady i [opA a true] (active i p) [] ∧
          target = valueOf i (opA a true) f ∧ target.toNat % 8 = 0 ∧ words = wordsOf [a])) →
      let link := i.frag.pc + BitVec.ofNat 64 (8 * words)
      (∀ s', moveWindow s i.tid i.gid (active i p) true (4 * k.toNat) false = .wait s' → exec ins s = .next s') ∧
      (∀ x s', moveWindow s i.tid i.gid (active i p) true (4 * k.toNat) false = .trap x s' →
        exec ins s = .next (takeTrap s' i.tid i.gid i.frag x false)) ∧
      (∀ s', moveWindow s i.tid i.gid (active i p) true (4 * k.toNat) false = .ok () s' →
        exec ins s = .next (splitTo (s'.modCur (fun g => (active i p).foldl (fun g f =>
          writeRun g (linkRegs i (4 * k.toNat) f) [loWord link, hiWord link]) g)) i
          [(active i p, target), (rest i (active i p), link)] ((active i p).headD 0))) ∧
      ((∀ f ∈ active i p, (i.gang.fib f).wb + 4 * k.toNat + 64 ≤ (i.gang.fib f).lo + i.team.S) →
        ∃ (F : Gang → Gang) (pre : List Frag), exec ins s = .next (s.modGang i.tid i.gid F) ∧
          Sends s i (fun f => if f ∈ active i p then target else link) pre ∧
          (F i.gang).frags = (if i.gang.handler.isSome || i.gang.entry.isSome then pre else settleFrags (F i.gang).liveFibres 130 pre) ∧
          (∀ f, ((F i.gang).fib f).wb = (i.gang.fib f).wb + (if f ∈ active i p then 4 * k.toNat else 0)) ∧
          (∀ f ∈ active i p, (linkRegs i (4 * k.toNat) f).map (F i.gang).reg = [{ val := loWord link }, { val := hiWord link }]) ∧
          (∀ r, (∀ f ∈ active i p, r ∉ linkRegs i (4 * k.toNat) f) → (F i.gang).reg r = i.gang.reg r) ∧
          { F i.gang with frags := [], fibres := [] } = { i.gang with frags := [], fibres := [] })) ∧
  (∀ s i p a k, Issues s i → active i p ≠ [] → OpsReady i [opA a true] (active i p) [] →
    let n := 4 * BitVec.toNat k
    let dest := fun f => if f ∈ active i p then valueOf i (opA a true) f else i.frag.pc + BitVec.ofNat 64 (8 * wordsOf [a])
    let bad := fun f => (valueOf i (opA a true) f).toNat % 8 ≠ 0 ∨ (i.gang.fib f).wb < n
    (∀ f ∈ active i p, bad f → (∀ g ∈ active i p, bad g → f ≤ g) →
      exec (.ret p a k) s = .next (takeTrap s i.tid i.gid i.frag (illopnd 5 f) false)) ∧
    ((∀ f ∈ active i p, ¬ bad f) →
      (∀ s', moveWindow s i.tid i.gid (active i p) false n false = .wait s' → exec (.ret p a k) s = .next s') ∧
      (∀ x s', moveWindow s i.tid i.gid (active i p) false n false = .trap x s' →
        exec (.ret p a k) s = .next (takeTrap s' i.tid i.gid i.frag x false))) ∧
    ((∀ f ∈ active i p, ¬ bad f) → (∀ f ∈ active i p, (i.gang.fib f).lo ≤ (i.gang.fib f).wb - n) →
      ∃ (F : Gang → Gang) (pre : List Frag), exec (.ret p a k) s = .next (s.modGang i.tid i.gid F) ∧ Sends s i dest pre ∧
        (F i.gang).frags = (if i.gang.handler.isSome || i.gang.entry.isSome then pre else settleFrags (F i.gang).liveFibres 130 pre) ∧
        (∀ f, ((F i.gang).fib f).wb = (i.gang.fib f).wb - (if f ∈ active i p then n else 0)) ∧
        (∀ r, (F i.gang).reg r = i.gang.reg r) ∧
        { F i.gang with frags := [], fibres := [] } = { i.gang with frags := [], fibres := [] })) ∧
  (∀ s tid gid t g fs up k zf, State.team s tid = some t → State.gang s tid gid = some g →
    let regs := windowRegs g t.S fs up k
    let fe := fun (e : Nat × Nat) => (g.reg (.v e.1 (e.2 % t.S))).fe
    let words := regs.map (fun e => (e.1, (g.fib e.1).pidx.toNat, e.2))
    (∀ e c d, up = true → zf = false → regs.find? (fun e => (fe e).isFailed) = some e → fe e = .failed c d →
      moveWindow s tid gid fs up k zf =
        .trap { cause := 0x0A, sub := 1, fib := e.1, tcode := 3, addr := BitVec.ofNat 64 (c.toNat + 65536 * d.toNat) } s) ∧
    ((up = true ∧ zf = false → ∀ e ∈ regs, (fe e).isFailed = false) → (∃ e ∈ regs, fe e = .empty) →
      moveWindow s tid gid fs up k zf = .wait s) ∧
    (∀ f n c l, moveSteps g t.S fs up k = (f, n, c) :: l → 0 < c → (up = true ∧ zf = false → ∀ e ∈ regs, (fe e).isFailed = false) →
      (∀ e ∈ regs, fe e ≠ .empty) → (windowWait s tid t words up).1 = false → windowHeld s tid gid t words = false →
      (windowWord s tid t (g.fib f).pidx.toNat n up).1 = .error true →
      moveWindow s tid gid fs up k zf = .trap { cause := 0x09, fib := f } s) ∧
    (∀ u h, moveWindow s tid gid fs up k zf = .ok () u → u.gang tid gid = some h → fs.Nodup → k ≤ 64 → g.ra = none →
      (∀ f ∈ fs, (g.fib f).lo ≤ (g.fib f).wb ∧ (g.fib f).wb + 64 ≤ (g.fib f).lo + t.S ∧ (up = false → k ≤ (g.fib f).wb)) →
      (∀ f ∈ fs, (h.fib f).wb = (if up then (g.fib f).wb + k else (g.fib f).wb - k) ∧
        (h.fib f).lo = (if up then max (g.fib f).lo ((g.fib f).wb + k + 64 - t.S) else min (g.fib f).lo ((g.fib f).wb - k))) ∧
      (∀ f, f ∉ fs → (h.fib f).wb = (g.fib f).wb ∧ (h.fib f).lo = (g.fib f).lo))) ∧
  (∀ s tid gid t g f n pl off zf s1, State.team s tid = some t → State.gang s tid gid = some g → g.ra = none → s.eccSound →
    (g.reg (.v f (n % t.S))).bad = false → windowWord s tid t (g.fib f).pidx.toNat n true = (.ok (.dev pl, off), s1) → off + 4 ≤ 192 →
    WayFree s (.dev pl) → Definite s (.dev pl) off 4 →
    ∃ u, spillStep s tid gid t f n 1 zf = some u ∧
      homeRead u (.dev pl) off 4 = leBytes 4 (if zf ∧ (g.reg (.v f (n % t.S))).fe.isFailed then 0 else (g.reg (.v f (n % t.S))).val).toNat ∧
      (∀ j o, (j ≠ LineKey.dev pl ∨ o < off ∨ off + 4 ≤ o) → lineByte u j o = lineByte s j o) ∧ u.gang tid gid = some g ∧
      ∀ x, s.ctx? t.ctx = some x → ∃ y, u.ctx? t.ctx = some y ∧ y.wincnt = satQuad x.wincnt 1) ∧
  (∀ s tid gid t g f n pl off s1, State.team s tid = some t → State.gang s tid gid = some g → g.ra = none → s.eccSound →
    windowWord s tid t (g.fib f).pidx.toNat n false = (.ok (.dev pl, off), s1) → off + 4 ≤ 192 → WayFree s (.dev pl) →
    Definite s (.dev pl) off 4 →
    ∃ u h, fillStep s tid gid t f n 1 = some u ∧ u.gang tid gid = some h ∧
      h.reg (.v f (n % t.S)) = { val := BitVec.ofNat 32 (leNat (homeRead s (.dev pl) off 4)) } ∧
      (∀ r, r ≠ .v f (n % t.S) → h.reg r = g.reg r) ∧ SameBytes s u)

/-- R286 to R288: EXIT ends the gang; FORK wakes the slots of its mask that are not LIVE in a fragment of their own and
writes them; FEND makes the active fibres DORMANT, and ends the gang with the last of them. In a handler FORK and FEND
trap (R476). -/
def Obligations.ExitForkFend : Prop :=
  ∀ s i p f, Issues s i → (active i p).head? = some f →
    exec (.exit p) s = .next (endGang s i.tid i.gid 0) ∧
    (i.gang.handler = none → (∀ g ∈ i.gang.liveFibres, g ∈ active i p) →
      exec (.fend p) s = .next (endGang (s.modGang i.tid i.gid (fun g => (active i p).foldl (fun g n =>
        g.modFib n (fun b => { b with live := false, trav := b.trav.filter (fun v => !v.suspended) })) g)) i.tid i.gid 0)) ∧
    (i.gang.handler = none → (∃ g ∈ i.gang.liveFibres, g ∉ active i p) →
      exec (.fend p) s = .next (barriersTry (splitTo (s.modGang i.tid i.gid (fun g => (active i p).foldl (fun g n =>
        g.modFib n (fun b => { b with live := false, trav := b.trav.filter (fun v => !v.suspended) })) g)) i
        [(rest i (active i p), i.frag.pc + 8)] f) i.tid)) ∧
    (∀ r a off, i.gang.handler = none → OpsReady i [opA a true] (active i p) [.s r.toNat, .s (r.toNat + 1)] →
      let w := valueOf i (opA a true) f &&& ~~~(maskOf i.gang.liveFibres)
      ∃ F : Gang → Gang, exec (.fork p (.scal r) a off) s = .next (advance (s.modGang i.tid i.gid F) (wordsOf [a])) ∧
        (F i.gang).frags = i.gang.frags ++ (if w = 0 then [] else [{ pc := relTarget i.frag.pc off, mask := w }]) ∧
        (F i.gang).reg (.s r.toNat) = { val := loWord w } ∧ (F i.gang).reg (.s (r.toNat + 1)) = { val := hiWord w } ∧
        (∀ n, ((F i.gang).fib n).live = ((i.gang.fib n).live || (decide (n < 64) && w.getLsbD n))) ∧
        (∀ r', r' ≠ .s r.toNat → r' ≠ .s (r.toNat + 1) → (F i.gang).reg r' = i.gang.reg r') ∧
        (∀ n q, (F i.gang).predBit n q = i.gang.predBit n q) ∧
        { F i.gang with sregs := [], fibres := [], frags := [] } = { i.gang with sregs := [], fibres := [], frags := [] }) ∧
    (i.gang.handler.isSome →
      exec (.fend p) s = .next (takeTrap s i.tid i.gid i.frag (illopnd 5 f) false) ∧
      ∀ r a off, OpsReady i [opA a true] (active i p) [.s r.toNat, .s (r.toNat + 1)] →
        exec (.fork p (.scal r) a off) s = .next (takeTrap s i.tid i.gid i.frag (illopnd 5 f) false))

/-- R284, R289: NOP, YIELD and RECONV advance their fragment; YIELD has it rest and rank as youngest, RECONV pushes its
target with a fresh tag, dropping the bottom entry of a full stack (R186). Nothing else changes. R287, R288: EXIT, FEND
and FORK with no active fibre have no effect but the advance. -/
def Obligations.InstructionsThatOnlyAdvance : Prop :=
  (∀ s i, Issues s i →
    (∀ p, ∃ t, exec (.nop p) s = .next t ∧ FragsBecome s t i (stepped s i 1)) ∧
    (∀ p, ∃ t, exec (.yield p) s = .next (t.modFrag (fun f => { f with young := true, rest := true })) ∧ FragsBecome s t i (stepped s i 1)) ∧
    (∀ p off, ∃ F : Gang → Gang, exec (.reconv p off) s = .next (s.modGang i.tid i.gid F) ∧
      { F i.gang with frags := [], nextTag := 0 } = { i.gang with frags := [], nextTag := 0 } ∧
      (F i.gang).nextTag = i.gang.nextTag + 1 ∧
      (F i.gang).frags = advanced i.gang s.sched.cur.lead 1 (i.gang.frags.map (fun (x : Frag) =>
        if x.mask.getLsbD s.sched.cur.lead then { x with stack := (relTarget i.frag.pc off, i.gang.nextTag) :: x.stack.take 7 } else x)))) ∧
  (∀ s i p, Issues s i → active i p = [] →
    exec (.exit p) s = .next (advance s 1) ∧ exec (.fend p) s = .next (advance s 1) ∧
    (∀ d a off, exec (.fork p d a off) s = .next (advance s (wordsOf [a]))) ∧
    (∀ c, exec (.brkpt p c) s = .next (advance s 1)) ∧ (∀ c, exec (.trap p c) s = .next (advance s 1)) ∧
    exec (.teamkill p) s = .next (advance s 1))

/-- A handler has been entered (R474): the fragment's own stands at `tvec` with its fibres, and every other fragment of the gang is held;
none else is there. -/
def Sys2Proof.Machine.HandlerAt (fs : List Frag) (team : Team) (f : Frag) (after : List Frag) : Prop :=
  ({ pc := team.tvec, mask := f.mask } : Frag) ∈ after ∧ (∀ z ∈ fs, z.mask ≠ f.mask → { z with held := true } ∈ after) ∧
    (∀ y ∈ after, y = { pc := team.tvec, mask := f.mask } ∨ ∃ z ∈ fs, z.mask ≠ f.mask ∧ y = { z with held := true }) ∧
    after.length = 1 + (fs.filter (fun z => z.mask != f.mask)).length

/-- A trap has been taken outside a handler, with no register to spill (R473, R474): the trap registers are written, the gang's other
fragments are held, each fibre's window has moved on by 64, and the handler starts at `tvec`; registers stay, and no other part of the
machine changes but the core's walks. -/
def Sys2Proof.Machine.TrapTaken (s t : State) (team : Team) (tid gid : Nat) (g : Gang) (f : Frag) (x : TrapInfo) (imp : Bool) : Prop :=
  ∃ (F : Gang → Gang) (h : Handler), t = (forgetWalks s team.ctx team.place.core).modGang tid gid F ∧
    (F g).tcause = tcauseOf x imp ∧ (F g).tpc = f.pc ∧ (F g).taddr = x.addr ∧
    (F g).tres = f.pc + BitVec.ofNat 64 x.after ∧ (F g).handler = some h ∧ (F g).entry = none ∧
    h.cause = x.cause ∧ h.frag = f.resumed ∧ h.fes = [] ∧ h.preds = (Frag.fibres f).map (fun n => (n, (g.fib n).preds)) ∧
    HandlerAt g.frags team f (F g).frags ∧ (F g).latch = (if f.wait = .latch then none else g.latch) ∧
    (∀ n, ((F g).fib n).wb = (g.fib n).wb + (if n ∈ Frag.fibres f then 64 else 0)) ∧
    (∀ n, { (F g).fib n with wb := 0 } = { g.fib n with wb := 0 }) ∧ (∀ r, (F g).reg r = g.reg r) ∧
    { F g with tcause := 0, tpc := 0, taddr := 0, tres := 0, handler := none, entry := none, latch := none, frags := [], fibres := [] } =
      { g with tcause := 0, tpc := 0, taddr := 0, tres := 0, handler := none, entry := none, latch := none, frags := [], fibres := [] }

/-- Where a trap of a fragment can be taken at once (R474, R475): outside a handler, with `tvec` set and no register to spill. -/
abbrev Sys2Proof.Machine.TrapFree (s : State) (team : Team) (tid gid : Nat) (g : Gang) (f : Frag) : Prop :=
  g.handler = none ∧ g.ra = none ∧ team.tvec ≠ 0 ∧ NoneHeld s tid gid f ∧
    ∀ n ∈ Frag.fibres f, (g.fib n).wb + 128 ≤ (g.fib n).lo + team.S

/-- R289, R389, R269, R473, R474: BRKPT, TRAP with an active fibre, and a word that fails decoding take the trap of their
rule; the first two resume at the following instruction, the last at the trapping one. Taking a trap outside a handler,
with `tvec` set and no register to spill, writes the trap registers, holds each of the gang's other fragments, moves each
fibre's window on by 64 and starts the handler at `tvec`; registers and memory stay. R475: where registers have to be
spilled, the entry waits for them and saves their full/empty states; a spill that faults ends the team. -/
def Obligations.TrapsAreTakenWithTheirRegisters : Prop :=
  (∀ s i, Issues s i →
    (∀ p f c, (active i p).head? = some f →
      exec (.brkpt p c) s = .next (takeTrap s i.tid i.gid i.frag { cause := 0x0E, fib := f, tcode := c.toNat, after := 8 } false) ∧
      exec (.trap p c) s = .next (takeTrap s i.tid i.gid i.frag { cause := 0x14, fib := f, tcode := c.toNat, after := 8 } false)) ∧
    (∀ c k, exec (.illegalInstruction c k) s =
      .next (takeTrap s i.tid i.gid i.frag { cause := c, sub := k, fib := i.frag.lowest } false))) ∧
  (∀ s tid gid team g f x imp, State.team s tid = some team → State.gang s tid gid = some g →
    g.frags.find? (fun y => y.mask == f.mask) = some f → x.fails = false → TrapFree s team tid gid g f →
    TrapTaken s (takeTrap s tid gid f x imp) team tid gid g f x imp) ∧
  (∀ s i, Issues s i → TrapFree s i.team i.tid i.gid i.gang i.frag →
    (∀ p f c, (active i p).head? = some f →
      (∃ t, exec (.brkpt p c) s = .next t ∧ TrapTaken s t i.team i.tid i.gid i.gang i.frag
        { cause := 0x0E, fib := f, tcode := c.toNat, after := 8 } false) ∧
      (∃ t, exec (.trap p c) s = .next t ∧ TrapTaken s t i.team i.tid i.gid i.gang i.frag
        { cause := 0x14, fib := f, tcode := c.toNat, after := 8 } false)) ∧
    (∀ c k, ∃ t, exec (.illegalInstruction c k) s = .next t ∧ TrapTaken s t i.team i.tid i.gid i.gang i.frag
      { cause := c, sub := k, fib := i.frag.lowest } false)) ∧
  (∀ s tid gid team g f x, State.team s tid = some team → State.gang s tid gid = some g → g.entry = some (f.mask, x) →
    g.frags.find? (fun y => y.mask == f.mask) = some f →
    (∀ u, moveWindow s tid gid f.fibres true 64 true = .wait u → enterTrap s tid gid = u) ∧
    (∀ y u, moveWindow s tid gid f.fibres true 64 true = .trap y u →
      enterTrap s tid gid = endTeam u tid gid 0x1D x.cause x.cause x.fib x.sub) ∧
    (∀ u k, moveWindow s tid gid f.fibres true 64 true = .ok () u → u.gang tid gid = some k →
      ∃ (F : Gang → Gang) (h : Handler), enterTrap s tid gid = u.modGang tid gid F ∧ (F k).handler = some h ∧ (F k).entry = none ∧
        h.frag = f.resumed ∧ h.cause = x.cause ∧ h.preds = f.fibres.map (fun n => (n, (g.fib n).preds)) ∧
        (∀ b n v, (b, n, v) ∈ h.fes ↔ (b, n) ∈ windowRegs g team.S f.fibres true 64 ∧ v ≠ .full ∧ v = (g.reg (.v b (n % team.S))).fe) ∧
        (∀ y, y ∈ (F k).frags ↔ y = { pc := team.tvec, mask := f.mask } ∨ (y ∈ k.frags ∧ y.mask ≠ f.mask)) ∧
        { F k with handler := none, entry := none, frags := [] } = { k with handler := none, entry := none, frags := [] }))

/-- The handler's fragments with the one that issues at its TRET, in the order of their lowest fibres (R390). -/
def Sys2Proof.Machine.retFrags (s : State) (i : Iss) (skip : Bool) : List Frag :=
  orderFrags (handlerFrags { i.gang with frags := i.gang.frags.map (fun (x : Frag) =>
    if x.mask.getLsbD s.sched.cur.lead then { x with atTret := true, tretSkip := skip } else x) })

/-- R390, R476: TRET outside a handler traps; in a handler its fragment waits for the handler's others. When each of them
stands at a TRET, the windows move back by 64, with a fill where a register was spilled: full/empty states of the
registers that come back and predicates are as they were saved, the fragment goes on at the resume point, or past the
instruction there where the lowest fragment's TRET has `.skip`, and every held fragment is released. A fill that faults
ends the team. Model choices it rests on: notes/assumptions entry 47. -/
def Obligations.TrapReturnResumes : Prop :=
  ∀ s i p, Issues s i →
    (∀ skip, i.gang.handler = none →
      exec (.tret p skip) s = .next (takeTrap s i.tid i.gid i.frag (illopnd 5 i.frag.lowest) false)) ∧
    (∀ skip h, i.gang.handler = some h →
      let s0 := s.modFrag (fun f => { f with atTret := true, tretSkip := skip })
      let fs := retFrags s i skip
      let sk := (fs.head?).elim false (·.tretSkip)
      let core := i.team.place.core
      ((∃ x ∈ fs, x.atTret = false) → exec (.tret p skip) s = .next s0) ∧
      ((∀ x ∈ fs, x.atTret = true) → ∀ ws s1,
        (if sk then fetchInstr s0 i.team.ctx core false i.gang.tres.toNat else (.words [], s0)) = (.words ws, s1) →
        s1.team i.tid = s0.team i.tid →
        let pc := i.gang.tres + (if sk then BitVec.ofNat 64 (8 * ws.length) else 0)
        let released := fun (old pre : List Frag) => { h.frag with pc } ∈ pre ∧
          (∀ x ∈ old, x.held = true → { x with held := false } ∈ pre) ∧
          ∀ y ∈ pre, y = { h.frag with pc } ∨ ∃ x ∈ old, x.held = true ∧ y = { x with held := false }
        (∀ u, moveWindow s1 i.tid i.gid h.frag.fibres false 64 true = .wait u → exec (.tret p skip) s = .next u) ∧
        (∀ x u, moveWindow s1 i.tid i.gid h.frag.fibres false 64 true = .trap x u →
          exec (.tret p skip) s = .next (endTeam u i.tid i.gid 0x1D h.cause h.cause)) ∧
        (∀ u g, moveWindow s1 i.tid i.gid h.frag.fibres false 64 true = .ok () u → u.gang i.tid i.gid = some g → g.ra = none →
          (h.fes.map (fun e => (e.1, e.2.1 % i.team.S))).Nodup → (h.preds.map (·.1)).Nodup →
          let filled := fun (e : Nat × Nat × Fe) => (i.gang.fib e.1).wb - 64 ≤ e.2.1 ∧ e.2.1 < (i.gang.fib e.1).lo
          ∃ (F : Gang → Gang) (pre : List Frag), exec (.tret p skip) s = .next (u.modGang i.tid i.gid F) ∧
            (F g).handler = none ∧ (F g).frags = (if g.entry.isSome then pre else settleFrags g.liveFibres 130 pre) ∧
            (g.tres = i.gang.tres → released g.frags pre) ∧
            (∀ e ∈ h.fes, filled e → (F g).reg (.v e.1 (e.2.1 % i.team.S)) = { g.reg (.v e.1 (e.2.1 % i.team.S)) with fe := e.2.2 }) ∧
            (∀ r, (∀ e ∈ h.fes, filled e → r ≠ .v e.1 (e.2.1 % i.team.S)) → (F g).reg r = g.reg r) ∧
            (∀ e ∈ h.preds, ((F g).fib e.1).preds = e.2) ∧
            (∀ n, n ∉ h.preds.map (·.1) → ((F g).fib n).preds = (g.fib n).preds) ∧
            (∀ n, { (F g).fib n with regs := [], preds := 0 } = { g.fib n with regs := [], preds := 0 }) ∧
            { F g with handler := none, frags := [], fibres := [], sregs := [] } = { g with handler := none, frags := [], fibres := [], sregs := [] }) ∧
        ((∀ n ∈ h.frag.fibres, (i.gang.fib n).lo ≤ (i.gang.fib n).wb - 64 ∧ 64 ≤ (i.gang.fib n).wb) →
          ∃ (F : Gang → Gang) (pre : List Frag), exec (.tret p skip) s = .next (s1.modGang i.tid i.gid F) ∧
            (F i.gang).handler = none ∧ (F i.gang).frags = (if i.gang.entry.isSome then pre else settleFrags i.gang.liveFibres 130 pre) ∧
            released i.gang.frags pre ∧
            (∀ n, ((F i.gang).fib n).wb = (i.gang.fib n).wb - (if n ∈ h.frag.fibres then 64 else 0)) ∧
            ((h.preds.map (·.1)).Nodup → ∀ e ∈ h.preds, ((F i.gang).fib e.1).preds = e.2) ∧
            (∀ n, n ∉ h.preds.map (·.1) → ((F i.gang).fib n).preds = (i.gang.fib n).preds) ∧
            (∀ n ∈ h.frag.fibres, ∀ e ∈ h.fes, e.1 = n → (F i.gang).reg (.v n (e.2.1 % i.team.S)) = i.gang.reg (.v n (e.2.1 % i.team.S))) ∧
            (∀ r, ((F i.gang).reg r).val = (i.gang.reg r).val) ∧ (F i.gang).gstat = i.gang.gstat ∧ (F i.gang).rights = i.gang.rights)))

/-- R288, R391, R24, R60: what the end of a gang and of a team does. The gang is gone; each of its fill rights fails with PGEND and the
code, a rendezvous that waits for it is broken; with the last gang the team has ended, and what it held of tiles, accumulators and stash
lines is free once nothing of it is in flight. -/
def Sys2Proof.Machine.GangEnds (s : State) (tid gid code : Nat) (t : Team) (g : Gang) : Prop :=
  let u := endGang s tid gid code
  u.gang tid gid = none ∧
    (∀ r ∈ g.rights, ∃ m ∈ u.pend.pubs, m.team = tid ∧ m.gang = gid ∧ m.rn = r.2.rn ∧ m.bix = r.2.bix ∧ m.fail = some (0x13, code)) ∧
    (∀ h y, h ≠ gid → mapGet h t.gangs = some y → ∃ z, u.gang tid h = some z ∧
      z.latch = y.latch.map (fun l => { l with broken := l.broken || l.gset.getLsbD gid })) ∧
    ((∀ e ∈ t.gangs, e.1 = gid) → ∀ y, u.team tid = some y → y.ended = true ∧ y.gangs = [])

/-- R475: a trap in a handler, and a trap of a team whose `tvec` is 0, end the team instead. R391: TEAMKILL with an active
fibre ends every gang of the team; each fill right fails with PGEND and the handler's cause, rendezvous that wait for an
ended gang are broken, tiles, accumulators and stash lines are released once nothing of the team is in flight, and one
record of kind 4 is counted and queued. R288: the end of one gang. Model choices it rests on: notes/assumptions entry 87.
-/
def Obligations.TeamsEndByTrapOrKill : Prop :=
  (∀ s tid gid team g f x imp, State.team s tid = some team → State.gang s tid gid = some g →
    (∀ h, g.handler = some h → takeTrap s tid gid f x imp =
      endTeam ((failProbes s tid gid f x).modGang tid gid (fun g => { g with tpc := f.pc })) tid gid 0x1D h.cause h.cause x.fib x.sub) ∧
    (x.fails = false → failProbes s tid gid f x = s) ∧
    (x.fails = true → failProbes s tid gid f x = failRights (withdrawProbes s tid gid f) tid gid x.cause x.sub) ∧
    (g.handler = none → team.tvec = 0 → takeTrap s tid gid f x imp =
      endTeam ((failProbes s tid gid f x).modGang tid gid (fun g => { g with
        tcause := tcauseOf x imp, tpc := f.pc, taddr := x.addr, tres := f.pc + BitVec.ofNat 64 x.after }))
        tid gid x.cause x.cause x.cause x.fib x.sub)) ∧
  (∀ s i p f, Issues s i → (active i p).head? = some f →
    let c := match i.gang.handler with | some h => h.cause | none => 0
    ∃ t, exec (.teamkill p) s = .next t ∧ t = endTeam s i.tid i.gid 0x1C c c ∧ (∀ e ∈ i.team.gangs, t.gang i.tid e.1 = none) ∧
      ∀ y, t.team i.tid = some y → y.ended = true ∧ y.gangs = []) ∧
  (∀ s tid gid cause first code fib sub t g, State.team s tid = some t → State.gang s tid gid = some g →
    let u := endTeam s tid gid cause first code fib sub
    let e : ErrInfo := { gangErr t g fib cause with sub, kind := 4, aux := first, addr := g.tpc.toNat }
    (∀ y ∈ t.gangs, u.gang tid y.1 = none) ∧ (∀ y, u.team tid = some y → y.ended = true ∧ y.gangs = []) ∧
    ((t.gangs.map (·.1)).Nodup → ∀ y ∈ t.gangs, ∀ r ∈ y.2.rights, ∃ m ∈ u.pend.pubs,
      m.team = tid ∧ m.gang = y.1 ∧ m.rn = r.2.rn ∧ m.bix = r.2.bix ∧ m.fail = some (0x13, code)) ∧
    ∃ v, u = errEvent v t.ctx e) ∧
  (∀ s tid gid code t g, State.team s tid = some t → State.gang s tid gid = some g → GangEnds s tid gid code t g) ∧
  (∀ s c x e, State.ctx? s c = some x → ∃ v y q, errEvent s c e = drainRecs v ∧ v.ctx? c = some y ∧ y.errcnt = satQuad x.errcnt 1 ∧
    v.recq = s.recq ++ [q] ∧ q.ctx = some c ∧ q.e = e ∧ q.seq = x.nrecs % 2 ^ 32 ∧ y.nrecs = x.nrecs + 1) ∧
  (∀ s tid t, State.team s tid = some t → t.ended = true →
    let busy := t.stash.any (fun e => e.2.lines.any (fun l => l.2.st == StashSt.filling && l.2.sent.isSome && l.2.bad.isNone))
    ((teamIdle s tid = false ∨ busy = true) → teamRelease s tid = s) ∧
    (teamIdle s tid = true → busy = false → ∀ y, (teamRelease s tid).team tid = some y → y.stash = [] ∧ y.tiles = [] ∧ y.accs = []))

/-- R387, R472, R466: what SRD writes, for every special register; the read of the cycle counter finds it moved on, never
back, and that of the last store-fault word drops the record. R27, R220: SWR writes `gstat`, `cbase` or `tvec`, checks the
last two, and traps for every other number. Model choices it rests on: notes/assumptions entries 1, 12, 14, 107. -/
def Obligations.SpecialRegisterReadAndWrite : Prop :=
  ((∀ p d n, n.toNat ≠ 17 → n.toNat ≠ 43 → ∀ s i, Issues s i → active i p ≠ [] →
    let x : Slice := { p, d, wide := specialWidth n.toNat == some 64, words := 1, needs := fun _ _ => []
                       lane := fun i f => { val := specialVal s i n.toNat 0 f } }
    x.Go i → ∃ t, exec (.srd p d n) s = .next t ∧ x.Effect s t i) ∧
  (∀ p d s i, Issues s i → active i p ≠ [] →
    let q := s.tick i.team.place.agent
    let x : Slice := { p, d, wide := true, words := 1, needs := fun _ _ => [], lane := fun _ _ => { val := BitVec.ofNat 64 q.1 } }
    x.Go i → (∃ t, exec (.srd p d 17) s = .next t ∧ x.Effect q.2 t i) ∧ mapGetD 0 i.team.place.agent q.2.cycles = q.1 ∧
      mapGetD 0 i.team.place.agent s.cycles ≤ q.1 ∧ (mapGetD 0 i.team.place.agent s.cycles < 2 ^ 64 → q.1 < 2 ^ 64)) ∧
  (∀ p d s i, Issues s i → active i p ≠ [] →
    let x : Slice := { p, d, wide := true, words := 1, needs := fun _ _ => [], lane := fun _ _ => { val := sfWord s i.tid i.gid 3 } }
    x.Go i → ∃ t, exec (.srd p d 43) s = .next (dropRec t i.tid i.gid) ∧ x.Effect s t i)) ∧
  (∀ s i p n a f, Issues s i → (active i p).head? = some f →
    let v := valueOf i (opA a (specialWidth (BitVec.toNat n) == some 64)) f
    let trap := Host.Outcome.next (takeTrap s i.tid i.gid i.frag (illopnd 5 f) false)
    OpsReady i [opA a (specialWidth n.toNat == some 64)] (active i p) [] →
    exec (.swr p n a) s =
      if n = 5 then .next (advance (s.modGang i.tid i.gid (fun g => { g with gstat := loWord v &&& 0xFF })) (wordsOf [a]))
      else if n = 6 then
        if v.toNat - v.toNat % 64 < 0x0003000000000000 ∧ (v.toNat - v.toNat % 64) % 192 = 0 then
          .next (advance (s.modTeam i.tid (fun t => { t with cbase := v })) (wordsOf [a]))
        else trap
      else if n = 27 then
        if v.toNat % 8 = 0 ∧ v.toNat < 0x0003000000000000 then
          .next (advance (s.modTeam i.tid (fun t => { t with tvec := v })) (wordsOf [a]))
        else trap
      else trap)


/-! ### Memory instructions and the steps that complete them -/

/-- R337, R334, R335, R42: LD, LDS and LDC whose accesses pass R20 become pending: the destinations are EMPTY, scratchpad
parts have their bytes, no memory changes, and no other register. R20, R138: an order not accepted is an illegal operand,
and the lowest fibre whose access fails a check traps; R17 to R19: the checks that come before translation, in their
order. -/
def Obligations.LoadIssuesAndEmptiesDestinations : Prop :=
  (∀ (ins : Instr) (p : Pred) (d : Dst) (a b : Src) (m : MemMod) (f : Form),
    (ins = .ld p d a b m ∧ f = .pair) ∨ (ins = .lds p d a b m ∧ f = (if m.w then .weave else .spad)) ∨
      (ins = .ldc p d a b m ∧ f = .window) →
    ∀ s i, Issues s i → active i p ≠ [] →
    let fs := accFibs (active i p) d
    let ds := fs.flatMap (dstRegs i.team.S i.gang d (if m.quad then 2 else 1))
    let n := MemMod.bytes m
    OpsReady i (addrOps f a b) fs ds →
    AccessTraps ins s i (orderOk [1] m.ord m.sco) (fs.headD 0)
      (fs.map (fun x => (accessOf i f a b x, resolve s i .load n n (accessOf i f a b x)))) ∧
    (orderOk [1] m.ord m.sco = true →
    ∀ ts s2, resolveAll s i .load n n (fs.map (accessOf i f a b)) = .ok ts s → spadsReady s i n 0 true ts = .ok () s2 →
      genTouchGate s2 i (ts.map (fun e => (e.1.fib, e.2))) n m.hint.toNat = .ok () s2 → memOpen s2 i.tid i.gid = true →
      storeOverlap s2 i (ts.map (·.2)) = false →
      ∃ t ls l, exec ins s = .next t ∧ GangAfter s t i (wordsOf [a, b]) (emptied i.gang ds) ∧ t.pend.loads = ls ++ [l] ∧
        ls.map (·.id) = s2.pend.loads.map (·.id) ∧
        l.team = i.tid ∧ l.gang = i.gid ∧ l.core = i.team.place.core ∧ l.dst = d ∧ l.wide = m.quad ∧ l.n = n ∧ l.sx = m.sx ∧
        l.hint = m.hint.toNat ∧ l.acq = (if m.ord = 1 then some m.sco.toNat else none) ∧ l.org = i.origin ∧
        l.parts.map (fun x => (x.fib, x.ga, x.tgt)) = ts.map (fun e => (e.1.fib, e.1.ga, e.2)) ∧
        (SpadsNow s2 i (ts.map (·.2)) →
          ∀ x ∈ l.parts, ∀ u o, x.tgt = .spad u o → x.val = some (loadValue n m.sx (spadRead s2 u o n))) ∧
        SameBytes s2 t ∧ (s.spadsSound → SameBytes s s2))) ∧
  (∀ s tid t pidx k n al g, 0 < n → k = .load ∨ k = .store ∨ k = .atom ∨ k = .atomsc ∨ k = .pref →
    let w := locate s tid t pidx k n al g
    (¬ Canonical g → w = .error 1) ∧ (Canonical g → ¬ Accepted k g → w = .error 3) ∧
    (Canonical g → Accepted k g → g.toNat % al ≠ 0 → w = .error 0x0F) ∧
    (Canonical g → Accepted k g → g.toNat % al = 0 → ¬ InBounds s t n g → w = .error 2) ∧
    (Canonical g → Accepted k g → g.toNat % al = 0 → InBounds s t n g →
      (g.toNat < 3 * 2 ^ 60 → ∃ x, w = .ok x) ∧ ∀ c, w = .error c → c = 1)) ∧
  (∀ s i k n al a, Iss.probe i (Acc.fib a) = none →
    (a.bad = true → resolve s i k n al a = .cause 1) ∧
    (a.bad = false → ∀ c, locate s i.tid i.team (i.gang.fib a.fib).pidx.toNat k n al a.ga = .error c → resolve s i k n al a = .cause c))

/-- R337, R197, R97: a load all of whose parts have values writes its destinations, FULL, or FAILED for a failed block of
the policy that says so, and nothing else; and a part that its home line serves takes the line's bytes. -/
def Obligations.LoadReplyWritesDestinations : Prop :=
  ∀ s id l g, s.pend.loads.find? (fun x => x.id == id) = some l → s.gang l.team l.gang = some g → g.ra = none →
    (l.parts.map (·.fib)).Nodup → (∀ p ∈ l.parts, (mapGet p.fib g.fibres).isSome) → (∀ n, l.dst = .scal n → l.parts.length ≤ 1) →
    Unmoved s l.team l.id →
    let S := ((s.team l.team).map Team.S).getD 64
    ((∀ p ∈ l.parts, p.val.isSome ∧ p.st ≠ .again) →
      ∃ t h, exec (.loadReply id) s = .next t ∧ t.gang l.team l.gang = some h ∧
        (∀ p ∈ l.parts, (replyRegs S l.dst l.wide p.fib p.pos).map h.reg =
          ((match l.dst with
            | .pred _ | .file _ => []
            | _ => match p.st with
              | .failed 1 c k => List.replicate 2 ({ fe := .failed (BitVec.ofNat 8 c) (BitVec.ofNat 16 k) } : Reg)
              | _ => [{ val := loWord (p.val.getD 0) }, { val := hiWord (p.val.getD 0) }]).take (if l.wide then 2 else 1))) ∧
        (∀ r, (∀ p ∈ l.parts, r ∉ replyRegs S l.dst l.wide p.fib p.pos) → h.reg r = g.reg r) ∧
        { h with sregs := [], fibres := [] } = { g with sregs := [], fibres := [] } ∧
        (∀ x ∈ t.pend.loads, x.id ≠ id) ∧ SameBytes s t) ∧
    (∀ p pa m s0 s1, l.parts = [p] → p.tgt = .dev pa → p.val = none → p.st = .ready → l.hint = 0 → s.eccSound →
      let k := LineKey.dev (pa / 192)
      let off := pa % 192
      ((p.sent = some m ∧ s0 = s) ∨ (p.sent = none ∧ unsentAtom s l.team l.gang l.id k = false ∧ unsentLoad s l.team l.gang l.id k = false ∧
        s.fresh = (m, s0))) →
      coreEarlier s0 l.core m k = false → WayFree s0 k → homeReady s0 k off l.n false true false l.id = .ready s1 →
      ∀ r, l.dst = .vec r → ∃ t h, exec (.loadReply id) s = .next t ∧ t.gang l.team l.gang = some h ∧
        (h.reg (.v p.fib p.pos)).val = loWord (loadValue l.n l.sx (homeRead s k off l.n)) ∧ (h.reg (.v p.fib p.pos)).fe = .full ∧
        (∀ x ∈ t.pend.loads, x.id ≠ id) ∧ SameBytes s t)

/-- R338, R42, R126: ST and STS whose accesses pass steps 1 to 4 of R20 write their scratchpad bytes, a higher fibre's
over a lower one's, and enter the store buffer with one entry for each page; nothing else of memory changes, and no
register. R20, R138: an order not accepted is an illegal operand, and the lowest fibre whose address fails steps 1 to 4
traps. Model choices it rests on: notes/assumptions entry 95. -/
def Obligations.StoreIssuesAndWritesScratchpad : Prop :=
  ∀ (ins : Instr) (p : Pred) (d : Dst) (a b : Src) (m : MemMod) (f : Form),
    (ins = .st p d a b m ∧ f = .pair) ∨ (ins = .sts p d a b m ∧ f = (if m.w then .weave else .spad)) →
    ∀ s i, Issues s i → active i p ≠ [] →
    let fs := active i p
    let n := MemMod.bytes m
    let rel := if m.ord = 2 then some m.sco.toNat else none
    OpsReady i (addrOps f a b ++ [opD d m.quad]) fs [] →
    AccessTraps ins s i (orderOk [2] m.ord m.sco) (fs.headD 0) (fs.map (fun x =>
      let e := accessOf i f a b x
      (e, if e.bad then .cause 1 else match locate s i.tid i.team (i.gang.fib x).pidx.toNat .store n n e.ga with
        | .error c => .cause c
        | .ok _ => .hold))) ∧
    (orderOk [2] m.ord m.sco = true →
    ∀ ws s2, storeChecks s i n (fs.map (accessOf i f a b)) = .ok ws s → memOpen s i.tid i.gid = true →
      let spads := ws.filterMap (fun e => match e.2 with | .spad u o => some (e.1, Target.spad u o) | _ => none)
      let pages := ws.filterMap (fun e => match e.2 with | .page va => some (e.1, va) | _ => none)
      let pns := (pages.map (fun e => e.2 / 12288)).eraseDups
      (pns ≠ [] → sbufRoom (s.core i.team.place.core) pns.length = true) →
      (∀ sc, rel = some sc → spads ≠ [] → releaseReady s i.team.place.core i.tid i.gid sc s.sched.nextId = true) →
      spadsReady s i n 1 true spads = .ok () s2 →
      ∃ t es, exec ins s = .next t ∧ GangAfter s t i (wordsOf [a, b]) [] ∧
        (SpadsNow s2 i (spads.map (·.2)) → ∀ u o,
          t.byteAt (.spad u o) = spadUnder s2 n (spads.map (fun e => (e.2, valueOf i (opD d m.quad) e.1.fib))) u o) ∧
        (∀ x, (∀ u o, x ≠ .spad u o) → t.byteAt x = s2.byteAt x) ∧ (s.spadsSound → SameBytes s s2) ∧
        (t.core i.team.place.core).sbuf = (s2.core i.team.place.core).sbuf ++ es ∧
        es.map (fun e => { e with id := 0 }) = pns.map (fun pn =>
          ({ id := 0, ctx := i.team.ctx, team := i.tid, gang := i.gid, org := i.origin, ipc := i.frag.pc, n, rel,
             inst := s2.sched.nextId, hint := m.hint.toNat, fibs := (pages.filter (fun e => e.2 / 12288 == pn)).map (fun e =>
               { fib := e.1.fib, ga := e.1.ga, va := e.2, val := valueOf i (opD d m.quad) e.1.fib }) } : StoreEnt)))

/-- R126, R127, R71, R140, R478: a buffered store of one fibre that translates to writable memory leaves for its home
line; it is performed there in the order of the core's requests, writes exactly its bytes and leaves the buffer; one that
faulted enters the core's store-fault queue, and its gang takes the imprecise trap at an instruction boundary. Model
choices it rests on: notes/assumptions entry 95. -/
def Obligations.BufferedStoresPerformOrFault : Prop :=
  (∀ s core id e f l lv pa, (State.core s core).sbuf.find? (fun e => e.id == id && e.cause.isNone) = some e → e.sent = none →
    e.fibs = [f] → e.shadow = [] →
    translate s e.ctx core (f.va / 12288) = .hit l lv →
    landing s e.ctx f.va .store (rightOf s e.team e.gang id) l = .ok (.dev pa) →
    (∀ sc, e.rel = some sc → releaseReady s core e.team e.gang sc id = true) →
    storeHeld s core e [.dev (pa / 192)] false = false → (∀ x ∈ (s.core core).sbuf, x.id = id → x = e) →
    let e' : StoreEnt := { e with sent := some s.sched.nextId, tgts := [(f, .dev pa)] }
    ∃ t, exec (.storeTranslate core id) s = .next t ∧ e' ∈ (t.core core).sbuf ∧ (∀ x ∈ (t.core core).sbuf, x.id = id → x = e') ∧
      t.mem = s.mem ∧ t.teams = s.teams) ∧
  (∀ s core id e f n pa s1, (State.core s core).sbuf.find? (fun e => e.id == id && e.cause.isNone) = some e →
    e.sent = some n → e.tgts = [(f, .dev pa)] →
    let k := LineKey.dev (pa / 192)
    let off := pa % 192
    off + e.n ≤ 192 → coreEarlier s core n k = false → homeReady s k off e.n true (takesWay s k e.hint) false e.id = .ready s1 →
    WayFree s k → Definite s k off e.n → s.eccSound → (∀ x ∈ (s.core core).sbuf, x.id = id → x = e) →
    ∃ t, exec (.storeTranslate core id) s = .next t ∧ homeRead t k off e.n = leBytes e.n f.val.toNat ∧
      (∀ pl o, (LineKey.dev pl ≠ k ∨ o < off ∨ off + e.n ≤ o) → o < 192 → lineByte t (.dev pl) o = lineByte s (.dev pl) o) ∧
      (∀ x ∈ (t.core core).sbuf, x.id ≠ id) ∧ t.teams = s.teams) ∧
  (∀ s core id e, (State.core s core).sbuf.find? (fun e => e.id == id && e.cause.isSome) = some e → e.ended = false →
    (∀ x ∈ (s.core core).sbuf, x.id = id → x = e) → savingTeam s e.team = false →
    if 16 ≤ ((s.core core).sfq.filter (fun r => !savingTeam s r.team)).length then exec (.storeFaultEnter core id) s = .next s
    else ∃ t, exec (.storeFaultEnter core id) s = .next t ∧
      (t.core core).sfq = (s.core core).sfq ++ [⟨e.team, e.gang, sfBits e (e.cause.getD 0) (s.core core).sfSeq⟩] ∧
      (t.core core).sfSeq = ((s.core core).sfSeq + 1) % 256 ∧ (∀ x ∈ (t.core core).sbuf, x.id ≠ id) ∧
      (∀ g, s.gang e.team e.gang = some g → t.gang e.team e.gang = some { g with stPending := true }) ∧ t.mem = s.mem) ∧
  (∀ s tid gid g f r rs, State.gang s tid gid = some g → g.stPending = true → g.handler = none → g.entry = none → g.ra = none →
    g.heldFor = none → g.frags.find? (fun f => !f.held) = some f → f.atBoundary s = true → gangRecs s tid gid = r :: rs →
    let t := takeTrap s tid gid f { cause := 0x16, fib := ((maskList (r.bits.extractLsb' 128 64)).head?).getD 0 } true
    exec (.stfault tid gid) s = .next (match t.gang tid gid with
      | some h => if h.handler.isSome || h.entry.isSome then t.modGang tid gid (fun g => { g with stPending := false }) else t
      | none => t))

/-- R339: PREF changes no register and no byte of memory, and asks for each line of device memory; when such a line is
obtained it is whole in L2. -/
def Obligations.PrefetchOnlyFillsCaches : Prop :=
  (∀ s i p a b l2, Issues s i → OpsReady i (addrOps .pair a b) (active i p) [] →
    let l := (active i p).map (fun f => (accessOf i .pair a b f, resolve s i .pref 1 1 (accessOf i .pair a b f)))
    memOpen s i.tid i.gid = true → missing l = [] →
    ∃ t, exec (.pref p a b l2) s = .next t ∧ GangAfter s t i (wordsOf [a, b]) [] ∧ SameBytes s t ∧
      t.pend.loads = s.pend.loads ∧ t.pend.atoms = s.pend.atoms ∧
      ∀ e ∈ l, ∀ pa, e.2 = .at (.dev pa) → ∃ x ∈ t.pend.prefs, x.key = .dev (pa / 192) ∧ x.core = i.team.place.core ∧ x.l2 = l2) ∧
  (∀ s (x : PendPref) pl s1, (∀ l ∈ s.pend.loads, l.id ≠ x.id) → s.pend.prefs.find? (fun y => y.id == x.id) = some x →
    x.key = .dev pl → s.eccSound → coreEarlier s x.core x.id x.key = false →
    homeReady s x.key 0 192 false true true x.id = .ready s1 → WayFree s x.key →
    ∃ t ln, exec (.loadReply x.id) s = .next t ∧ t.line x.key = some ln ∧ ln.valid = 15 ∧ (∀ y ∈ t.pend.prefs, y.id ≠ x.id) ∧
      SameBytes s t ∧ t.teams = s.teams ∧ (x.l2 = true → t.cores = s.cores))

/-- R344, R345, R154, R353, R397: ATOM, ATOMSC, RED, BOINIT, BOARR and SEMSIG whose accesses pass R20 become one request
for each word, fibres in order; the destinations are EMPTY; a scratchpad word is changed at once, and no other byte. R20,
R138: an order not accepted is an illegal operand, and the lowest fibre whose access fails a check traps. -/
def Obligations.AtomicsIssueOneRequestPerWord : Prop :=
  ∀ ins x, atomForm ins = some x → ∀ s i, Issues s i → active i x.p ≠ [] →
    OpsReady i x.ops (x.readers i) (x.dsts i) →
    AccessTraps ins s i x.legal ((active i x.p).headD 0) ((x.accs i).map (fun e => (e, resolve s i x.kind x.act.bytes x.al e))) ∧
    (x.legal = true → ∀ ts s2, resolveAll s i x.kind x.act.bytes x.al (x.accs i) = .ok ts s →
      memOpen s i.tid i.gid = true → storeOverlap s i (ts.map (·.2)) = false →
      let spads := ts.filter (fun e => match e.2 with | .spad _ _ => true | _ => false)
      (∀ sc, x.rel = some sc → spads ≠ [] → releaseReady s i.team.place.core i.tid i.gid sc s.sched.nextId = true) →
      spadsReady s i x.act.bytes 2 true spads = .ok () s2 →
      ∃ t as, exec ins s = .next t ∧ GangAfter s t i x.words (emptied i.gang (x.dsts i)) ∧ t.pend.atoms = s2.pend.atoms ++ as ∧
        as.map (fun a => (a.tgt, a.fibs.map (fun y => { y with ret := none }))) = (groupWords ts).map (fun w => (w.1, x.parts i w.2)) ∧
        (∀ a ∈ as, a.team = i.tid ∧ a.gang = i.gid ∧ a.dst = x.d ∧ a.act = x.act ∧ a.rel = x.rel ∧ a.acq = x.acq ∧ a.org = i.origin) ∧
        (SpadsNow s2 i (ts.map (·.2)) → ∀ a ∈ as, ∀ u o, a.tgt = .spad u o →
          let r := combine x.act (leNat (spadRead s2 u o x.act.bytes)) (a.fibs.map (fun y => { y with ret := none }))
          a.fibs = r.1 ∧ ∀ j < x.act.bytes, t.byteAt (.spad u (o + j)) = (leBytes x.act.bytes r.2).getD j 0) ∧
        (∀ y, (∀ e ∈ ts, ∀ u o q, e.2 = .spad u o → o ≤ q → q < o + x.act.bytes → y ≠ .spad u q) → t.byteAt y = s2.byteAt y) ∧
        (s.spadsSound → SameBytes s s2))

/-- R69, R71, R149, R344: a request to a line of device memory leaves once its release lets it; it is performed at its
home in the order of the core's requests: the line holds the new content, each fibre's destination what its own step
found, and no other byte changes. -/
def Obligations.AtomicReplyPerformsAndReturns : Prop :=
  (∀ s id a pa, s.pend.atoms.find? (fun x => x.id == id) = some a → (∃ x ∈ a.fibs, x.ret = none) → a.sent = none → a.sc = 0 →
    a.tgt = .dev pa →
    let k := LineKey.dev (pa / 192)
    unsentAtom s a.team a.gang id k = false → unsentLoad s a.team a.gang id k = false →
    unsentStore s a.core a.team a.gang id [k] = false →
    exec (.atomicReply id) s = .next (if (∀ sc, a.rel = some sc → releaseReady s a.core a.team a.gang sc id = true) then
      s.fresh.2.modPend (fun p => { p with atoms := p.atoms.map (fun x => if x.id == id then { a with sent := some s.sched.nextId } else x) })
      else s)) ∧
  (∀ s id a d g pa m s1, s.pend.atoms.find? (fun x => x.id == id) = some a → (∃ x ∈ a.fibs, x.ret = none) → a.sent = some m →
    a.tgt = .dev pa → a.dst = some d → s.gang a.team a.gang = some g → g.ra = none → (a.fibs.map (·.fib)).Nodup →
    (∀ x ∈ a.fibs, (mapGet x.fib g.fibres).isSome) → (∀ n, d = .scal n → a.fibs.length ≤ 1) → s.eccSound →
    Unmoved s a.team a.id →
    let k := LineKey.dev (pa / 192)
    let off := pa % 192
    let n := a.act.bytes
    let wide := match a.act with | .op _ t => t.wide | _ => false
    let S := ((s.team a.team).map Team.S).getD 64
    let r := combine a.act (leNat (homeRead s k off n)) a.fibs
    off + n ≤ 192 → coreEarlier s a.core m k = false → homeReady s k off n true true false a.id = .ready s1 → WayFree s k →
    Definite s k off n →
    ∃ t h, exec (.atomicReply id) s = .next t ∧ homeRead t k off n = leBytes n r.2 ∧
      (∀ j o, (j ≠ k ∨ o < off ∨ off + n ≤ o) → lineByte t j o = lineByte s j o) ∧ SameBytes s t ∧
      (∀ x ∈ t.pend.atoms, x.id ≠ id) ∧ t.gang a.team a.gang = some h ∧
      (∀ x ∈ r.1, ∀ v, d = .vec v → (h.reg (.v x.fib x.pos)).val = loWord (x.ret.getD 0) ∧ (h.reg (.v x.fib x.pos)).fe = .full) ∧
      (∀ q, (∀ x ∈ a.fibs, q ∉ replyRegs S d wide x.fib x.pos) → h.reg q = g.reg q))

/-- R346, R149, R150, R153, R155: a FENCE goes on once its release and acquire conditions hold; FENCE.sc asks for a
ticket, waits for it, and goes on with it; a FENCE.acq_rel whose reads are done invalidates while its release still waits;
the sequencer grants one ticket at a time, in the order of the requests. R355, R128, R158: SDRAIN goes on once every store
of the gang in its core's buffer has translated; WAITCNT once at most n operations of the class are outstanding, with an
acquire at the widest scope of the retired operations that it is the first to name. Model choices it rests on:
notes/assumptions entries 4, 75. -/
def Obligations.FencesDrainsAndCounters : Prop :=
  ((∀ s i p ord sco f, Issues s i → (active i p).head? = some f →
    let core := i.team.place.core
    let rel := releaseReady s core i.tid i.gid (BitVec.toNat sco) s.sched.nextId = true
    let acq := readsDone s i.tid i.gid = true ∧ gangOpen s i.tid i.gid = true
    (sco.toNat < 5 → ord = 2 → exec (.fence p ord sco) s = .next (if rel then advance s 1 else s.waiting)) ∧
    (sco.toNat < 5 → ord = 1 ∨ (ord = 3 ∧ rel) → i.frag.inval = false → acq → exec (.fence p ord sco) s =
      .next (advance ((acquire s core sco.toNat).modFrag (fun f => { f with inval := false })) 1)) ∧
    (sco.toNat < 5 → ord = 3 → ¬ rel → i.frag.inval = false → acq → exec (.fence p ord sco) s =
      .next ((acquire s core sco.toNat).modFrag (fun f => { f with inval := true })).waiting) ∧
    (sco.toNat < 5 → ord = 1 ∨ (ord = 3 ∧ rel) → i.frag.inval = true → exec (.fence p ord sco) s =
      .next (advance (s.modFrag (fun f => { f with inval := false })) 1)) ∧
    (sco.toNat < 5 → ((ord = 1 ∨ ord = 3) ∧ i.frag.inval = false ∧ ¬ acq) ∨ (ord = 3 ∧ i.frag.inval = true ∧ ¬ rel) →
      exec (.fence p ord sco) s = .next s.waiting) ∧
    (3 ≤ sco.toNat → sco.toNat < 5 → ord = 4 → i.frag.sc = 0 → rel → acq → exec (.fence p ord sco) s =
      .next (({ s with seq := { s.seq with queue := s.seq.queue ++ [.fence i.tid i.gid i.frag.lowest] } } : State).modFrag
        (fun f => { f with sc := 1 }))) ∧
    (3 ≤ sco.toNat → sco.toNat < 5 → ord = 4 → i.frag.sc = 1 ∨ (i.frag.sc = 0 ∧ ¬ (rel ∧ acq)) →
      exec (.fence p ord sco) s = .next s.waiting) ∧
    (3 ≤ sco.toNat → sco.toNat < 5 → ord = 4 → i.frag.sc = 2 → exec (.fence p ord sco) s =
      .next (advance ((acquire s core sco.toNat).modFrag (fun f => { f with sc := 0 })) 1)) ∧
    ((ord ≠ 1 ∧ ord ≠ 2 ∧ ord ≠ 3 ∧ ord ≠ 4 ∨ 5 ≤ sco.toNat ∨ (ord = 4 ∧ sco.toNat < 3)) →
      exec (.fence p ord sco) s = .next (takeTrap s i.tid i.gid i.frag (illopnd 5 f) false))) ∧
  (∀ s q, State.seq s = { s.seq with holder := none } →
    (∀ id, s.seq.queue = .atom id :: q → (∃ a ∈ s.pend.atoms, a.id = id) →
      exec .scTicketGrant s = .next (({ s with seq := { queue := q, holder := some id, nextTicket := s.seq.nextTicket + 1 } } : State).modPend
        (fun p => { p with atoms := p.atoms.map (fun a => if a.id == id then { a with sc := 3 } else a) }))) ∧
    (∀ t g lead, s.seq.queue = .fence t g lead :: q →
      exec .scTicketGrant s = .next (({ s with seq := { s.seq with queue := q, nextTicket := s.seq.nextTicket + 1 } } : State).modGang t g
        (fun x => { x with frags := x.frags.map (fun f => if f.mask.getLsbD lead ∧ f.sc = 1 then { f with sc := 2 } else f) })))) ∧
  (∀ s, s.seq.holder.isSome → exec .scTicketGrant s = .next s)) ∧
  (∀ s i, Issues s i →
    (∀ p, (∀ e ∈ (s.core i.team.place.core).sbuf, ¬ (e.team = i.tid ∧ e.gang = i.gid ∧ e.sent = none)) →
      exec (.sdrain p) s = .next (advance s 1)) ∧
    (∀ p, (∃ e ∈ (s.core i.team.place.core).sbuf, e.team = i.tid ∧ e.gang = i.gid ∧ e.sent = none) →
      exec (.sdrain p) s = .next s.waiting) ∧
    (∀ p c n, i.gang.cnt c ≤ BitVec.toNat n →
      let l := i.gang.retiredOf c
      let k := l.length + i.gang.cnt c - n.toNat
      exec (.waitcnt p c n) s = .next (advance (acquire (s.modGang i.tid i.gid (fun g =>
        { g with retired := engPut c (l.drop k) g.retired })) i.team.place.core
        ((l.take k).foldl (fun w e => max w (max 1 e.2)) 0)) 1)) ∧
    (∀ p c n, BitVec.toNat n < i.gang.cnt c → exec (.waitcnt p c n) s = .next s.waiting))

/-- R187, R186, R348, R349: GBAR waits in WAITGANG, and every LIVE fibre there goes on at the next instruction in one
fragment; BAR and WBAR wait with a release; a barrier at which every fragment of the team waits lets each go on and
empties the L1; a PARKED fragment that has waited long enough goes on alone. Model choices it rests on: notes/assumptions
entries 18, 75, 99. -/
def Obligations.BarriersWaitForAll : Prop :=
  (∀ s i p, Issues s i → i.gang.handler = none → i.team.place.isTwill = false →
    ∃ t, exec (.gbar p) s = .next t ∧ FragsBecome s t i (i.gang.frags.map (fun (x : Frag) =>
      if x.mask.getLsbD s.sched.cur.lead then { x with st := .waitgang, wait := .gbar } else x))) ∧
  (∀ s i p, Issues s i → i.gang.handler = none → i.team.place.isTwill = true →
    exec (.gbar p) s = .next ((advance s 1).modFrag (fun f => { f with wait := .regang }))) ∧
  (∀ live fs a, (a :: fs).all (fun (x : Frag) => x.st == .waitgang && x.wait == .gbar && x.pc == a.pc) = true →
    (∀ f ∈ live, ∃ x ∈ a :: fs, x.mask.getLsbD f = true) →
    ∃ y : Frag, mergeGang live (a :: fs) = some [y] ∧ y.pc = a.pc + 8 ∧ y.st = .running ∧
      ∀ f, y.mask.getLsbD f = true ↔ ∃ x ∈ a :: fs, x.mask.getLsbD f = true) ∧
  (∀ s i p n, Issues s i →
    (releaseReady s i.team.place.core i.tid i.gid 1 s.sched.nextId = true →
      exec (.bar p n) s = .next (barriersTry (settleGang (s.modFrag (fun f => { f with wait := .bar n.toNat })) i.tid i.gid) i.tid)) ∧
    (releaseReady s i.team.place.core i.tid i.gid 2 s.sched.nextId = true →
      exec (.wbar p n) s = .next (barriersTry (settleGang (s.modFrag (fun f => { f with wait := .wbar n.toNat })) i.tid i.gid) i.tid))) ∧
  (∀ s tid t n, State.team s tid = some t → t.ended = false → (t.gangs.map (·.1)).Nodup → fragsOf s [tid] ≠ [] →
    (∀ f ∈ fragsOf s [tid], f.wait = .bar n) →
    let u := barrierTry s [tid] (.bar n) 1
    (∀ gid g, mapGet gid t.gangs = some g →
      let pre := g.frags.map (fun f => { f with wait := .none, pc := f.pc + 8 })
      u.gang tid gid = some { g with frags :=
        if g.handler.isSome ∨ g.entry.isSome ∨ g.ra.isSome then pre else settleFrags g.liveFibres 130 pre }) ∧
    (u.core t.place.core).l1 = [] ∧ SameBytes s u) ∧
  (∀ s tids w sc, (∃ f ∈ fragsOf s tids, f.wait ≠ w) → barrierTry s tids w sc = s) ∧
  (∀ s tid gid lead g, State.gang s tid gid = some g → g.handler = none → g.ra = none →
    exec (.parkTimeout tid gid lead) s = .next (settleGang (s.modGang tid gid (fun g =>
      { g with frags := g.frags.map (fun f =>
        if f.mask.getLsbD lead && f.st == .parked && !f.held then { f with st := .running, stack := f.stack.tail } else f) })) tid gid))

/-- R354, R397: BOWAIT goes on once every object it reads is complete, with NOT err in its destination, and SEMWAIT once
the semaphore has reached its value; both acquire at their scope, and look again until then. -/
def Obligations.ObjectWaitsGoOnWhenReached : Prop :=
  (∀ s i p d a sco, Issues s i → active i p ≠ [] → BitVec.toNat sco < 5 → OpsReady i [opA a true] (active i p) [] →
    ∀ ts s2 s3 l, resolveAll s i .atom 16 16 ((active i p).map (fun f => { fib := f, ga := valueOf i (opA a true) f })) = .ok ts s →
      memOpen s i.tid i.gid = true → storeOverlap s i (ts.map (·.2)) = false →
      let spads := ts.filter (fun e => match e.2 with | .spad _ _ => true | _ => false)
      spadsReady s i 16 2 false spads = .ok () s2 → peekAll (takeSpads s2 i spads) i 16 ts = (some l, s3) →
      exec (.bowait p d a sco) s = .next (if l.all (fun e => decide (natBits e.2 95 64 ≤ natBits e.2 47 0)) then
        advance (acquire (s3.modCur (fun g => l.foldl (fun g e =>
          writeDst i.team.S g d false e.1 (some (if e.2.testBit 63 then 0 else 1))) g)) i.team.place.core sco.toNat) (wordsOf [a])
        else s3)) ∧
  (∀ s i p a b sco f, Issues s i → (active i p).head? = some f → BitVec.toNat sco < 5 →
    OpsReady i [opA a true, opB b true] (active i p) [] →
    ∀ ts s2 s3 x, resolveAll s i .atom 8 8 [{ fib := f, ga := valueOf i (opA a true) f }] = .ok ts s →
      memOpen s i.tid i.gid = true → storeOverlap s i (ts.map (·.2)) = false →
      let spads := ts.filter (fun e => match e.2 with | .spad _ _ => true | _ => false)
      spadsReady s i 8 2 false spads = .ok () s2 → peekAll (takeSpads s2 i spads) i 8 ts = (some [(f, x)], s3) →
      exec (.semwait p a b sco) s = .next (if (valueOf i (opB b true) f).toNat ≤ x then
        advance (acquire s3 i.team.place.core sco.toNat) (wordsOf [a, b]) else s3))

/-! ### Stash entries, tiles and generators -/

/-- R356, R357, R53 to R55, R71: STASHMAP puts or removes an entry once the old one's fills are done and its lines are
gone; STASHWB and STASHINV do their event on each line named; a fill leaves, in the order of the core's requests owns the
line at its home, then copies its 192 bytes into the scratchpad; a recall gives it back once no access waits for it. Model
choices it rests on: notes/assumptions entries 36, 39, 97, 101. -/
def Obligations.StashEntriesAndLines : Prop :=
  (∀ s i p a b n f, Issues s i → (active i p).head? = some f → OpsReady i [opA a true, opB b true] (active i p) [] →
    let w := valueOf i (opB b true) f
    let gva := (valueOf i (opA a true) f).toNat
    let e : Stash := { gva, soff := bitsOf w 63 44, nl := bitsOf w 43 32 }
    BitVec.toNat n < i.team.stashes → bitsOf w 31 9 = 0 → bitsOf w 3 1 = 0 →
    (w.getLsbD 0 = true → stashLegal s i.team n.toNat gva e.soff e.nl = true) →
    exec (.stashmap p a b n) s = .next (if stashWaits s i.tid n.toNat (fun _ => true) then s.waiting
      else advance ((stashUnmap s i.tid n.toNat).modTeam i.tid (fun t => { t with
        stash := if w.getLsbD 0 then mapPut n.toNat e t.stash else mapDel n.toNat t.stash })) (wordsOf [a, b]))) ∧
  (∀ s i p n x y f e, Issues s i → (active i p).head? = some f → OpsReady i [opB x, opC y] (active i p) [] →
    BitVec.toNat n < i.team.stashes → mapGet n.toNat i.team.stash = some e →
    let a := (loWord (valueOf i (opB x) f)).toNat
    let c := (loWord (valueOf i (opC y) f)).toNat
    let mine := e.lines.filter (fun l => decide (a ≤ l.1 ∧ l.1 < a + c))
    let waits := stashWaits s i.tid n.toNat (fun l => decide (a ≤ l ∧ l < a + c))
    a + c ≤ e.nl + 1 →
    exec (.stashwb p n x y) s = .next (if waits then s.waiting
      else advance (mine.foldl (fun s l => stashWriteBack s i.tid n.toNat l.1 true) s) (wordsOf [x, y])) ∧
    exec (.stashinv p n x y) s = .next (if waits then s.waiting
      else advance (mine.foldl (fun s l => stashDiscard s i.tid n.toNat l.1) s) (wordsOf [x, y]))) ∧
  (∀ s tid n j t e x g l lv pa, State.team s tid = some t → mapGet n t.stash = some e → stashLine e j = some x →
    x.st = .filling → x.bad = none → x.sent = none → s.gang x.team x.gang = some g →
    (∀ r ∈ s.xl.recs, r.who ≠ .stash tid n j x.team x.gang) →
    translate s t.ctx t.place.core ((e.gva + 192 * j) / 12288) = .hit l lv →
    landing s t.ctx (e.gva + 192 * j) .stash (fun _ _ => false) l = .ok (.dev pa) →
    exec (.stashFillReply tid n j) s = .next (setStashLine s.fresh.2 tid n j
      (some { x with sent := some s.sched.nextId, key := .dev (pa / 192), pa }))) ∧
  (∀ s tid n j t e x m pl s1, State.team s tid = some t → mapGet n t.stash = some e → stashLine e j = some x →
    x.st = .filling → x.bad = none → x.sent = some m → x.key = .dev pl →
    (x.owned = false → coreEarlier s t.place.core m x.key = false → homeReady s x.key 0 192 true = .ready s1 →
      ∃ u v, exec (.stashFillReply tid n j) s = .next u ∧ u.team tid = some v ∧ v.spad = t.spad ∧ v.gangs = t.gangs ∧
        ((mapGet n v.stash).bind (fun e => stashLine e j)) = some { x with owned := true } ∧
        (u.line x.key).bind (·.owner) = some (t.place.core, tid)) ∧
    (x.owned = true → t.ended = false → s.eccSound → ∃ u v, exec (.stashFillReply tid n j) s = .next u ∧ u.team tid = some v ∧
      (∀ o < 192, memGet v.spad (e.soff + 192 * j + o) = lineByte s x.key o) ∧
      (∀ o, (o < e.soff + 192 * j ∨ e.soff + 192 * j + 192 ≤ o) → memGet v.spad o = memGet t.spad o) ∧
      ((mapGet n v.stash).bind (fun e => stashLine e j)) = some { x with st := .clean } ∧ v.gangs = t.gangs)) ∧
  (∀ s tid n j t e x pl ln, State.team s tid = some t → mapGet n t.stash = some e → stashLine e j = some x →
    x.key = .dev pl → s.line x.key = some ln → ln.recalled = true → s.eccSound → Definite s x.key 0 192 →
    if stashWaits s tid n (· == j) then exec (.stashRecall tid n j) s = .next s
    else ∃ u v, exec (.stashRecall tid n j) s = .next u ∧ u.team tid = some v ∧ v.spad = t.spad ∧
      (x.st = .modified → homeRead u x.key 0 192 = memBytes t.spad (e.soff + 192 * j) 192) ∧
      (x.st ≠ .modified → homeRead u x.key 0 192 = homeRead (s.setLine x.key { ln with owner := none }) x.key 0 192) ∧
      (u.line x.key).bind (·.owner) = none ∧ (mapGet n v.stash).bind (fun e => stashLine e j) = none)

/-- R358 to R360, R374: TILEQ defines an EMPTY tile, which stays EMPTY with err clear until bytes are promised and have
arrived; it releases a READY one once no matrix operation reads it, waits for one that is FILLING or DRAINING, and reads
the state; TILEWAIT waits for READY, writes NOT err and acquires. -/
def Obligations.TileTable : Prop :=
  ∀ s i p f, Issues s i → (active i p).head? = some f →
    (∀ x y, OpsReady i [opA x, opB y] (active i p) [] →
      let n := (loWord (valueOf i (opA x) f)).toNat
      let w := (loWord (valueOf i (opB y) f)).toNat
      n < i.team.tileCount → tileLegal i.team n (w % 2 ^ 20) (w / 2 ^ 20) = true →
      exec (.tileq p (.deff x y)) s = .next (advance (s.modTeam i.tid (fun t =>
        { t with tiles := mapPut n { nl := w / 2 ^ 20, soff := w % 2 ^ 20, st := .empty, err := false } t.tiles })) (wordsOf [x, y]))) ∧
    (∀ x, OpsReady i [opA x] (active i p) [] →
      let n := (loWord (valueOf i (opA x) f)).toNat
      n < i.team.tileCount →
      ((i.team.tile n).st = .ready → tileInUse s i.tid n = true → exec (.tileq p (.rel x (.const 0))) s = .next s) ∧
      ((i.team.tile n).st = .ready → tileInUse s i.tid n = false → exec (.tileq p (.rel x (.const 0))) s =
        .next (advance (s.setTile i.tid n { i.team.tile n with st := .empty }) (wordsOf [x]))) ∧
      ((i.team.tile n).st = .empty → exec (.tileq p (.rel x (.const 0))) s = .next (advance s (wordsOf [x]))) ∧
      ((i.team.tile n).st = .filling ∨ (i.team.tile n).st = .draining → exec (.tileq p (.rel x (.const 0))) s = .next s) ∧
      (∀ d, let fs := accFibs (active i p) d
        Ready i.gang [] (fs.flatMap (dstRegs i.team.S i.gang d 1)) → exec (.tileq p (.rd d x (.const 0))) s =
        .next (advance (s.modGang i.tid i.gid (fun g => fs.foldl (fun g f => writeDst i.team.S g d false f
          (some (BitVec.ofNat 64 ((i.team.tile n).st.code + if (i.team.tile n).err then 4 else 0)))) g)) (wordsOf [x]))) ∧
      (∀ d, (i.team.tile n).st = .ready → exec (.tilewait p d x) s =
        .next (advance (acquire (s.modGang i.tid i.gid (fun g => (active i p).foldl (fun g f =>
          writeDst i.team.S g d false f (some (if (i.team.tile n).err then 0 else 1))) g)) i.team.place.core 1) (wordsOf [x]))) ∧
      (∀ d, (i.team.tile n).st ≠ .ready → exec (.tilewait p d x) s = .next s))

/-- R361, R89, R362: PROCQ empties its run and right register and asks; a delivery writes the record and the right's
index, and the gang holds the right; with none and `.nb`, zeros and 0xFFFFFFFF; PROCDONE and PROCFAIL send their message
and end it. Model choices it rests on: notes/assumptions entry 38. -/
def Obligations.GeneratorInstructions : Prop :=
  (∀ s i p r sr nb f, Issues s i → (active i p).head? = some f → BitVec.toNat r % 16 = 0 →
    (BitVec.toNat sr < r.toNat ∨ r.toNat + 16 ≤ sr.toNat) → i.team.generator = true →
    let regs := ((List.range 16).map (fun k => RegRef.s (r.toNat + k))) ++ [.s sr.toNat]
    Ready i.gang [] regs →
    ∃ t, exec (.procq p (.scal r) sr nb) s = .next t ∧ SameBytes s t ∧
      GangAfter s t i 1 (emptied i.gang regs) (fun g => { g with procq := g.procq ++ [(r.toNat, sr.toNat, nb)] })) ∧
  (∀ s tid gid t g sd sr nb qs h st, State.team s tid = some t → State.gang s tid gid = some g → g.procq = (sd, sr, nb) :: qs →
    t.pipe = some (h, st) → g.ra = none → (sr < sd ∨ sd + 16 ≤ sr) →
    let fits := fun (m : Merge) => match g.rights.head? with | some e => e.2.rn == m.rn && e.2.dep == m.dep | none => true
    let l := if 4 ≤ g.rights.length then [] else sortBy recordLt ((stageRecords s t.ctx h st).filter fits)
    (∀ m q, l = m :: q → ∃ u v k x, exec (.procqDeliver tid gid) s = .next u ∧ u.gang tid gid = some v ∧ v.procq = qs ∧
      (∀ j < 16, v.reg (.s (sd + j)) = { val := m.frec.extractLsb' (32 * j) 32 }) ∧ v.reg (.s sr) = { val := BitVec.ofNat 32 k } ∧
      mapGet k v.rights = some x ∧ x.rn = m.rn ∧ x.bix = m.bix ∧ x.dep = m.dep ∧ SameBytes s u ∧
      (∀ y ∈ u.felt.merges, y.rn = m.rn → y.bix = m.bix → y.taken = some (tid, gid))) ∧
    (l = [] → (∀ q ∈ g.procq, q.2.2 = false) → exec (.procqDeliver tid gid) s = .next s) ∧
    (∀ a b, l = [] → g.procq.find? (fun q => q.2.2) = some (a, b, true) → (b < a ∨ a + 16 ≤ b) →
      ∃ u v, exec (.procqDeliver tid gid) s = .next u ∧ u.gang tid gid = some v ∧ v.procq = g.procq.erase (a, b, true) ∧
      (∀ j < 16, v.reg (.s (a + j)) = {}) ∧ v.reg (.s b) = { val := 0xFFFFFFFF } ∧ v.rights = g.rights)) ∧
  (∀ s i p f, Issues s i → (active i p).head? = some f →
    (∀ x r, OpsReady i [opA x] (active i p) [] →
      let k := (loWord (valueOf i (opA x) f)).toNat
      (mapGet k i.gang.rights = some r → exec (.procdone p x) s = .next (advance (endRight s i k r none) (wordsOf [x]))) ∧
      (mapGet k i.gang.rights = none → exec (.procdone p x) s = .next (takeTrap s i.tid i.gid i.frag (illopnd 5 f) false))) ∧
    (∀ x y r, OpsReady i [opA x, opB y] (active i p) [] →
      let k := (loWord (valueOf i (opA x) f)).toNat
      mapGet k i.gang.rights = some r → exec (.procfail p x y) s =
        .next (advance (endRight s i k r (some (0x12, (valueOf i (opB y) f).toNat % 65536))) (wordsOf [x, y]))))

/-- R394 to R396, R74, R77, R78, R100: the three PROCDECL forms read their record from the scratchpad and write their
result; an owner's release waits for the range's end; PROCRESET counts the blocks it skips. Model choices it rests on:
notes/assumptions entries 30, 80, 84. -/
def Obligations.ProceduralRanges : Prop :=
  (∀ s i p r x f, Issues s i → (active i p).head? = some f → OpsReady i [opA x] (active i p) [.s (BitVec.toNat r)] →
    let off := (loWord (valueOf i (opA x) f)).toNat
    let w := memNat i.team.spad off 64
    let put := fun (v : Nat × State) => advance (putScalar v.2 (.scal r) v.1) (wordsOf [x])
    off % 64 = 0 → off + 64 ≤ i.team.spsz →
    (∀ v u, declare s i.team.ctx w = (some v, u) → exec (.procdeclDeclare p (.scal r) x) s = .next (put (v, u))) ∧
    (∀ u, declare s i.team.ctx w = (none, u) → exec (.procdeclDeclare p (.scal r) x) s = .next u) ∧
    exec (.procdeclAttach p (.scal r) x) s = .next (put (attach s i.team.ctx w)) ∧
    (i.frag.wait = .none →
      let q := releaseRange s.fresh.2 i.team.ctx w s.fresh.1
      exec (.procdeclRelease p (.scal r) x) s =
        .next (if q.2.1 then q.2.2.modFrag (fun f => { f with wait := .release s.fresh.1 })
          else advance ((putScalar q.2.2 (.scal r) q.1).modFrag (fun f => { f with wait := .none })) (wordsOf [x]))) ∧
    (∀ id, i.frag.wait = .release id → exec (.procdeclRelease p (.scal r) x) s =
      .next (if s.felt.ranges.any (fun e => e.2.releasing && e.2.relId == id) then s
        else advance ((putScalar s (.scal r) (natBits w 303 296)).modFrag (fun f => { f with wait := .none })) (wordsOf [x])))) ∧
  (∀ s rn r, mapGet rn (State.felt s).ranges = some r → r.releasing = true →
    (∀ e ∈ s.felt.blocks, e.1.1 = rn → e.2.st ≠ .filling) → (∀ t ∈ s.pend.touches, t.rn ≠ rn) → (∀ x ∈ s.pend.replays, x.rn ≠ rn) →
    (∀ c ∈ s.cmds, c.st ≠ .complete → ∀ x ∈ c.snaps, x.rn ≠ rn) → (∀ y ∈ s.pend.samples, ∀ x ∈ y.snaps, x.rn ≠ rn) →
    ∃ t, exec (.rangeReleaseDone rn) s = .next t ∧ mapGet rn t.felt.ranges = none ∧ (∀ e ∈ t.felt.blocks, e.1.1 ≠ rn) ∧
      (∀ e ∈ t.mem.l2, e.2.owner = none → ∀ b l, e.1 ≠ .proc rn b l) ∧ (∀ c, ∀ l ∈ (t.core c).l1, ∀ b j, l.key ≠ .proc rn b j) ∧
      (∀ n, n ≠ rn → mapGet n t.felt.ranges = mapGet n s.felt.ranges) ∧
      (∀ x, (∀ f ∈ r.frames, ∀ o < 12288, x ≠ .dram (f + o)) → t.byteAt x = s.byteAt x) ∧ t.teams = s.teams) ∧
  (∀ s i p r x y all f, Issues s i → (active i p).head? = some f → OpsReady i [opA x, opB y true] (active i p) [.s (BitVec.toNat r)] →
    let rn := (valueOf i (opA x) f).toNat % 256
    let lo := (loWord (valueOf i (opB y true) f)).toNat
    let n := (hiWord (valueOf i (opB y true) f)).toNat
    (heldBase s i.team.ctx rn = none →
      exec (.procreset p (.scal r) x y all) s = .next (takeTrap s i.tid i.gid i.frag (illopnd 5 f) false)) ∧
    ((heldBase s i.team.ctx rn).isSome → ((s.felt.blocks.map (·.1)).Nodup) →
      ∃ t, exec (.procreset p (.scal r) x y all) s = .next t ∧ SameBytes s t ∧
        GangAfter s t i (wordsOf [x, y]) [(.s r.toNat, { val := BitVec.ofNat 32 ((s.felt.blocks.filter (fun e =>
          e.1.1 == rn && decide (lo ≤ e.1.2 ∧ e.1.2 < lo + n) && e.2.st == .filling)).length) })] ∧
        (∀ b, lo ≤ b → b < lo + n → fillState t rn b =
          (match fillState s rn b with | .faulted => .unfilled | .filled => if all then .unfilled else .filled | x => x)) ∧
        (∀ m b, (m ≠ rn ∨ b < lo ∨ lo + n ≤ b) → fillState t m b = fillState s m b)))

/-- R82 to R87, R91, R97, R164: what a touch finds at its home for each fill state; a refused touch is sent again; a
publication makes its block FILLED and a failure FAULTED, both with a replay for each waiter; a replay is delivered. Model
choices it rests on: notes/assumptions entries 16, 31, 86. -/
def Obligations.TouchesFillsAndReplays : Prop :=
  (∀ s id t r, s.pend.touches.find? (fun t => t.id == id && t.refusedAt.isNone) = some t → (heldBase s t.ctx t.rn).isSome →
    mapGet t.rn (State.felt s).ranges = some r →
    let gone := s.modPend (fun p => { p with touches := p.touches.filter (fun x => x.id != id) })
    (∀ g, toucherGang s t.who = some g → ∀ y, s.gang g.1 g.2 = some y → y.holdsRight t.rn t.bix = false) →
    (fillState s t.rn t.bix = .filled → exec (.procTouch id) s = .next (match loadAccess s t.who t.rn t.bix with
      | (false, u) => u
      | (true, u) => deliver (u.modPend (fun p => { p with touches := p.touches.filter (fun x => x.id != id) })) t.who
          { rn := t.rn, bix := t.bix, failed := none, data := blockData u t.rn t.bix } true)) ∧
    (∀ b, blockGet t.rn t.bix s = some b → b.st = .faulted → exec (.procTouch id) s =
      .next (deliver gone t.who { rn := t.rn, bix := t.bix, failed := some (r.pol, b.cause, b.code), data := [] } false)) ∧
    (∀ u, fillState s t.rn t.bix = .unfilled → t.gen = none → startFill gone t r 0 [(t.rn, t.bix)] t.ctx = some u →
      exec (.procTouch id) s = .next (answerProbe u t.who t.rn t.bix 4)) ∧
    (fillState s t.rn t.bix = .unfilled → t.gen = none → startFill gone t r 0 [(t.rn, t.bix)] t.ctx = none →
      exec (.procTouch id) s = .next (refuseTouch s t)) ∧
    (∀ d c x, fillState s t.rn t.bix = .unfilled → t.gen = some (d, c, x) → exec (.procTouch id) s =
      .next (if r.mdep < d + 1 then touchError gone t r.pol 1
        else match startFill gone t r (d + 1) ((t.rn, t.bix) :: c) x with
          | some u => answerProbe u t.who t.rn t.bix 4
          | none => refuseTouch s t)) ∧
    (∀ m, fillState s t.rn t.bix = .filling → s.felt.merges.find? (fun m => m.rn == t.rn && m.bix == t.bix) = some m →
      t.who ≠ .prefetch → t.gen = none →
      exec (.procTouch id) s = .next (if 16 ≤ m.waiters.length then refuseTouch s t
        else answerProbe (gone.modFelt (fun f => { f with merges := f.merges.map (fun x =>
          if x.rn == t.rn && x.bix == t.bix then { x with waiters := x.waiters ++ [(t.who, t.ctx)] } else x) })) t.who t.rn t.bix 4))) ∧
  (∀ s id, exec (.touchResend id) s = .next (s.modPend (fun p => { p with touches := p.touches.map (fun t =>
    if t.id == id && (t.refusedAt.any (fun n => decide (n + 32 ≤ s.sched.now))) then { t with refusedAt := none } else t) }))) ∧
  (∀ s id m e b, s.pend.pubs.find? (fun m => m.id == id && m.fail.isNone) = some m →
    releaseReady s m.core m.team m.gang 3 m.after = true → s.felt.merges.find? (fun x => x.rn == m.rn && x.bix == m.bix) = some e →
    blockGet m.rn m.bix s = some b → (b.frame.isSome ∨ (s.line (.proc m.rn m.bix 0)).isSome) →
    ∃ t, exec (.publication id) s = .next t ∧ fillState t m.rn m.bix = .filled ∧
      (t.pend.replays.drop s.pend.replays.length).map (·.who) = e.waiters.map (·.1) ∧
      (∀ x ∈ t.felt.merges, ¬ (x.rn = m.rn ∧ x.bix = m.bix)) ∧ (∀ x ∈ t.pend.pubs, x.id ≠ id)) ∧
  (∀ s id m e b c k, s.pend.pubs.find? (fun m => m.id == id) = some m → m.fail = some (c, k) →
    (∀ x ∈ (State.core s m.core).sbuf, ¬ (x.team = m.team ∧ x.gang = m.gang ∧ x.id < m.after ∧ x.cause = none)) →
    s.felt.merges.find? (fun x => x.rn == m.rn && x.bix == m.bix) = some e → blockGet m.rn m.bix s = some b →
    ∃ t y, exec (.fillFailure id) s = .next t ∧ blockGet m.rn m.bix t = some y ∧ y.st = .faulted ∧ y.cause = c ∧ y.code = k ∧
      (t.pend.replays.drop s.pend.replays.length).map (·.who) = e.waiters.map (·.1) ∧
      (∀ x ∈ t.felt.merges, ¬ (x.rn = m.rn ∧ x.bix = m.bix)) ∧ (∀ x ∈ t.pend.pubs, x.id ≠ id)) ∧
  (∀ s id r, s.pend.replays.find? (fun r => r.id == id) = some r →
    let a := if r.failed.isNone && fillState s r.rn r.bix == .filled then loadAccess s r.who r.rn r.bix else (true, s)
    (a.1 = false → exec (.procReplay id) s = .next a.2) ∧
    (a.1 = true → ∀ n,
    let gone := a.2.modPend (fun p => { p with replays := p.replays.filter (fun x => x.id != id) })
    let snap : Snap := { rn := r.rn, bix := r.bix, failed := r.failed, data := r.data }
    toucherAgent gone r.who = some n →
    ((∀ m, r.who ≠ .load m) → (∀ t g f, r.who ≠ .probe t g f) →
      exec (.procReplay id) s = .next (deliver (gone.receive n r.evc) r.who snap true)) ∧
    (∀ m, r.who = .load m →
      exec (.procReplay id) s = .next (deliver ((gone.receive n r.evc).modPend (fun p => { p with
        loads := p.loads.map (fun l => if l.id == m then { l with replayed := true } else l) })) r.who snap true)) ∧
    (∀ t g f, r.who = .probe t g f →
      exec (.procReplay id) s = .next (deliver ((gone.receive n r.evc).modGang t g (fun x => { x with genTouches := x.genTouches.map (fun q =>
        if q.lead == f && q.rn == r.rn && q.bix == r.bix then { q with replayed := true } else q) })) r.who snap true))))

/-! ### Engines, matrices and units -/

/-- R381, R384, R385, R367, R377, R378, R157: CPYGO, ACCLD, ACCDRAIN and ACCZ behind earlier work enter a command, and the
counters of the counted classes rise; CPYQ reads the four counters; GUARDSET and GUARDCLR write one guard; GANGSET the
set. -/
def Obligations.EngineInstructionsIssueCommands : Prop :=
  (∀ s i p a f s2 r, Issues s i → (active i p).head? = some f → OpsReady i [opA a] (active i p) [] →
    let off := (loWord (valueOf i (opA a) f)).toNat
    let peer := reqF r 264 264 == 1
    let cls : EngClass := if peer then .peer else .copy
    let guard := if reqF r 281 281 = 1 then some (reqF r 280 277) else none
    let segs := if guard.isSome = true ∨ reqXf r = 2 then [] else segsOf i.team (.copy r)
    let k : AK := if peer then .peerR else .copyR
    off % 64 = 0 → off + 64 ≤ i.team.spsz → spadReady s i.tid off 64 3 false (i.tid, i.gid, i.frag.pc) = .ok () s2 →
    r = BitVec.ofNat 512 (leNat (spadRead s2 i.tid off 64)) → reqBad s2 i.tid i.team r = false →
    rangeCheck s2 i.tid i.team k (reqSrc r) (reqSrcLen i.team r) = .ok () →
    rangeCheck s2 i.tid i.team (if peer then .peerW else .copyW) (reqDst r) (reqDstLen i.team r) = .ok () →
    engineGate s2 i f k segs = .ok () s2 → i.gang.cnt cls < 63 →
    exec (.cpygo p a) s = .next (advance (engineProbes (issueCmd s2 i cls (.copy r) guard (reqF r 287 285)) i s2.sched.nextId k segs)
      (wordsOf [a]))) ∧
  (∀ s i cls kind guard sc, State.gang s i.tid i.gid = some i.gang → (∃ r, kind = .copy r) ∨ (∃ n x z r, kind = .drain n x z r) →
    ∃ c g, (issueCmd s i cls kind guard sc).cmds = s.cmds ++ [c] ∧ c.kind = kind ∧ c.guard = guard ∧ c.scope = sc ∧
      c.st = .queued ∧ c.team = i.tid ∧ c.gang = i.gid ∧ c.cls = cls ∧
      (issueCmd s i cls kind guard sc).gang i.tid i.gid = some g ∧ g.cnt cls = i.gang.cnt cls + 1 ∧
      ∀ k, k ≠ cls → g.cnt k = i.gang.cnt k) ∧
  (∀ s i p d, Issues s i →
    let fs := accFibs (active i p) d
    Ready i.gang [] (fs.flatMap (dstRegs i.team.S i.gang d 1)) →
    exec (.cpyq p d) s = .next (advance (s.modGang i.tid i.gid (fun g => fs.foldl (fun g f => writeDst i.team.S g d false f
      (some (BitVec.ofNat 64 (i.gang.cnt .copy + i.gang.cnt .matrix * 2 ^ 8 + i.gang.cnt .drain * 2 ^ 16
        + i.gang.cnt .peer * 2 ^ 24)))) g)) 1)) ∧
  (∀ s i p n q f, Issues s i → (active i p).head? = some f →
    let put := fun (v : Guard) => Host.Outcome.next (advance (s.modTeam i.tid (fun t =>
      { t with guards := mapPut (BitVec.toNat n) v t.guards })) 1)
    exec (.guardset p (.file n) q) s = put (if i.gang.predVal f q then .isTrue else .isFalse) ∧
    exec (.guardclr p (.file n)) s = put .unresolved) ∧
  (∀ s i p a f, Issues s i → (active i p).head? = some f → OpsReady i [opA a] (active i p) [] →
    let x := loWord (valueOf i (opA a) f)
    let l := (List.range 16).filter (fun k => x.getLsbD k)
    (x.toNat < 2 ^ 16 → x.getLsbD i.gid = true → i.gid < 16 → 2 ≤ l.length → l.length ≤ 6 → (∀ k ∈ l, k < i.team.G) →
      i.gang.latch = none →
      exec (.gangset p a) s =
        .next (advance (s.modGang i.tid i.gid (fun g => { g with gset := x.extractLsb' 0 16 })) (wordsOf [a]))) ∧
    ((2 ^ 16 ≤ x.toNat ∨ l.length < 2 ∨ 6 < l.length) →
      exec (.gangset p a) s = .next (takeTrap s i.tid i.gid i.frag (illopnd 5 f) false))) ∧
  (∀ s i p n f, Issues s i → (active i p).head? = some f → BitVec.toNat n < i.team.nacc →
    (accBusy s i.tid n.toNat s.sched.nextId = false → exec (.accz p (.file n)) s =
      .next (advance (setAcc (clearAccBad s i.tid n.toNat) i.tid n.toNat (fun _ => [])) 1)) ∧
    (accBusy s i.tid n.toNat s.sched.nextId = true → exec (.accz p (.file n)) s =
      .next (advance (issueCmd s i .matrix (.accz n.toNat) none 0) 1))) ∧
  (∀ s i p n r f b, Issues s i → (active i p).head? = some f → BitVec.toNat n < i.team.nacc → boxOf i.gang r = some b →
    Ready i.gang ((shapeRegs r).map (fun x => (⟨f, 3, false, x⟩ : Need))) [] →
    (∀ t, i.frag.wait = .none → accBoxOk i.team b (BitVec.toNat t) false false = true →
      let segs := segsOf i.team (.accld n.toNat b t.toNat)
      engineGate s i f .matrix segs = .ok () s →
      exec (.accld p (.file n) t r) s = .next ((engineProbes (issueCmd s i .matrix (.accld n.toNat b t.toNat) none 0) i s.sched.nextId
        .matrix segs).modFrag (fun f => { f with wait := .cmd s.sched.nextId }))) ∧
    (∀ t id, i.frag.wait = .cmd id → getCmd s id = none →
      exec (.accld p (.file n) t r) s = .next (advance (s.modFrag (fun f => { f with wait := .none })) 5)) ∧
    (∀ add z g ge sco rel, accBoxOk i.team b 0 true add = true → (if rel then BitVec.toNat sco < 5 else sco = 0) →
      i.gang.cnt .drain < 63 →
      exec (.accdrain p (.file n) add z g ge sco rel r) s = .next (advance (issueCmd s i .drain (.drain n.toNat add z b)
        (if ge then some (BitVec.toNat g) else none) (if rel then sco.toNat else 1)) 5)))

/-- R369: an MTILE or MTILE.sp waits at its latch with its operands; when every gang of the set waits there with the same
operands, one command enters and each gang goes on; a gang whose set has been broken traps. R93: a gang of the set with
fill rights issues it. Model choices it rests on: notes/assumptions entries 75, 105. -/
def Obligations.MatrixTileMeetsAtLatch : Prop :=
  ∀ (ins : Instr) p d ta tb sc g ge z sco rel ra rb (sp : Bool),
    (ins = .mtile p d ta tb sc g ge z sco rel ra rb ∧ sp = false) ∨ (ins = .mtilesp p d ta tb sc g ge z sco rel ra rb ∧ sp = true) →
    ∀ s i f a b e, Issues s i → i.gang.handler = none → (active i p).head? = some f →
    Ready i.gang (needsOf i.team.S i.gang [opB sc true] f ++
      (shapeRegs ra ++ shapeRegs rb).map (fun r => (⟨f, 3, false, r⟩ : Need))) [] →
    boxOf i.gang ra = some a → boxOf i.gang rb = some b → fileIdx d < i.team.nacc →
    matEntry (i.team.slot a.slot) = some e → (if sp then e.2 else e.1) = true →
    let v := (valueOf i (opB sc true) f).toNat
    let words := wordsOf [sc] + 8
    let set := (List.range 16).filter (fun k => i.gang.gset.getLsbD k)
    let same := fun (l : Latch) => l.gset = i.gang.gset ∧ l.instr = ins ∧ l.boxA = a ∧ l.boxB = b ∧ l.scales = v
    mtileOk i.team sp a b (BitVec.toNat ta) (BitVec.toNat tb) v (BitVec.toNat sco) rel = true → i.gang.gset ≠ 0 →
    (i.gang.latch = none →
      (∀ k < 16, ∀ y m, s.gang i.tid k = some y → y.latch = some m → k ∈ set ∨ m.gset.getLsbD i.gid = true → same m) →
      exec ins s = .next ((s.modGang i.tid i.gid (fun y => { y with latch := some {
        gset := i.gang.gset, lead := f, instr := ins, boxA := a, boxB := b, scales := v, ipc := i.frag.pc, broken := false } })).modFrag
        (fun x => { x with wait := .latch }))) ∧
    (∀ l, i.gang.latch = some l → i.frag.mask.getLsbD l.lead = true → l.broken = false →
      (∀ k ∈ set, ∃ y m, s.gang i.tid k = some y ∧ y.latch = some m ∧ m.broken = false ∧ same m ∧ y.cnt .matrix < 63) →
      let holder := set.find? (fun k => match s.gang i.tid k with | some y => !y.rights.isEmpty | none => false)
      let kind : CmdKind := .mtile sp (fileIdx d) z a b ta.toNat tb.toNat v set
      let segs := if ge then [] else segsOf i.team kind
      holder = none ∨ holder = some i.gid → engineGate s i f .matrix segs = .ok () s →
      exec ins s = .next (set.foldl (fun s k => settleGang (s.modGang i.tid k (fun y =>
        let lead := y.latch.elim 64 (·.lead)
        { y with latch := none, frags := y.frags.map (fun x => if x.mask.getLsbD lead then
          { x with wait := .none, pc := x.pc + BitVec.ofNat 64 (8 * words), passed := 0, young := false, oldest := false, rest := false } else x) }))
          i.tid k)
        (engineProbes (issueCmd s { i with gid := holder.getD (set.headD i.gid) } .matrix kind
          (if ge then some (BitVec.toNat g) else none) (if rel then sco.toNat else 1)) i s.sched.nextId .matrix segs))) ∧
    (∀ l, i.gang.latch = some l → i.frag.mask.getLsbD l.lead = true → l.broken = true →
      exec ins s = .next (takeTrap ((s.modGang i.tid i.gid (fun y => { y with latch := none })).modFrag (fun x => { x with wait := .none }))
        i.tid i.gid i.frag (illopnd 5 f) false))

/-- R365, R366: the one fragment of a gang executes MMA16 and MMA16.sp: element (r, c) of the masked rows and columns goes
to its register, no other register changes, and the flags of the elements are set. Model choices it rests on:
notes/assumptions entry 34. -/
def Obligations.MatrixMultiplyWritesItsElements : Prop :=
  (∀ (ins : Instr) p vd va vb ea eb m (sp : Bool), (ins = .mma16 p (.vec vd) (.vec va 0 ea) (.vec vb 0 eb) m ∧ sp = false) ∨
      (ins = .mma16sp p (.vec vd) (.vec va 0 ea) (.vec vb 0 eb) m ∧ sp = true) →
    ∀ s i f e, Issues s i → i.gang.handler = none → i.gang.frags.length = 1 → (active i p).head? = some f →
    let mv := valueOf i (opC m true) f
    let w := i.team.slot (bitsOf mv 50 48)
    let q := mmaRuns sp (slotSfmt w != 0) (BitVec.toNat va) (BitVec.toNat vb)
    bitsOf mv 63 51 = 0 → BitVec.toNat vd % 4 = 0 → va.toNat % 2 = 0 → vb.toNat % 2 = 0 →
    matEntry w = some e → (if sp then e.2 else e.1) = true → (∀ r ∈ q.sa.toList ++ q.sb.toList, r < 64) →
    OpsReady i [opC m true] (active i p) [] →
    Ready i.gang (mmaNeeds i.team i.gang sp w vd.toNat q ea eb (needsOf i.team.S i.gang [opC m true] f)) [] →
    exec ins s = .next (advance ((addOvf (s.modGang i.tid i.gid (fun _ =>
      (mmaCompute i.team i.gang sp w mv vd.toNat q).1.setFlags (mmaCompute i.team i.gang sp w mv vd.toNat q).2.1)) i.team.ctx
      (mmaCompute i.team i.gang sp w mv vd.toNat q).2.2).modFrag (fun x => { x with st := .running, wait := .none })) (wordsOf [m]))) ∧
  (∀ (t : Team) (g : Gang) sp w (m : Quad) vd q, g.ra = none → vd % 4 = 0 → vd < 64 →
    let h := (mmaCompute t g sp w m vd q).1
    let at_ := fun r c => RegRef.v (4 * r + c / 4) (ringPos t.S (g.fib (4 * r + c / 4)) (vd + c % 4))
    (∀ r < 16, ∀ c < 16, m.getLsbD r = true → m.getLsbD (16 + c) = true →
      h.reg (at_ r c) = { val := BitVec.ofNat 32 (matElem w (mmaTerms w sp m (rowBits t.S g r q.a 2) (rowBits t.S g c q.b q.bLen)
        (q.patt.elim 0 (rowPatterns t.S g w r))) (fun blk => q.sa.elim 0 (slotReg t.S g (4 * r + blk)))
        (fun blk => q.sb.elim 0 (slotReg t.S g (4 * c + blk))) (slotReg t.S g (4 * r + c / 4) (vd + c % 4))).code }) ∧
    (∀ x, (∀ r < 16, ∀ c < 16, m.getLsbD r = true → m.getLsbD (16 + c) = true → x ≠ at_ r c) → h.reg x = g.reg x) ∧
    { h with fibres := [] } = { g with fibres := [] })

/-- R381, R385, R159, R122 to R125, R377, R378: the head of a class queue starts as its guard, release and tiles say; a
running command's segments are done, abandoned or fixed up; after the last one it credits its target or writes its
accumulator. Model choices it rests on: notes/assumptions entries 4, 24, 35, 82, 96, 103, 104. -/
def Obligations.EngineCommandsRunToCompletion : Prop :=
  (∀ s tid gid cls c, queueHead s tid gid cls = some c → (∀ g ∈ c.gangs, (queueHead s tid g cls).map (·.id) = some c.id) →
    (∀ x ∈ State.cmds s, x.team = tid → x.gang = gid → x.uncounted = true → x.st ≠ .queued) →
    exec (.engineCommandStart tid gid cls) s = .next (startCmd s c)) ∧
  (∀ s c t, State.team s c.team = some t →
    let guard := c.guard.map (fun g => mapGetD Guard.unresolved g t.guards)
    (guard = some .unresolved → startCmd s c = s) ∧ (guard = some .isFalse → startCmd s c = completeCmd s c) ∧
    (guard = none ∨ guard = some .isTrue → (∀ g ∈ c.gangs, releaseReady s c.core c.team g c.scope c.id = true) →
      (∀ a, c.kind.acc = some a → accBusy s c.team a c.id = false) → overfills c t = false →
      ∀ s1, startTiles s c t = some s1 → (∀ n add z r, c.kind ≠ .drain n add z r) → (∀ n, c.kind ≠ .accz n) →
      startCmd s c = firstSource (modCmd s1 c.id (fun c => { c with st := .running })) c t)) ∧
  (∀ s id seg c t x s1, getCmd s id = some c → State.team s c.team = some t → c.st = .running →
    (openSegs c t).find? (fun x => x.2 == seg) = some (x, seg) →
    (∀ n, (c.redo.filter (fun m => (openSegs c t).any (fun y => y.2 == m))).head? = some n → n = seg) →
    let left := fun (c : Cmd) => c.redo.filter (· != seg)
    let ends := fun (u : State) (f : Cmd → Cmd) =>
      let v := modCmd u id f
      Host.Outcome.next (roundOver (match getCmd v id with | some c => unpin v c | none => v) id)
    (x.write = false → readable c t = true → readSeg s c t seg x = .done s1 →
      exec (.engineSegment id seg) s = ends s1 (fun c => { c with segsDone := c.segsDone ++ [seg], redo := left c })) ∧
    (x.write = true → writable c t x = true → writeSeg s c t seg x = .done s1 →
      exec (.engineSegment id seg) s = ends s1 (fun c => { c with segsDone := c.segsDone ++ [seg], redo := left c })) ∧
    (x.write = true → writable c t x = false → seg ∉ c.probed → probeSeg s c t x = .done s1 →
      exec (.engineSegment id seg) s = ends s1 (fun c => { c with probed := c.probed ++ [seg], redo := left c })) ∧
    (∀ r, ((x.write = false ∧ readable c t = true ∧ r = readSeg s c t seg x) ∨ (x.write = true ∧ writable c t x = true ∧ r = writeSeg s c t seg x) ∨
        (x.write = true ∧ writable c t x = false ∧ seg ∉ c.probed ∧ r = probeSeg s c t x)) →
      (∀ pn fz, r = .unmapped pn fz s1 → exec (.engineSegment id seg) s =
        .next (roundOver (modCmd (fixSeg (useFault s1 c.ctx c.core pn) c seg pn fz) id (fun c => { c with redo := left c })) id)) ∧
      (∀ e d, r = .cause e s1 → getCmd s1 id = some d → exec (.engineSegment id seg) s =
        .next (roundOver (modCmd (abandonSeg s1 d seg e) id (fun c => { c with redo := left c })) id)))) ∧
  (∀ s id c t, getCmd s id = some c → State.team s c.team = some t → c.st = .running → c.fixups = [] →
    (∀ x ∈ (segsOf t c.kind).zipIdx, x.2 ∈ c.segsDone ∨ x.2 ∈ c.abandoned ∨ segNeeded c x.1 = false) →
    (∀ r s1, c.kind = .copy r → reqF r 284 284 = 0 → reqXf r ≠ 2 → reqF r 265 265 = 0 →
      (segsOf t c.kind).length ∉ c.abandoned → (c.stale = true ∨ sourceChanged s c t = false) →
      creditCopy s c t r (c.failed || !c.abandoned.isEmpty || failedTrap c) = .done s1 →
      exec (.engineCompletion id) s = .next (completeCmd s1 c)) ∧
    (∀ sp n z a b ta tb sc gs, c.kind = .mtile sp n z a b ta tb sc gs →
      let m := mtileCompute c t sp n z a b sc
      exec (.engineCompletion id) s = .next (completeCmd (modCmd (addOvf (setAcc (if z then clearAccBad s c.team n (inBox a.box1 b.box1)
        else accEvents s c.team n (inBox a.box1 b.box1)) c.team n (fun _ => m.1)) c.ctx m.2.2) id (fun c => { c with flags := m.2.1 }))
        { c with flags := m.2.1 })) ∧
    (∀ n add z r, c.kind = .drain n add z r → exec (.engineCompletion id) s = .next (completeCmd s c)))

/-- R399, R437, R440, R434, R419: SAMPLE, SAMPLEG, FETCH, NSAMPLE, RASTQ and RAYX whose headers pass R20 become one
operation of their unit with the run of each fibre, and its destinations EMPTY; a permuted source run traps; RAYHIT
answers the candidates; WPIN waits for its block. R93: of a gang that holds fill rights the instruction is held at issue,
its destinations unmarked, and goes on with every result at once. Model choices it rests on: notes/assumptions entries 42,
45, 94, 106. -/
def Obligations.UnitInstructionsIssue : Prop :=
  (∀ (ins : Instr) k p d a b c, (ins = .sample p d a b c ∧ k = .sample) ∨ (ins = .sampleg p d a b c ∧ k = .sampleg) ∨
      (ins = .fetch p d a b c ∧ k = .fetch) ∨ (ins = .nsample p d a b c ∧ k = .nsample) →
    ∀ s i f, Issues s i → (active i p).head? = some f → (∀ id, i.frag.wait ≠ .cmd id) → OpsReady i [opC c true] (active i p) [] →
    let w := valueOf i (opC c true) f
    let n := (ctlOf w).coords k
    let fs := active i p
    let ds := fs.flatMap (dstRegs i.team.S i.gang d ((ctlOf w).nc + 1))
    let fibs := fs.map (fun f => ({ fib := f, hdr := (valueOf i (opA a true) f).toNat, src := runVals i b n f, pos := dstPos i d f } : SampFib))
    dstFirst d + (ctlOf w).nc + 1 ≤ 64 → vecFirst b + n ≤ 64 → (ctlOf w).legal k = true →
    Ready i.gang (fs.flatMap (fun f => needsOf i.team.S i.gang [opA a true] f ++ runNeeds i b n f)) ds →
    (runPermuted b = true → exec ins s = .next (takeTrap s i.tid i.gid i.frag (illopnd 5 f) false)) ∧
    (∀ ts, runPermuted b = false →
      headerChecks s i (fs.map (fun f => { fib := f, ga := valueOf i (opA a true) f })) = .ok ts s →
      genTouchGate s i (ts.map (fun e => (e.1.fib, e.2))) 0 0 = .ok () s → gangOpen s i.tid i.gid = true →
      (i.gang.rights = [] → ∃ t x, exec ins s = .next t ∧ GangAfter s t i (wordsOf [a, c]) (emptied i.gang ds) ∧ SameBytes s t ∧
        t.pend.samples = s.pend.samples ++ [x] ∧ x.kind = k ∧ x.team = i.tid ∧ x.gang = i.gid ∧ x.ctl = w ∧ x.nc = (ctlOf w).nc ∧
        x.fibs = fibs) ∧
      (i.gang.rights ≠ [] → exec ins s = .next ((issueUnit s i k d ((ctlOf w).nc + 1) w (ctlOf w).nc .none fibs).modFrag (fun x =>
        { x with wait := .cmd s.sched.nextId }))))) ∧
  (∀ s i p d a b cull f, Issues s i → (active i p).head? = some f → (∀ id, i.frag.wait ≠ .cmd id) →
    let fs := active i p
    let hdr := fun f => valueOf i (opA a true) f
    (∀ ds, ds = fs.flatMap (dstRegs i.team.S i.gang d 1) →
      Ready i.gang (fs.flatMap (fun f => needsOf i.team.S i.gang [opA a true] f ++ runNeeds i b 10 f)) ds →
      (runPermuted b = true → exec (.rastq p d a b cull) s = .next (takeTrap s i.tid i.gid i.frag (illopnd 5 f) false)) ∧
      (∀ ts, runPermuted b = false → headerChecks s i (fs.map (fun f => { fib := f, ga := hdr f })) = .ok ts s →
        genTouchGate s i (ts.map (fun e => (e.1.fib, e.2))) 0 0 = .ok () s → gangOpen s i.tid i.gid = true →
        let fibs := fs.map (fun f => ({ fib := f, hdr := (hdr f).toNat, src := runVals i b 10 f, pos := dstPos i d f } : SampFib))
        (i.gang.rights = [] → ∃ t x, exec (.rastq p d a b cull) s = .next t ∧ GangAfter s t i (wordsOf [a]) (emptied i.gang ds) ∧
          SameBytes s t ∧ t.pend.samples = s.pend.samples ++ [x] ∧ x.kind = .rastq ∧ x.cull = cull ∧ x.team = i.tid ∧ x.gang = i.gid ∧
          x.fibs = fibs) ∧
        (i.gang.rights ≠ [] → exec (.rastq p d a b cull) s = .next ((issueUnit s i .rastq d 1 0 0 cull fibs).modFrag (fun x =>
          { x with wait := .cmd s.sched.nextId }))))) ∧
    (∀ first ah,
      let ds := fs.flatMap (dstRegs i.team.S i.gang d 6)
      Ready i.gang (fs.flatMap (fun f => needsOf i.team.S i.gang [opA a true] f ++ runNeeds i b 8 f)) ds →
      (runPermuted b = true → exec (.rayx p d a b first ah cull) s = .next (takeTrap s i.tid i.gid i.frag (illopnd 5 f) false)) ∧
      (∀ ts, runPermuted b = false → headerChecks s i (fs.map (fun f => { fib := f, ga := hdr f })) = .ok ts s →
        genTouchGate s i (ts.map (fun e => (e.1.fib, e.2))) 0 0 = .ok () s → gangOpen s i.tid i.gid = true →
        (∀ f ∈ fs, ∀ v, (i.gang.fib f).trav = some v → v.suspended = true) →
        let goes := fun f (y : Fibre) => if f ∈ fs then { y with trav := some {
              ipc := i.frag.pc, vd := dstFirst d, hdr := (hdr f).toNat, ray := runVals i b 8 f, first, ah, cull, suspended := false,
              begun := false, stack := [], leaf := none, tb := 0, best := none, cand := none, visits := 0, bads := 0, dropped := false,
              head := 0, badChild := false, overBudget := false, pos := (i.gang.fib f).wb + dstFirst d } } else y
        (i.gang.rights = [] → ∃ t x, exec (.rayx p d a b first ah cull) s = .next t ∧ SameBytes s t ∧
          t.pend.samples = s.pend.samples ++ [x] ∧ x.kind = .rayx ∧ x.team = i.tid ∧ x.gang = i.gid ∧ x.fibs.map (·.fib) = fs ∧
          GangAfter s t i (wordsOf [a]) (emptied i.gang ds) id goes) ∧
        (i.gang.rights ≠ [] → ∃ t x, exec (.rayx p d a b first ah cull) s = .next t ∧ SameBytes s t ∧
          t.pend.samples = s.pend.samples ++ [x] ∧ x.kind = .rayx ∧ x.held = true ∧ x.fibs.map (·.fib) = fs)))) ∧
  (∀ s i p d acc, Issues s i → (∀ id, i.frag.wait ≠ .cmd id) → Ready i.gang [] ((active i p).flatMap (dstRegs i.team.S i.gang d 6)) →
    let fs := (active i p).filter (fun f => match (i.gang.fib f).trav with
      | some v => v.suspended && v.pos == (i.gang.fib f).wb + dstFirst d | none => false)
    (fs = [] → exec (.rayhit p d acc) s = .next (advance s 1)) ∧
    (fs ≠ [] →
      ∃ t x, exec (.rayhit p d acc) s = .next t ∧ SameBytes s t ∧ t.pend.samples = s.pend.samples ++ [x] ∧ x.kind = .rayx ∧
        x.fibs.map (·.fib) = fs ∧ (x.held = true ↔ i.gang.rights ≠ []) ∧
        (i.gang.rights = [] → GangAfter s t i 1 (emptied i.gang (fs.flatMap (dstRegs i.team.S i.gang d 6))) id
          (fun f y => if f ∈ fs then { y with trav := y.trav.map (fun v => answerHit v acc) } else y)))) ∧
  (∀ (ins : Instr) p d a words, (∃ b c, (ins = .sample p d a b c ∨ ins = .sampleg p d a b c ∨ ins = .fetch p d a b c ∨
        ins = .nsample p d a b c) ∧ words = wordsOf [a, c]) ∨
      (∃ b cull, ins = .rastq p d a b cull ∧ words = wordsOf [a]) ∨ (∃ b x y cull, ins = .rayx p d a b x y cull ∧ words = wordsOf [a]) ∨
      (∃ acc, ins = .rayhit p d acc ∧ words = 1) →
    ∀ s i f id x, Issues s i → (active i p).head? = some f → i.frag.wait = .cmd id →
    s.pend.samples.find? (fun x => x.id == id) = some x → x.genErr = none →
    ((∀ f ∈ x.fibs, f.done = true) → exec ins s = .next (advance ((heldEffect s i x).modFrag (fun y => { y with wait := .none })) words)) ∧
    ((∃ f ∈ x.fibs, f.done = false) → exec ins s = .next s)) ∧
  (∀ s i p d a f, Issues s i → (active i p).head? = some f →
    (∀ ts, i.frag.wait = .none → OpsReady i [opA a true] (active i p) [] →
      headerChecks s i [{ fib := f, ga := valueOf i (opA a true) f }] = .ok ts s →
      genTouchGate s i (ts.map (fun e => (e.1.fib, e.2))) 0 0 = .ok () s → gangOpen s i.tid i.gid = true →
      exec (.wpin p d a) s = .next ((issueUnit s i .wpin d 0 0 0 .none
        [{ fib := f, hdr := (valueOf i (opA a true) f).toNat, src := [], pos := 0 }]).modFrag (fun x =>
          { x with wait := .cmd s.sched.nextId }))) ∧
    (∀ id x b, i.frag.wait = .cmd id → s.pend.samples.find? (fun x => x.id == id) = some x → x.answer = some b → x.genErr = none →
      (∀ f ∈ x.fibs, f.done = true) →
      exec (.wpin p d a) s = .next (advance (((heldEffect s i x).modCur
        (fun g => (active i p).foldl (fun g f => writeDst i.team.S g d false f (some (if b then 1 else 0))) g)).modFrag (fun x =>
          { x with wait := .none })) (wordsOf [a]))))

/-- R399, R402, R97, R425, R432, R433: a unit's result goes to its fibre's run, FULL, or zeros for a malformed header, or
FAILED for a failed block of a range with the trap policy; a RASTQ sends its writes and then its count; a traversal that
stops writes its run. Model choices it rests on: notes/assumptions entries 42, 45. -/
def Obligations.UnitResultsReachTheirRuns : Prop :=
  (∀ s id fib x f t, s.pend.samples.find? (fun x => x.id == id && x.kind != .rayx && x.kind != .rastq) = some x →
    x.fibs.find? (fun f => f.fib == fib && !f.done) = some f → State.team s x.team = some t →
    let slot := slotOf s id x.team x.gang fib
    let run := sampleOp x f (((s.gang x.team slot.1).getD {}).fib slot.2).pidx.toNat { s, team := t, x, fib }
    (∀ l fl o r, run = .ok (.regs l fl o, r) → exec (.samplerResult id fib) s = .next (fibDone (writeResult
      (usedFaults r.s x r.used) x fib f.pos (l.take (x.nc + 1)) r.blk fl o) x fib (fun x => x.note fib r none))) ∧
    (∀ r, run = .ok (.badHeader, r) → x.kind ≠ .wpin → exec (.samplerResult id fib) s = .next (fibDone (writeResult
      (usedFaults r.s x r.used) x fib f.pos (List.replicate (x.nc + 1) 0) r.blk 0 0) x fib
      (fun x => { x.note fib r (some f.hdr) with answer := some false }))) ∧
    (∀ b r, run = .ok (.pin b, r) → exec (.samplerResult id fib) s =
      .next (fibDone (usedFaults r.s x r.used) x fib (fun x => { x.note fib r none with answer := some b })))) ∧
  (∀ s x fib pos vals fl o g, State.gang s x.team x.gang = some g → g.ra = none → (mapGet fib g.fibres).isSome → x.held = false → Unmoved s x.team x.id →
    let S := ((s.team x.team).map Team.S).getD 64
    vals.length ≤ S →
    (∃ h, (writeResult s x fib pos vals none fl o).gang x.team x.gang = some h ∧
      (∀ k < vals.length, h.reg (.v fib ((pos + k) % S)) = { val := vals.getD k 0 }) ∧
      (∀ q, (∀ k < vals.length, q ≠ .v fib ((pos + k) % S)) → h.reg q = g.reg q)) ∧
    (∀ c d, ∃ h, (writeResult s x fib pos vals (some (1, c, d)) fl o).gang x.team x.gang = some h ∧
      (∀ k < vals.length, h.reg (.v fib ((pos + k) % S)) = { fe := .failed (BitVec.ofNat 8 c) (BitVec.ofNat 16 d) }) ∧
      (∀ q, (∀ k < vals.length, q ≠ .v fib ((pos + k) % S)) → h.reg q = g.reg q))) ∧
  (∀ s id fib x f t, s.pend.samples.find? (fun x => x.id == id && x.kind == .rastq) = some x →
    x.fibs.find? (fun f => f.fib == fib && !f.done) = some f → State.team s x.team = some t →
    (∀ lo hi n, f.writes = some (lo, hi, n) → (∀ a ∈ s.pend.atoms, ¬ (lo ≤ a.id ∧ a.id < hi)) →
      exec (.rastqDone id fib) s =
        .next (fibDone (writeResult s x fib f.pos [BitVec.ofNat 32 (min n (2 ^ 32 - 1))] f.blk 0 0) x fib (fun x => x))) ∧
    (∀ n ws r, f.writes = none → rasterWaits s t x = none → rasterOp x f { s, team := t, x, fib } = .ok (some (n, ws), r) →
      let u := usedFaults r.s x r.used
      exec (.rastqDone id fib) s = .next (setSample (issueMins u x fib ws) { x.note fib r none with
        fibs := (x.note fib r none).fibs.map (fun (g : SampFib) => if g.fib == fib then
          { g with writes := some (u.sched.nextId, (issueMins u x fib ws).sched.nextId, n), blk := r.blk } else g) }))) ∧
  (∀ s tid gid fib x f v t, s.pend.samples.find? (fun x => x.kind == .rayx && x.team == tid && x.gang == gid &&
      x.fibs.any (fun f => f.fib == fib && !f.done)) = some x → x.fibs.find? (fun f => f.fib == fib && !f.done) = some f →
    travOf s x fib = some v → State.team s tid = some t →
    (∀ l keep r, travLeg v { s, team := t, x, fib } = .ok (.run l keep, r) → exec (.traversalStop tid gid fib) s =
      .next (fibDone (writeResult (setTrav (usedFaults r.s x r.used) x fib keep) x fib f.pos l r.blk 0 0) x fib
        (fun x => x.note fib r none))) ∧
    (∀ r, travLeg v { s, team := t, x, fib } = .ok (.badHeader, r) → exec (.traversalStop tid gid fib) s =
      .next (fibDone (writeResult (setTrav (usedFaults r.s x r.used) x fib none) x fib f.pos (List.replicate 6 0) r.blk 0 0) x fib
        (fun x => x.note fib r (some v.hdr)))))

/-- R419, R420, R439: WUNPIN takes the pin off the context's blocks of a header; WINV drops them once the core's earlier
NSAMPLEs are done. R436: REPACK waits for its group, then moves the slots and acquires. Model choices it rests on:
notes/assumptions entries 43, 44, 89. -/
def Obligations.WeightCacheAndRepack : Prop :=
  (∀ s i p a f, Issues s i → (active i p).head? = some f → OpsReady i [opA a true] (active i p) [] →
    let hdr := (valueOf i (opA a true) f).toNat
    let core := i.team.place.core
    exec (.wunpin p a) s = .next (advance (s.modCore core (fun c => { c with weights := c.weights.map (fun w =>
      if w.ctx == i.team.ctx && w.hdr == hdr then { w with pinned := false } else w) })) (wordsOf [a])) ∧
    (∀ all id, (all = true → a = .const 0) → i.frag.wait = .inv id →
      (∀ x ∈ s.pend.samples, ¬ (x.core = core ∧ x.kind = .nsample ∧ x.id < id)) →
      exec (.winv p a all) s = .next (advance ((s.modCore core (fun c => { c with weights := c.weights.filter (fun w =>
        !(w.ctx == i.team.ctx && (all || w.hdr == hdr))) })).modFrag (fun x => { x with wait := .none })) (wordsOf [a]))) ∧
    (∀ all, (all = true → a = .const 0) → i.frag.wait = .none →
      exec (.winv p a all) s = .next (s.fresh.2.modFrag (fun x => { x with wait := .inv s.fresh.1 })))) ∧
  (∀ s i p, Issues s i → i.gang.handler = none →
    (i.gang.frags.length ≠ 1 → ∃ t, exec (.repack p) s = .next t ∧ FragsBecome s t i (i.gang.frags.map (fun (x : Frag) =>
      if x.mask.getLsbD s.sched.cur.lead then { x with st := .waitgang, wait := .repack } else x))) ∧
    (∀ t, i.gang.frags.length = 1 → releaseReady s i.team.place.core i.tid i.gid 1 s.sched.nextId = true →
      let u := s.modFrag (fun f => { f with st := .running, wait := .repack })
      u.team i.tid = some t →
      let gs := repackGroup t i.gid
      (∀ e ∈ gs, arrivedRepack e.2 = true) →
      (∀ e ∈ gs, ∀ b ∈ e.2.fibres, repackHolds t.S b.2 = false ∧ ∀ r ∈ b.2.regs, r.2.bad = false) →
      (∀ e ∈ gs, e.2.ra = none) → repackSteps t.S gs = [] →
      let moved := repackMoves gs
      let u := if moved.isEmpty then u else u.modTeam i.tid (fun t => { t with moves := t.moves ++ [(s.sched.nextId, moved)] })
      exec (.repack p) s = .next (acquire ((repackPlaces gs).foldl (fun s e =>
        let s := s.modGang i.tid e.1 (fun g => { g with fibres := e.2.map (fun b => (b.1, b.2.1)),
                                                        frags := (g.frags.head?).elim [] (fun f => repackFrags f e.2) })
        if !e.2.any (fun b => b.2.1.live) then endGang s i.tid e.1 0 else settleGang s i.tid e.1) u) t.place.core 1)) ∧
    (∀ t, i.gang.frags.length = 1 → releaseReady s i.team.place.core i.tid i.gid 1 s.sched.nextId = true →
      let u := s.modFrag (fun f => { f with st := .running, wait := .repack })
      u.team i.tid = some t → (∃ e ∈ repackGroup t i.gid, arrivedRepack e.2 = false ∨ ∃ b ∈ e.2.fibres, repackHolds t.S b.2 = true) →
      exec (.repack p) s = .next u))

/-! ### Mailboxes, pipelines, launches and queues -/

/-- R206, R392, R468, R515, R516: MBWAIT takes the oldest message of a mailbox bound to its context and MBSEND adds a
message; the operating system pushes, pops and reads the status; a binding takes effect when no context it names has a
resident team. Model choices it rests on: notes/assumptions entry 19. -/
def Obligations.MailboxesAndBindings : Prop :=
  (∀ s i p r mb nb pd f, Issues s i → (active i p).head? = some f → BitVec.toNat r % 16 = 0 →
    Ready i.gang [] (sRegs (BitVec.toNat r) 16) →
    let n := BitVec.toNat mb
    let m := mailbox s n
    let put := fun (s : State) (ws : List Word) (b : Bool) =>
      putPreds (s.modCur (fun g => writeRun g (sRegs r.toNat 16) ws)) (active i p) pd (fun _ => b)
    (mailboxCtx s n ≠ some i.team.ctx →
      exec (.mbwait p (.scal r) mb nb pd) s = .next (takeTrap s i.tid i.gid i.frag (illopnd 5 f) false)) ∧
    (mailboxCtx s n = some i.team.ctx →
      (∀ bs ev q, m.inq = (bs, ev) :: q → exec (.mbwait p (.scal r) mb nb pd) s = .next (advance (acquire
        (put ((setMailbox s n { m with inq := q }).receive i.team.place.agent ev.1) (wordsOfBytes bs) true) i.team.place.core 4) 1)) ∧
      (m.inq = [] → exec (.mbwait p (.scal r) mb nb pd) s =
        .next (if nb then advance (put s (List.replicate 16 0) false) 1 else s)))) ∧
  (∀ s i p mb sa f, Issues s i → (active i p).head? = some f → BitVec.toNat sa % 16 = 0 →
    let n := BitVec.toNat mb
    let m := mailbox s n
    let regs := sRegs sa.toNat 16
    let bs := bytesOfWords (regs.map (fun r => (i.gang.reg r).read))
    let u := (s.stamp i.team.place.agent).2
    Ready i.gang (regs.map (fun r => (⟨f, 0, false, r⟩ : Need))) [] → mailboxCtx s n = some i.team.ctx →
    (m.outq.length < 16 → releaseReady s i.team.place.core i.tid i.gid 4 s.sched.nextId = true → exec (.mbsend p mb sa) s =
      .next (advance (setMailbox (if m.outq.isEmpty then u.raiseNote 4 else u) n { m with outq := m.outq ++ [(bs, (s.stamp i.team.place.agent).1)] }) 1)) ∧
    (16 ≤ m.outq.length → exec (.mbsend p mb sa) s = .next s)) ∧
  (∀ s n ag, State.running s = true → n < 64 →
    let m := mailbox s n
    exec (.mbInPush n ag) s = .next (if (mailboxCtx s n).isSome = true ∧ m.inq.length < 16 then
      setMailbox (s.stamp ag).2 n { m with inq := m.inq ++ [(memBytes (mapGetD [] (writerWindow ag) m.staged) 0 64, (s.stamp ag).1)] }
      else setMailbox s n { m with refused := true }) ∧
    (m.outq = [] → exec (.mbOutPop n) s = .next (answer s (leBytes 8 0))) ∧
    (∀ bs ev q, m.outq = (bs, ev) :: q → exec (.mbOutPop n) s = .next (answer
      ((setMailbox (apAgent s).2 n { m with outq := q }).receive (apAgent s).1 ev.1) (leBytes 8 1))) ∧
    exec (.mbStatRead n) s = .next (answer (setMailbox s n { m with refused := false })
      (leBytes 8 (m.inq.length + m.outq.length * 2 ^ 8 + (if m.refused then 2 ^ 16 else 0))))) ∧
  (∀ s n,
    let mb := mapGetD 0 n (State.sys s).mbBind
    let tw := mapGetD 0 n s.sys.twBind
    exec (.bindingTakesEffect (.mailbox n)) s = .next (if resident s (mapGetD 0 n s.sys.mbBindNow) || resident s mb then s
      else s.modSys (fun y => { y with mbBindNow := mapPutD 0 n mb y.mbBindNow })) ∧
    exec (.bindingTakesEffect (.twill n)) s = .next (if resident s (mapGetD 0 n s.sys.twBindNow) || resident s tw then s
      else s.modSys (fun y => { y with twBindNow := mapPutD 0 n tw y.twBindNow })))

/-- R393, R394, R435, R444, R456 to R459, R468: PIPEDECL reads its description and writes its result; a release goes on
when the pipeline's teams have ended; LAUNCH enters its record in the context's queue; QPUSH and QPOP move records,
without `.nb` all or none. Model choices it rests on: notes/assumptions entries 62, 63. -/
def Obligations.PipelinesLaunchesAndQueues : Prop :=
  (∀ s i p r x f, Issues s i → (active i p).head? = some f → OpsReady i [opA x] (active i p) [.s (BitVec.toNat r)] →
    let off := (loWord (valueOf i (opA x) f)).toNat
    let n := 16 * (descStages (memNat i.team.spad off 16) + 1)
    let w := memNat i.team.spad off n
    let done := fun (s : State) (v : Nat) => advance ((putScalar s (.scal r) v).modFrag (fun f => { f with wait := .none })) (wordsOf [x])
    off % 64 = 0 → off + 16 ≤ i.team.spsz → off + n ≤ i.team.spsz →
    releaseReady s i.team.place.core i.tid i.gid 3 s.sched.nextId = true →
    ∀ u, spadReady s i.tid off n 0 false (i.tid, i.gid, i.frag.pc) = .ok () u →
    exec (.pipedeclDeclare p (.scal r) x) s = .next (match declarePipe u i.team.ctx w with
      | (some (v, y), _) => advance (putScalar (dropUnit y) (.scal r) v) (wordsOf [x])
      | (none, y) => y) ∧
    (i.frag.wait = .none →
      let q := releasePipe u.fresh.2 i.team.ctx w u.fresh.1
      exec (.pipedeclRelease p (.scal r) x) s = .next (if q.2.1 then q.2.2.modFrag (fun f => { f with wait := .release u.fresh.1 })
        else done q.2.2 q.1)) ∧
    (∀ id, i.frag.wait = .release id → exec (.pipedeclRelease p (.scal r) x) s =
      .next (if u.pipes.any (fun q => q.releasing && q.relId == id) then u else done u (natBits w 30 23)))) ∧
  (∀ s ctx h p, (State.pipes s).find? (fun p => p.ctx == ctx && p.h == h && p.releasing) = some p →
    let mine := fun (id : Nat) => p.stages.any (fun q => q.launch == id)
    exec (.pipelineReleaseDone ctx h) s = .next (if s.launches.any (fun l => mine l.1 && !l.2.live.isEmpty) then s
      else { s with
        pipes := s.pipes.filter (fun q => !(q.ctx == ctx && q.h == h))
        launches := s.launches.filter (fun l => !mine l.1) })) ∧
  (∀ s i p r x f, Issues s i → (active i p).head? = some f → OpsReady i [opA x true] (active i p) [.s (BitVec.toNat r)] →
    let va := valueOf i (opA x true) f
    let c := s.ctx i.team.ctx
    canonGlobal va = true → va.toNat % 192 = 0 → c.queue.length < 64 →
    releaseReady s i.team.place.core i.tid i.gid 3 s.sched.nextId = true →
    exec (.launch p (.scal r) x) s = .next (advance (putScalar (s.modCtx i.team.ctx (fun c =>
      { c with queue := c.queue ++ [(c.nextLaunch, va.toNat)], nextLaunch := c.nextLaunch + 1 })) (.scal r) (c.nextLaunch % 2 ^ 32))
      (wordsOf [x]))) ∧
  (∀ s i p q a h nb pd f st, Issues s i → (active i p).head? = some f → OpsReady i [opB h] (active i p) [] →
    let hn := (valueOf i (opB h) f).toNat % 256
    let n := BitVec.toNat q
    (let fs := match a with | .vec _ _ _ => active i p | _ => [f]
     let row := fun f => runOf i.team.S i.gang a 16 f
     let agent := i.team.place.agent
     Ready i.gang (fs.flatMap (fun f => (row f).map (fun r => (⟨f, 0, a.ea, r⟩ : Need)))) [] →
     stageOf s i.team.ctx hn n true = some st → runAligned a = true →
     (st.queue.length + fs.length ≤ st.qd + 1 ∨ nb = true → releaseReady s i.team.place.core i.tid i.gid 3 s.sched.nextId = true →
       let put := fs.take (st.qd + 1 - st.queue.length)
       let ok := fun (f : Nat) => match a with | .vec _ _ _ => put.contains f | _ => !put.isEmpty
       ∃ l, l.map (·.1) = put.map (fun f => recordOf ((row f).map (fun r => (i.gang.reg r).read))) ∧
         exec (.qpush p q a h nb pd) s = .next (advance (putPreds (setQueue (beginWaiting (put.foldl (fun s _ => (s.stamp agent).2) s)
           i.team.ctx hn n) i.team.ctx hn n (st.queue ++ l)) (active i p) pd ok) (wordsOf [h]))) ∧
     (st.qd + 1 < st.queue.length + fs.length → nb = false → exec (.qpush p q a h nb pd) s = .next s)) ∧
    (∀ d, stageOf s i.team.ctx hn n false = some st → (∃ r, (d = .vec r ∨ d = .scal r) ∧ BitVec.toNat r % 16 = 0) →
      let fs := if Dst.isScalar d then [f] else active i p
      let got := takeRecords st (min fs.length (if st.srt then 512 else fs.length))
      let rows := fs.map (dstRegs i.team.S i.gang d 16)
      Ready i.gang [] rows.flatten →
      (got.1.length = fs.length →
        let u := got.1.foldl (fun s e => s.receive i.team.place.agent e.2.1) (setQueue s i.team.ctx hn n got.2)
        exec (.qpop p d q nb h pd) s = .next (advance (acquire (putPreds (u.modCur (fun g =>
          (rows.zip got.1).foldl (fun g e => writeRun g e.1 (recordWords e.2.1)) g)) (active i p) pd (fun _ => true))
          i.team.place.core 3) (wordsOf [h]))) ∧
      (got.1.length < fs.length → nb = false → exec (.qpop p d q nb h pd) s = .next s) ∧
      (got.1 = [] → nb = true → fs ≠ [] → exec (.qpop p d q nb h pd) s = .next (advance (putPreds ((setQueue s i.team.ctx hn n got.2).modCur
        (fun g => rows.foldl (fun g ds => writeRun g ds (List.replicate 16 0)) g)) (active i p) pd (fun _ => false)) (wordsOf [h]))))) ∧
  (∀ st n, (takeRecords st n).1.length ≤ n ∧ (st.srt = false → (takeRecords st n).1 ++ (takeRecords st n).2 = st.queue) ∧
    (st.srt = true → (takeRecords st n).1.Pairwise (fun a b => sortKey a.1 ≤ sortKey b.1)))

/-! ### Translation -/

/-- R104, R107, R111 to R113, R115, R398: TLBINV waits for its request, which completes when the covered accesses are
done; a walk reads one entry at a time; the first-touch unit takes a zeroed frame and writes the entry. Model choices it
rests on: notes/assumptions entries 46, 72, 78, 88. -/
def Obligations.TranslationWalksAndInvalidations : Prop :=
  (∀ s i p a b f, Issues s i → (active i p).head? = some f → OpsReady i [opA a true, opB b] (active i p) [] → (∀ id, i.frag.wait ≠ .inv id) →
    let va := valueOf i (opA a true) f
    let n := (loWord (valueOf i (opB b) f)).toNat
    let pn := va.toNat / 12288
    let go := fun (all : Bool) =>
      let q := startInv s i.team.ctx all pn (min n (globalTop / 12288 - pn)) (some (i.tid, i.gid, f))
      Host.Outcome.next (q.2.modFrag (fun f => { f with wait := .inv q.1 }))
    releaseReady s i.team.place.core i.tid i.gid 3 s.sched.nextId = true →
    (canonGlobal va = true → n ≠ 0 → exec (.tlbinv p a b false) s = go false) ∧
    (canonGlobal va = true → n = 0 → exec (.tlbinv p a b false) s = .next (advance s (wordsOf [a, b]))) ∧
    (a = .const 0 → b = .const 0 → exec (.tlbinv p a b true) s = go true) ∧
    (canonGlobal va = false → exec (.tlbinv p a b false) s = .next (takeTrap s i.tid i.gid i.frag (illopnd 5 f) false))) ∧
  (∀ s i p a b ctx id, Issues s i → i.frag.wait = .inv id → exec (.tlbinv p a b ctx) s =
    .next (if s.xl.invs.any (fun v => v.id == id) then s else advance (s.modFrag (fun f => { f with wait := .none })) (wordsOf [a, b]))) ∧
  (∀ s id v, (State.xl s).invs.find? (fun v => v.id == id) = some v → accessesDone s v = true →
    (∀ x ∈ coveredStash s v, stashWaits s x.1 x.2.1 (fun l => l == x.2.2.1) = false) →
    ∃ t, exec (.tlbinvComplete id) s = .next t ∧ (∀ c, ∀ e ∈ (t.core c).tlb, v.covers e = false) ∧
      (∀ n, ∀ e ∈ (t.cluster n).tlb, v.covers e = false) ∧ (∀ c, (t.core c).l1 = [] ∧ (t.core c).texel = []) ∧
      (∀ w ∈ t.xl.walks, w.ctx ≠ v.ctx) ∧ (∀ w ∈ t.xl.invs, w.id ≠ id) ∧
      t.sys.invDone = (if v.who.isNone then s.sys.invDone + 1 else s.sys.invDone) ∧
      t.sys.invBusy = (if v.who.isNone then false else s.sys.invBusy)) ∧
  (∀ s id w u, (State.xl s).walks.find? (fun w => w.id == id && w.st == .reading) = some w →
    let a := w.entry
    let k := LineKey.dev (a / 192)
    homeReady s k (a % 192) 8 false = .ready u →
    let v := homeFill (eccEvents u (some w.ctx) k (a % 192) 8 0) k (a % 192) 8
    let e := BitVec.ofNat 64 (leNat (homeRead v k (a % 192) 8))
    (entryAns e w.lv = .unmapped → exec (.pageWalkStep id) s = .next (failWalk v w 4 false)) ∧
    (entryAns e w.lv = .malformed → exec (.pageWalkStep id) s = .next (failWalk v w 7 false)) ∧
    (entryAns e w.lv = .firstTouch → exec (.pageWalkStep id) s = .next (meetFirstTouch v w e) ∧
      (w.cores ≠ [] → (∀ c ∈ w.cores, c.2 = false) → meetFirstTouch v w e =
        (endWalk v id).modXl (fun x => { x with walks := x.walks ++ [{ w with st := .firstTouch e }] })) ∧
      ((∀ c ∈ w.cores, c.2 = true) → ringCount v.sys = 0 → meetFirstTouch v w e = failWalk v w 4 true) ∧
      ((∀ c ∈ w.cores, c.2 = true) → ringCount v.sys ≠ 0 → meetFirstTouch v w e = (endWalk v id).modXl (fun x => { x with
        faults := x.faults ++ w.cores.map (fun c => ⟨w.ctx, c.1, w.va / 12288, 0, true, true⟩) }))) ∧
    (∀ n, entryAns e w.lv = .node n → exec (.pageWalkStep id) s = .next (v.modXl (fun x => { x with
      walks := x.walks.map (fun y => if y.id == id then { y with lv := w.lv - 1, node := n } else y) }))) ∧
    (∀ l, entryAns e w.lv = .leaf l → exec (.pageWalkStep id) s = .next (landWalk v w l) ∧
      ∀ c, (w.cores.map (·.1)).count c = 1 → ((landWalk v w l).core c).tlb =
        tlbAdd (v.core c).tlb { ctx := w.ctx, lv := w.lv, pn := w.va / 12288 / 64 ^ (w.lv - 1), leaf := l })) ∧
  (∀ s w e, (State.xl s).walks.find? (fun w => match w.st with | .firstTouch _ => true | _ => false) = some w → w.st = .firstTouch e →
    (ringCount s.sys = 0 → exec .firstTouch s = .next (failWalk s w 4 true)) ∧
    (∀ u, ringCount s.sys ≠ 0 → homeReady s (.dev (w.entry / 192)) (w.entry % 192) 8 true = .ready u →
      let k := LineKey.dev (w.entry / 192)
      let r := eccEvents u (some w.ctx) k (w.entry % 192) 8 0
      let swapped := fun (v : State) (f : Nat) => w.cores.foldl (fun s c => startWalk s w.ctx c.1 (w.va / 12288) c.2) (endWalk
        (if BitVec.ofNat 64 (leNat (homeRead v k (w.entry % 192) 8)) = e then
          (homeWrite v k (w.entry % 192) (leBytes 8 (f * 2 ^ 12 + bitsOf e 5 4 * 2 ^ 4 + 3)) 0).modXl (fun x => { x with hold := none })
        else v) w.id)
      (∀ f, r.xl.hold = some f → exec .firstTouch s = .next (swapped r f)) ∧
      (∀ v0, r.xl.hold = none →
        let a := r.sys.fzBase.toNat + 4 * (r.sys.fzHead.toNat % r.sys.fzSize.toNat)
        homeReady r (.dev (a / 192)) (a % 192) 4 false = .ready v0 →
        let v := eccEvents v0 none (.dev (a / 192)) (a % 192) 4 0
        let f := paNat v a 4 % 2 ^ 25
        let x := (v.modXl (fun x => { x with hold := some f })).modSys (fun y => { y with fzHead := y.fzHead + 1 })
        exec .firstTouch s = .next (swapped (if (x.sys.fzTail - x.sys.fzHead).toNat < x.sys.fzLow.toNat then x.raiseNote 1 else x) f)))) ∧
  (∀ s v, State.running s = true →
    let all := BitVec.getLsbD v 60
    let cnt := bitsOf v 51 36
    exec (.xlInv v) s = .next (if s.sys.invBusy then s.modSys (fun y => { y with invLost := true })
      else if !all && cnt == 0 then s.modSys (fun y => { y with invDone := y.invDone + 1 })
      else (startInv s (bitsOf v 59 52) all (bitsOf v 35 0) cnt none).2.modSys (fun y => { y with invBusy := true })) ∧
    exec .xlInvstRead s = .next (s.modSys (fun y => { y with lastRead := leBytes 8 (invStatus y).toNat, invLost := false })))

/-- R55, R117, R119, R120, R122 to R124, R401: a run-ahead that has met its end rolls back; the oldest fault record goes
to the ring; a reply releases the gang, the engine command or the sampler operation that the record holds. Model choices
it rests on: notes/assumptions entries 51, 55. -/
def Obligations.FaultRecordsAndReplies : Prop :=
  (∀ s tid gid g r, State.gang s tid gid = some g → g.ra = some r →
    exec (.runAheadEnd tid gid) s = .next (if r.reason = 0 then s else endRunAhead s tid gid)) ∧
  (∀ s r, (State.xl s).recs.find? (fun r => !r.written) = some r →
    let y := s.sys
    legalSize y.fqSize.toNat 64 4096 = true → (y.fqTail - y.fqHead).toNat < y.fqSize.toNat →
    let agent := r.agent
    let a := y.fqBase.toNat + 192 * (y.fqTail.toNat % y.fqSize.toNat)
    ∀ v, paReady s a 192 true = (true, v) →
    let u := (v.stamp agent).2
    exec .faultRecordWrite s = .next ((((paWrite u a (recBytes r (v.stamp agent).1.1 agent)).modXl (fun x => { x with
      recs := x.recs.map (fun q => if q.tag == r.tag then { q with written := true } else q) })).modSys (fun y =>
        { y with fqTail := y.fqTail + 1 })).raiseNote 0)) ∧
  (∀ r n m, (recBytes r n m).length = 192) ∧
  (∀ s tag r u, takeReply s tag = some (r, u) →
    (∀ x ∈ u.xl.recs, x.tag ≠ tag) ∧
    (∀ tid gid, r.who = .gang tid gid →
      exec (.faultReplyRetry tag) s = .next (u.modGang tid gid (fun x => if x.heldFor = some tag then { x with heldFor := none } else x)) ∧
      ((u.gang tid gid).bind (·.heldFor) ≠ some tag → exec (.faultReplyDeliver tag) s = .next u) ∧
      ((u.gang tid gid).bind (·.heldFor) = some tag →
        (∀ l ∈ u.pend.loads, ∀ q ∈ l.parts, q.st ≠ .again) →
        exec (.faultReplyDeliver tag) s = .next (u.modGang tid gid (fun x => { x with heldFor := none, deliver := some (r.fva, r.ffib) })))) ∧
    (∀ t e l tid gid x, r.who = .stash t e l tid gid → (u.gang tid gid).bind (·.heldFor) = some tag →
      let v := u.modGang tid gid (fun x => { x with heldFor := none })
      exec (.faultReplyRetry tag) s = .next v ∧
      (((v.team t).bind (fun y => mapGet e y.stash)).bind (fun y => stashLine y l) = some x →
        exec (.faultReplyDeliver tag) s = .next (setStashLine v t e l (some { x with bad := some 4 })))) ∧
    (∀ id, r.who = .cmd id → exec (.faultReplyRetry tag) s = .next (cmdReply u id false) ∧
      exec (.faultReplyDeliver tag) s = .next (cmdReply u id true)) ∧
    (∀ id, r.who = .sample id →
      let mine := fun (w : Nat × Nat × Nat) => r.pages.any (fun p => p.pn == w.1)
      exec (.faultReplyRetry tag) s = .next (u.modPend (fun p => { p with samples := p.samples.map (fun x =>
        if x.id == id then { x with zeroAt := x.zeroAt ++ [], waitAt := x.waitAt.filter (fun w => !mine w) } else x) })) ∧
      exec (.faultReplyDeliver tag) s = .next (u.modPend (fun p => { p with samples := p.samples.map (fun x =>
        if x.id == id then { x with zeroAt := x.zeroAt ++ (x.waitAt.filter mine).map (·.2), waitAt := x.waitAt.filter (fun w => !mine w) }
        else x) }))))

/-! ### Home slices, the host and peer parts -/

/-- R64 to R66, R81, R129, R489: an eviction writes back the dirty sectors and M granules of a line and drops it; a write-
back that is done stores the values it took, and the next one starts where a hinted store merged meanwhile. Model choices
it rests on: notes/assumptions entries 13, 37. -/
def Obligations.EvictionsAndWriteBacks : Prop :=
  (∀ s k l, State.line s k = some l →
    (heldLine s k l = true → exec (.l2Eviction k) s = .next s) ∧
    (heldLine s k l = false →
      (∀ key, k = .host key → exec (.l2Eviction k) s = .next (drainRecs ((dropEcc ((List.range 3).foldl (fun s i =>
        if l.granOf i == .m then granuleBack s (key + i) (memBytes l.data (64 * i) 64) else s) s) k).dropLine k))) ∧
      (∀ pl, k = .dev pl → exec (.l2Eviction k) s = .next (drainRecs ((dropEcc (sectorsBack s k (pl * 192) l.dirty l.data) k).dropLine k))) ∧
      (∀ rn b j, k = .proc rn b j →
        (isPageRange s rn = false → exec (.l2Eviction k) s = .next (drainRecs (if fillState s rn b == .filled then blockDel rn b ((dropEcc s k).dropLine k)
          else (dropEcc s k).dropLine k))) ∧
        (∀ a, isPageRange s rn = true → backAddr s k = some a →
          exec (.l2Eviction k) s = .next (drainRecs ((dropEcc (sectorsBack s k a l.dirty l.data) k).dropLine k)))))) ∧
  (∀ s k l m data, State.line s k = some l → l.wb = some (m, data) →
    let done := { l with wb := none, again := false }
    let next := fun (l' : L2Line) => if l.again then l'.startBack k else l'
    (∀ key, k = .host key → exec (.writeBackDone k) s = .next ((List.range 3).foldl (fun s j =>
      if m.getLsbD j then granuleBack s (key + j) (memBytes data (64 * j) 64) else s) (s.setLine k (next done)))) ∧
    (∀ a, (∀ key, k ≠ .host key) → backAddr s k = some a →
      let u := dropSpoilt (sectorsBack (s.setLine k done) k a m data) k m
      exec (.writeBackDone k) s = .next (drainRecs (match u.line k with | some x => u.setLine k (next x) | none => u))) ∧
    ((∀ key, k ≠ .host key) → backAddr s k = none →
      exec (.writeBackDone k) s = .next (s.setLine k { done with dirty := l.dirty ||| m }))) ∧
  (∀ s k a m data b, State.eccSound s → m.getLsbD 0 = true → m.getLsbD 1 = true → m.getLsbD 2 = true → m.getLsbD 3 = true → b < 192 →
    Memory.wf s.mem.dram = true → memGet (sectorsBack s k a m data).mem.dram (a + b) = memGet data b)

/-- R129, R130, R168, R519 to R521: the host's answer brings a granule in the state asked for; a snoop answers with the
data and takes rights away; a host read or write over CXL.mem is performed at the home, and a poisoned write is recorded;
a host read of BAR0 gives the registers that R520 names. Model choices it rests on: notes/assumptions entries 19, 48, 108.
-/
def Obligations.HostCacheAndMemory : Prop :=
  (∀ s g r err, (State.mem s).cxl.find? (fun e => e.g == g && e.port.isSome) = some r →
    let u := s.modMem (fun m => { m with cxl := m.cxl.filter (fun e => e.g != g) })
    let bs := memBytes s.mem.host (64 * g) 64
    let want := r.want
    let mine := fun (k : LineKey) => (if want = .e then r.keys.take 1 else r.keys).any (fun n => k == LineKey.host n)
    (err = true → exec (.cxlCacheResponse g err) s =
      .next (u.modMem (fun m => { m with cxlErr := (m.cxlErr ++ r.asks.map (fun n => (g, n))).eraseDups }))) ∧
    (err = false → want = .i → exec (.cxlCacheResponse g err) s = .next (u.modMem (fun m =>
      { m with curr := m.curr ++ (r.asks.filter (fun n => u.pend.loads.any (fun l => l.id == n))).map (fun n => (n, g, bs)) }))) ∧
    (err = false → want ≠ .i → exec (.cxlCacheResponse g err) s = .next ((linesWith u g).foldl (fun s e =>
      let l := e.2.2
      let i := e.2.1
      if mine e.1 = false then (if want = .e ∧ l.granOf i ≠ .i then granOut s e.1 i l g .i else s)
      else if l.granOf i = .i then s.setLine e.1 { l with gran := mapPut i want l.gran, data := memPutBytes l.data (64 * i) bs }
      else if l.granOf i = .s then s.setLine e.1 { l with gran := mapPut i want l.gran } else s) u))) ∧
  (∀ s g,
    exec (.snpInv g) s = .next (snoop (answer s (snoopData s g (· == .m))) g .i) ∧
    exec (.snpData g) s = .next (snoop (answer s (snoopData s g (· != .i))) g .s) ∧
    exec (.snpCur g) s = .next (answer s (snoopData s g (· != .i)))) ∧
  (∀ s g k i l, linesWith s g = [(k, i, l)] → l.gran.Pairwise (fun a b => a.1 ≠ b.1) →
    ∃ m, (snoop s g .i).line k = some m ∧ m.granOf i = .i ∧
      (l.granOf i = .m → Memory.wf s.mem.host = true → ∀ b < 64,
        memGet (snoop s g .i).mem.host (64 * g + b) = memGet l.data (64 * i + b))) ∧
  (∀ s pa len u, State.hostLinked s = true → pa + len ≤ reservedBase → homesReady s (outChunks pa len) false = (true, u) →
    exec (.hostMemRead pa len) s = .next ((answer (outRead u pa len 0).2 (outRead u pa len 0).1).modMem (fun m =>
      { m with hostHeld := holdLines (linesOf pa len) m.hostHeld }))) ∧
  (∀ s pa len, State.hostLinked s = true → pa < barBase → reservedBase < pa + len → exec (.hostMemRead pa len) s = .next (answer s [])) ∧
  (∀ s port off, State.hostLinked s = true → port < 2 → mapGetD 0 port (State.sys s).cxlPort ≠ 0 → off < 2 ^ 16 → off % 8 = 0 →
    (off < 0x8000 ∨ 0xA000 ≤ off ∨ off % 128 ≠ 64 → exec (.hostMemRead (barBase + 2 ^ 16 * port + off) 8) s =
      .next (answer s (leBytes 8 (if off = 0 then scId s else if off = 0x18 then scStatus s
        else if 0x8000 ≤ off ∧ off < 0xA000 then readOut s ((off - 0x8000) / 128) ((off - 0x8000) % 128 / 8) else 0).toNat)))) ∧
  (∀ s pa bs u, State.hostLinked s = true → pa + List.length bs ≤ reservedBase →
    (homesReady s (outChunks pa bs.length) false = (true, u) → exec (.hostMemWrite pa bs false) s =
      .next ((outWrite u pa bs).modMem (fun m => { m with hostHeld := holdLines (linesOf pa bs.length) m.hostHeld }))) ∧
    exec (.hostMemWrite pa bs true) s = .next (devRecord s
      { agent := sliceAgent (sliceOf (.dev (pa / 192))), cause := 8, addr := pa, aux := 0x100 })) ∧
  (∀ s pl, exec (.backInvalidateResponse pl) s = .next (if (State.mem s).backInv.contains pl then s.modMem (fun m => { m with
    backInv := m.backInv.filter (· != pl), hostHeld := m.hostHeld.filter (· != pl) }) else s)) ∧
  (∀ s pa len bs b, State.hostLinked s = false → exec (.hostMemRead pa len) s = .next s ∧ exec (.hostMemWrite pa bs b) s = .next s) ∧
  (∀ s port width,
    let u := s.modSys (fun y => { y with cxlPort := mapPut port width y.cxlPort })
    exec (.cxlLinkChange port width) s = .next (if port < 2 ∧ (width = 0 ∨ width = 4 ∨ width = 8 ∨ width = 16) then
      u.modMem (fun m => { m with cxl := m.cxl.map (fun r =>
        if (match r.port with | some n => mapGetD 0 n u.sys.cxlPort != 0 | none => false) then r else { r with port := cxlPortOf u r.g }) })
      else s))

/-- R36 to R38, R132, R514, R522, R523: an application processor reads and writes outside the reserved region; a peer's
access is performed when an export window admits it and refused otherwise; a peer's reply reaches the access; links
change. Model choices it rests on: notes/assumptions entries 49, 50, 74, 108. -/
def Obligations.ProcessorsAndPeers : Prop :=
  (∀ s n pa bs, State.running s = true → pa + 7 < regSpan → pa % 8 = 0 →
    exec (.applicationProcessorAccess n (.load (regBase + pa) 8)) s = loadReg s (0x6000 + n % 16) pa ∧
    (List.length bs = 8 → exec (.applicationProcessorAccess n (.store (regBase + pa) bs)) s =
      writeReg s pa (BitVec.ofNat 64 (leNat bs)) (some (0x6000 + n % 16))) ∧
    (pa < 0x38000 → loadReg s (0x6000 + n % 16) pa = (if pa = 0x10858 then execXlInvstRead s
      else if 0x30200 ≤ pa ∧ pa < 0x30400 then execMbStatRead ((pa - 0x30200) / 8) s else .next (answer s (leBytes 8 (readReg s pa).toNat))))) ∧
  (∀ s n pa len u, State.running s = true → pa + len ≤ reservedBase → homesReady s (outChunks pa len) false = (true, u) →
    exec (.applicationProcessorAccess n (.load pa len)) s = .next ((answer (outRead u pa len 0).2 (outRead u pa len 0).1).modMem (fun m =>
      { m with apHeld := holdLines (linesOf pa len) m.apHeld }))) ∧
  (∀ s n pa bs u, State.running s = true → pa + List.length bs ≤ reservedBase → homesReady s (outChunks pa bs.length) true = (true, u) →
    exec (.applicationProcessorAccess n (.store pa bs)) s = .next ((outWrite u pa bs).modMem (fun m =>
      { m with apHeld := holdLines (linesOf pa bs.length) m.apHeld }))) ∧
  (∀ s n pa bs, State.running s = true → reservedBase < pa + List.length bs → (pa < regBase ∨ regBase + regSpan ≤ pa) →
    exec (.applicationProcessorAccess n (.store pa bs)) s = .next s) ∧
  (∀ s a,
    let n := peerSize a
    let ok := fun (s : State) => Host.Outcome.next (s.modSys (fun y => { y with lastRefused := false }))
    (State.linked s = false → exec (.peerAccessIn a) s = .next s) ∧
    (s.linked = true → reservedBase < a.pa + n ∨ (∀ k < 16, windowAdmits s k a n = false) →
      exec (.peerAccessIn a) s = .next ((answer s []).modSys (fun y => { y with lastRefused := true }))) ∧
    (∀ u, s.linked = true → a.pa + n ≤ reservedBase → (∃ k < 16, windowAdmits s k a n = true) →
      homesReady s (outChunks a.pa n) (a.kind != .read) = (true, u) →
      (a.kind = .read → exec (.peerAccessIn a) s = ok (answer (outRead u a.pa n 0).2 (outRead u a.pa n 0).1)) ∧
      (a.kind = .write → exec (.peerAccessIn a) s = ok (answer (outWrite u a.pa a.bytes) [])) ∧
      (a.kind = .atomic →
        let bs := (outRead u a.pa n 2).1
        exec (.peerAccessIn a) s = ok (answer (outWrite (outRead u a.pa n 2).2 a.pa (leBytes n (peerSteps a (BitVec.ofNat 64 (leNat bs))).toNat)) bs)))) ∧
  (∀ a old,
    let n := ATy.bytes (PeerIn.ty a)
    (a.bytes.length = 2 * n → peerSteps a old = atomStep a.op a.ty old (BitVec.ofNat 64 (leNat (a.bytes.take n)))
      (BitVec.ofNat 64 (leNat ((a.bytes.drop n).take n)))) ∧
    (∀ k, 0 < k → a.bytes.length = 2 * n * (k + 1) → peerSteps a old = atomStep a.op a.ty
      (peerSteps { a with bytes := a.bytes.take (2 * n * k) } old) (BitVec.ofNat 64 (leNat ((a.bytes.drop (2 * n * k)).take n)))
      (BitVec.ofNat 64 (leNat ((a.bytes.drop (2 * n * k + n)).take n))))) ∧
  (∀ s id p, (State.pend s).peers.find? (fun p => p.id == id) = some p → p.link ≠ 12 →
    let u := s.modPend (fun x => { x with peers := x.peers.filter (fun q => q.id != id) })
    (∀ lid fib l bs, p.kind = .read → p.who = .load lid fib → u.pend.loads.find? (fun (l : PendLoad) => l.id == lid) = some l →
      List.length bs = p.n → exec (.peerReply id (.data bs)) s = .next (u.modPend (fun x => { x with loads := x.loads.map (fun (y : PendLoad) =>
        if y.id == lid then { y with parts := y.parts.map (fun q =>
          if q.fib == fib && q.st == .waiting then { q with st := .ready, val := some (loadValue l.n l.sx bs) } else q) } else y) }))) ∧
    (∀ aid a bs, p.kind = .atomic → p.who = .atom aid → u.pend.atoms.find? (fun (a : PendAtom) => a.id == aid) = some a →
      List.length bs = p.n → exec (.peerReply id (.data bs)) s =
        .next (finishAtom u { a with fibs := (combine a.act (leNat bs) a.fibs).1 })) ∧
    (∀ k t g fib e, p.kind = .write → p.who = .store k t g fib e → exec (.peerReply id .ack) s = .next u ∧
      exec (.peerReply id .refusal) s = .next (refusal u p fib 1)) ∧
    (∀ cid seg c bs, p.kind = .read → p.who = .cmd cid seg → getCmd u cid = some c → List.length bs = p.n →
      exec (.peerReply id (.data bs)) s = .next (modCmd u cid (fun c => { c with buf := memPutBytes c.buf (bufKey (segOp u c seg) p.ga) bs })))) ∧
  (∀ s link, link < 12 →
    (∃ t, exec (.linkChange link true) s = .next t ∧
      let w := mapGetD 0 link t.sys.sgLink
      (bitsOf w 1 0 = 2 ∨ (bitsOf w 1 0 = 1 ∧ bitsOf (mapGetD 0 link s.sys.sgLink) 1 0 ≠ 1)) ∧
      (bitsOf w 1 0 = 2 → bitsOf w 15 8 < 64 ∧ 1 ≤ bitsOf w 23 16 ∧ bitsOf w 23 16 ≤ 8 ∧ t.pend = s.pend)) ∧
    (∃ t, exec (.linkChange link false) s = .next t ∧ mapGetD 0 link t.sys.sgLink = 0 ∧
      (∀ p ∈ t.pend.peers, p.link ≠ link) ∧ t.pend.peers.length = s.pend.peers.length))

/-! ### The launch unit, pre-emption and contexts -/

/-- R444, R447 to R455, R460 to R462, R464: the launch unit takes the oldest record, rejects it or hands its grid over; a
freed block goes to the best offer; a placed team's bindings run before its gangs start; a grid whose teams have ended
signals. Model choices it rests on: notes/assumptions entries 16, 17, 58, 59, 60, 61. -/
def Obligations.LaunchUnitSteps : Prop :=
  (∀ s ctx x num addr rest, State.running s = true → s.ctx? ctx = some x → x.queue = (num, addr) :: rest → x.destroying = false →
    exhausted s ctx = false → (∀ l ∈ s.launches, ¬ (l.2.ctx = ctx ∧ l.2.st = .bound)) →
    let pop := fun (s : State) => s.modCtx ctx (fun x => { x with queue := rest })
    (∀ code cause csem u, readRecord s ctx addr .grid = .reject code cause csem u →
      exec (.launchDequeue ctx) s = .next (rejectLaunch (pop (dropUnit u)) ctx num code cause csem)) ∧
    (∀ r reqs u, readRecord s ctx addr .grid = .ok r reqs u →
      let v := (freshLaunch u ctx num r).2
      let l := { fixRectangle v (freshLaunch u ctx num r).1 with reqs }
      (recF r 1023 960 ≠ 0 → exec (.launchDequeue ctx) s = .next (addLaunch (pop (dropUnit v)) { l with st := .bound })) ∧
      (∀ gx gy w, recF r 1023 960 = 0 → bindCounts v ctx 1 r = .ok gx gy w →
        exec (.launchDequeue ctx) s = .next (handOver (pop (dropUnit w)) l gx gy)))) ∧
  (∀ s ctx id l bs u, (State.launches s).find? (fun l => l.2.ctx == ctx && l.2.st == .bound) = some (id, l) →
    launchRead s ctx (recF l.lrec 1023 960) 8 (id + 1) = .bytes bs u →
    (leNat bs < recF l.lrec 1087 1024 → exec (.boundWaitDone ctx) s = .next (dropUnit u (id + 1))) ∧
    (∀ gx gy w, recF l.lrec 1087 1024 ≤ leNat bs → bindCounts u ctx (id + 1) l.lrec = .ok gx gy w →
      exec (.boundWaitDone ctx) s = .next (handOver (dropUnit w (id + 1)) l gx gy))) ∧
  (∀ s x y, State.running s = true → exec (.blockFreed x y) s = .next (match winner s x y with
    | some (.grid l) => gridTake (unbar s x y) l
    | some (.stage p k q a) => stageTake (unbar s x y) p k q a
    | none => match starvedSave s x y with
      | some (p, k, w) => addRequest s { ctx := p.ctx, weaves := [w], restoreEntries := none, unit := true, forStage := some (p.h, k) }
      | none => s)) ∧
  (∀ s x y o, winner s x y = some o → o ∈ offers s x y ∧ ∀ u ∈ offers s x y,
    (u.cores s).contains (if x = 16 then 256 + y else 16 * y + x) = true → (u.key s.sched.now).1 ≤ (o.key s.sched.now).1) ∧
  (∀ now l o, bestOffer now l = some o → o ∈ l ∧ ∀ u ∈ l, (u.key now).1 ≤ (o.key now).1) ∧
  (∀ s id t, State.team s id = some t → t.started = false → t.ended = false → (∀ c ∈ s.cmds, c.team ≠ id) →
    (t.bindings = [] → ∃ u v, exec (.teamStart id) s = .next u ∧ u.team id = some v ∧ v.started = true ∧ v.gangs.length = t.G ∧
      (∀ j g, mapGet j v.gangs = some g → ∃ x, g.frags = [x] ∧ x.pc = BitVec.ofNat 64 (t.field 63 0) ∧ g.handler = none ∧ g.gstat = 0)) ∧
    (∀ k ks, t.bindings = k :: ks → ∃ u c, exec (.teamStart id) s = .next u ∧ u.cmds = s.cmds ++ [c] ∧ c.team = id ∧ c.st = .running)) ∧
  (∀ s team c, (State.cmds s).find? (fun c => c.team == team && c.st == CmdSt.complete && (match c.kind with | .binding _ _ => true | _ => false)) = some c →
    exec (.bindingComplete team) s = .next (State.modTeam { s with cmds := s.cmds.filter (fun d => d.id != c.id) } team (fun t =>
      { t with bindings := t.bindings.tail }))) ∧
  (∀ s id l, mapGet id (State.launches s) = some l → l.stage = none → l.control = false → l.st = .running → l.live = [] →
    storesDone s l = true →
    let a := recF l.lrec 1279 1216
    (a = 0 → exec (.launchComplete id) s = .next (dropLaunch s id)) ∧
    (∀ u, a ≠ 0 → signalCsem s l a = (true, u) → exec (.launchComplete id) s = .next (dropLaunch u id)) ∧
    (∀ u, a ≠ 0 → signalCsem s l a = (false, u) → exec (.launchComplete id) s = .next u)) ∧
  (∀ s tid gid lead,
    exec (.passoverLimit tid gid lead) s = .next (State.modGang s tid gid (fun g => { g with frags := g.frags.map (fun f =>
      if f.mask.getLsbD lead ∧ 64 ≤ f.passed ∧ f.st = .running ∧ f.held = false then { f with oldest := true } else f) })))

/-- R101, R388, R452, R479 to R488, R513, R518: a settled weave is saved or its save refused; a restore puts it back;
requests queue; energy is charged to the context and its account; a context is created and destroyed by commands in order.
Model choices it rests on: notes/assumptions entries 26, 29, 64, 65, 66, 67, 83. -/
def Obligations.SavesEnergyAndContexts : Prop :=
  (∀ s w r rest x, (State.saveReqs s) = r :: rest → mapGet w s.weaves = some x → x.saving = true → r.restoreEntries = none →
    r.weaves.contains w = true →
    let u0 := x.teams.foldl dropFills s
    let u := x.teams.foldl (fun s t => match s.team t with
      | some y => y.stash.foldl (fun s e => stashUnmap s t e.1) s
      | none => s) u0
    let m := (u.pend.loads.filter (fun l => x.teams.contains l.team)).foldl settleLoad u
    let n := weaveImage m x
    let left := { r with weaves := r.weaves.filter (· != w) }
    (calm u0 x = false → exec (.preemptSave w) s = .next u0) ∧
    (calm u0 x = true → settled u x = false → exec (.preemptSave w) s = .next u) ∧
    (calm u0 x = true → settled u x = true → imagePlace m x.ctx n = none → exec (.preemptSave w) s = .next (serviceReq
      { resumeWeave (forStage m { left with refused := true } (fun q => { q with barred := true })) w x with
        saveReqs := { left with refused := true } :: rest })) ∧
    (∀ e off y, calm u0 x = true → settled u x = true → imagePlace m x.ctx n = some (e, off) →
      saveReady (x.teams.foldl readRegisters m) x.ctx off n = (false, y) → exec (.preemptSave w) s = .next y) ∧
    (∀ e off y, calm u0 x = true → settled u x = true → imagePlace m x.ctx n = some (e, off) →
      saveReady (x.teams.foldl readRegisters m) x.ctx off n = (true, y) →
      let v := packWeave (writeImage y x.ctx x e off n) w x e off n r.unit
      (∀ t ∈ x.teams, v.team t = none) ∧ (mapGet w v.weaves = none) ∧
      exec (.preemptSave w) s = .next (serviceReq { forStage v r (fun q => { q with due := (weaveTeams y x).head?.map (fun e => e.2.place) }) with
        saveReqs := left :: rest }))) ∧
  (∀ s ctx e r rest l sv u v, (State.saveReqs s) = r :: rest → r.restoreEntries = some l → savedAt s ctx e = some sv → r.ctx = ctx →
    l.contains e = true → exhausted s ctx = false →
    let off := dirQuad s ctx e % 2 ^ 48
    saveReady s ctx off sv.size = (true, v) → restoreWeave v sv.id (saveBase v ctx + off) sv (restorePlace v sv) = some u →
    exec (.restore ctx e) s = .next (serviceReq { freeEntryOf u ctx e with
      saveReqs := { r with restoreEntries := some (l.filter (· != e)) } :: rest })) ∧
  (∀ s v, State.running s = true → (State.saveReqs s) = [] →
    let ctx := bitsOf v 7 0
    saveBase s ctx ≠ 0 → BitVec.getLsbD v 8 = false →
    exec (.scPreemptSave v) s = .next (addRequest s { ctx, weaves := weavesOf s ctx, restoreEntries := none, whole := true }) ∧
    (exhausted s ctx = false →
      let l := (List.range 256).filter (fun i => dirValid s ctx i)
      exec (.scPreemptRestore v) s = .next (addRequest s { ctx, weaves := [], restoreEntries := some l }))) ∧
  (∀ s n ctx acct mj, (State.cluster s n).spent = [] → s.acctq = [] →
    let u := ((s.modCluster n (fun c => { c with spent := [] })).modCtx ctx (fun x => { x with energy := satQuad x.energy mj })).modSys (fun y =>
      { y with enUsed := mapPutD 0 ctx (satQuad (mapGetD 0 ctx y.enUsed) mj) y.enUsed })
    let a := u.sys.enAcct.toNat + 8 * (acct % 65536)
    (∀ v, paReady u a 8 true = (true, v) →
      let w := paWrite v a (leBytes 8 (satAdd (paNat v a 8) mj (2 ^ 64 - 1)))
      exec (.energyUpdate n [(ctx, acct, mj)]) s = .next (w.ctxs.foldl (fun s c => quotaSaves s c.1) { w with acctq := [] })) ∧
    (∀ v, paReady u a 8 true = (false, v) → exec (.energyUpdate n [(ctx, acct, mj)]) s =
      .next (v.ctxs.foldl (fun s c => quotaSaves s c.1) { v with acctq := [(acct % 65536, mj)] }))) ∧
  (∀ s n c k, (State.cluster s n).spent = [(c, none, k)] → s.acctq = [] →
    let u := s.modCluster n (fun x => { x with spent := if k % mjParts = 0 then [] else [(c, none, k % mjParts)] })
    let v := if mjParts ≤ k then chargeCtx u c (k / mjParts) else u
    exec (.energyUpdate n []) s = .next (v.ctxs.foldl (fun s c => quotaSaves s c.1) v)) ∧
  (∀ s c mj, (∀ x, s.ctx? c = some x → ∃ y, (chargeCtx s c mj).ctx? c = some y ∧ y.energy.toNat = min (x.energy.toNat + mj) (2 ^ 64 - 1)) ∧
    (mapGetD 0 c (chargeCtx s c mj).sys.enUsed).toNat = min ((mapGetD 0 c s.sys.enUsed).toNat + mj) (2 ^ 64 - 1)) ∧
  (∀ s tid gid uj t g, State.team s tid = some t → s.gang tid gid = some g → g.rights = [] →
    let n := (clusterOf t.place.core).getD (64 + t.place.core)
    let of := fun (s : State) => (((s.cluster n).spent.find? (fun e => e.1 == t.ctx && e.2.1 == none)).elim 0 (·.2.2))
    of (spend s tid gid uj) = of s + uj * 720720) ∧
  (∀ s v, State.running s = true → ∃ t, exec (.enRoll v) s = .next t ∧ ∀ n < 256,
    (mapGetD 0 n t.sys.enUsed).toNat = if BitVec.getLsbD v 8 = true ∨ n = bitsOf v 7 0 then
      (mapGetD 0 n s.sys.enUsed).toNat - (mapGetD 0 n s.sys.enQuota).toNat else (mapGetD 0 n s.sys.enUsed).toNat) ∧
  (∀ s n, State.running s = true →
    exec (.ctxCreate n) s = .next (addCommand s 1 n) ∧ exec (.ctxDestroy n) s = .next (addCommand s 2 n) ∧
    (s.sys.ctxCmds ≠ [] → addCommand s 1 n = s.modSys (fun y => { y with ctxCmds := y.ctxCmds ++ [(1, n % 256)] }))) ∧
  (∀ s ctx r reqs u h, s.ctx? ctx = none → readRecord s ctx (mapGetD 0 ctx (State.sys s).cpRec).toNat .control = .ok r reqs u →
    freeTwill u ctx true = some h →
    ∃ l v, tryCreate s ctx = endCommand (placeWeave (addLaunch v l) l (.twill h) 0) ctx 0 0 ∧ v.ctx? ctx = some {} ∧ l.lrec = r ∧ l.control = true)

/-! ### Start, identity, registers and power -/

/-- R524 to R528: a start clears all that is not retained and runs its steps; two failed warm starts or three failed cold
ones change the kind of start; the management port acts on signed datagrams; an attestation report is written and
recorded. Model choices it rests on: notes/assumptions entries 10, 54, 68. -/
def Obligations.StartsAndAttestation : Prop :=
  (∀ s who, (State.sys s).state = 0 →
    (∃ t, exec (.startWarm who) s = .next t ∧ t.sys.state = 2 ∧ t.teams = [] ∧ t.ctxs = [] ∧ t.mem.l2 = [] ∧ t.mem.dram = s.mem.dram ∧
      t.sys.scPart = s.sys.scPart ∧ t.evcnt = []) ∧
    (∃ t, exec (.startCold who) s = .next t ∧ t.sys.state = 1 ∧ t.teams = [] ∧ t.ctxs = [] ∧ t.mem.l2 = [] ∧ t.mem.dram = s.mem.dram)) ∧
  (∀ s who, ((State.sys s).state = 1 ∨ s.sys.state = 2) →
    exec (.startWarm who) s = .next (s.modSys (fun y => { y with ignored := satAdd y.ignored 1 (2 ^ 32 - 1) })) ∧
    exec (.startCold who) s = .next (s.modSys (fun y => { y with ignored := satAdd y.ignored 1 (2 ^ 32 - 1) }))) ∧
  (∀ s who, (State.sys s).state = 3 → exec (.startWarm who) s = .next s ∧ exec (.startCold who) s = .next s ∧
    exec (.mgmtStartWarm true) s = .next s ∧ ∃ t, exec (.mgmtStartCold true) s = .next t ∧ t.sys.state = 1) ∧
  (∀ s t, (State.sys s).start = some t →
    exec .startStepTimeout s = .next (failStart s t) ∧ exec (.startStepComplete false) s = .next (failStart s t) ∧
    ((t.step = 2 → imageOk (t.image.getD Config.bootImage) = true) → (t.step = 6 → s.sys.digest = s.sys.retainedDigest) →
      exec (.startStepComplete true) s = .next (stepDone s t)) ∧
    (t.step = 2 → imageOk (t.image.getD Config.bootImage) = false → exec (.startStepComplete true) s = .next (failStart s t)) ∧
    (t.step = 6 → s.sys.digest ≠ s.sys.retainedDigest → exec (.startStepComplete true) s = .next (failStart s t)) ∧
    (t.cold = true → 2 ≤ s.sys.coldFails → (failStart s t).sys.state = 3) ∧
    (t.cold = true → s.sys.coldFails < 2 → (failStart s t).sys.state = 1) ∧
    (t.cold = false → (failStart s t).sys.state = if 1 ≤ s.sys.warmFails then 1 else 2) ∧
    (t.step = 8 → (stepDone s t).sys.state = 0 ∧ (stepDone s t).sys.start = none ∧
      (stepDone s t).sys.measured = (stepDone s t).sys.digest) ∧
    (t.step = 5 → (stepDone s t).mem.dram = [])) ∧
  (∀ s, exec (.mgmtStatus true) s = .next (answer s (leBytes 8 (scStatus s).toNat)) ∧ exec (.mgmtStatus false) s = .next s ∧
    exec (.mgmtStartWarm false) s = .next s ∧ exec (.mgmtStartCold false) s = .next s ∧
    ((State.sys s).state = 0 → (∃ t, exec (.mgmtStartWarm true) s = .next t ∧ t.sys.state = 2) ∧
      (∃ t, exec (.mgmtStartCold true) s = .next t ∧ t.sys.state = 1))) ∧
  (∀ s img, (State.sys s).state = 0 ∨ s.sys.state = 3 →
    (imageOk img = true → ∃ t, exec (.mgmtLoadRecovery true img) s = .next t ∧ t.sys.state = 1 ∧ t.teams = [] ∧
      t.sys.start = some { cold := true, step := 1, image := some img }) ∧
    (imageOk img = false → exec (.mgmtLoadRecovery true img) s = .next s)) ∧
  (∀ s a, State.running s = true → (State.sys s).attest = none → BitVec.toNat a % 192 = 0 → a.toNat < memTop →
    exec (.attestRequest a) s = .next (if reachesReserved a.toNat 4084 then s else s.modSys (fun y => { y with attest := some a.toNat }))) ∧
  (∀ s a, (State.sys s).attest = some a →
    (∀ u, paReady s a 4084 true = (false, u) → exec .attestationReportDone s = .next u) ∧
    ∀ u, paReady s a 4084 true = (true, u) →
    let q := report u (paRead u a 32)
    exec .attestationReportDone s = .next (((devRecord (paWrite q.2 (a + 192) q.1) { agent := 0x5000, cause := 0, kind := 0, addr := a }).modSys (fun y =>
      { y with attest := none })))) ∧
  (∀ s f, (State.sys s).digest = s.sys.retainedDigest → (keep s f).sys.digest = (keep s f).sys.retainedDigest) ∧
  (∀ s nonce, exec (.mgmtAttest true nonce) s = .next (answer (report s (memBytes (memPutBytes [] 0 (List.take 32 nonce)) 0 32)).2
    (report s (memBytes (memPutBytes [] 0 (nonce.take 32)) 0 32)).1))

/-- R104, R487, R512 to R516, R522, R529 to R531: a register write acts as its register says, and outside RUN only a start
request acts; clock ratios, pass counts, heat and network steps change as the power controller says. Model choices it
rests on: notes/assumptions entries 69, 70, 108. -/
def Obligations.RegistersAndPower : Prop :=
  (∀ s off v, State.running s = false → off < 2 ^ 20 → off ≠ 0x10 → exec (.registerWrite off v) s = .next s) ∧
  (∀ s v, State.running s = true →
    exec (.scNoteClear v) s = .next (s.modSys (fun y => { y with note := y.note &&& ~~~v })) ∧
    exec (.registerWrite 0x38 v) s = exec (.scNoteClear v) s ∧
    exec (.registerWrite 0x28 v) s = exec (if v.getLsbD 9 then .scPreemptRestore v else .scPreemptSave v) s ∧
    exec (.registerWrite 0x50 v) s = exec (.attestRequest v) s ∧
    (bitsOf v 1 0 = 1 → exec (.registerWrite 0x10 v) s = exec (.startWarm .apps) s) ∧
    (bitsOf v 1 0 = 2 → exec (.registerWrite 0x10 v) s = exec (.startCold .apps) s) ∧
    (bitsOf v 9 8 = 1 → exec (.registerWrite 0x58 v) s = exec (.ctxCreate (bitsOf v 7 0)) s) ∧
    (bitsOf v 9 8 = 2 → exec (.registerWrite 0x58 v) s = exec (.ctxDestroy (bitsOf v 7 0)) s) ∧
    exec (.registerWrite 0x10850 v) s = exec (.xlInv v) s ∧ exec (.registerWrite 0x21000 v) s = exec (.enRoll v) s ∧
    (bitsOf v 17 16 = 0 → exec (.registerWrite 0x10848 v) s = exec (.faultReplyRetry (bitsOf v 15 0)) s) ∧
    (bitsOf v 17 16 = 1 → exec (.registerWrite 0x10848 v) s = exec (.faultReplyDeliver (bitsOf v 15 0)) s) ∧
    exec (.registerWrite 0x10838 v) s = .next (s.modSys (fun y => { y with fqHead := loWord v })) ∧
    (∀ n < 256,
      let w : Quad := v &&& 0x3FFFFFFF001
      exec (.registerWrite (0x10000 + 8 * n) v) s = .next (if reachesReserved (bitsOf w 41 12 * 512) 512 then s
        else s.modSys (fun y => { y with xlRoot := mapPutD 0 n w y.xlRoot })) ∧
      exec (.registerWrite (0x20800 + 8 * n) v) s = .next (s.modSys (fun y => { y with enQuota := mapPutD 0 n v y.enQuota })) ∧
      exec (.registerWrite (0x800 + 8 * n) v) s = .next (if v.toNat % 192 ≠ 0 ∨ reachesReserved v.toNat 192 = true then s
        else s.modSys (fun y => { y with save := mapPutD 0 n v y.save }))) ∧
    (∀ n < 64, exec (.registerWrite (0x30000 + 8 * n) v) s =
        .next (settleBinding (s.modSys (fun y => { y with mbBind := mapPutD 0 n (v &&& 0x1FF) y.mbBind })) (.mailbox n)) ∧
      exec (.registerWrite (0x40000 + 8 * n) v) s = .next (keep s (fun y => { y with sgRoute := mapPutD 0 n (v &&& 0x1FFF) y.sgRoute })) ∧
      exec (.registerWrite (0x50000 + 8 * n) v) s =
        .next (if ratioOk v then s.modSys (fun y => { y with pwRatio := mapPutD 0 n (v &&& 7) y.pwRatio }) else s))) ∧
  (∀ s n, n < 64 →
    exec (.ratioApply n) s = .next (s.modCluster n (fun c => { c with ratio := mapGetD 0 n s.sys.pwRatio })) ∧
    (∀ up, (State.cluster s n).pass = 1 ∨ (s.cluster n).pass = 2 ∨ (s.cluster n).pass = 4 →
      ∃ t, exec (.passCountChange n up) s = .next t ∧
        ((t.cluster n).pass = 1 ∨ (t.cluster n).pass = 2 ∨ (t.cluster n).pass = 4) ∧
        (t.cluster n).pass = (if up then min 4 (2 * (s.cluster n).pass) else max 1 ((s.cluster n).pass / 2)) ∧
        ∀ m, m ≠ n → t.cluster m = s.cluster m)) ∧
  (∀ s heat, ∃ t, exec (.heatRefresh heat) s = .next t ∧ ∀ n < 64,
    mapGetD 0 n t.sys.pwHeat = BitVec.ofNat 64 (min (heat.getD n 0) 255)) ∧
  (∀ s region st, region < 4 →
    exec (.netStepChange region st) s = .next (s.modSys (fun y => { y with pwNet := mapPutD 0 region (BitVec.ofNat 64 (st % 4)) y.pwNet })))

/-! ### Encoding, steps and what every step keeps -/

/-- R242 to R245, R249, R253, R258, R262: decoding the words of a well-formed instruction gives it back on every pool that
has it, whatever words follow, and its first word tells how many words it has. -/
def Obligations.DecodeOfEncodeIsTheInstruction : Prop :=
  ∀ i pool rest, WF i = true → poolOk pool (toRaw i).op.toNat = true →
    decode pool (encode i ++ rest) = .ok i ∧ lengthOf ((encode i).headD 0) = (encode i).length

/-- The words that the spec prints in its examples of R282, R293, R322 and R325 decode to the instructions they stand for.
-/
def Obligations.ExampleWordsDecode : Prop :=
  decode .main [0x011C000020000008] = .ok (.call ⟨false, 7⟩ 2 8) ∧
  decode .main [0x00C4012000000000] = .ok (.jmps ⟨false, 1⟩ (.scal 8 false)) ∧
  decode .main [0x181C1C0C00414000] = .ok (.cvtf ⟨false, 7⟩ (.vec 7) (.vec 3 0 false) (.vec 0 0 false) 5 0 2) ∧
  decode .main [0x189C400000004000] = .ok (.pack ⟨false, 7⟩ (.vec 16) (.vec 0 0 false) 1)

/-- A fragment is at the fetch of its next instruction: it can issue, and no trap and no re-gang comes first. -/
def Sys2Proof.Machine.Issuing (s : State) (i : Iss) : Prop :=
  s.iss = some i ∧ issuable s i.tid i.team i.gid i.gang i.frag = true ∧ i.gang.entry = none ∧
    (∀ d, i.gang.deliver = some d → i.frag.mask.getLsbD d.2 = false) ∧ stfaultReady s i.gang = false ∧ i.frag.wait ≠ .regang

/-- R30, R107, R183, R243, R268: a fragment's turn fetches the words at its pc and executes the instruction that they
decode to, or the trap of a word that decodes to none; a quad's turn issues the oldest candidate that its cycle admits
(R463); an agent's turn is its step; an empty agenda takes the candidates in rotation. Model choices it rests on:
notes/assumptions entries 4, 15. -/
def Obligations.StepRunsTheDecodedInstruction : Prop :=
  (∀ s c rest i, (State.sched s).agenda = .issue c.tid c.gid c.lead :: rest →
    let u := { s with sched := { s.sched with now := s.sched.now + 1, cur := {}, agenda := rest } }
    let v := { u with sched := { u.sched with cur := ⟨c.tid, c.gid, c.lead⟩ } }
    (issuables u).filter (fun d => d.core == c.core && d.quad == c.quad) = [c] → (candFrag u c).any (fun f => f.mask.getLsbD c.lead) = true →
    Issuing v i →
    ∀ ws w, fetchInstr v i.team.ctx i.team.place.core i.gang.ra.isSome i.frag.pc.toNat = (.words ws, w) →
      let d := decodeAt (fun n => slotA (i.team.slot n.toNat) == 9) i.team.place.pool ws
      (∀ x, d = .ok x → step s = exec (resolveDecl i x) w) ∧
      (∀ e, d = .error e → step s = exec (.illegalInstruction e.cause e.sub) w) ∧
      (cvtfHigh ws = none → d = decode i.team.place.pool ws)) ∧
  (∀ u c, (∃ t, quadTurn u c = .done t) ∨ ∃ d t, d ∈ issuables u ∧ d.core = c.core ∧ d.quad = c.quad ∧
    quadTurn u c = issueTurn t d.tid d.gid d.lead) ∧
  (∀ u c d, let all := (issuables u).filter (fun d => d.core == c.core && d.quad == c.quad)
    all.length ≠ 1 → (∀ e ∈ all, attempt u e = none) → oldestOf (all.filter ((frontOf u c).admits u)) = some d →
    quadTurn u c = issueTurn (setFront u ((frontOf u c).claim u d)) d.tid d.gid d.lead) ∧
  (∀ l d, oldestOf l = some d → d ∈ l ∧ ∀ e ∈ l, d.rank ≤ e.rank) ∧
  (∀ u tid gid lead i, let v := { u with sched := { State.sched u with cur := ⟨tid, gid, lead⟩ } }
    Issuing v i →
    ∀ ws w x, fetchInstr v i.team.ctx i.team.place.core i.gang.ra.isSome i.frag.pc.toNat = (.words ws, w) →
      decodeAt (fun n => slotA (i.team.slot n.toNat) == 9) i.team.place.pool ws = .ok x →
      issueTurn u tid gid lead = .run (resolveDecl i x) w) ∧
  (∀ s ctx core ahead pc l lv pa u, pc < globalTop → translate s ctx core (pc / 12288) ahead = .hit l lv →
    landing s ctx pc .fetch (fun _ _ => false) l = .ok (.dev pa) → homeReady s (.dev (pa / 192)) (pa % 192) 8 false = .ready u →
    let v := homeFill (eccEvents u (some ctx) (.dev (pa / 192)) (pa % 192) 8 0) (.dev (pa / 192)) (pa % 192) 8
    codeWord s ctx core ahead pc = (.words [BitVec.ofNat 64 (leNat (homeRead v (.dev (pa / 192)) (pa % 192) 8))], v)) ∧
  (∀ i x, (∀ p d a, x ≠ .pipedeclDeclare p d a) → (∀ p d a, x ≠ .procdeclDeclare p d a) → resolveDecl i x = x) ∧
  (∀ s x rest, (State.sched s).agenda = .agent x :: rest → isAgent x = true →
    step s = exec x { s with sched := { s.sched with now := s.sched.now + 1, cur := {}, agenda := rest } }) ∧
  (∀ s t, (State.sched s).agenda = [] →
    let u := { s with sched := { s.sched with now := s.sched.now + 1, cur := {} } }
    (candidates u)[u.sched.now % (candidates u).length]? = some t →
    step s = step { s with sched := { s.sched with agenda := [t] } })

/-- The memories of the machine and of its saved weaves are canonical. -/
def Sys2Proof.Machine.State.allWf (s : State) : Bool :=
  s.memoriesWf && s.saved.all (fun v => v.teams.all (fun t => Memory.wf t.2.spad && t.2.accs.all (fun a => Memory.wf a.2)))

/-- A step that goes on from a state whose byte maps and saved weaves are in canonical form (`allWf`) reaches such a
state. Model choices it rests on: notes/assumptions entry 4. -/
def Obligations.EveryStepKeepsMemoriesCanonical : Prop :=
  ∀ s t, State.allWf s = true → step s = .next t → t.allWf = true

/-- Every step goes on: none is refused, and none faults. Model choices it rests on: notes/assumptions entry 4. -/
def Obligations.EveryStepGoesOn : Prop :=
  ∀ s, ∃ t, step s = .next t

/-- R524, R525: after reset the machine runs, with both failure counts 0, no start in progress, no context, team, cache
line, TLB entry or event count; device memory is zero, and the memories are canonical. Model choices it rests on:
notes/assumptions entries 8, 23. -/
def Obligations.ResetState : Prop :=
  State.reset.allWf = true ∧ State.reset.sys.state = 0 ∧ State.reset.sys.warmFails = 0 ∧ State.reset.sys.coldFails = 0 ∧
    State.reset.sys.start = none ∧ State.reset.teams = [] ∧ State.reset.ctxs = [] ∧ State.reset.mem.l2 = [] ∧
    State.reset.cores = [] ∧ State.reset.clusters = [] ∧ State.reset.evcnt = [] ∧ (∀ a, State.reset.byteAt (.dram a) = 0) ∧
    goesOn (step State.reset) = true
end

