-- ==== Sys2Proof/Laws/Maps.lean ====
section
/-! SUPPORT. Tables and memories: read after write, and the canonical form of a memory. -/

namespace Sys2Proof.Machine

variable {α : Type}

@[simp] theorem mapGet_mapPut_same (k : Nat) (v : α) (l : List (Nat × α)) : mapGet k (mapPut k v l) = some v := by
  induction l with
  | nil => simp [mapPut, mapGet]
  | cons e t ih =>
      obtain ⟨i, w⟩ := e
      simp only [mapPut]
      split
      · have : i ≠ k := by omega
        simp [mapGet, this, ih]
      · split <;> simp [mapGet]

theorem mapGet_mapPut_other {j k : Nat} (h : j ≠ k) (v : α) (l : List (Nat × α)) :
    mapGet j (mapPut k v l) = mapGet j l := by
  induction l with
  | nil => simp [mapPut, mapGet, Ne.symm h]
  | cons e t ih =>
      obtain ⟨i, w⟩ := e
      simp only [mapPut]
      split
      · simp [mapGet, ih]
      · split
        · next hi => subst hi; simp [mapGet, Ne.symm h]
        · simp [mapGet, Ne.symm h]

theorem mapGet_mapDel_same (k : Nat) (l : List (Nat × α)) : mapGet k (mapDel k l) = none := by
  induction l with
  | nil => rfl
  | cons e t ih =>
      obtain ⟨i, w⟩ := e
      simp only [mapDel]
      split
      · exact ih
      · next h => simp [mapGet, h, ih]

theorem mapGet_mapDel_other {j k : Nat} (h : j ≠ k) (l : List (Nat × α)) : mapGet j (mapDel k l) = mapGet j l := by
  induction l with
  | nil => rfl
  | cons e t ih =>
      obtain ⟨i, w⟩ := e
      simp only [mapDel]
      split
      · next hi => subst hi; simp [mapGet, Ne.symm h, ih]
      · simp [mapGet, ih]

theorem mapGet_mapMod (j k : Nat) (f : α → α) (l : List (Nat × α)) :
    mapGet j (mapMod k f l) = if j = k then (mapGet j l).map f else mapGet j l := by
  induction l with
  | nil => simp [mapMod, mapGet]
  | cons e t ih =>
      obtain ⟨i, w⟩ := e
      simp only [mapMod, List.map_cons] at ih ⊢
      by_cases hi : i = k <;> by_cases hj : i = j <;> simp_all [mapGet]

theorem mapMod_mapMod (k : Nat) (f g : α → α) (l : List (Nat × α)) :
    mapMod k g (mapMod k f l) = mapMod k (fun x => g (f x)) l := by
  simp only [mapMod, List.map_map]
  refine List.map_congr_left fun e _ => ?_
  by_cases h : e.1 = k <;> simp [h]

@[simp] theorem mapGetD_mapPutD_same [DecidableEq α] (d : α) (k : Nat) (v : α) (l : List (Nat × α)) :
    mapGetD d k (mapPutD d k v l) = v := by
  unfold mapGetD mapPutD
  split
  · next h => simp [mapGet_mapDel_same, h]
  · simp

theorem mapGetD_mapPutD_other [DecidableEq α] (d : α) {j k : Nat} (h : j ≠ k) (v : α) (l : List (Nat × α)) :
    mapGetD d j (mapPutD d k v l) = mapGetD d j l := by
  unfold mapGetD mapPutD
  split
  · rw [mapGet_mapDel_other h]
  · rw [mapGet_mapPut_other h]

/-! ### Memories -/

/-- Read after write, one byte. -/
theorem memGet_memPut_same (m : Memory) (a : Nat) (b : Byte) : memGet (memPut m a b) a = b :=
  mapGetD_mapPutD_same ..
/-- A write leaves every other byte alone. -/
theorem memGet_memPut_other (m : Memory) {a c : Nat} (h : c ≠ a) (b : Byte) : memGet (memPut m a b) c = memGet m c :=
  mapGetD_mapPutD_other _ h ..

/-- Bytes outside a run of written bytes are as before. -/
theorem memGet_memPutBytes_other (bs : List Byte) (m : Memory) (a c : Nat) (h : c < a ∨ a + bs.length ≤ c) :
    memGet (memPutBytes m a bs) c = memGet m c := by
  induction bs generalizing m a with
  | nil => rfl
  | cons b t ih =>
      simp only [List.length_cons] at h
      simp only [memPutBytes]
      rw [ih _ _ (by omega), memGet_memPut_other _ (by omega)]

/-- A byte inside the run holds what was written there. -/
theorem memGet_memPutBytes_in (bs : List Byte) (m : Memory) (a i : Nat) (h : i < bs.length) :
    memGet (memPutBytes m a bs) (a + i) = bs[i] := by
  induction bs generalizing m a i with
  | nil => simp at h
  | cons b t ih =>
      simp only [memPutBytes]
      cases i with
      | zero =>
          rw [memGet_memPutBytes_other _ _ _ _ (by omega)]
          simp [memGet_memPut_same]
      | succ n =>
          have hn : n < t.length := by simpa using h
          have := ih (memPut m a b) (a + 1) n hn
          rw [show a + (n + 1) = a + 1 + n by omega, this]
          simp

theorem keysRise_cons (e : Nat × α) (l : List (Nat × α)) :
    keysRise (e :: l) = true ↔ (∀ x ∈ l, e.1 < x.1) ∧ keysRise l = true := by
  induction l generalizing e with
  | nil => simp [keysRise]
  | cons y t ih =>
      simp only [keysRise, Bool.and_eq_true, decide_eq_true_eq, ih y, List.mem_cons, forall_eq_or_imp]
      constructor
      · rintro ⟨h, h2, h3⟩
        exact ⟨⟨h, fun x hx => Nat.lt_trans h (h2 x hx)⟩, h2, h3⟩
      · rintro ⟨⟨h, -⟩, h2⟩
        exact ⟨h, h2⟩

theorem mem_mapPut {k : Nat} {v : α} {l : List (Nat × α)} {x : Nat × α} (h : x ∈ mapPut k v l) :
    x = (k, v) ∨ x ∈ l := by
  induction l with
  | nil => simpa [mapPut] using h
  | cons e t ih =>
      obtain ⟨i, w⟩ := e
      simp only [mapPut] at h
      split at h
      · rcases List.mem_cons.mp h with h | h
        · exact .inr (by simp [h])
        · rcases ih h with h | h
          · exact .inl h
          · exact .inr (by simp [h])
      · split at h
        · rcases List.mem_cons.mp h with h | h
          · exact .inl h
          · exact .inr (by simp [h])
        · rcases List.mem_cons.mp h with h | h
          · exact .inl h
          · exact .inr h

theorem mem_mapDel {k : Nat} {l : List (Nat × α)} {x : Nat × α} (h : x ∈ mapDel k l) : x ∈ l := by
  induction l with
  | nil => exact h
  | cons e t ih =>
      obtain ⟨i, w⟩ := e
      simp only [mapDel] at h
      split at h
      · exact List.mem_cons_of_mem _ (ih h)
      · rcases List.mem_cons.mp h with h | h
        · simp [h]
        · exact List.mem_cons_of_mem _ (ih h)

theorem keysRise_mapPut (k : Nat) (v : α) (l : List (Nat × α)) (h : keysRise l = true) :
    keysRise (mapPut k v l) = true := by
  induction l with
  | nil => rfl
  | cons e t ih =>
      obtain ⟨i, w⟩ := e
      have h' := (keysRise_cons _ _).mp h
      simp only [mapPut]
      split
      · refine (keysRise_cons _ _).mpr ⟨fun x hx => ?_, ih h'.2⟩
        rcases mem_mapPut hx with rfl | hx
        · assumption
        · exact h'.1 x hx
      · split
        · next hi => subst hi; exact (keysRise_cons _ _).mpr h'
        · refine (keysRise_cons _ _).mpr ⟨fun x hx => ?_, h⟩
          rcases List.mem_cons.mp hx with rfl | hx
          · show k < i; omega
          · have := h'.1 x hx
            show k < x.1
            simp at this; omega

theorem keysRise_mapDel (k : Nat) (l : List (Nat × α)) (h : keysRise l = true) : keysRise (mapDel k l) = true := by
  induction l with
  | nil => rfl
  | cons e t ih =>
      obtain ⟨i, w⟩ := e
      have h' := (keysRise_cons _ _).mp h
      simp only [mapDel]
      split
      · exact ih h'.2
      · exact (keysRise_cons _ _).mpr ⟨fun x hx => h'.1 x (mem_mapDel hx), ih h'.2⟩

/-- Writing a byte keeps the canonical form. -/
theorem Memory.wf_memPut (m : Memory) (a : Nat) (b : Byte) (h : Memory.wf m = true) : Memory.wf (memPut m a b) = true := by
  simp only [Memory.wf, Bool.and_eq_true, List.all_eq_true] at h ⊢
  unfold memPut mapPutD
  split
  · exact ⟨keysRise_mapDel _ _ h.1, fun x hx => h.2 x (mem_mapDel hx)⟩
  · next hb =>
    refine ⟨keysRise_mapPut _ _ _ h.1, fun x hx => ?_⟩
    rcases mem_mapPut hx with rfl | hx
    · simpa using hb
    · exact h.2 x hx

/-- Writing bytes keeps the canonical form. -/
theorem Memory.wf_memPutBytes (bs : List Byte) (m : Memory) (a : Nat) (h : Memory.wf m = true) :
    Memory.wf (memPutBytes m a bs) = true := by
  induction bs generalizing m a with
  | nil => exact h
  | cons b t ih => exact ih _ _ (Memory.wf_memPut _ _ _ h)

end Sys2Proof.Machine
end

