-- ==== Sys2Proof/Laws/State.lean ====
section
/-! SUPPORT. What each update of the state leaves alone: one lemma per field and update, true by unfolding. -/

namespace Sys2Proof.Machine

variable (s : State)

section
variable (n : Nat) (x : Team)
@[simp] theorem State.setTeam_sched : (s.setTeam n x).sched = s.sched := rfl
@[simp] theorem State.setTeam_sys : (s.setTeam n x).sys = s.sys := rfl
@[simp] theorem State.setTeam_mem : (s.setTeam n x).mem = s.mem := rfl
@[simp] theorem State.setTeam_xl : (s.setTeam n x).xl = s.xl := rfl
@[simp] theorem State.setTeam_cores : (s.setTeam n x).cores = s.cores := rfl
@[simp] theorem State.setTeam_clusters : (s.setTeam n x).clusters = s.clusters := rfl
@[simp] theorem State.setTeam_evcnt : (s.setTeam n x).evcnt = s.evcnt := rfl
@[simp] theorem State.setTeam_cycles : (s.setTeam n x).cycles = s.cycles := rfl
@[simp] theorem State.setTeam_noted47 : (s.setTeam n x).noted47 = s.noted47 := rfl
@[simp] theorem State.setTeam_teams : (s.setTeam n x).teams = mapPut n x s.teams := rfl
@[simp] theorem State.setTeam_weaves : (s.setTeam n x).weaves = s.weaves := rfl
@[simp] theorem State.setTeam_ctxs : (s.setTeam n x).ctxs = s.ctxs := rfl
@[simp] theorem State.setTeam_launches : (s.setTeam n x).launches = s.launches := rfl
@[simp] theorem State.setTeam_pipes : (s.setTeam n x).pipes = s.pipes := rfl
@[simp] theorem State.setTeam_cmds : (s.setTeam n x).cmds = s.cmds := rfl
@[simp] theorem State.setTeam_pend : (s.setTeam n x).pend = s.pend := rfl
@[simp] theorem State.setTeam_felt : (s.setTeam n x).felt = s.felt := rfl
@[simp] theorem State.setTeam_seq : (s.setTeam n x).seq = s.seq := rfl
@[simp] theorem State.setTeam_saved : (s.setTeam n x).saved = s.saved := rfl
@[simp] theorem State.setTeam_saveReqs : (s.setTeam n x).saveReqs = s.saveReqs := rfl
@[simp] theorem State.setTeam_recq : (s.setTeam n x).recq = s.recq := rfl
@[simp] theorem State.setTeam_acctq : (s.setTeam n x).acctq = s.acctq := rfl
end

section
variable (n : Nat) (f : Team → Team)
@[simp] theorem State.modTeam_sched : (s.modTeam n f).sched = s.sched := rfl
@[simp] theorem State.modTeam_sys : (s.modTeam n f).sys = s.sys := rfl
@[simp] theorem State.modTeam_mem : (s.modTeam n f).mem = s.mem := rfl
@[simp] theorem State.modTeam_xl : (s.modTeam n f).xl = s.xl := rfl
@[simp] theorem State.modTeam_cores : (s.modTeam n f).cores = s.cores := rfl
@[simp] theorem State.modTeam_clusters : (s.modTeam n f).clusters = s.clusters := rfl
@[simp] theorem State.modTeam_evcnt : (s.modTeam n f).evcnt = s.evcnt := rfl
@[simp] theorem State.modTeam_cycles : (s.modTeam n f).cycles = s.cycles := rfl
@[simp] theorem State.modTeam_noted47 : (s.modTeam n f).noted47 = s.noted47 := rfl
@[simp] theorem State.modTeam_teams : (s.modTeam n f).teams = mapMod n f s.teams := rfl
@[simp] theorem State.modTeam_weaves : (s.modTeam n f).weaves = s.weaves := rfl
@[simp] theorem State.modTeam_ctxs : (s.modTeam n f).ctxs = s.ctxs := rfl
@[simp] theorem State.modTeam_launches : (s.modTeam n f).launches = s.launches := rfl
@[simp] theorem State.modTeam_pipes : (s.modTeam n f).pipes = s.pipes := rfl
@[simp] theorem State.modTeam_cmds : (s.modTeam n f).cmds = s.cmds := rfl
@[simp] theorem State.modTeam_pend : (s.modTeam n f).pend = s.pend := rfl
@[simp] theorem State.modTeam_felt : (s.modTeam n f).felt = s.felt := rfl
@[simp] theorem State.modTeam_seq : (s.modTeam n f).seq = s.seq := rfl
@[simp] theorem State.modTeam_saved : (s.modTeam n f).saved = s.saved := rfl
@[simp] theorem State.modTeam_saveReqs : (s.modTeam n f).saveReqs = s.saveReqs := rfl
@[simp] theorem State.modTeam_recq : (s.modTeam n f).recq = s.recq := rfl
@[simp] theorem State.modTeam_acctq : (s.modTeam n f).acctq = s.acctq := rfl
end

section
variable (n g : Nat) (f : Gang → Gang)
@[simp] theorem State.modGang_sched : (s.modGang n g f).sched = s.sched := rfl
@[simp] theorem State.modGang_sys : (s.modGang n g f).sys = s.sys := rfl
@[simp] theorem State.modGang_mem : (s.modGang n g f).mem = s.mem := rfl
@[simp] theorem State.modGang_xl : (s.modGang n g f).xl = s.xl := rfl
@[simp] theorem State.modGang_cores : (s.modGang n g f).cores = s.cores := rfl
@[simp] theorem State.modGang_clusters : (s.modGang n g f).clusters = s.clusters := rfl
@[simp] theorem State.modGang_evcnt : (s.modGang n g f).evcnt = s.evcnt := rfl
@[simp] theorem State.modGang_cycles : (s.modGang n g f).cycles = s.cycles := rfl
@[simp] theorem State.modGang_noted47 : (s.modGang n g f).noted47 = s.noted47 := rfl
@[simp] theorem State.modGang_weaves : (s.modGang n g f).weaves = s.weaves := rfl
@[simp] theorem State.modGang_ctxs : (s.modGang n g f).ctxs = s.ctxs := rfl
@[simp] theorem State.modGang_launches : (s.modGang n g f).launches = s.launches := rfl
@[simp] theorem State.modGang_pipes : (s.modGang n g f).pipes = s.pipes := rfl
@[simp] theorem State.modGang_cmds : (s.modGang n g f).cmds = s.cmds := rfl
@[simp] theorem State.modGang_pend : (s.modGang n g f).pend = s.pend := rfl
@[simp] theorem State.modGang_felt : (s.modGang n g f).felt = s.felt := rfl
@[simp] theorem State.modGang_seq : (s.modGang n g f).seq = s.seq := rfl
@[simp] theorem State.modGang_saved : (s.modGang n g f).saved = s.saved := rfl
@[simp] theorem State.modGang_saveReqs : (s.modGang n g f).saveReqs = s.saveReqs := rfl
@[simp] theorem State.modGang_recq : (s.modGang n g f).recq = s.recq := rfl
@[simp] theorem State.modGang_acctq : (s.modGang n g f).acctq = s.acctq := rfl
end

section
variable (f : Gang → Gang)
@[simp] theorem State.modCur_sched : (s.modCur f).sched = s.sched := rfl
@[simp] theorem State.modCur_sys : (s.modCur f).sys = s.sys := rfl
@[simp] theorem State.modCur_mem : (s.modCur f).mem = s.mem := rfl
@[simp] theorem State.modCur_xl : (s.modCur f).xl = s.xl := rfl
@[simp] theorem State.modCur_cores : (s.modCur f).cores = s.cores := rfl
@[simp] theorem State.modCur_clusters : (s.modCur f).clusters = s.clusters := rfl
@[simp] theorem State.modCur_evcnt : (s.modCur f).evcnt = s.evcnt := rfl
@[simp] theorem State.modCur_cycles : (s.modCur f).cycles = s.cycles := rfl
@[simp] theorem State.modCur_noted47 : (s.modCur f).noted47 = s.noted47 := rfl
@[simp] theorem State.modCur_weaves : (s.modCur f).weaves = s.weaves := rfl
@[simp] theorem State.modCur_ctxs : (s.modCur f).ctxs = s.ctxs := rfl
@[simp] theorem State.modCur_launches : (s.modCur f).launches = s.launches := rfl
@[simp] theorem State.modCur_pipes : (s.modCur f).pipes = s.pipes := rfl
@[simp] theorem State.modCur_cmds : (s.modCur f).cmds = s.cmds := rfl
@[simp] theorem State.modCur_pend : (s.modCur f).pend = s.pend := rfl
@[simp] theorem State.modCur_felt : (s.modCur f).felt = s.felt := rfl
@[simp] theorem State.modCur_seq : (s.modCur f).seq = s.seq := rfl
@[simp] theorem State.modCur_saved : (s.modCur f).saved = s.saved := rfl
@[simp] theorem State.modCur_saveReqs : (s.modCur f).saveReqs = s.saveReqs := rfl
@[simp] theorem State.modCur_recq : (s.modCur f).recq = s.recq := rfl
@[simp] theorem State.modCur_acctq : (s.modCur f).acctq = s.acctq := rfl
end

section
variable (f : Frag → Frag)
@[simp] theorem State.modFrag_sched : (s.modFrag f).sched = s.sched := rfl
@[simp] theorem State.modFrag_sys : (s.modFrag f).sys = s.sys := rfl
@[simp] theorem State.modFrag_mem : (s.modFrag f).mem = s.mem := rfl
@[simp] theorem State.modFrag_xl : (s.modFrag f).xl = s.xl := rfl
@[simp] theorem State.modFrag_cores : (s.modFrag f).cores = s.cores := rfl
@[simp] theorem State.modFrag_clusters : (s.modFrag f).clusters = s.clusters := rfl
@[simp] theorem State.modFrag_evcnt : (s.modFrag f).evcnt = s.evcnt := rfl
@[simp] theorem State.modFrag_cycles : (s.modFrag f).cycles = s.cycles := rfl
@[simp] theorem State.modFrag_noted47 : (s.modFrag f).noted47 = s.noted47 := rfl
@[simp] theorem State.modFrag_weaves : (s.modFrag f).weaves = s.weaves := rfl
@[simp] theorem State.modFrag_ctxs : (s.modFrag f).ctxs = s.ctxs := rfl
@[simp] theorem State.modFrag_launches : (s.modFrag f).launches = s.launches := rfl
@[simp] theorem State.modFrag_pipes : (s.modFrag f).pipes = s.pipes := rfl
@[simp] theorem State.modFrag_cmds : (s.modFrag f).cmds = s.cmds := rfl
@[simp] theorem State.modFrag_pend : (s.modFrag f).pend = s.pend := rfl
@[simp] theorem State.modFrag_felt : (s.modFrag f).felt = s.felt := rfl
@[simp] theorem State.modFrag_seq : (s.modFrag f).seq = s.seq := rfl
@[simp] theorem State.modFrag_saved : (s.modFrag f).saved = s.saved := rfl
@[simp] theorem State.modFrag_saveReqs : (s.modFrag f).saveReqs = s.saveReqs := rfl
@[simp] theorem State.modFrag_recq : (s.modFrag f).recq = s.recq := rfl
@[simp] theorem State.modFrag_acctq : (s.modFrag f).acctq = s.acctq := rfl
end

section
variable (n : Nat) (x : Core)
@[simp] theorem State.setCore_sched : (s.setCore n x).sched = s.sched := rfl
@[simp] theorem State.setCore_sys : (s.setCore n x).sys = s.sys := rfl
@[simp] theorem State.setCore_mem : (s.setCore n x).mem = s.mem := rfl
@[simp] theorem State.setCore_xl : (s.setCore n x).xl = s.xl := rfl
@[simp] theorem State.setCore_cores : (s.setCore n x).cores = mapPutD {} n x s.cores := rfl
@[simp] theorem State.setCore_clusters : (s.setCore n x).clusters = s.clusters := rfl
@[simp] theorem State.setCore_evcnt : (s.setCore n x).evcnt = s.evcnt := rfl
@[simp] theorem State.setCore_cycles : (s.setCore n x).cycles = s.cycles := rfl
@[simp] theorem State.setCore_noted47 : (s.setCore n x).noted47 = s.noted47 := rfl
@[simp] theorem State.setCore_teams : (s.setCore n x).teams = s.teams := rfl
@[simp] theorem State.setCore_weaves : (s.setCore n x).weaves = s.weaves := rfl
@[simp] theorem State.setCore_ctxs : (s.setCore n x).ctxs = s.ctxs := rfl
@[simp] theorem State.setCore_launches : (s.setCore n x).launches = s.launches := rfl
@[simp] theorem State.setCore_pipes : (s.setCore n x).pipes = s.pipes := rfl
@[simp] theorem State.setCore_cmds : (s.setCore n x).cmds = s.cmds := rfl
@[simp] theorem State.setCore_pend : (s.setCore n x).pend = s.pend := rfl
@[simp] theorem State.setCore_felt : (s.setCore n x).felt = s.felt := rfl
@[simp] theorem State.setCore_seq : (s.setCore n x).seq = s.seq := rfl
@[simp] theorem State.setCore_saved : (s.setCore n x).saved = s.saved := rfl
@[simp] theorem State.setCore_saveReqs : (s.setCore n x).saveReqs = s.saveReqs := rfl
@[simp] theorem State.setCore_recq : (s.setCore n x).recq = s.recq := rfl
@[simp] theorem State.setCore_acctq : (s.setCore n x).acctq = s.acctq := rfl
end

section
variable (n : Nat) (f : Core → Core)
@[simp] theorem State.modCore_sched : (s.modCore n f).sched = s.sched := rfl
@[simp] theorem State.modCore_sys : (s.modCore n f).sys = s.sys := rfl
@[simp] theorem State.modCore_mem : (s.modCore n f).mem = s.mem := rfl
@[simp] theorem State.modCore_xl : (s.modCore n f).xl = s.xl := rfl
@[simp] theorem State.modCore_clusters : (s.modCore n f).clusters = s.clusters := rfl
@[simp] theorem State.modCore_evcnt : (s.modCore n f).evcnt = s.evcnt := rfl
@[simp] theorem State.modCore_cycles : (s.modCore n f).cycles = s.cycles := rfl
@[simp] theorem State.modCore_noted47 : (s.modCore n f).noted47 = s.noted47 := rfl
@[simp] theorem State.modCore_teams : (s.modCore n f).teams = s.teams := rfl
@[simp] theorem State.modCore_weaves : (s.modCore n f).weaves = s.weaves := rfl
@[simp] theorem State.modCore_ctxs : (s.modCore n f).ctxs = s.ctxs := rfl
@[simp] theorem State.modCore_launches : (s.modCore n f).launches = s.launches := rfl
@[simp] theorem State.modCore_pipes : (s.modCore n f).pipes = s.pipes := rfl
@[simp] theorem State.modCore_cmds : (s.modCore n f).cmds = s.cmds := rfl
@[simp] theorem State.modCore_pend : (s.modCore n f).pend = s.pend := rfl
@[simp] theorem State.modCore_felt : (s.modCore n f).felt = s.felt := rfl
@[simp] theorem State.modCore_seq : (s.modCore n f).seq = s.seq := rfl
@[simp] theorem State.modCore_saved : (s.modCore n f).saved = s.saved := rfl
@[simp] theorem State.modCore_saveReqs : (s.modCore n f).saveReqs = s.saveReqs := rfl
@[simp] theorem State.modCore_recq : (s.modCore n f).recq = s.recq := rfl
@[simp] theorem State.modCore_acctq : (s.modCore n f).acctq = s.acctq := rfl
end

section
variable (n : Nat) (f : Cluster → Cluster)
@[simp] theorem State.modCluster_sched : (s.modCluster n f).sched = s.sched := rfl
@[simp] theorem State.modCluster_sys : (s.modCluster n f).sys = s.sys := rfl
@[simp] theorem State.modCluster_mem : (s.modCluster n f).mem = s.mem := rfl
@[simp] theorem State.modCluster_xl : (s.modCluster n f).xl = s.xl := rfl
@[simp] theorem State.modCluster_cores : (s.modCluster n f).cores = s.cores := rfl
@[simp] theorem State.modCluster_evcnt : (s.modCluster n f).evcnt = s.evcnt := rfl
@[simp] theorem State.modCluster_cycles : (s.modCluster n f).cycles = s.cycles := rfl
@[simp] theorem State.modCluster_noted47 : (s.modCluster n f).noted47 = s.noted47 := rfl
@[simp] theorem State.modCluster_teams : (s.modCluster n f).teams = s.teams := rfl
@[simp] theorem State.modCluster_weaves : (s.modCluster n f).weaves = s.weaves := rfl
@[simp] theorem State.modCluster_ctxs : (s.modCluster n f).ctxs = s.ctxs := rfl
@[simp] theorem State.modCluster_launches : (s.modCluster n f).launches = s.launches := rfl
@[simp] theorem State.modCluster_pipes : (s.modCluster n f).pipes = s.pipes := rfl
@[simp] theorem State.modCluster_cmds : (s.modCluster n f).cmds = s.cmds := rfl
@[simp] theorem State.modCluster_pend : (s.modCluster n f).pend = s.pend := rfl
@[simp] theorem State.modCluster_felt : (s.modCluster n f).felt = s.felt := rfl
@[simp] theorem State.modCluster_seq : (s.modCluster n f).seq = s.seq := rfl
@[simp] theorem State.modCluster_saved : (s.modCluster n f).saved = s.saved := rfl
@[simp] theorem State.modCluster_saveReqs : (s.modCluster n f).saveReqs = s.saveReqs := rfl
@[simp] theorem State.modCluster_recq : (s.modCluster n f).recq = s.recq := rfl
@[simp] theorem State.modCluster_acctq : (s.modCluster n f).acctq = s.acctq := rfl
end

section
variable (n : Nat) (f : Ctx → Ctx)
@[simp] theorem State.modCtx_sched : (s.modCtx n f).sched = s.sched := rfl
@[simp] theorem State.modCtx_sys : (s.modCtx n f).sys = s.sys := rfl
@[simp] theorem State.modCtx_mem : (s.modCtx n f).mem = s.mem := rfl
@[simp] theorem State.modCtx_xl : (s.modCtx n f).xl = s.xl := rfl
@[simp] theorem State.modCtx_cores : (s.modCtx n f).cores = s.cores := rfl
@[simp] theorem State.modCtx_clusters : (s.modCtx n f).clusters = s.clusters := rfl
@[simp] theorem State.modCtx_evcnt : (s.modCtx n f).evcnt = s.evcnt := rfl
@[simp] theorem State.modCtx_cycles : (s.modCtx n f).cycles = s.cycles := rfl
@[simp] theorem State.modCtx_noted47 : (s.modCtx n f).noted47 = s.noted47 := rfl
@[simp] theorem State.modCtx_teams : (s.modCtx n f).teams = s.teams := rfl
@[simp] theorem State.modCtx_weaves : (s.modCtx n f).weaves = s.weaves := rfl
@[simp] theorem State.modCtx_ctxs : (s.modCtx n f).ctxs = mapMod n f s.ctxs := rfl
@[simp] theorem State.modCtx_launches : (s.modCtx n f).launches = s.launches := rfl
@[simp] theorem State.modCtx_pipes : (s.modCtx n f).pipes = s.pipes := rfl
@[simp] theorem State.modCtx_cmds : (s.modCtx n f).cmds = s.cmds := rfl
@[simp] theorem State.modCtx_pend : (s.modCtx n f).pend = s.pend := rfl
@[simp] theorem State.modCtx_felt : (s.modCtx n f).felt = s.felt := rfl
@[simp] theorem State.modCtx_seq : (s.modCtx n f).seq = s.seq := rfl
@[simp] theorem State.modCtx_saved : (s.modCtx n f).saved = s.saved := rfl
@[simp] theorem State.modCtx_saveReqs : (s.modCtx n f).saveReqs = s.saveReqs := rfl
@[simp] theorem State.modCtx_recq : (s.modCtx n f).recq = s.recq := rfl
@[simp] theorem State.modCtx_acctq : (s.modCtx n f).acctq = s.acctq := rfl
end

section
variable (f : Pend → Pend)
@[simp] theorem State.modPend_sched : (s.modPend f).sched = s.sched := rfl
@[simp] theorem State.modPend_sys : (s.modPend f).sys = s.sys := rfl
@[simp] theorem State.modPend_mem : (s.modPend f).mem = s.mem := rfl
@[simp] theorem State.modPend_xl : (s.modPend f).xl = s.xl := rfl
@[simp] theorem State.modPend_cores : (s.modPend f).cores = s.cores := rfl
@[simp] theorem State.modPend_clusters : (s.modPend f).clusters = s.clusters := rfl
@[simp] theorem State.modPend_evcnt : (s.modPend f).evcnt = s.evcnt := rfl
@[simp] theorem State.modPend_cycles : (s.modPend f).cycles = s.cycles := rfl
@[simp] theorem State.modPend_noted47 : (s.modPend f).noted47 = s.noted47 := rfl
@[simp] theorem State.modPend_teams : (s.modPend f).teams = s.teams := rfl
@[simp] theorem State.modPend_weaves : (s.modPend f).weaves = s.weaves := rfl
@[simp] theorem State.modPend_ctxs : (s.modPend f).ctxs = s.ctxs := rfl
@[simp] theorem State.modPend_launches : (s.modPend f).launches = s.launches := rfl
@[simp] theorem State.modPend_pipes : (s.modPend f).pipes = s.pipes := rfl
@[simp] theorem State.modPend_cmds : (s.modPend f).cmds = s.cmds := rfl
@[simp] theorem State.modPend_pend : (s.modPend f).pend = f s.pend := rfl
@[simp] theorem State.modPend_felt : (s.modPend f).felt = s.felt := rfl
@[simp] theorem State.modPend_seq : (s.modPend f).seq = s.seq := rfl
@[simp] theorem State.modPend_saved : (s.modPend f).saved = s.saved := rfl
@[simp] theorem State.modPend_saveReqs : (s.modPend f).saveReqs = s.saveReqs := rfl
@[simp] theorem State.modPend_recq : (s.modPend f).recq = s.recq := rfl
@[simp] theorem State.modPend_acctq : (s.modPend f).acctq = s.acctq := rfl
end

section
variable (f : MemSys → MemSys)
@[simp] theorem State.modMem_sched : (s.modMem f).sched = s.sched := rfl
@[simp] theorem State.modMem_sys : (s.modMem f).sys = s.sys := rfl
@[simp] theorem State.modMem_mem : (s.modMem f).mem = f s.mem := rfl
@[simp] theorem State.modMem_xl : (s.modMem f).xl = s.xl := rfl
@[simp] theorem State.modMem_cores : (s.modMem f).cores = s.cores := rfl
@[simp] theorem State.modMem_clusters : (s.modMem f).clusters = s.clusters := rfl
@[simp] theorem State.modMem_evcnt : (s.modMem f).evcnt = s.evcnt := rfl
@[simp] theorem State.modMem_cycles : (s.modMem f).cycles = s.cycles := rfl
@[simp] theorem State.modMem_noted47 : (s.modMem f).noted47 = s.noted47 := rfl
@[simp] theorem State.modMem_teams : (s.modMem f).teams = s.teams := rfl
@[simp] theorem State.modMem_weaves : (s.modMem f).weaves = s.weaves := rfl
@[simp] theorem State.modMem_ctxs : (s.modMem f).ctxs = s.ctxs := rfl
@[simp] theorem State.modMem_launches : (s.modMem f).launches = s.launches := rfl
@[simp] theorem State.modMem_pipes : (s.modMem f).pipes = s.pipes := rfl
@[simp] theorem State.modMem_cmds : (s.modMem f).cmds = s.cmds := rfl
@[simp] theorem State.modMem_pend : (s.modMem f).pend = s.pend := rfl
@[simp] theorem State.modMem_felt : (s.modMem f).felt = s.felt := rfl
@[simp] theorem State.modMem_seq : (s.modMem f).seq = s.seq := rfl
@[simp] theorem State.modMem_saved : (s.modMem f).saved = s.saved := rfl
@[simp] theorem State.modMem_saveReqs : (s.modMem f).saveReqs = s.saveReqs := rfl
@[simp] theorem State.modMem_recq : (s.modMem f).recq = s.recq := rfl
@[simp] theorem State.modMem_acctq : (s.modMem f).acctq = s.acctq := rfl
end

section
variable (f : Sys → Sys)
@[simp] theorem State.modSys_sched : (s.modSys f).sched = s.sched := rfl
@[simp] theorem State.modSys_sys : (s.modSys f).sys = f s.sys := rfl
@[simp] theorem State.modSys_mem : (s.modSys f).mem = s.mem := rfl
@[simp] theorem State.modSys_xl : (s.modSys f).xl = s.xl := rfl
@[simp] theorem State.modSys_cores : (s.modSys f).cores = s.cores := rfl
@[simp] theorem State.modSys_clusters : (s.modSys f).clusters = s.clusters := rfl
@[simp] theorem State.modSys_evcnt : (s.modSys f).evcnt = s.evcnt := rfl
@[simp] theorem State.modSys_cycles : (s.modSys f).cycles = s.cycles := rfl
@[simp] theorem State.modSys_noted47 : (s.modSys f).noted47 = s.noted47 := rfl
@[simp] theorem State.modSys_teams : (s.modSys f).teams = s.teams := rfl
@[simp] theorem State.modSys_weaves : (s.modSys f).weaves = s.weaves := rfl
@[simp] theorem State.modSys_ctxs : (s.modSys f).ctxs = s.ctxs := rfl
@[simp] theorem State.modSys_launches : (s.modSys f).launches = s.launches := rfl
@[simp] theorem State.modSys_pipes : (s.modSys f).pipes = s.pipes := rfl
@[simp] theorem State.modSys_cmds : (s.modSys f).cmds = s.cmds := rfl
@[simp] theorem State.modSys_pend : (s.modSys f).pend = s.pend := rfl
@[simp] theorem State.modSys_felt : (s.modSys f).felt = s.felt := rfl
@[simp] theorem State.modSys_seq : (s.modSys f).seq = s.seq := rfl
@[simp] theorem State.modSys_saved : (s.modSys f).saved = s.saved := rfl
@[simp] theorem State.modSys_saveReqs : (s.modSys f).saveReqs = s.saveReqs := rfl
@[simp] theorem State.modSys_recq : (s.modSys f).recq = s.recq := rfl
@[simp] theorem State.modSys_acctq : (s.modSys f).acctq = s.acctq := rfl
end

section
variable (f : Xl → Xl)
@[simp] theorem State.modXl_sched : (s.modXl f).sched = s.sched := rfl
@[simp] theorem State.modXl_sys : (s.modXl f).sys = s.sys := rfl
@[simp] theorem State.modXl_mem : (s.modXl f).mem = s.mem := rfl
@[simp] theorem State.modXl_xl : (s.modXl f).xl = f s.xl := rfl
@[simp] theorem State.modXl_cores : (s.modXl f).cores = s.cores := rfl
@[simp] theorem State.modXl_clusters : (s.modXl f).clusters = s.clusters := rfl
@[simp] theorem State.modXl_evcnt : (s.modXl f).evcnt = s.evcnt := rfl
@[simp] theorem State.modXl_cycles : (s.modXl f).cycles = s.cycles := rfl
@[simp] theorem State.modXl_noted47 : (s.modXl f).noted47 = s.noted47 := rfl
@[simp] theorem State.modXl_teams : (s.modXl f).teams = s.teams := rfl
@[simp] theorem State.modXl_weaves : (s.modXl f).weaves = s.weaves := rfl
@[simp] theorem State.modXl_ctxs : (s.modXl f).ctxs = s.ctxs := rfl
@[simp] theorem State.modXl_launches : (s.modXl f).launches = s.launches := rfl
@[simp] theorem State.modXl_pipes : (s.modXl f).pipes = s.pipes := rfl
@[simp] theorem State.modXl_cmds : (s.modXl f).cmds = s.cmds := rfl
@[simp] theorem State.modXl_pend : (s.modXl f).pend = s.pend := rfl
@[simp] theorem State.modXl_felt : (s.modXl f).felt = s.felt := rfl
@[simp] theorem State.modXl_seq : (s.modXl f).seq = s.seq := rfl
@[simp] theorem State.modXl_saved : (s.modXl f).saved = s.saved := rfl
@[simp] theorem State.modXl_saveReqs : (s.modXl f).saveReqs = s.saveReqs := rfl
@[simp] theorem State.modXl_recq : (s.modXl f).recq = s.recq := rfl
@[simp] theorem State.modXl_acctq : (s.modXl f).acctq = s.acctq := rfl
end

section
variable (f : Felt → Felt)
@[simp] theorem State.modFelt_sched : (s.modFelt f).sched = s.sched := rfl
@[simp] theorem State.modFelt_sys : (s.modFelt f).sys = s.sys := rfl
@[simp] theorem State.modFelt_mem : (s.modFelt f).mem = s.mem := rfl
@[simp] theorem State.modFelt_xl : (s.modFelt f).xl = s.xl := rfl
@[simp] theorem State.modFelt_cores : (s.modFelt f).cores = s.cores := rfl
@[simp] theorem State.modFelt_clusters : (s.modFelt f).clusters = s.clusters := rfl
@[simp] theorem State.modFelt_evcnt : (s.modFelt f).evcnt = s.evcnt := rfl
@[simp] theorem State.modFelt_cycles : (s.modFelt f).cycles = s.cycles := rfl
@[simp] theorem State.modFelt_noted47 : (s.modFelt f).noted47 = s.noted47 := rfl
@[simp] theorem State.modFelt_teams : (s.modFelt f).teams = s.teams := rfl
@[simp] theorem State.modFelt_weaves : (s.modFelt f).weaves = s.weaves := rfl
@[simp] theorem State.modFelt_ctxs : (s.modFelt f).ctxs = s.ctxs := rfl
@[simp] theorem State.modFelt_launches : (s.modFelt f).launches = s.launches := rfl
@[simp] theorem State.modFelt_pipes : (s.modFelt f).pipes = s.pipes := rfl
@[simp] theorem State.modFelt_cmds : (s.modFelt f).cmds = s.cmds := rfl
@[simp] theorem State.modFelt_pend : (s.modFelt f).pend = s.pend := rfl
@[simp] theorem State.modFelt_felt : (s.modFelt f).felt = f s.felt := rfl
@[simp] theorem State.modFelt_seq : (s.modFelt f).seq = s.seq := rfl
@[simp] theorem State.modFelt_saved : (s.modFelt f).saved = s.saved := rfl
@[simp] theorem State.modFelt_saveReqs : (s.modFelt f).saveReqs = s.saveReqs := rfl
@[simp] theorem State.modFelt_recq : (s.modFelt f).recq = s.recq := rfl
@[simp] theorem State.modFelt_acctq : (s.modFelt f).acctq = s.acctq := rfl
end

@[simp] theorem State.fresh_sys : (s.fresh).2.sys = s.sys := rfl
@[simp] theorem State.fresh_mem : (s.fresh).2.mem = s.mem := rfl
@[simp] theorem State.fresh_xl : (s.fresh).2.xl = s.xl := rfl
@[simp] theorem State.fresh_cores : (s.fresh).2.cores = s.cores := rfl
@[simp] theorem State.fresh_clusters : (s.fresh).2.clusters = s.clusters := rfl
@[simp] theorem State.fresh_evcnt : (s.fresh).2.evcnt = s.evcnt := rfl
@[simp] theorem State.fresh_cycles : (s.fresh).2.cycles = s.cycles := rfl
@[simp] theorem State.fresh_noted47 : (s.fresh).2.noted47 = s.noted47 := rfl
@[simp] theorem State.fresh_teams : (s.fresh).2.teams = s.teams := rfl
@[simp] theorem State.fresh_weaves : (s.fresh).2.weaves = s.weaves := rfl
@[simp] theorem State.fresh_ctxs : (s.fresh).2.ctxs = s.ctxs := rfl
@[simp] theorem State.fresh_launches : (s.fresh).2.launches = s.launches := rfl
@[simp] theorem State.fresh_pipes : (s.fresh).2.pipes = s.pipes := rfl
@[simp] theorem State.fresh_cmds : (s.fresh).2.cmds = s.cmds := rfl
@[simp] theorem State.fresh_pend : (s.fresh).2.pend = s.pend := rfl
@[simp] theorem State.fresh_felt : (s.fresh).2.felt = s.felt := rfl
@[simp] theorem State.fresh_seq : (s.fresh).2.seq = s.seq := rfl
@[simp] theorem State.fresh_saved : (s.fresh).2.saved = s.saved := rfl
@[simp] theorem State.fresh_saveReqs : (s.fresh).2.saveReqs = s.saveReqs := rfl
@[simp] theorem State.fresh_recq : (s.fresh).2.recq = s.recq := rfl
@[simp] theorem State.fresh_acctq : (s.fresh).2.acctq = s.acctq := rfl

@[simp] theorem State.freeQ_sys : (s.freeQ).2.sys = s.sys := rfl
@[simp] theorem State.freeQ_mem : (s.freeQ).2.mem = s.mem := rfl
@[simp] theorem State.freeQ_xl : (s.freeQ).2.xl = s.xl := rfl
@[simp] theorem State.freeQ_cores : (s.freeQ).2.cores = s.cores := rfl
@[simp] theorem State.freeQ_clusters : (s.freeQ).2.clusters = s.clusters := rfl
@[simp] theorem State.freeQ_evcnt : (s.freeQ).2.evcnt = s.evcnt := rfl
@[simp] theorem State.freeQ_cycles : (s.freeQ).2.cycles = s.cycles := rfl
@[simp] theorem State.freeQ_noted47 : (s.freeQ).2.noted47 = s.noted47 := rfl
@[simp] theorem State.freeQ_teams : (s.freeQ).2.teams = s.teams := rfl
@[simp] theorem State.freeQ_weaves : (s.freeQ).2.weaves = s.weaves := rfl
@[simp] theorem State.freeQ_ctxs : (s.freeQ).2.ctxs = s.ctxs := rfl
@[simp] theorem State.freeQ_launches : (s.freeQ).2.launches = s.launches := rfl
@[simp] theorem State.freeQ_pipes : (s.freeQ).2.pipes = s.pipes := rfl
@[simp] theorem State.freeQ_cmds : (s.freeQ).2.cmds = s.cmds := rfl
@[simp] theorem State.freeQ_pend : (s.freeQ).2.pend = s.pend := rfl
@[simp] theorem State.freeQ_felt : (s.freeQ).2.felt = s.felt := rfl
@[simp] theorem State.freeQ_seq : (s.freeQ).2.seq = s.seq := rfl
@[simp] theorem State.freeQ_saved : (s.freeQ).2.saved = s.saved := rfl
@[simp] theorem State.freeQ_saveReqs : (s.freeQ).2.saveReqs = s.saveReqs := rfl
@[simp] theorem State.freeQ_recq : (s.freeQ).2.recq = s.recq := rfl
@[simp] theorem State.freeQ_acctq : (s.freeQ).2.acctq = s.acctq := rfl

section
variable (a n : Nat)
@[simp] theorem State.setEv_sched : (s.setEv a n).sched = s.sched := by unfold State.setEv; dsimp only; split <;> rfl
@[simp] theorem State.setEv_mem : (s.setEv a n).mem = s.mem := by unfold State.setEv; dsimp only; split <;> rfl
@[simp] theorem State.setEv_xl : (s.setEv a n).xl = s.xl := by unfold State.setEv; dsimp only; split <;> rfl
@[simp] theorem State.setEv_cores : (s.setEv a n).cores = s.cores := by unfold State.setEv; dsimp only; split <;> rfl
@[simp] theorem State.setEv_clusters : (s.setEv a n).clusters = s.clusters := by unfold State.setEv; dsimp only; split <;> rfl
@[simp] theorem State.setEv_cycles : (s.setEv a n).cycles = s.cycles := by unfold State.setEv; dsimp only; split <;> rfl
@[simp] theorem State.setEv_teams : (s.setEv a n).teams = s.teams := by unfold State.setEv; dsimp only; split <;> rfl
@[simp] theorem State.setEv_weaves : (s.setEv a n).weaves = s.weaves := by unfold State.setEv; dsimp only; split <;> rfl
@[simp] theorem State.setEv_ctxs : (s.setEv a n).ctxs = s.ctxs := by unfold State.setEv; dsimp only; split <;> rfl
@[simp] theorem State.setEv_launches : (s.setEv a n).launches = s.launches := by unfold State.setEv; dsimp only; split <;> rfl
@[simp] theorem State.setEv_pipes : (s.setEv a n).pipes = s.pipes := by unfold State.setEv; dsimp only; split <;> rfl
@[simp] theorem State.setEv_cmds : (s.setEv a n).cmds = s.cmds := by unfold State.setEv; dsimp only; split <;> rfl
@[simp] theorem State.setEv_pend : (s.setEv a n).pend = s.pend := by unfold State.setEv; dsimp only; split <;> rfl
@[simp] theorem State.setEv_felt : (s.setEv a n).felt = s.felt := by unfold State.setEv; dsimp only; split <;> rfl
@[simp] theorem State.setEv_seq : (s.setEv a n).seq = s.seq := by unfold State.setEv; dsimp only; split <;> rfl
@[simp] theorem State.setEv_saved : (s.setEv a n).saved = s.saved := by unfold State.setEv; dsimp only; split <;> rfl
@[simp] theorem State.setEv_saveReqs : (s.setEv a n).saveReqs = s.saveReqs := by unfold State.setEv; dsimp only; split <;> rfl
@[simp] theorem State.setEv_recq : (s.setEv a n).recq = s.recq := by unfold State.setEv; dsimp only; split <;> rfl
@[simp] theorem State.setEv_acctq : (s.setEv a n).acctq = s.acctq := by unfold State.setEv; dsimp only; split <;> rfl
@[simp] theorem State.receive_sched : (s.receive a n).sched = s.sched := by unfold State.receive State.setEv; dsimp only; split <;> rfl
@[simp] theorem State.receive_mem : (s.receive a n).mem = s.mem := by unfold State.receive State.setEv; dsimp only; split <;> rfl
@[simp] theorem State.receive_xl : (s.receive a n).xl = s.xl := by unfold State.receive State.setEv; dsimp only; split <;> rfl
@[simp] theorem State.receive_cores : (s.receive a n).cores = s.cores := by unfold State.receive State.setEv; dsimp only; split <;> rfl
@[simp] theorem State.receive_clusters : (s.receive a n).clusters = s.clusters := by unfold State.receive State.setEv; dsimp only; split <;> rfl
@[simp] theorem State.receive_cycles : (s.receive a n).cycles = s.cycles := by unfold State.receive State.setEv; dsimp only; split <;> rfl
@[simp] theorem State.receive_teams : (s.receive a n).teams = s.teams := by unfold State.receive State.setEv; dsimp only; split <;> rfl
@[simp] theorem State.receive_weaves : (s.receive a n).weaves = s.weaves := by unfold State.receive State.setEv; dsimp only; split <;> rfl
@[simp] theorem State.receive_ctxs : (s.receive a n).ctxs = s.ctxs := by unfold State.receive State.setEv; dsimp only; split <;> rfl
@[simp] theorem State.receive_launches : (s.receive a n).launches = s.launches := by unfold State.receive State.setEv; dsimp only; split <;> rfl
@[simp] theorem State.receive_pipes : (s.receive a n).pipes = s.pipes := by unfold State.receive State.setEv; dsimp only; split <;> rfl
@[simp] theorem State.receive_cmds : (s.receive a n).cmds = s.cmds := by unfold State.receive State.setEv; dsimp only; split <;> rfl
@[simp] theorem State.receive_pend : (s.receive a n).pend = s.pend := by unfold State.receive State.setEv; dsimp only; split <;> rfl
@[simp] theorem State.receive_felt : (s.receive a n).felt = s.felt := by unfold State.receive State.setEv; dsimp only; split <;> rfl
@[simp] theorem State.receive_seq : (s.receive a n).seq = s.seq := by unfold State.receive State.setEv; dsimp only; split <;> rfl
@[simp] theorem State.receive_saved : (s.receive a n).saved = s.saved := by unfold State.receive State.setEv; dsimp only; split <;> rfl
@[simp] theorem State.receive_saveReqs : (s.receive a n).saveReqs = s.saveReqs := by unfold State.receive State.setEv; dsimp only; split <;> rfl
@[simp] theorem State.receive_recq : (s.receive a n).recq = s.recq := by unfold State.receive State.setEv; dsimp only; split <;> rfl
@[simp] theorem State.receive_acctq : (s.receive a n).acctq = s.acctq := by unfold State.receive State.setEv; dsimp only; split <;> rfl
@[simp] theorem State.stamp_sched : (s.stamp a).2.sched = s.sched := by unfold State.stamp; exact State.setEv_sched ..
@[simp] theorem State.stamp_mem : (s.stamp a).2.mem = s.mem := by unfold State.stamp; exact State.setEv_mem ..
@[simp] theorem State.stamp_xl : (s.stamp a).2.xl = s.xl := by unfold State.stamp; exact State.setEv_xl ..
@[simp] theorem State.stamp_cores : (s.stamp a).2.cores = s.cores := by unfold State.stamp; exact State.setEv_cores ..
@[simp] theorem State.stamp_clusters : (s.stamp a).2.clusters = s.clusters := by unfold State.stamp; exact State.setEv_clusters ..
@[simp] theorem State.stamp_cycles : (s.stamp a).2.cycles = s.cycles := by unfold State.stamp; exact State.setEv_cycles ..
@[simp] theorem State.stamp_teams : (s.stamp a).2.teams = s.teams := by unfold State.stamp; exact State.setEv_teams ..
@[simp] theorem State.stamp_weaves : (s.stamp a).2.weaves = s.weaves := by unfold State.stamp; exact State.setEv_weaves ..
@[simp] theorem State.stamp_ctxs : (s.stamp a).2.ctxs = s.ctxs := by unfold State.stamp; exact State.setEv_ctxs ..
@[simp] theorem State.stamp_launches : (s.stamp a).2.launches = s.launches := by unfold State.stamp; exact State.setEv_launches ..
@[simp] theorem State.stamp_pipes : (s.stamp a).2.pipes = s.pipes := by unfold State.stamp; exact State.setEv_pipes ..
@[simp] theorem State.stamp_cmds : (s.stamp a).2.cmds = s.cmds := by unfold State.stamp; exact State.setEv_cmds ..
@[simp] theorem State.stamp_pend : (s.stamp a).2.pend = s.pend := by unfold State.stamp; exact State.setEv_pend ..
@[simp] theorem State.stamp_felt : (s.stamp a).2.felt = s.felt := by unfold State.stamp; exact State.setEv_felt ..
@[simp] theorem State.stamp_seq : (s.stamp a).2.seq = s.seq := by unfold State.stamp; exact State.setEv_seq ..
@[simp] theorem State.stamp_saved : (s.stamp a).2.saved = s.saved := by unfold State.stamp; exact State.setEv_saved ..
@[simp] theorem State.stamp_saveReqs : (s.stamp a).2.saveReqs = s.saveReqs := by unfold State.stamp; exact State.setEv_saveReqs ..
@[simp] theorem State.stamp_recq : (s.stamp a).2.recq = s.recq := by unfold State.stamp; exact State.setEv_recq ..
@[simp] theorem State.stamp_acctq : (s.stamp a).2.acctq = s.acctq := by unfold State.stamp; exact State.setEv_acctq ..
end

end Sys2Proof.Machine
end

