-- ==== Sys2Proof/Laws/Gang.lean ====
section
/-! SUPPORT. The issuing fragment, registers and predicates of a gang, and what advancing a fragment does. -/

namespace Sys2Proof.Machine

/-! ### Teams and gangs -/

theorem State.team_modTeam (s : State) (n m : Nat) (f : Team → Team) :
    (s.modTeam n f).team m = if m = n then (s.team m).map f else s.team m := mapGet_mapMod ..

theorem State.gang_modGang_same (s : State) (t g : Nat) (f : Gang → Gang) :
    (s.modGang t g f).gang t g = (s.gang t g).map f := by
  unfold State.gang State.modGang
  rw [State.team_modTeam, if_pos rfl]
  cases s.team t with
  | none => rfl
  | some x => simp [mapGet_mapMod]

theorem State.modGang_modGang (s : State) (t g : Nat) (f h : Gang → Gang) :
    (s.modGang t g f).modGang t g h = s.modGang t g (fun x => h (f x)) := by
  simp only [State.modGang, State.modTeam, mapMod_mapMod]

/-- What the issuing fragment is. -/
theorem State.iss_spec {s : State} {i : Iss} (h : s.iss = some i) :
    s.sched.cur.team = i.tid ∧ s.sched.cur.gang = i.gid ∧ s.team i.tid = some i.team ∧
      mapGet i.gid i.team.gangs = some i.gang := by
  simp only [State.iss, Option.bind_eq_bind, Option.bind_eq_some_iff] at h
  obtain ⟨t, ht, g, hg, h⟩ := h
  split at h
  · cases h; exact ⟨rfl, rfl, ht, hg⟩
  · obtain ⟨f, -, h⟩ := Option.bind_eq_some_iff.mp h
    cases h; exact ⟨rfl, rfl, ht, hg⟩

theorem State.gang_of_iss {s : State} {i : Iss} (h : s.iss = some i) : s.gang i.tid i.gid = some i.gang := by
  obtain ⟨-, -, ht, hg⟩ := State.iss_spec h
  simp [State.gang, ht, hg]

/-! ### Registers and predicates -/

@[simp] theorem Gang.vf_none (g : Gang) (h : g.ra = none) : g.vf = g.fibres := by simp [Gang.vf, h]
@[simp] theorem Gang.vs_none (g : Gang) (h : g.ra = none) : g.vs = g.sregs := by simp [Gang.vs, h]

theorem Gang.fib_setFib_same (g : Gang) (f : Nat) (x : Fibre) : (g.setFib f x).fib f = x := by
  unfold Gang.fib Gang.setFib Gang.setVf Gang.vf
  cases h : g.ra <;> simp [mapGetD]

theorem Gang.fib_setFib_other (g : Gang) {f h : Nat} (hne : h ≠ f) (x : Fibre) : (g.setFib f x).fib h = g.fib h := by
  unfold Gang.fib Gang.setFib Gang.setVf Gang.vf
  cases hr : g.ra <;> simp [mapGetD, mapGet_mapPut_other hne]

theorem Gang.vs_setFib (g : Gang) (f : Nat) (x : Fibre) : (g.setFib f x).vs = g.vs := by
  unfold Gang.setFib Gang.setVf Gang.vs
  cases h : g.ra <;> simp

theorem Gang.reg_setReg_same (g : Gang) (r : RegRef) (x : Reg) : (g.setReg r x).reg r = x := by
  cases r with
  | v f p => simp [Gang.setReg, Gang.modFib, Gang.reg, Gang.fib_setFib_same]
  | s n =>
      unfold Gang.setReg Gang.reg Gang.setVs Gang.vs
      cases h : g.ra <;> simp

theorem Gang.reg_setReg_other (g : Gang) {r q : RegRef} (h : q ≠ r) (x : Reg) : (g.setReg r x).reg q = g.reg q := by
  cases r with
  | v f p =>
      cases q with
      | v f' p' =>
          by_cases hf : f' = f
          · subst hf
            have hp : p' ≠ p := fun e => h (by rw [e])
            simp [Gang.setReg, Gang.modFib, Gang.reg, Gang.fib_setFib_same, mapGetD_mapPutD_other _ hp]
          · simp [Gang.setReg, Gang.modFib, Gang.reg, Gang.fib_setFib_other _ hf]
      | s n => simp [Gang.setReg, Gang.modFib, Gang.reg, Gang.vs_setFib]
  | s n =>
      cases q with
      | v f p =>
          unfold Gang.setReg Gang.reg Gang.setVs Gang.fib Gang.vf
          cases hr : g.ra <;> simp
      | s m =>
          have hm : m ≠ n := fun e => h (by rw [e])
          unfold Gang.setReg Gang.reg Gang.setVs Gang.vs
          cases hr : g.ra <;> simp [mapGetD_mapPutD_other _ hm]

/-- What writing a register of a gang outside run-ahead leaves alone. -/
theorem Gang.setReg_rest (g : Gang) (hr : g.ra = none) (r : RegRef) (x : Reg) :
    { g.setReg r x with sregs := [], fibres := [] } = { g with sregs := [], fibres := [] } ∧
      ∀ f, { (g.setReg r x).fib f with regs := [] } = { g.fib f with regs := [] } := by
  cases r with
  | v f p =>
      refine ⟨by simp [Gang.setReg, Gang.modFib, Gang.setFib, Gang.setVf, hr], fun h => ?_⟩
      by_cases e : h = f
      · subst e; simp [Gang.setReg, Gang.modFib, Gang.fib_setFib_same]
      · simp [Gang.setReg, Gang.modFib, Gang.fib_setFib_other _ e]
  | s n =>
      refine ⟨by simp [Gang.setReg, Gang.setVs, hr], fun h => ?_⟩
      simp [Gang.setReg, Gang.setVs, hr, Gang.fib, Gang.vf]

theorem Gang.fib_of_eq (g h : Gang) (e : g.fibres = h.fibres) (hg : g.ra = none) (hh : h.ra = none) (f : Nat) :
    g.fib f = h.fib f := by simp [Gang.fib, hg, hh, e]

end Sys2Proof.Machine
end

