-- ==== Sys2Proof/Laws/Lanes.lean ====
section
/-! SUPPORT. What a slice instruction does whose registers are ready: the one lemma about `lanesWith`, and those it rests on
about issue, operands, register checks, destinations and the advance of a fragment. -/

namespace Sys2Proof.Machine

/-! ### Issue and register checks -/

theorem withIss_issues {s : State} {i : Iss} (h : s.iss = some i) (f : Iss → Res Unit) : withIss s f = finish i (f i) := by
  simp [withIss, h]

theorem judgeRegs_ready {g : Gang} {ns : List Need} {ds : List RegRef} (h : Ready g ns ds) : judgeRegs g ns ds = .go := by
  have h1 : ns.find? (fun n => Fe.isFailed (g.reg n.ref).fe) = none := by
    rw [List.find?_eq_none]; intro n hn; simp [(h.1 n hn).1, Fe.isFailed]
  have h2 : ns.find? (fun n => n.ea && (g.reg n.ref).fe == .empty) = none := by
    rw [List.find?_eq_none]; intro n hn; simp [(h.1 n hn).1]
  have h3 : ns.any (fun n => (g.reg n.ref).fe == .empty) = false := by
    rw [List.any_eq_false]; intro n hn; simp [(h.1 n hn).1]
  have h4 : ds.any (fun r => (g.reg r).fe == .empty) = false := by
    rw [List.any_eq_false]; intro r hr; simpa using h.2 r hr
  simp [judgeRegs, h1, h2, h3, h4]

theorem goodReg_good {s : State} {t g : Nat} {r : RegRef} {x : Gang} (hg : s.gang t g = some x) (h : (x.reg r).bad = false) :
    (goodReg s t g r).2 = s := by
  unfold goodReg
  cases ht : s.team t with
  | none => simp
  | some y => simp [hg, h]

theorem readParity_ready {s : State} {i : Iss} (hi : s.iss = some i) {ns : List Need} {ds : List RegRef}
    (h : Ready i.gang ns ds) : readParity s i ns = s := by
  unfold readParity
  split
  · rfl
  · have hg := State.gang_of_iss hi
    have : ∀ l : List Need, (∀ n ∈ l, (i.gang.reg n.ref).bad = false) →
        l.foldl (fun s n => (goodReg s i.tid i.gid n.ref).2) s = s := by
      intro l
      induction l with
      | nil => intro _; rfl
      | cons n l ih =>
          intro hl
          rw [List.foldl_cons, goodReg_good hg (hl n (by simp))]
          exact ih fun m hm => hl m (by simp [hm])
    exact this ns fun n hn => (h.1 n hn).2

theorem checked_ready {s : State} {i : Iss} (hi : s.iss = some i) {ns : List Need} {ds : List RegRef}
    (h : Ready i.gang ns ds) : checked s i ns ds = .ok () s := by
  simp [checked, judgeRegs_ready h, readParity_ready hi h]

/-! ### Operands -/

theorem unsure_none {i : Iss} (h : i.gang.ra = none) (p : Pred) : unsure i p = [] := by
  simp [unsure, Gang.predUnknown, h]

theorem active_none {i : Iss} (h : i.gang.ra = none) (p : Pred) :
    active i p = i.frag.fibres.filter (fun f => i.gang.predVal f p) := by
  simp [active, Gang.predUnknown, h]

theorem Frag.fibres_nodup (f : Frag) : f.fibres.Nodup := List.Nodup.filter _ List.nodup_range

theorem valOf_full {g : Gang} {l : List RegRef} (h : ∀ r ∈ l, (g.reg r).fe = .full) : ∃ q, valOf g l = some q := by
  unfold valOf
  have : (l.map g.reg).any (fun x => x.fe == .unknown || x.fe == .empty) = false := by
    rw [List.any_eq_false]; intro x hx
    obtain ⟨r, hr, rfl⟩ := List.mem_map.mp hx
    simp [h r hr]
  simp [this]

theorem opndVal_full {S : Nat} {g : Gang} {o : Opnd} {f : Nat} (h : ∀ r ∈ regsOf S g o f, (g.reg r).fe = .full) :
    ∃ q, opndVal S g o f = some q := by
  unfold opndVal
  split
  · exact ⟨_, rfl⟩
  · exact ⟨_, rfl⟩
  · exact valOf_full h

/-- Operands whose registers are FULL have values. -/
theorem allSome_values {i : Iss} {ops : List Opnd} {f : Nat}
    (h : ∀ n ∈ needsOf i.team.S i.gang ops f, (i.gang.reg n.ref).fe = .full) :
    allSome (ops.map (fun o => opndVal i.team.S i.gang o f)) = some (valuesOf i ops f) := by
  induction ops with
  | nil => rfl
  | cons o t ih =>
      have ho : ∀ r ∈ regsOf i.team.S i.gang o f, (i.gang.reg r).fe = .full := fun r hr =>
        h ⟨f, o.pos, o.src.ea, r⟩ (by simp only [needsOf, List.flatMap_cons, List.mem_append, List.mem_map]; exact .inl ⟨r, hr, rfl⟩)
      obtain ⟨q, hq⟩ := opndVal_full ho
      have ht := ih fun n hn => h n (by simp only [needsOf, List.flatMap_cons, List.mem_append]; exact .inr hn)
      simp only [List.map_cons, hq, allSome, ht, valuesOf, Option.map_some, Option.getD_some]

/-! ### Destinations -/

theorem ringPos_succ_ne {S : Nat} (hS : 2 ≤ S) (b : Fibre) (r : Nat) : ringPos S b r ≠ ringPos S b (r + 1) := by
  unfold ringPos
  intro h
  have h1 : b.wb + r ≡ b.wb + (r + 1) [MOD S] := h
  have h2 : (1 : Nat) ≡ 0 [MOD S] := by
    have := Nat.ModEq.add_left_cancel' (b.wb + r) (show b.wb + r + 0 ≡ b.wb + r + 1 [MOD S] from h1)
    exact this.symm
  have := (Nat.modEq_zero_iff_dvd.mp h2)
  exact absurd (Nat.le_of_dvd (by omega) this) (by omega)

theorem dstRegs_congr {S : Nat} {g h : Gang} {d : Dst} {n f : Nat} (e : (g.fib f).wb = (h.fib f).wb) :
    dstRegs S g d n f = dstRegs S h d n f := by
  unfold dstRegs ringPos
  cases d <;> simp [e]

/-! ### Writing the lanes of a gang -/

/-- Two gangs that differ in registers and predicates at most; neither is in run-ahead. -/
structure SameRest (g h : Gang) : Prop where
  ra : h.ra = none
  rest : { h with sregs := [], fibres := [] } = { g with sregs := [], fibres := [] }
  fib : ∀ x, { h.fib x with regs := [], preds := 0 } = { g.fib x with regs := [], preds := 0 }

theorem SameRest.refl {g : Gang} (h : g.ra = none) : SameRest g g := ⟨h, rfl, fun _ => rfl⟩
theorem SameRest.trans {a b c : Gang} (x : SameRest a b) (y : SameRest b c) : SameRest a c :=
  ⟨y.ra, y.rest.trans x.rest, fun f => (y.fib f).trans (x.fib f)⟩
theorem SameRest.wb {g h : Gang} (x : SameRest g h) (f : Nat) : (h.fib f).wb = (g.fib f).wb := by
  have := x.fib f; simpa using congrArg Fibre.wb this

theorem sameRest_setReg {g : Gang} (hr : g.ra = none) (r : RegRef) (x : Reg) : SameRest g (g.setReg r x) := by
  obtain ⟨h1, h2⟩ := Gang.setReg_rest g hr r x
  refine ⟨by simpa [hr] using congrArg Gang.ra h1, h1, fun f => ?_⟩
  have := congrArg (fun b : Fibre => { b with preds := 0 }) (h2 f)
  simpa using this

theorem Gang.predBit_setReg {g : Gang} (hr : g.ra = none) (r : RegRef) (x : Reg) (f n : Nat) :
    (g.setReg r x).predBit f n = g.predBit f n := by
  have := congrArg Fibre.preds ((Gang.setReg_rest g hr r x).2 f)
  unfold Gang.predBit
  simp at this; rw [this]

theorem Gang.setPred_seven (g : Gang) (f : Nat) (v : Option Bool) : g.setPred f 7 v = g := by simp [Gang.setPred]

theorem Gang.setPred_none {g : Gang} (hr : g.ra = none) (f n : Nat) (hn : n ≠ 7) (v : Bool) :
    g.setPred f n (some v) = g.modFib f (fun b =>
      { b with preds := if v then b.preds ||| BitVec.ofNat 8 (2 ^ n) else b.preds &&& ~~~(BitVec.ofNat 8 (2 ^ n)) }) := by
  have : (g.modFib f (fun b =>
      { b with preds := if v then b.preds ||| BitVec.ofNat 8 (2 ^ n) else b.preds &&& ~~~(BitVec.ofNat 8 (2 ^ n)) })).ra = none := by
    simp [Gang.modFib, Gang.setFib, Gang.setVf, hr]
  cases v <;> simp_all [Gang.setPred]

theorem Gang.reg_modPreds (g : Gang) (f : Nat) (u : Fibre → BitVec 8) (r : RegRef) :
    (g.modFib f (fun b => { b with preds := u b })).reg r = g.reg r := by
  cases r with
  | v h p =>
      by_cases e : h = f
      · subst e; simp [Gang.modFib, Gang.reg, Gang.fib_setFib_same]
      · simp [Gang.modFib, Gang.reg, Gang.fib_setFib_other _ e]
  | s n => simp [Gang.modFib, Gang.reg, Gang.vs_setFib]

theorem Gang.reg_setPred {g : Gang} (hr : g.ra = none) (f n : Nat) (v : Bool) (r : RegRef) :
    (g.setPred f n (some v)).reg r = g.reg r := by
  by_cases hn : n = 7
  · subst hn; rw [Gang.setPred_seven]
  · rw [Gang.setPred_none hr _ _ hn, Gang.reg_modPreds]

theorem sameRest_setPred {g : Gang} (hr : g.ra = none) (f n : Nat) (v : Bool) : SameRest g (g.setPred f n (some v)) := by
  by_cases hn : n = 7
  · subst hn; rw [Gang.setPred_seven]; exact .refl hr
  · rw [Gang.setPred_none hr _ _ hn]
    refine ⟨by simp [Gang.modFib, Gang.setFib, Gang.setVf, hr], by simp [Gang.modFib, Gang.setFib, Gang.setVf, hr], fun x => ?_⟩
    by_cases e : x = f
    · subst e; simp [Gang.modFib, Gang.fib_setFib_same]
    · simp [Gang.modFib, Gang.fib_setFib_other _ e]

theorem bit8 (n m : Nat) (hn : n < 8) (hm : m < 8) : (BitVec.ofNat 8 (2 ^ n)).getLsbD m = decide (n = m) := by
  interval_cases n <;> interval_cases m <;> rfl

theorem Gang.predBit_setPred_same {g : Gang} (hr : g.ra = none) (f : Nat) (n : BitVec 3) (hn : n ≠ 7) (v : Bool) :
    (g.setPred f n.toNat (some v)).predBit f n.toNat = v := by
  have h7 : n.toNat ≠ 7 := fun e => hn (BitVec.eq_of_toNat_eq (by simpa using e))
  have hl : n.toNat < 8 := n.isLt
  rw [Gang.setPred_none hr _ _ h7]
  simp only [Gang.predBit, Gang.modFib, Gang.fib_setFib_same]
  have h7' : (n.toNat == 7) = false := by simpa using h7
  have hb := bit8 _ _ hl hl
  generalize BitVec.ofNat 8 (2 ^ n.toNat) = M at hb ⊢
  have hb' : M[n.toNat] = true := by simpa [hl] using hb
  cases v <;> simp [h7', hb', hl]

theorem Gang.predBit_setPred_other {g : Gang} (hr : g.ra = none) {f x n m : Nat} (hn : n < 8) (h : x ≠ f ∨ m ≠ n) (v : Bool) :
    (g.setPred f n (some v)).predBit x m = g.predBit x m := by
  by_cases h7 : n = 7
  · subst h7; rw [Gang.setPred_seven]
  · rw [Gang.setPred_none hr _ _ h7]
    by_cases e : x = f
    · subst e
      have hm : m ≠ n := by simpa using h
      simp only [Gang.predBit, Gang.modFib, Gang.fib_setFib_same]
      by_cases m7 : m = 7
      · simp [m7]
      · by_cases m8 : m < 8
        · have hb := bit8 _ _ hn m8
          generalize BitVec.ofNat 8 (2 ^ n) = M at hb ⊢
          have hb' : M[m] = false := by simpa [m8, Ne.symm hm] using hb
          cases v <;> simp [hb', m8]
        · have : ∀ y : BitVec 8, y.getLsbD m = false := fun y => BitVec.getLsbD_of_ge y m (by omega)
          simp [this]
    · simp [Gang.predBit, Gang.modFib, Gang.fib_setFib_other _ e]

/-- What one lane writes. -/
def putLane (S : Nat) (d : Dst) (wide : Bool) (pd : Option (BitVec 3)) (g : Gang) (f : Nat) (l : Lane) : Gang :=
  let g := writeDst S g d wide f (some l.val)
  match pd with | some n => g.setPred f n.toNat (some l.ok) | none => g

/-- A register destination for one fibre holds its value. -/
def Holds (S : Nat) (g : Gang) (d : Dst) (wide : Bool) (f : Nat) (v : Quad) (h : Gang) : Prop :=
  match d with
  | .pred n => n = 7 ∨ h.predBit f n.toNat = (v != 0)
  | .file _ => True
  | _ => (dstRegs S g d (if wide then 2 else 1) f).map h.reg =
      if wide then [{ val := loWord v }, { val := hiWord v }] else [{ val := loWord v }]

def Touches (d : Dst) (pd : Option (BitVec 3)) (m : Nat) : Bool :=
  (match d with | .pred k => k.toNat == m | _ => false) || (match pd with | some k => k.toNat == m | none => false)

theorem writeDst_spec {S : Nat} (hS : 2 ≤ S) {g : Gang} (hr : g.ra = none) (d : Dst) (wide : Bool) (f : Nat) (v : Quad) :
    SameRest g (writeDst S g d wide f (some v)) ∧ Holds S g d wide f v (writeDst S g d wide f (some v)) ∧
    (∀ r, r ∉ dstRegs S g d (if wide then 2 else 1) f → (writeDst S g d wide f (some v)).reg r = g.reg r) ∧
    (∀ x m, (x ≠ f ∨ Touches d none m = false) → (writeDst S g d wide f (some v)).predBit x m = g.predBit x m) := by
  have one : ∀ r : RegRef, dstRegs S g d 1 f = [r] → wide = false → (∀ n, d ≠ .pred n) → (∀ n, d ≠ .file n) →
      SameRest g (writeDst S g d wide f (some v)) ∧ Holds S g d wide f v (writeDst S g d wide f (some v)) ∧
      (∀ r, r ∉ dstRegs S g d (if wide then 2 else 1) f → (writeDst S g d wide f (some v)).reg r = g.reg r) ∧
      (∀ x m, (x ≠ f ∨ Touches d none m = false) → (writeDst S g d wide f (some v)).predBit x m = g.predBit x m) := by
    intro r h1 hw hp hf
    subst hw
    have e : writeDst S g d false f (some v) = g.setReg r { val := loWord v } := by
      cases d <;> simp_all [writeDst]
    rw [e]
    refine ⟨sameRest_setReg hr .., ?_, fun q hq => Gang.reg_setReg_other _ (by simpa [h1] using hq) _,
      fun x m _ => Gang.predBit_setReg hr ..⟩
    cases d <;> simp_all [Holds, Gang.reg_setReg_same]
  have two : ∀ r t : RegRef, r ≠ t → dstRegs S g d 2 f = [r, t] → wide = true → (∀ n, d ≠ .pred n) → (∀ n, d ≠ .file n) →
      SameRest g (writeDst S g d wide f (some v)) ∧ Holds S g d wide f v (writeDst S g d wide f (some v)) ∧
      (∀ r, r ∉ dstRegs S g d (if wide then 2 else 1) f → (writeDst S g d wide f (some v)).reg r = g.reg r) ∧
      (∀ x m, (x ≠ f ∨ Touches d none m = false) → (writeDst S g d wide f (some v)).predBit x m = g.predBit x m) := by
    intro r t hne h1 hw hp hf
    subst hw
    have e : writeDst S g d true f (some v) = (g.setReg r { val := loWord v }).setReg t { val := hiWord v } := by
      cases d <;> simp_all [writeDst]
    rw [e]
    have s1 := sameRest_setReg hr r { val := loWord v }
    have s2 := sameRest_setReg s1.ra t { val := hiWord v }
    refine ⟨s1.trans s2, ?_, fun q hq => ?_, fun x m _ => ?_⟩
    · have a := Gang.reg_setReg_same (g.setReg r { val := loWord v }) t { val := hiWord v }
      have b : ((g.setReg r { val := loWord v }).setReg t { val := hiWord v }).reg r = { val := loWord v } := by
        rw [Gang.reg_setReg_other _ hne, Gang.reg_setReg_same]
      cases d <;> simp_all [Holds]
    · simp [h1] at hq
      rw [Gang.reg_setReg_other _ hq.2, Gang.reg_setReg_other _ hq.1]
    · rw [Gang.predBit_setReg s1.ra, Gang.predBit_setReg hr]
  cases d with
  | vec r =>
      cases wide with
      | false => exact one _ (by simp [dstRegs]; rfl) rfl (by simp) (by simp)
      | true =>
          refine two (.v f (ringPos S (g.fib f) r.toNat)) (.v f (ringPos S (g.fib f) (r.toNat + 1))) ?_ ?_ rfl (by simp) (by simp)
          · simpa using ringPos_succ_ne hS (g.fib f) r.toNat
          · simp [dstRegs, List.range_succ]
  | scal r =>
      cases wide with
      | false => exact one _ (by simp [dstRegs]; rfl) rfl (by simp) (by simp)
      | true => exact two (.s r.toNat) (.s (r.toNat + 1)) (by simp) (by simp [dstRegs, List.range_succ]) rfl (by simp) (by simp)
  | pred n =>
      refine ⟨by simpa [writeDst] using sameRest_setPred hr f n.toNat (v != 0), ?_,
        fun q _ => by simpa [writeDst] using Gang.reg_setPred hr f n.toNat (v != 0) q, fun x m h => ?_⟩
      · by_cases h7 : n = 7
        · exact .inl h7
        · exact .inr (by simpa [writeDst] using Gang.predBit_setPred_same hr f n h7 (v != 0))
      · have h' : x ≠ f ∨ m ≠ n.toNat := h.imp id (by simp [Touches]; exact fun a b => a b.symm)
        simpa [writeDst] using Gang.predBit_setPred_other hr n.isLt h' (v != 0)
  | file n => refine ⟨by simpa [writeDst, dstRegs] using SameRest.refl hr, trivial, by simp [writeDst, dstRegs], by simp [writeDst, dstRegs]⟩

theorem Holds.congr {S : Nat} {g g' : Gang} {d : Dst} {wide : Bool} {f : Nat} {v : Quad} {h h' : Gang}
    (e : (g'.fib f).wb = (g.fib f).wb) (hr : ∀ r ∈ dstRegs S g d (if wide then 2 else 1) f, h'.reg r = h.reg r)
    (hp : ∀ m, Touches d none m = true → h'.predBit f m = h.predBit f m) (x : Holds S g d wide f v h) :
    Holds S g' d wide f v h' := by
  cases d with
  | vec r =>
      simp only [Holds] at x ⊢
      rw [dstRegs_congr e, ← x]; exact List.map_congr_left hr
  | scal r =>
      simp only [Holds] at x ⊢
      rw [dstRegs_congr e, ← x]; exact List.map_congr_left hr
  | pred n =>
      simp only [Holds] at x ⊢
      rwa [hp n.toNat (by simp [Touches])]
  | file n => trivial

/-- One lane. -/
theorem putLane_spec {S : Nat} (hS : 2 ≤ S) {g : Gang} (hr : g.ra = none) (d : Dst) (wide : Bool) (pd : Option (BitVec 3))
    (hpd : pd.isSome → ∀ n, d ≠ .pred n) (f : Nat) (l : Lane) :
    SameRest g (putLane S d wide pd g f l) ∧ Holds S g d wide f l.val (putLane S d wide pd g f l) ∧
    (∀ n, pd = some n → n ≠ 7 → (putLane S d wide pd g f l).predBit f n.toNat = l.ok) ∧
    (∀ r, r ∉ dstRegs S g d (if wide then 2 else 1) f → (putLane S d wide pd g f l).reg r = g.reg r) ∧
    (∀ x m, (x ≠ f ∨ Touches d pd m = false) → (putLane S d wide pd g f l).predBit x m = g.predBit x m) := by
  obtain ⟨h1, h2, h3, h4⟩ := writeDst_spec hS hr d wide f l.val
  cases pd with
  | none => exact ⟨h1, h2, by simp, h3, h4⟩
  | some n =>
      have s := sameRest_setPred h1.ra f n.toNat l.ok
      refine ⟨h1.trans s, ?_, ?_, fun r hq => ?_, fun x m h => ?_⟩
      · refine Holds.congr rfl (fun r _ => Gang.reg_setPred h1.ra ..) (fun m hm => ?_) h2
        exfalso
        have := hpd rfl
        cases d <;> simp_all [Touches]
      · intro k hk h7
        cases hk
        exact Gang.predBit_setPred_same h1.ra f n h7 l.ok
      · show (Gang.setPred _ _ _ _).reg r = _
        rw [Gang.reg_setPred h1.ra, h3 r hq]
      · show (Gang.setPred _ _ _ _).predBit x m = _
        have h' : x ≠ f ∨ m ≠ n.toNat := h.imp id (by simp [Touches]; exact fun _ b c => b c.symm)
        rw [Gang.predBit_setPred_other h1.ra n.isLt h', h4 x m (h.imp id (by simp [Touches]; exact fun a _ => a))]

/-- All lanes: each destination holds its lane's result, and nothing else changes. -/
theorem putLanes_spec {S : Nat} (hS : 2 ≤ S) (d : Dst) (wide : Bool) (pd : Option (BitVec 3))
    (hpd : pd.isSome → ∀ n, d ≠ .pred n) (lane : Nat → Lane) (l : List Nat) (hl : l.Nodup)
    (hsc : d.isScalar = true → l.length ≤ 1) {g : Gang} (hr : g.ra = none) :
    let h := l.foldl (fun g f => putLane S d wide pd g f (lane f)) g
    SameRest g h ∧ (∀ f ∈ l, Holds S g d wide f (lane f).val h) ∧
    (∀ n, pd = some n → n ≠ 7 → ∀ f ∈ l, h.predBit f n.toNat = (lane f).ok) ∧
    (∀ r, (∀ f ∈ l, r ∉ dstRegs S g d (if wide then 2 else 1) f) → h.reg r = g.reg r) ∧
    (∀ x m, (x ∉ l ∨ Touches d pd m = false) → h.predBit x m = g.predBit x m) := by
  induction l generalizing g with
  | nil => exact ⟨.refl hr, by simp, by simp, fun _ _ => rfl, fun _ _ _ => rfl⟩
  | cons f t ih =>
      obtain ⟨hf, ht⟩ := List.nodup_cons.mp hl
      obtain ⟨a1, a2, a3, a4, a5⟩ := putLane_spec hS hr d wide pd hpd f (lane f)
      obtain ⟨b1, b2, b3, b4, b5⟩ := ih ht (fun h => by have := hsc h; simp at this ⊢; simp [this]) a1.ra
      have e : ∀ x, dstRegs S (putLane S d wide pd g f (lane f)) d (if wide then 2 else 1) x
          = dstRegs S g d (if wide then 2 else 1) x := fun x => dstRegs_congr (a1.wb x)
      have apart : ∀ r ∈ dstRegs S g d (if wide then 2 else 1) f, ∀ x ∈ t, r ∉ dstRegs S g d (if wide then 2 else 1) x := by
        intro r hr1 x hx hr2
        have hne : x ≠ f := fun h => hf (h ▸ hx)
        cases d with
        | vec k =>
            simp only [dstRegs, List.mem_map] at hr1 hr2
            obtain ⟨_, _, rfl⟩ := hr1
            obtain ⟨_, _, h2⟩ := hr2
            exact hne (by simpa using congrArg (fun r => match r with | RegRef.v f _ => f | _ => 0) h2)
        | scal k =>
            have := hsc rfl
            simp at this; subst this; simp at hx
        | pred n => simp [dstRegs] at hr1
        | file n => simp [dstRegs] at hr1
      simp only [List.foldl_cons]
      refine ⟨a1.trans b1, ?_, ?_, ?_, ?_⟩
      · intro x hx
        rcases List.mem_cons.mp hx with rfl | hx
        · exact Holds.congr rfl (fun r hr' => b4 r fun y hy => by rw [e]; exact apart r hr' y hy)
            (fun m _ => b5 x m (.inl hf)) a2
        · exact Holds.congr (a1.wb x).symm (fun _ _ => rfl) (fun _ _ => rfl) (b2 x hx)
      · intro n hn h7 x hx
        rcases List.mem_cons.mp hx with rfl | hx
        · rw [b5 x _ (.inl hf)]; exact a3 n hn h7
        · exact b3 n hn h7 x hx
      · intro r hq
        rw [b4 r fun x hx => by rw [e]; exact hq x (by simp [hx]), a4 r (hq f (by simp))]
      · intro x m h
        rw [b5 x m (h.imp (fun h => fun hx => h (by simp [hx])) id), a5 x m (h.imp (fun h => fun hx => h (by simp [hx])) id)]

/-! ### The advance of a fragment, and the slice instruction -/

theorem State.modGang_congr {s : State} {i : Iss} (hi : s.iss = some i) (F : Gang → Gang) :
    ((s.modGang i.tid i.gid F).gang i.tid i.gid) = some (F i.gang) := by
  rw [State.gang_modGang_same, State.gang_of_iss hi]; rfl

/-- Outside run-ahead an advance changes the gang's fragments alone. -/
theorem advance_modGang {s : State} {i : Iss} (hi : s.iss = some i) (F : Gang → Gang) (hF : (F i.gang).ra = none) (n : Nat) :
    ∃ K : Gang → Gang, advance (s.modGang i.tid i.gid F) n = s.modGang i.tid i.gid K ∧
      K i.gang = { F i.gang with frags := advanced (F i.gang) s.sched.cur.lead n (F i.gang).frags } := by
  obtain ⟨h1, h2, -, -⟩ := State.iss_spec hi
  let A : Gang → Gang := fun g => match g.ra with
    | some r => { g with ra := some { r with frag := r.frag.next n } }
    | none => { g with frags := g.frags.map (fun x => if x.mask.getLsbD s.sched.cur.lead then x.next n else x) }
  let B : Gang → Gang := fun g =>
    if g.handler.isSome ∨ g.entry.isSome ∨ g.ra.isSome then g else { g with frags := settleFrags g.liveFibres 130 g.frags }
  have e : settleGang ((s.modGang i.tid i.gid F).modFrag (fun f => f.next n)) i.tid i.gid = s.modGang i.tid i.gid (fun g => B (A (F g))) := by
    simp only [settleGang, State.modFrag, State.modGang_sched, h1, h2, State.modGang_modGang]
    rfl
  have hA : (A (F i.gang)) = { F i.gang with frags := (F i.gang).frags.map (fun x =>
      if x.mask.getLsbD s.sched.cur.lead then x.next n else x) } := by
    simp only [A, hF]
  have hB : B (A (F i.gang)) = { F i.gang with frags := advanced (F i.gang) s.sched.cur.lead n (F i.gang).frags } := by
    rw [hA]
    simp only [B, advanced, hF, Option.isSome_none, Bool.false_eq_true, or_false, Gang.liveFibres]
    by_cases hh : (F i.gang).handler.isSome = true <;> by_cases he : (F i.gang).entry.isSome = true <;> simp [hh, he]
  refine ⟨fun g => B (A (F g)), ?_, hB⟩
  have hra : (B (A (F i.gang))).ra = none := by rw [hB]; exact hF
  unfold advance
  simp only [State.modGang_sched, h1, h2]
  rw [e]
  simp only [aheadTick, State.modGang_sched, h1, h2, State.modGang_congr hi, Option.bind_some, hra]

/-- The destinations of lanes before the step are those after it. -/
theorem Slice.lanes_nodup (x : Slice) (i : Iss) (h : i.gang.ra = none) : (x.lanes i).Nodup := by
  unfold Slice.lanes
  rw [active_none h]
  have : (i.frag.fibres.filter (fun f => i.gang.predVal f x.p)).Nodup := (Frag.fibres_nodup _).filter _
  split
  · exact this.sublist (List.take_sublist ..)
  · exact this

/-- What a slice instruction does, outside run-ahead, whose registers are ready and whose lanes have values. -/
theorem lanesWith_effect {s : State} {i : Iss} (hi : Issues s i) (x : Slice) (hS : 2 ≤ i.team.S) (hgo : x.Go i)
    (hpd : x.pd.isSome → ∀ n, x.d ≠ .pred n) (val : Nat → Option Lane) (hval : ∀ f ∈ x.lanes i, val f = some (x.lane i f)) :
    ∃ t, lanesWith s i x.p x.d x.wide x.pd (x.needs i) val x.words = .ok () t ∧ x.Effect s t i := by
  obtain ⟨his, hra⟩ := hi
  have hact := active_none hra x.p
  have huns := unsure_none hra x.p
  have hfs : (if x.d.isScalar then (active i x.p ++ unsure i x.p).take 1
      else i.frag.fibres.filter (fun f => (active i x.p).contains f || (unsure i x.p).contains f)) = x.lanes i := by
    unfold Slice.lanes
    rw [huns, List.append_nil]
    split
    · rfl
    · rw [hact]
      apply List.filter_congr
      intro f hf
      simp [hf]
  have hknown : ∀ f ∈ x.lanes i, (if x.d.isScalar then !(active i x.p).isEmpty else (active i x.p).contains f) = true := by
    intro f hf
    unfold Slice.lanes at hf
    split at hf
    · next h =>
      simp only [h, if_true]
      have := List.mem_of_mem_take hf
      cases ha : active i x.p with
      | nil => simp [ha] at this
      | cons a b => rfl
    · next h => simp only [h]; simpa using hf
  have hrs : (x.lanes i).map (fun f => (f, if (if x.d.isScalar then !(active i x.p).isEmpty else (active i x.p).contains f) = true
      then val f else none)) = (x.lanes i).map (fun f => (f, some (x.lane i f))) := by
    refine List.map_congr_left fun f hf => ?_
    rw [if_pos (hknown f hf), hval f hf]
  have hsc : x.d.isScalar = true → (x.lanes i).length ≤ 1 := by
    intro h; unfold Slice.lanes; rw [if_pos h]; simp
  let P : Gang → Gang := fun g => (x.lanes i).foldl (fun g f => putLane i.team.S x.d x.wide x.pd g f (x.lane i f)) g
  obtain ⟨c1, c2, c3, c4, c5⟩ := putLanes_spec hS x.d x.wide x.pd hpd (x.lane i) (x.lanes i) (x.lanes_nodup i hra) hsc hra
  let w := (x.lanes i).foldl (fun w f => w ||| (x.lane i f).flags) 0
  let F : Gang → Gang := fun g => if (P g).ra.isSome then P g else Gang.setFlags (P g) w
  have hF : F i.gang = Gang.setFlags (P i.gang) w := by simp only [F]; rw [c1.ra]; rfl
  have hFra : (F i.gang).ra = none := by rw [hF]; exact c1.ra
  obtain ⟨K, k1, k2⟩ := advance_modGang his F hFra x.words
  obtain ⟨hc1, hc2, -, -⟩ := State.iss_spec his
  have hmod : s.modCur (fun g =>
      if (((x.lanes i).map (fun f => (f, some (x.lane i f)))).foldl (fun g r =>
          let g := writeDst i.team.S g x.d x.wide r.1 (r.2.map (·.val))
          match x.pd with | some n => g.setPred r.1 n.toNat (r.2.map (·.ok)) | none => g) g).ra.isSome
      then ((x.lanes i).map (fun f => (f, some (x.lane i f)))).foldl (fun g r =>
          let g := writeDst i.team.S g x.d x.wide r.1 (r.2.map (·.val))
          match x.pd with | some n => g.setPred r.1 n.toNat (r.2.map (·.ok)) | none => g) g
      else Gang.setFlags (((x.lanes i).map (fun f => (f, some (x.lane i f)))).foldl (fun g r =>
          let g := writeDst i.team.S g x.d x.wide r.1 (r.2.map (·.val))
          match x.pd with | some n => g.setPred r.1 n.toNat (r.2.map (·.ok)) | none => g) g)
        (((x.lanes i).map (fun f => (f, some (x.lane i f)))).foldl (fun w r => w ||| (r.2.elim 0 (·.flags))) 0))
      = s.modGang i.tid i.gid F := by
    simp only [State.modCur, hc1, hc2, List.foldl_map]
    rfl
  refine ⟨s.modGang i.tid i.gid K, ?_, K, rfl, ?_⟩
  · unfold lanesWith
    simp only [hfs, hrs]
    have hgo' : Ready i.gang ((x.lanes i).flatMap (x.needs i))
        ((x.lanes i).flatMap (dstRegs i.team.S i.gang x.d (if x.wide then 2 else 1))) := hgo
    rw [checked_ready his hgo']
    exact (congrArg (fun z => Res.ok () (advance z x.words)) hmod).trans (congrArg (Res.ok ()) k1)
  · have hfib : ∀ f, (K i.gang).fib f = (P i.gang).fib f := by
      intro f
      refine Gang.fib_of_eq _ _ ?_ ?_ c1.ra f
      · rw [k2, hF]; rfl
      · rw [k2]; exact hFra
    have hreg : ∀ r, (K i.gang).reg r = (P i.gang).reg r := by
      intro r
      cases r with
      | v f p => simp only [Gang.reg, hfib]
      | s n =>
          have h1 : (K i.gang).ra = none := by rw [k2]; exact hFra
          have h2 : (P i.gang).vs = (P i.gang).sregs := Gang.vs_none _ c1.ra
          simp only [Gang.reg, Gang.vs_none _ h1, h2]
          rw [k2, hF]; rfl
    have hpred : ∀ f n, (K i.gang).predBit f n = (P i.gang).predBit f n := by
      intro f n; simp only [Gang.predBit, hfib]
    refine ⟨?_, ?_, ?_, ?_, ?_, ?_, ?_, ?_⟩
    · intro f hf
      have := Holds.congr (g' := i.gang) (h' := K i.gang) rfl (fun r _ => hreg r) (fun m _ => hpred f m) (c2 f hf)
      exact this
    · intro n hn h7 f hf
      rw [hpred]; exact c3 n hn h7 f hf
    · intro r hr
      rw [hreg]; exact c4 r hr
    · intro f n h
      rw [hpred]
      refine c5 f n ?_
      unfold Slice.writesPred at h
      by_cases hm : f ∈ x.lanes i
      · right
        have hc : (x.lanes i).contains f = true := by simpa using hm
        rw [hc, Bool.true_and] at h
        exact h
      · exact .inl hm
    · intro f
      rw [hfib]; exact c1.fib f
    · rw [k2, hF]
      have := congrArg Gang.gstat c1.rest
      simp only [Gang.setFlags] at this ⊢
      rw [this]
    · have hfr : (F i.gang).frags = i.gang.frags := by
        rw [hF]; have := congrArg Gang.frags c1.rest; simpa [Gang.setFlags] using this
      rw [k2]
      simp only [hfr]
      rfl
    · rw [k2, hF]
      have := c1.rest
      have h2 := congrArg (fun g : Gang => { g with gstat := 0, frags := [] }) this
      simpa [Gang.setFlags] using h2

theorem Team.two_le_S (t : Team) : 2 ≤ t.S := by unfold Team.S; omega

/-- The same for an instruction over operands that each fibre reads for itself. -/
theorem alu_effect {s : State} {i : Iss} (hi : Issues s i) (p : Pred) (d : Dst) (wide : Bool) (ops : List Opnd)
    (f : List Quad → Lane) (hgo : (Slice.ofOps p d wide ops f).Go i) :
    ∃ t, alu s p d wide ops f = .next t ∧ (Slice.ofOps p d wide ops f).Effect s t i := by
  obtain ⟨t, h1, h2⟩ := lanesWith_effect hi (Slice.ofOps p d wide ops f) i.team.two_le_S hgo (by simp [Slice.ofOps])
    (fun n => (allSome (ops.map (fun o => opndVal i.team.S i.gang o n))).map f) (by
      intro n hn
      have : ∀ m ∈ needsOf i.team.S i.gang ops n, (i.gang.reg m.ref).fe = .full := fun m hm =>
        (hgo.1 m (List.mem_flatMap.mpr ⟨n, hn, hm⟩)).1
      simp only [allSome_values this, Option.map_some]
      rfl)
  refine ⟨t, ?_, h2⟩
  unfold alu
  rw [withIss_issues hi.1]
  exact congrArg (finish i) h1

end Sys2Proof.Machine
end

