-- ==== Sys2Proof/Laws/PerInstr.lean ====
section
/-! SUPPORT. Per-instruction laws: the family Encoding says of each instruction which forms its words have. -/

namespace Sys2Proof.Laws.Encoding

/-- Is an instruction of the P form? -/
def isPair (i : Instr) : Bool := match i with | .pFormPair _ _ => true | _ => false

/-- R243, R244: an instruction has a first word, of the F form or of the P form, and every further word is an extension word. -/
def Statement (i : Instr) : Prop :=
  encode i ≠ [] ∧ formOf ((encode i).headD 0) = (if isPair i then 1 else 0) ∧
    ∀ w ∈ (encode i).tail, formOf w = 2

/-- What stands above the lower part of two joined bit fields. -/
theorem append_div {n m : Nat} (x : BitVec n) (y : BitVec m) : (x ++ y).toNat / 2 ^ m = x.toNat := by
  rw [BitVec.toNat_append, ← Nat.shiftRight_eq_div_pow, Nat.shiftRight_or_distrib, Nat.shiftLeft_shiftRight,
    Nat.shiftRight_eq_div_pow, Nat.div_eq_of_lt y.isLt, Nat.or_zero]

theorem formOf_eq (w : Quad) : formOf w = w.toNat / 2 ^ 62 := by
  have := w.isLt
  simp only [formOf, bitsOf, BitVec.extractLsb'_toNat, Nat.shiftRight_eq_div_pow]
  omega

theorem formOf_extWord (y : BitVec 62) : formOf (extWord y) = 2 := by
  rw [formOf_eq]; exact append_div _ _

theorem formOf_word (r : Raw) : formOf r.word = 0 := by
  have h : ((((((r.word.toNat / 2 ^ 14) / 2 ^ 14) / 2 ^ 14) / 2 ^ 8) / 2 ^ 3) / 2 ^ 1) / 2 ^ 8 = 0 := by
    unfold Raw.word
    rw [append_div, append_div, append_div, append_div, append_div, append_div, append_div]; rfl
  rw [formOf_eq]; omega

theorem formOf_pair (a b : BitVec 31) : formOf ((0b01#2 ++ a ++ b : BitVec 64)) = 1 := by
  have h : ((0b01#2 ++ a ++ b : BitVec 64).toNat / 2 ^ 31) / 2 ^ 31 = 1 := by rw [append_div, append_div]; rfl
  rw [formOf_eq]; omega

theorem encode_fForm (i : Instr) (h : isPair i = false) :
    encode i = (toRaw i).word :: ((litWords i).map extWord ++ (toRaw i).recs.flatMap Shape.words) := by
  unfold encode
  split
  · simp [isPair] at h
  · rfl

theorem extension_words (i : Instr) : ∀ w ∈ (litWords i).map extWord ++ (toRaw i).recs.flatMap Shape.words, formOf w = 2 := by
  intro w hw
  rcases List.mem_append.mp hw with h | h
  · obtain ⟨y, -, rfl⟩ := List.mem_map.mp h; exact formOf_extWord y
  · obtain ⟨r, -, h⟩ := List.mem_flatMap.mp h
    simp only [Shape.words, List.mem_cons, List.not_mem_nil, or_false] at h
    rcases h with rfl | rfl | rfl | rfl <;> exact formOf_extWord _

theorem of_fForm (i : Instr) (h : isPair i = false) : Statement i := by
  unfold Statement
  rw [h, encode_fForm i h]
  exact ⟨List.cons_ne_nil _ _, formOf_word _, extension_words i⟩

theorem nop (p : Pred) : Statement (.nop p) := of_fForm _ (Eq.refl _)
theorem bra (p : Pred) (off : BitVec 28) : Statement (.bra p off) := of_fForm _ (Eq.refl _)
theorem jmps (p : Pred) (a : Src) : Statement (.jmps p a) := of_fForm _ (Eq.refl _)
theorem call (p : Pred) (k : BitVec 5) (off : BitVec 28) : Statement (.call p k off) := of_fForm _ (Eq.refl _)
theorem calls (p : Pred) (a : Src) (k : BitVec 5) : Statement (.calls p a k) := of_fForm _ (Eq.refl _)
theorem ret (p : Pred) (a : Src) (k : BitVec 5) : Statement (.ret p a k) := of_fForm _ (Eq.refl _)
theorem reconv (p : Pred) (off : BitVec 28) : Statement (.reconv p off) := of_fForm _ (Eq.refl _)
theorem parkTimeout (team gang lead : Nat) : Statement (.parkTimeout team gang lead) := of_fForm _ (Eq.refl _)
theorem exit (p : Pred) : Statement (.exit p) := of_fForm _ (Eq.refl _)
theorem fork (p : Pred) (d : Dst) (a : Src) (off : BitVec 28) : Statement (.fork p d a off) := of_fForm _ (Eq.refl _)
theorem fend (p : Pred) : Statement (.fend p) := of_fForm _ (Eq.refl _)
theorem yield (p : Pred) : Statement (.yield p) := of_fForm _ (Eq.refl _)
theorem brkpt (p : Pred) (code : BitVec 12) : Statement (.brkpt p code) := of_fForm _ (Eq.refl _)
theorem gbar (p : Pred) : Statement (.gbar p) := of_fForm _ (Eq.refl _)
theorem vote (p : Pred) (d : Dst) (a : Src) (m : VoteMode) : Statement (.vote p d a m) := of_fForm _ (Eq.refl _)
theorem rfl (p : Pred) (d : Dst) (a : Src) (q : Bool) : Statement (.rfl p d a q) := of_fForm _ (Eq.refl _)
theorem shfl (p : Pred) (d : Dst) (a b : Src) (q : Bool) (pd : BitVec 3) (m : ShflMode) : Statement (.shfl p d a b q pd m) := of_fForm _ (Eq.refl _)
theorem pset (p : Pred) (d : Dst) (a b : Src) (ty : CmpTy) (c : Cmp) : Statement (.pset p d a b ty c) := of_fForm _ (Eq.refl _)
theorem pand (p : Pred) (d : Dst) (a b : Pred) : Statement (.pand p d a b) := of_fForm _ (Eq.refl _)
theorem por (p : Pred) (d : Dst) (a b : Pred) : Statement (.por p d a b) := of_fForm _ (Eq.refl _)
theorem pxor (p : Pred) (d : Dst) (a b : Pred) : Statement (.pxor p d a b) := of_fForm _ (Eq.refl _)
theorem pnot (p : Pred) (d : Dst) (a : Pred) : Statement (.pnot p d a) := of_fForm _ (Eq.refl _)
theorem pmov (p : Pred) (op : PmovOp) : Statement (.pmov p op) := of_fForm _ (Eq.refl _)
theorem iadd (p : Pred) (d : Dst) (a b : Src) (m : IntMod) : Statement (.iadd p d a b m) := of_fForm _ (Eq.refl _)
theorem isub (p : Pred) (d : Dst) (a b : Src) (m : IntMod) : Statement (.isub p d a b m) := of_fForm _ (Eq.refl _)
theorem imul (p : Pred) (d : Dst) (a b : Src) : Statement (.imul p d a b) := of_fForm _ (Eq.refl _)
theorem imulh (p : Pred) (d : Dst) (a b : Src) (m : IntMod) : Statement (.imulh p d a b m) := of_fForm _ (Eq.refl _)
theorem imad (p : Pred) (d : Dst) (a b c : Src) : Statement (.imad p d a b c) := of_fForm _ (Eq.refl _)
theorem imadw (p : Pred) (d : Dst) (a b : Src) (m : IntMod) : Statement (.imadw p d a b m) := of_fForm _ (Eq.refl _)
theorem iabs (p : Pred) (d : Dst) (a : Src) (m : IntMod) : Statement (.iabs p d a m) := of_fForm _ (Eq.refl _)
theorem ineg (p : Pred) (d : Dst) (a : Src) (m : IntMod) : Statement (.ineg p d a m) := of_fForm _ (Eq.refl _)
theorem imin (p : Pred) (d : Dst) (a b : Src) (m : IntMod) : Statement (.imin p d a b m) := of_fForm _ (Eq.refl _)
theorem imax (p : Pred) (d : Dst) (a b : Src) (m : IntMod) : Statement (.imax p d a b m) := of_fForm _ (Eq.refl _)
theorem isad (p : Pred) (d : Dst) (a b c : Src) : Statement (.isad p d a b c) := of_fForm _ (Eq.refl _)
theorem and (p : Pred) (d : Dst) (a b : Src) (m : IntMod) : Statement (.and p d a b m) := of_fForm _ (Eq.refl _)
theorem or (p : Pred) (d : Dst) (a b : Src) (m : IntMod) : Statement (.or p d a b m) := of_fForm _ (Eq.refl _)
theorem xor (p : Pred) (d : Dst) (a b : Src) (m : IntMod) : Statement (.xor p d a b m) := of_fForm _ (Eq.refl _)
theorem andn (p : Pred) (d : Dst) (a b : Src) (m : IntMod) : Statement (.andn p d a b m) := of_fForm _ (Eq.refl _)
theorem not (p : Pred) (d : Dst) (a : Src) (m : IntMod) : Statement (.not p d a m) := of_fForm _ (Eq.refl _)
theorem shl (p : Pred) (d : Dst) (a b : Src) (m : IntMod) : Statement (.shl p d a b m) := of_fForm _ (Eq.refl _)
theorem shr (p : Pred) (d : Dst) (a b : Src) (m : IntMod) : Statement (.shr p d a b m) := of_fForm _ (Eq.refl _)
theorem sar (p : Pred) (d : Dst) (a b : Src) (m : IntMod) : Statement (.sar p d a b m) := of_fForm _ (Eq.refl _)
theorem rot (p : Pred) (d : Dst) (a b : Src) (m : IntMod) : Statement (.rot p d a b m) := of_fForm _ (Eq.refl _)
theorem funnel (p : Pred) (d : Dst) (a b c : Src) : Statement (.funnel p d a b c) := of_fForm _ (Eq.refl _)
theorem bfe (p : Pred) (d : Dst) (a b : Src) (m : IntMod) : Statement (.bfe p d a b m) := of_fForm _ (Eq.refl _)
theorem bfi (p : Pred) (d : Dst) (a b c : Src) : Statement (.bfi p d a b c) := of_fForm _ (Eq.refl _)
theorem popc (p : Pred) (d : Dst) (a : Src) (m : IntMod) : Statement (.popc p d a m) := of_fForm _ (Eq.refl _)
theorem clz (p : Pred) (d : Dst) (a : Src) (m : IntMod) : Statement (.clz p d a m) := of_fForm _ (Eq.refl _)
theorem brev (p : Pred) (d : Dst) (a : Src) (m : IntMod) : Statement (.brev p d a m) := of_fForm _ (Eq.refl _)
theorem sel (p : Pred) (d : Dst) (a b : Src) (c : Pred) (q : Bool) : Statement (.sel p d a b c q) := of_fForm _ (Eq.refl _)
theorem mov (p : Pred) (d : Dst) (a : Src) (m : IntMod) : Statement (.mov p d a m) := of_fForm _ (Eq.refl _)
theorem movi (p : Pred) (d : Dst) (a b : Src) : Statement (.movi p d a b) := of_fForm _ (Eq.refl _)
theorem lea (p : Pred) (d : Dst) (a b : Src) (sh : BitVec 3) (u : Bool) : Statement (.lea p d a b sh u) := of_fForm _ (Eq.refl _)
theorem iadd64 (p : Pred) (d : Dst) (a b : Src) (sub : Bool) : Statement (.iadd64 p d a b sub) := of_fForm _ (Eq.refl _)
theorem cvtw (p : Pred) (d : Dst) (a : Src) (m : CvtwMod) : Statement (.cvtw p d a m) := of_fForm _ (Eq.refl _)
theorem fadd (p : Pred) (d : Dst) (a b : Src) (m : FMod) : Statement (.fadd p d a b m) := of_fForm _ (Eq.refl _)
theorem fsub (p : Pred) (d : Dst) (a b : Src) (m : FMod) : Statement (.fsub p d a b m) := of_fForm _ (Eq.refl _)
theorem fmul (p : Pred) (d : Dst) (a b : Src) (m : FMod) : Statement (.fmul p d a b m) := of_fForm _ (Eq.refl _)
theorem ffma (p : Pred) (d : Dst) (a b c : Src) : Statement (.ffma p d a b c) := of_fForm _ (Eq.refl _)
theorem fmin (p : Pred) (d : Dst) (a b : Src) (np : Bool) : Statement (.fmin p d a b np) := of_fForm _ (Eq.refl _)
theorem fmax (p : Pred) (d : Dst) (a b : Src) (np : Bool) : Statement (.fmax p d a b np) := of_fForm _ (Eq.refl _)
theorem fclass (p : Pred) (d : Dst) (a : Src) (ty : FTy) : Statement (.fclass p d a ty) := of_fForm _ (Eq.refl _)
theorem frnd (p : Pred) (d : Dst) (a : Src) (r : Rnd) : Statement (.frnd p d a r) := of_fForm _ (Eq.refl _)
theorem ffrac (p : Pred) (d : Dst) (a : Src) : Statement (.ffrac p d a) := of_fForm _ (Eq.refl _)
theorem frcp (p : Pred) (d : Dst) (a : Src) : Statement (.frcp p d a) := of_fForm _ (Eq.refl _)
theorem frsq (p : Pred) (d : Dst) (a : Src) : Statement (.frsq p d a) := of_fForm _ (Eq.refl _)
theorem fsqrt (p : Pred) (d : Dst) (a : Src) : Statement (.fsqrt p d a) := of_fForm _ (Eq.refl _)
theorem fexp2 (p : Pred) (d : Dst) (a : Src) : Statement (.fexp2 p d a) := of_fForm _ (Eq.refl _)
theorem flog2 (p : Pred) (d : Dst) (a : Src) : Statement (.flog2 p d a) := of_fForm _ (Eq.refl _)
theorem fsin (p : Pred) (d : Dst) (a : Src) : Statement (.fsin p d a) := of_fForm _ (Eq.refl _)
theorem fcos (p : Pred) (d : Dst) (a : Src) : Statement (.fcos p d a) := of_fForm _ (Eq.refl _)
theorem ftanh (p : Pred) (d : Dst) (a : Src) : Statement (.ftanh p d a) := of_fForm _ (Eq.refl _)
theorem hadd2 (p : Pred) (d : Dst) (a b : Src) (m : FMod) : Statement (.hadd2 p d a b m) := of_fForm _ (Eq.refl _)
theorem hmul2 (p : Pred) (d : Dst) (a b : Src) (m : FMod) : Statement (.hmul2 p d a b m) := of_fForm _ (Eq.refl _)
theorem hfma2 (p : Pred) (d : Dst) (a b c : Src) : Statement (.hfma2 p d a b c) := of_fForm _ (Eq.refl _)
theorem badd2 (p : Pred) (d : Dst) (a b : Src) (m : FMod) : Statement (.badd2 p d a b m) := of_fForm _ (Eq.refl _)
theorem bfma2 (p : Pred) (d : Dst) (a b c : Src) : Statement (.bfma2 p d a b c) := of_fForm _ (Eq.refl _)
theorem cvtf (p : Pred) (d : Dst) (a c : Src) (slot si di : BitVec 3) : Statement (.cvtf p d a c slot si di) := of_fForm _ (Eq.refl _)
theorem cvti (p : Pred) (d : Dst) (a : Src) (m : CvtiMod) : Statement (.cvti p d a m) := of_fForm _ (Eq.refl _)
theorem pack (p : Pred) (d : Dst) (a : Src) (slot : BitVec 3) : Statement (.pack p d a slot) := of_fForm _ (Eq.refl _)
theorem unpack (p : Pred) (d : Dst) (a : Src) (slot : BitVec 3) : Statement (.unpack p d a slot) := of_fForm _ (Eq.refl _)
theorem dp4i8 (p : Pred) (d : Dst) (a b : Src) (au bu : Bool) : Statement (.dp4i8 p d a b au bu) := of_fForm _ (Eq.refl _)
theorem dp8q4 (p : Pred) (d : Dst) (a b : Src) : Statement (.dp8q4 p d a b) := of_fForm _ (Eq.refl _)
theorem dp4f8 (p : Pred) (d : Dst) (a b : Src) (ae be : Bool) : Statement (.dp4f8 p d a b ae be) := of_fForm _ (Eq.refl _)
theorem dp2f16 (p : Pred) (d : Dst) (a b : Src) (bf : Bool) : Statement (.dp2f16 p d a b bf) := of_fForm _ (Eq.refl _)
theorem scale (p : Pred) (d : Dst) (a b : Src) (sf : ScaleForm) (m : FMod) : Statement (.scale p d a b sf m) := of_fForm _ (Eq.refl _)
theorem rng (p : Pred) (d : Dst) (a : Src) : Statement (.rng p d a) := of_fForm _ (Eq.refl _)
theorem srnd (p : Pred) (d : Dst) (a b : Src) (di : BitVec 3) (sat : Bool) (f : SrndFmt) : Statement (.srnd p d a b di sat f) := of_fForm _ (Eq.refl _)
theorem pFormPair (h0 h1 : PHalf) : Statement (.pFormPair h0 h1) :=
  ⟨List.cons_ne_nil _ _, formOf_pair _ _, nofun⟩
theorem ld (p : Pred) (d : Dst) (a b : Src) (m : MemMod) : Statement (.ld p d a b m) := of_fForm _ (Eq.refl _)
theorem st (p : Pred) (d : Dst) (a b : Src) (m : MemMod) : Statement (.st p d a b m) := of_fForm _ (Eq.refl _)
theorem lds (p : Pred) (d : Dst) (a b : Src) (m : MemMod) : Statement (.lds p d a b m) := of_fForm _ (Eq.refl _)
theorem sts (p : Pred) (d : Dst) (a b : Src) (m : MemMod) : Statement (.sts p d a b m) := of_fForm _ (Eq.refl _)
theorem ldc (p : Pred) (d : Dst) (a b : Src) (m : MemMod) : Statement (.ldc p d a b m) := of_fForm _ (Eq.refl _)
theorem pref (p : Pred) (a b : Src) (l2 : Bool) : Statement (.pref p a b l2) := of_fForm _ (Eq.refl _)
theorem loadReply (id : Nat) : Statement (.loadReply id) := of_fForm _ (Eq.refl _)
theorem storeTranslate (core id : Nat) : Statement (.storeTranslate core id) := of_fForm _ (Eq.refl _)
theorem storeFaultEnter (core id : Nat) : Statement (.storeFaultEnter core id) := of_fForm _ (Eq.refl _)
theorem stfault (team gang : Nat) : Statement (.stfault team gang) := of_fForm _ (Eq.refl _)
theorem atom (p : Pred) (d : Dst) (a b : Src) (m : AtomMod) : Statement (.atom p d a b m) := of_fForm _ (Eq.refl _)
theorem atomsc (p : Pred) (d : Dst) (a b : Src) (op : AOp) (ty : ATy) : Statement (.atomsc p d a b op ty) := of_fForm _ (Eq.refl _)
theorem red (p : Pred) (a b : Src) (m : AtomMod) : Statement (.red p a b m) := of_fForm _ (Eq.refl _)
theorem atomicReply (id : Nat) : Statement (.atomicReply id) := of_fForm _ (Eq.refl _)
theorem scTicketGrant : Statement (.scTicketGrant) := of_fForm _ (Eq.refl _)
theorem fence (p : Pred) (ord sco : BitVec 3) : Statement (.fence p ord sco) := of_fForm _ (Eq.refl _)
theorem bar (p : Pred) (n : BitVec 3) : Statement (.bar p n) := of_fForm _ (Eq.refl _)
theorem wbar (p : Pred) (n : BitVec 3) : Statement (.wbar p n) := of_fForm _ (Eq.refl _)
theorem boinit (p : Pred) (a b : Src) (ord sco : BitVec 3) : Statement (.boinit p a b ord sco) := of_fForm _ (Eq.refl _)
theorem boarr (p : Pred) (a b : Src) (ord sco : BitVec 3) (e : Bool) : Statement (.boarr p a b ord sco e) := of_fForm _ (Eq.refl _)
theorem bowait (p : Pred) (d : Dst) (a : Src) (sco : BitVec 3) : Statement (.bowait p d a sco) := of_fForm _ (Eq.refl _)
theorem sdrain (p : Pred) : Statement (.sdrain p) := of_fForm _ (Eq.refl _)
theorem waitcnt (p : Pred) (c : EngClass) (n : BitVec 6) : Statement (.waitcnt p c n) := of_fForm _ (Eq.refl _)
theorem stashmap (p : Pred) (a b : Src) (n : BitVec 4) : Statement (.stashmap p a b n) := of_fForm _ (Eq.refl _)
theorem stashwb (p : Pred) (n : BitVec 4) (first count : Src) : Statement (.stashwb p n first count) := of_fForm _ (Eq.refl _)
theorem stashinv (p : Pred) (n : BitVec 4) (first count : Src) : Statement (.stashinv p n first count) := of_fForm _ (Eq.refl _)
theorem stashFillReply (team entry line : Nat) : Statement (.stashFillReply team entry line) := of_fForm _ (Eq.refl _)
theorem stashRecall (team entry line : Nat) : Statement (.stashRecall team entry line) := of_fForm _ (Eq.refl _)
theorem tileq (p : Pred) (op : TileqOp) : Statement (.tileq p op) := of_fForm _ (Eq.refl _)
theorem tilewait (p : Pred) (d : Dst) (t : Src) : Statement (.tilewait p d t) := of_fForm _ (Eq.refl _)
theorem procq (p : Pred) (d : Dst) (sr : BitVec 6) (nb : Bool) : Statement (.procq p d sr nb) := of_fForm _ (Eq.refl _)
theorem procqDeliver (team gang : Nat) : Statement (.procqDeliver team gang) := of_fForm _ (Eq.refl _)
theorem procdone (p : Pred) (i : Src) : Statement (.procdone p i) := of_fForm _ (Eq.refl _)
theorem procfail (p : Pred) (i code : Src) : Statement (.procfail p i code) := of_fForm _ (Eq.refl _)
theorem cpygo (p : Pred) (a : Src) : Statement (.cpygo p a) := of_fForm _ (Eq.refl _)
theorem cpyq (p : Pred) (d : Dst) : Statement (.cpyq p d) := of_fForm _ (Eq.refl _)
theorem guardset (p : Pred) (d : Dst) (a : Pred) : Statement (.guardset p d a) := of_fForm _ (Eq.refl _)
theorem guardclr (p : Pred) (d : Dst) : Statement (.guardclr p d) := of_fForm _ (Eq.refl _)
theorem mma16 (p : Pred) (d : Dst) (a b m : Src) : Statement (.mma16 p d a b m) := of_fForm _ (Eq.refl _)
theorem mma16sp (p : Pred) (d : Dst) (a b m : Src) : Statement (.mma16sp p d a b m) := of_fForm _ (Eq.refl _)
theorem gangset (p : Pred) (a : Src) : Statement (.gangset p a) := of_fForm _ (Eq.refl _)
theorem mtile (p : Pred) (d : Dst) (ta tb : BitVec 6) (sc : Src) (g : BitVec 4) (ge z : Bool) (sco : BitVec 3) (rel : Bool) (ra rb : Shape) : Statement (.mtile p d ta tb sc g ge z sco rel ra rb) := of_fForm _ (Eq.refl _)
theorem mtilesp (p : Pred) (d : Dst) (ta tb : BitVec 6) (sc : Src) (g : BitVec 4) (ge z : Bool) (sco : BitVec 3) (rel : Bool) (ra rb : Shape) : Statement (.mtilesp p d ta tb sc g ge z sco rel ra rb) := of_fForm _ (Eq.refl _)
theorem accz (p : Pred) (d : Dst) : Statement (.accz p d) := of_fForm _ (Eq.refl _)
theorem accld (p : Pred) (d : Dst) (t : BitVec 6) (r : Shape) : Statement (.accld p d t r) := of_fForm _ (Eq.refl _)
theorem accdrain (p : Pred) (d : Dst) (add z : Bool) (g : BitVec 4) (ge : Bool) (sco : BitVec 3) (rel : Bool) (r : Shape) : Statement (.accdrain p d add z g ge sco rel r) := of_fForm _ (Eq.refl _)
theorem engineCommandStart (team gang : Nat) (c : EngClass) : Statement (.engineCommandStart team gang c) := of_fForm _ (Eq.refl _)
theorem engineSegment (id seg : Nat) : Statement (.engineSegment id seg) := of_fForm _ (Eq.refl _)
theorem engineCompletion (id : Nat) : Statement (.engineCompletion id) := of_fForm _ (Eq.refl _)
theorem sample (p : Pred) (d : Dst) (a b c : Src) : Statement (.sample p d a b c) := of_fForm _ (Eq.refl _)
theorem sampleg (p : Pred) (d : Dst) (a b c : Src) : Statement (.sampleg p d a b c) := of_fForm _ (Eq.refl _)
theorem fetch (p : Pred) (d : Dst) (a b c : Src) : Statement (.fetch p d a b c) := of_fForm _ (Eq.refl _)
theorem nsample (p : Pred) (d : Dst) (a b c : Src) : Statement (.nsample p d a b c) := of_fForm _ (Eq.refl _)
theorem samplerResult (id fib : Nat) : Statement (.samplerResult id fib) := of_fForm _ (Eq.refl _)
theorem wpin (p : Pred) (d : Dst) (a : Src) : Statement (.wpin p d a) := of_fForm _ (Eq.refl _)
theorem wunpin (p : Pred) (a : Src) : Statement (.wunpin p a) := of_fForm _ (Eq.refl _)
theorem winv (p : Pred) (a : Src) (all : Bool) : Statement (.winv p a all) := of_fForm _ (Eq.refl _)
theorem rastq (p : Pred) (d : Dst) (a b : Src) (cull : Cull) : Statement (.rastq p d a b cull) := of_fForm _ (Eq.refl _)
theorem rastqDone (id fib : Nat) : Statement (.rastqDone id fib) := of_fForm _ (Eq.refl _)
theorem rayx (p : Pred) (d : Dst) (a b : Src) (first ah : Bool) (cull : Cull) : Statement (.rayx p d a b first ah cull) := of_fForm _ (Eq.refl _)
theorem traversalStop (team gang fib : Nat) : Statement (.traversalStop team gang fib) := of_fForm _ (Eq.refl _)
theorem rayhit (p : Pred) (d : Dst) (acc : Bool) : Statement (.rayhit p d acc) := of_fForm _ (Eq.refl _)
theorem repack (p : Pred) : Statement (.repack p) := of_fForm _ (Eq.refl _)
theorem srd (p : Pred) (d : Dst) (n : BitVec 6) : Statement (.srd p d n) := of_fForm _ (Eq.refl _)
theorem swr (p : Pred) (n : BitVec 6) (a : Src) : Statement (.swr p n a) := of_fForm _ (Eq.refl _)
theorem trap (p : Pred) (code : BitVec 12) : Statement (.trap p code) := of_fForm _ (Eq.refl _)
theorem tret (p : Pred) (skip : Bool) : Statement (.tret p skip) := of_fForm _ (Eq.refl _)
theorem teamkill (p : Pred) : Statement (.teamkill p) := of_fForm _ (Eq.refl _)
theorem mbwait (p : Pred) (d : Dst) (mb : BitVec 6) (nb : Bool) (pd : BitVec 3) : Statement (.mbwait p d mb nb pd) := of_fForm _ (Eq.refl _)
theorem mbsend (p : Pred) (mb sa : BitVec 6) : Statement (.mbsend p mb sa) := of_fForm _ (Eq.refl _)
theorem pipedeclDeclare (p : Pred) (d : Dst) (a : Src) : Statement (.pipedeclDeclare p d a) := of_fForm _ (Eq.refl _)
theorem pipedeclRelease (p : Pred) (d : Dst) (a : Src) : Statement (.pipedeclRelease p d a) := of_fForm _ (Eq.refl _)
theorem pipelineReleaseDone (ctx h : Nat) : Statement (.pipelineReleaseDone ctx h) := of_fForm _ (Eq.refl _)
theorem qpush (p : Pred) (q : BitVec 4) (a h : Src) (nb : Bool) (pd : BitVec 3) : Statement (.qpush p q a h nb pd) := of_fForm _ (Eq.refl _)
theorem qpop (p : Pred) (d : Dst) (q : BitVec 4) (nb : Bool) (h : Src) (pd : BitVec 3) : Statement (.qpop p d q nb h pd) := of_fForm _ (Eq.refl _)
theorem launch (p : Pred) (d : Dst) (a : Src) : Statement (.launch p d a) := of_fForm _ (Eq.refl _)
theorem semsig (p : Pred) (a b : Src) (sco : BitVec 3) : Statement (.semsig p a b sco) := of_fForm _ (Eq.refl _)
theorem semwait (p : Pred) (a b : Src) (sco : BitVec 3) : Statement (.semwait p a b sco) := of_fForm _ (Eq.refl _)
theorem procdeclDeclare (p : Pred) (d : Dst) (a : Src) : Statement (.procdeclDeclare p d a) := of_fForm _ (Eq.refl _)
theorem procdeclAttach (p : Pred) (d : Dst) (a : Src) : Statement (.procdeclAttach p d a) := of_fForm _ (Eq.refl _)
theorem procdeclRelease (p : Pred) (d : Dst) (a : Src) : Statement (.procdeclRelease p d a) := of_fForm _ (Eq.refl _)
theorem rangeReleaseDone (rn : Nat) : Statement (.rangeReleaseDone rn) := of_fForm _ (Eq.refl _)
theorem procreset (p : Pred) (d : Dst) (a b : Src) (all : Bool) : Statement (.procreset p d a b all) := of_fForm _ (Eq.refl _)
theorem tlbinv (p : Pred) (a b : Src) (ctx : Bool) : Statement (.tlbinv p a b ctx) := of_fForm _ (Eq.refl _)
theorem tlbinvComplete (id : Nat) : Statement (.tlbinvComplete id) := of_fForm _ (Eq.refl _)
theorem pageWalkStep (id : Nat) : Statement (.pageWalkStep id) := of_fForm _ (Eq.refl _)
theorem firstTouch : Statement (.firstTouch) := of_fForm _ (Eq.refl _)
theorem runAheadEnd (team gang : Nat) : Statement (.runAheadEnd team gang) := of_fForm _ (Eq.refl _)
theorem faultRecordWrite : Statement (.faultRecordWrite) := of_fForm _ (Eq.refl _)
theorem faultReplyRetry (tag : Nat) : Statement (.faultReplyRetry tag) := of_fForm _ (Eq.refl _)
theorem faultReplyDeliver (tag : Nat) : Statement (.faultReplyDeliver tag) := of_fForm _ (Eq.refl _)
theorem xlInv (v : Quad) : Statement (.xlInv v) := of_fForm _ (Eq.refl _)
theorem xlInvstRead : Statement (.xlInvstRead) := of_fForm _ (Eq.refl _)
theorem procTouch (id : Nat) : Statement (.procTouch id) := of_fForm _ (Eq.refl _)
theorem touchResend (id : Nat) : Statement (.touchResend id) := of_fForm _ (Eq.refl _)
theorem publication (id : Nat) : Statement (.publication id) := of_fForm _ (Eq.refl _)
theorem fillFailure (id : Nat) : Statement (.fillFailure id) := of_fForm _ (Eq.refl _)
theorem procReplay (id : Nat) : Statement (.procReplay id) := of_fForm _ (Eq.refl _)
theorem l2Eviction (k : LineKey) : Statement (.l2Eviction k) := of_fForm _ (Eq.refl _)
theorem writeBackDone (k : LineKey) : Statement (.writeBackDone k) := of_fForm _ (Eq.refl _)
theorem cxlCacheResponse (g : Nat) (err : Bool) : Statement (.cxlCacheResponse g err) := of_fForm _ (Eq.refl _)
theorem snpInv (g : Nat) : Statement (.snpInv g) := of_fForm _ (Eq.refl _)
theorem snpData (g : Nat) : Statement (.snpData g) := of_fForm _ (Eq.refl _)
theorem snpCur (g : Nat) : Statement (.snpCur g) := of_fForm _ (Eq.refl _)
theorem hostMemRead (pa len : Nat) : Statement (.hostMemRead pa len) := of_fForm _ (Eq.refl _)
theorem hostMemWrite (pa : Nat) (bytes : List Byte) (poisoned : Bool) : Statement (.hostMemWrite pa bytes poisoned) := of_fForm _ (Eq.refl _)
theorem backInvalidateResponse (pl : Nat) : Statement (.backInvalidateResponse pl) := of_fForm _ (Eq.refl _)
theorem peerAccessIn (a : PeerIn) : Statement (.peerAccessIn a) := of_fForm _ (Eq.refl _)
theorem peerReply (id : Nat) (ans : PeerAnswer) : Statement (.peerReply id ans) := of_fForm _ (Eq.refl _)
theorem linkChange (link : Nat) (up : Bool) : Statement (.linkChange link up) := of_fForm _ (Eq.refl _)
theorem launchDequeue (ctx : Nat) : Statement (.launchDequeue ctx) := of_fForm _ (Eq.refl _)
theorem boundWaitDone (ctx : Nat) : Statement (.boundWaitDone ctx) := of_fForm _ (Eq.refl _)
theorem blockFreed (x y : Nat) : Statement (.blockFreed x y) := of_fForm _ (Eq.refl _)
theorem teamStart (id : Nat) : Statement (.teamStart id) := of_fForm _ (Eq.refl _)
theorem bindingComplete (team : Nat) : Statement (.bindingComplete team) := of_fForm _ (Eq.refl _)
theorem launchComplete (id : Nat) : Statement (.launchComplete id) := of_fForm _ (Eq.refl _)
theorem passoverLimit (team gang lead : Nat) : Statement (.passoverLimit team gang lead) := of_fForm _ (Eq.refl _)
theorem preemptSave (weave : Nat) : Statement (.preemptSave weave) := of_fForm _ (Eq.refl _)
theorem restore (ctx entry : Nat) : Statement (.restore ctx entry) := of_fForm _ (Eq.refl _)
theorem scPreemptSave (v : Quad) : Statement (.scPreemptSave v) := of_fForm _ (Eq.refl _)
theorem scPreemptRestore (v : Quad) : Statement (.scPreemptRestore v) := of_fForm _ (Eq.refl _)
theorem enRoll (v : Quad) : Statement (.enRoll v) := of_fForm _ (Eq.refl _)
theorem ctxCreate (n : Nat) : Statement (.ctxCreate n) := of_fForm _ (Eq.refl _)
theorem ctxDestroy (n : Nat) : Statement (.ctxDestroy n) := of_fForm _ (Eq.refl _)
theorem mbInPush (n : Nat) (agent : Nat) : Statement (.mbInPush n agent) := of_fForm _ (Eq.refl _)
theorem mbOutPop (n : Nat) : Statement (.mbOutPop n) := of_fForm _ (Eq.refl _)
theorem mbStatRead (n : Nat) : Statement (.mbStatRead n) := of_fForm _ (Eq.refl _)
theorem bindingTakesEffect (b : BindSlot) : Statement (.bindingTakesEffect b) := of_fForm _ (Eq.refl _)
theorem scNoteClear (v : Quad) : Statement (.scNoteClear v) := of_fForm _ (Eq.refl _)
theorem attestRequest (a : Quad) : Statement (.attestRequest a) := of_fForm _ (Eq.refl _)
theorem startWarm (who : Asker) : Statement (.startWarm who) := of_fForm _ (Eq.refl _)
theorem startCold (who : Asker) : Statement (.startCold who) := of_fForm _ (Eq.refl _)
theorem startStepTimeout : Statement (.startStepTimeout) := of_fForm _ (Eq.refl _)
theorem mgmtStatus (signed : Bool) : Statement (.mgmtStatus signed) := of_fForm _ (Eq.refl _)
theorem mgmtStartWarm (signed : Bool) : Statement (.mgmtStartWarm signed) := of_fForm _ (Eq.refl _)
theorem mgmtStartCold (signed : Bool) : Statement (.mgmtStartCold signed) := of_fForm _ (Eq.refl _)
theorem mgmtLoadRecovery (signed : Bool) (image : List Byte) : Statement (.mgmtLoadRecovery signed image) := of_fForm _ (Eq.refl _)
theorem mgmtAttest (signed : Bool) (nonce : List Byte) : Statement (.mgmtAttest signed nonce) := of_fForm _ (Eq.refl _)
theorem ratioApply (cluster : Nat) : Statement (.ratioApply cluster) := of_fForm _ (Eq.refl _)
theorem passCountChange (cluster : Nat) (raise : Bool) : Statement (.passCountChange cluster raise) := of_fForm _ (Eq.refl _)
theorem heatRefresh (heat : List Nat) : Statement (.heatRefresh heat) := of_fForm _ (Eq.refl _)
theorem netStepChange (region step : Nat) : Statement (.netStepChange region step) := of_fForm _ (Eq.refl _)
theorem registerWrite (off : Nat) (v : Quad) : Statement (.registerWrite off v) := of_fForm _ (Eq.refl _)
theorem applicationProcessorAccess (proc : Nat) (acc : ApAccess) : Statement (.applicationProcessorAccess proc acc) := of_fForm _ (Eq.refl _)
theorem illegalInstruction (cause sub : Nat) : Statement (.illegalInstruction cause sub) := of_fForm _ (Eq.refl _)
theorem cxlLinkChange (port width : Nat) : Statement (.cxlLinkChange port width) := of_fForm _ (Eq.refl _)
theorem startStepComplete (ok : Bool) : Statement (.startStepComplete ok) := of_fForm _ (Eq.refl _)
theorem attestationReportDone : Statement (.attestationReportDone) := of_fForm _ (Eq.refl _)
theorem energyUpdate (cluster : Nat) (charges : List (Nat × Nat × Nat)) : Statement (.energyUpdate cluster charges) := of_fForm _ (Eq.refl _)

end Sys2Proof.Laws.Encoding
end

