-- ==== Sys2Proof/Laws/Results.lean ====
section
/-! SUPPORT. The number helpers of the meanings as the rules write them: extension, modulo and saturation (R8, R300). -/

namespace Sys2Proof.Machine

theorem extOf_eq_extBits (u : Bool) (w : Nat) (hw : 0 < w) (x : Quad) : extOf u w x = extBits u w x := by
  unfold extOf extBits
  cases u
  · simp only [Bool.false_eq_true, if_false, sextNat]
    rw [BitVec.toInt_eq_toNat_cond, BitVec.toNat_setWidth]
    have h2 : 2 * 2 ^ (w - 1) = 2 ^ w := by rw [← Nat.pow_succ']; congr 1; omega
    split <;> split <;> first | rfl | omega
  · simp

theorem sextNat_eq_extBits (w : Nat) (hw : 0 < w) (x : Quad) : sextNat x.toNat w = extBits false w x := by
  simpa [extOf] using extOf_eq_extBits false w hw x

theorem wrap_eq_modulo (w : Nat) (hw : w ≤ 64) (x : Int) : wrap w x = modulo w x := by
  unfold wrap modulo
  congr 1
  apply BitVec.eq_of_toNat_eq
  simp only [BitVec.toNat_ofInt, BitVec.toNat_setWidth]
  have h1 : (0:Int) < ((2 ^ w : Nat) : Int) := by positivity
  have hlt := Int.emod_lt_of_pos x h1
  have hnn := Int.emod_nonneg x (Int.ne_of_gt h1)
  have h64 : (2 ^ w : Nat) ≤ 2 ^ 64 := Nat.pow_le_pow_right (by omega) hw
  rw [Int.emod_eq_of_lt hnn (lt_of_lt_of_le hlt (by exact_mod_cast h64)), Nat.mod_eq_of_lt]
  have : (x % ((2 ^ w : Nat) : Int)).toNat < 2 ^ w := by omega
  omega

theorem arith_eq_arithResult (m : IntMod) (x : Int) : arith m x = arithResult m x := by
  obtain ⟨q, s, u⟩ := m
  cases q <;> cases s <;> cases u <;>
    simp [arith, arithResult, IntMod.width, wrap_eq_modulo, clampInt, intLo, intHi] <;> (congr 1; omega)

theorem fdiv_pow (x : Int) (n : Nat) : x.fdiv ((2 ^ n : Nat) : Int) = x / ((2 ^ n : Nat) : Int) :=
  Int.fdiv_eq_ediv_of_nonneg _ (by positivity)

end Sys2Proof.Machine
end

