-- ==== Sys2Proof/Tests/Slice0.lean ====
section
/-! SUPPORT. Tests: words that decode, ill-formed terms that the check refuses, results that the spec states, and for each
statement of Certificates/Slice0 a state and operands that meet its hypotheses. -/

namespace Sys2Proof.Tests

open Sys2Proof Sys2Proof.Machine

set_option Elab.async false

/-! ### Words, written out from the spec's encodings -/

/-- CALL 8 and (p1) JMPS s8: the words that the spec prints (R282, R293). -/
theorem test_decode_call : (decode .main [0x011C000020000008]).toOption = some (.call ⟨false, 7⟩ 2 8) := by decide +kernel
/-- As the spec prints it. -/
theorem test_decode_jmps : (decode .main [0x00C4012000000000]).toOption = some (.jmps ⟨false, 1⟩ (.scal 8 false)) := by decide +kernel
/-- BRA with offset 5, over `sb` and `sc` (R276). -/
theorem test_decode_bra : (decode .main [0x00A8000000000005]).toOption = some (.bra ⟨true, 2⟩ 5) := by decide +kernel
/-- SHFL.down of R294: modifier mode 2, pd 2 in bits 4:2. -/
theorem test_decode_shfl : (decode .main [0x041C14100880000A]).toOption = some (.shfl ⟨false, 7⟩ (.vec 5) (.vec 4 0 false) (.const 8) false 2 .down) := by decide +kernel
/-- PSET.eq.i32: type in bits 7:4, comparison in bits 3:0 (R295). -/
theorem test_decode_pset : (decode .main [0x045E080408000000]).toOption = some (.pset ⟨false, 7⟩ (.pred 2) (.vec 1 0 false) (.const 0) .i32 .eq) := by decide +kernel
/-- IADD.n.sat v2, v3, literal: im bits u 0, sat 1; one extension word (R253, R277). -/
theorem test_decode_iadd_sat : (decode .main [0x081C080C3C000003, 0x80000000DEADBEEF]).toOption = some (.iadd ⟨false, 7⟩ (.vec 2) (.vec 3 1 true) (.lit 0 0xDEADBEEF) ⟨false, true, true⟩) := by decide +kernel
/-- FADD with rounding code 1 and sat: fm bits 2:0 and 3 (R309). -/
theorem test_decode_fadd : (decode .main [0x101D190408300009]).toOption = some (.fadd ⟨false, 7⟩ (.scal 6) (.scal 1 false) (.const 3) ⟨true, .rtz⟩) := by decide +kernel
/-- CVTF of the spec example (R322). -/
theorem test_decode_cvtf : (decode .main [0x181C1C0C00414000]).toOption = some (.cvtf ⟨false, 7⟩ (.vec 7) (.vec 3 0 false) (.vec 0 0 false) 5 0 2) := by decide +kernel
/-- PACK of the spec example (R325). -/
theorem test_decode_pack : (decode .main [0x189C400000004000]).toOption = some (.pack ⟨false, 7⟩ (.vec 16) (.vec 0 0 false) 1) := by decide +kernel
/-- A P-form pair: MOV v4, v1 and IADD s3, s2 (R258, R260). -/
theorem test_decode_pair : (decode .main [0x40F080200270D080]).toOption = some (.pFormPair ⟨.mov, 7, false, 4, .vec 1 0 false⟩ ⟨.iadd, 3, true, 3, .scal 2 false⟩) := by decide +kernel
/-- LD.acq.gpu v8: ord 1, scope 3, size 1 (R332). -/
theorem test_decode_ld : (decode .main [0x201C200808000B10]).toOption = some (.ld ⟨false, 7⟩ (.vec 8) (.vec 2 0 false) (.const 0) ⟨1, 3, 0, 1, false, false⟩) := by decide +kernel
/-- ST.b8 (size 2) of v5 (R332, R338). -/
theorem test_decode_st : (decode .main [0x205C140808100020]).toOption = some (.st ⟨false, 7⟩ (.vec 5) (.vec 2 0 false) (.const 1) ⟨0, 0, 0, 2, false, false⟩) := by decide +kernel
/-- ATOM.max.n32 at scope 3: aop 3 in bits 7:4, type 1 in bits 3:1 (R341). -/
theorem test_decode_atom : (decode .main [0x281C1C0800400332]).toOption = some (.atom ⟨false, 7⟩ (.vec 7) (.vec 2 0 false) (.vec 4 0 false) ⟨0, 3, .max, .n32⟩) := by decide +kernel
/-- BOARR.rel.gpu.err: ord 2, scope 3, bit 0 (R352). -/
theorem test_decode_boarr : (decode .main [0x29DC011008101301]).toOption = some (.boarr ⟨false, 7⟩ (.scal 4 false) (.const 1) 2 3 true) := by decide +kernel
/-- TILEQ.rd v3, s1: mode 2, `sb` inline constant 0 (R358, R248). -/
theorem test_decode_tileq : (decode .main [0x225C0D0408000002]).toOption = some (.tileq ⟨false, 7⟩ (.rd (.vec 3) (.scal 1 false) (.const 0))) := by decide +kernel
/-- PROCQ.nb s16, s40: right register in bits 5:0, nb in bit 6 (R361). -/
theorem test_decode_procq : (decode .main [0x2B5D400680000000]).toOption = some (.procq ⟨false, 7⟩ (.scal 16) 40 true) := by decide +kernel
/-- CPYGO of a literal (R381). -/
theorem test_decode_cpygo : (decode .main [0x2B9C020000000000]).toOption = some (.cpygo ⟨false, 7⟩ (.const 0)) := by decide +kernel
/-- GUARDSET g5, !p2 (R385, R278). -/
theorem test_decode_guardset : (decode .main [0x2C1F1400A0000000]).toOption = some (.guardset ⟨false, 7⟩ (.file 5) ⟨true, 2⟩) := by decide +kernel
/-- ACCLD a1 with one shape record of four words (R262, R267). -/
theorem test_decode_accld : (decode .main [0x319F040030000000, 0x80000000000000C0, 0x8000000000000004, 0x8000000000000000, 0x8000000000000003]).toOption = some (.accld ⟨false, 7⟩ (.file 1) 3 ⟨192, 4, 0, 3⟩) := by decide +kernel
/-- WPIN p3, s10 (R419). -/
theorem test_decode_wpin : (decode .main [0x331E0D2800000000]).toOption = some (.wpin ⟨false, 7⟩ (.pred 3) (.scal 10 false)) := by decide +kernel
/-- SRD v9, special register 1 (R387). -/
theorem test_decode_srd : (decode .main [0x381C240010000000]).toOption = some (.srd ⟨false, 7⟩ (.vec 9) 1) := by decide +kernel
/-- TRAP 0x123 (R389). -/
theorem test_decode_trap : (decode .main [0x389C001230000000]).toOption = some (.trap ⟨false, 7⟩ 0x123) := by decide +kernel
/-- MBWAIT.nb s32, mailbox 7, p4: `sa` bits 5:0 and 6, `sb` bits 2:0 (R392). -/
theorem test_decode_mbwait : (decode .twill [0x395D800470010000]).toOption = some (.mbwait ⟨false, 7⟩ (.scal 32) 7 true 4) := by decide +kernel
/-- QPUSH q3, v16, s1 with pd 5: bits 3:1 of `sc` (R393). -/
theorem test_decode_qpush : (decode .main [0x3A1F0C400410000A]).toOption = some (.qpush ⟨false, 7⟩ 3 (.vec 16 0 false) (.scal 1 false) false 5) := by decide +kernel
/-- TLBINV.ctx: both sources inline constant 0 (R398). -/
theorem test_decode_tlbinv : (decode .twill [0x3BDC020008000001]).toOption = some (.tlbinv ⟨false, 7⟩ (.const 0) (.const 0) true) := by decide +kernel

/-- R244, R269: reserved forms, an unassigned opcode, an opcode of the other pool and a lone extension word are refused. -/
theorem test_decode_refuses :
    decode .main [0xC000000000000000] = .error (.illinst 0) ∧ decode .main [0x1F00000000000000] = .error (.illinst 1) ∧
      decode .main [0x395C000000000000] = .error (.illinst 2) ∧ decode .main [0x8000000000000000] = .error (.illinst 4) := by
  decide +kernel

/-! ### Ill-formed terms, one for each check -/

/-- A register source. -/
def v0 : Src := .vec 0 0 false
def pT : Pred := ⟨false, 7⟩

theorem test_wf_accepts : WF (.iadd pT (.vec 2) v0 (.lit 0 0xDEADBEEF) ⟨false, true, true⟩) = true := by decide +kernel
/-- R277: IADD takes no q. -/
theorem test_wf_field : WF (.iadd pT (.vec 2) v0 v0 ⟨true, false, false⟩) = false := by decide +kernel
/-- R282: a frame size code above 16. -/
theorem test_wf_frame : WF (.call pT 17 0) = false := by decide +kernel
/-- R262: `sp` 3 in a shape record. -/
theorem test_wf_shape : WF (.accld pT (.file 1) 3 ⟨3 * 2 ^ 50, 0, 0, 0⟩) = false := by decide +kernel
/-- R253: literal index 1 without index 0. -/
theorem test_wf_literal_index : WF (.mov pT (.vec 2) (.lit 1 5) ⟨false, false, false⟩) = false := by decide +kernel
/-- R253: high bits of a literal that no 64-bit operand reads. -/
theorem test_wf_literal_high : WF (.mov pT (.vec 2) (.lit 0 0x100000000) ⟨false, false, false⟩) = false := by decide +kernel
/-- Two readers of one literal word hold one payload. -/
theorem test_wf_literal_same : WF (.iadd pT (.vec 2) (.lit 0 1) (.lit 0 2) ⟨false, false, false⟩) = false := by decide +kernel
/-- R254: permutation codes stop at 19. -/
theorem test_wf_permutation : WF (.mov pT (.vec 2) (.vec 0 20 false) ⟨false, false, false⟩) = false := by decide +kernel
/-- R258: a half with a literal source. -/
theorem test_wf_half_literal : WF (.pFormPair ⟨.mov, 7, false, 4, .lit 0 0⟩ ⟨.nop, 0, false, 0, v0⟩) = false := by decide +kernel
/-- R261: both halves write v4. -/
theorem test_wf_pairing : WF (.pFormPair ⟨.mov, 7, false, 4, v0⟩ ⟨.iadd, 7, false, 4, v0⟩) = false := by decide +kernel
/-- R252: an odd register as a 64-bit operand. -/
theorem test_wf_odd_pair : WF (.iadd64 pT (.vec 2) (.vec 3 0 false) v0 false) = false := by decide +kernel
/-- A step of another agent is no instruction of memory. -/
theorem test_wf_agent : WF (.pageWalkStep 1) = false := by decide +kernel

/-! ### A small machine -/

/-- Two LIVE fibres of one gang at 0x3000, on core 0, with registers v0 to v7 of each as listed. -/
def gang (vs : List Word) (ss : List Word := []) : Gang :=
  let file := fun (l : List Word) => (l.zipIdx.map (fun e => (e.2, ({ val := e.1 } : Reg))))
  { frags := [{ pc := 0x3000, mask := 3 }], sregs := file ss
    fibres := [(0, { live := true, regs := file vs }), (1, { live := true, pidx := 1, regs := file vs })] }
def team (g : Gang) (p : Place := .main 0) : Team :=
  { newTeam 0 0 wordRecord p with gangs := [(0, g)], weave := 2, started := true, tvec := 0x6000 }
def state (t : Team) : State :=
  { teams := [(1, t)], ctxs := [(0, {})], sched := { cur := ⟨1, 0, 0⟩, nextId := 3 }
    weaves := [(2, { ctx := 0, launch := 0, w := 1, h := 1, x0 := 0, y0 := 0, teams := [1] })] }
/-- Its fragment as it issues. -/
def iss (t : Team) : Iss := ⟨1, 0, t, (mapGet 0 t.gangs).getD {}, { pc := 0x3000, mask := 3 }⟩

/-- A register after one instruction. -/
def regAfter (i : Instr) (vs : List Word) (r : RegRef) : Option Word :=
  match exec i (state (team (gang vs))) with
  | .next t => (t.gang 1 0).map (fun g => (g.reg r).val)
  | _ => none
/-- The flags of `gstat` after one instruction. -/
def flagsAfter (i : Instr) (vs : List Word) : Option Word :=
  match exec i (state (team (gang vs))) with
  | .next t => (t.gang 1 0).map (·.gstat)
  | _ => none
def vr (n : BitVec 6) : Src := .vec n 0 false

/-! ### Results that the spec states in its examples -/

/-- R300. -/
theorem test_iadd_sat : regAfter (.iadd pT (.vec 2) (vr 0) (vr 1) ⟨false, true, false⟩) [0x7FFFFFF0, 0x20] (.v 1 2) = some 0x7FFFFFFF := by
  decide +kernel
theorem test_iadd_wraps : regAfter (.iadd pT (.vec 2) (vr 0) (vr 1) ⟨false, false, false⟩) [0x7FFFFFF0, 0x20] (.v 0 2) = some 0x80000010 := by
  decide +kernel
theorem test_iabs : regAfter (.iabs pT (.vec 2) (vr 0) ⟨false, false, false⟩) [0x80000000] (.v 0 2) = some 0x80000000 := by decide +kernel
theorem test_imulh : regAfter (.imulh pT (.vec 2) (vr 0) (vr 1) ⟨false, false, false⟩) [0xFFFFFFFF, 1] (.v 0 2) = some 0xFFFFFFFF := by
  decide +kernel
theorem test_imulh_unsigned : regAfter (.imulh pT (.vec 2) (vr 0) (vr 1) ⟨false, false, true⟩) [0xFFFFFFFF, 1] (.v 0 2) = some 0 := by
  decide +kernel
/-- R301: a rotation left, and a shift by the width. -/
theorem test_rot : regAfter (.rot pT (.vec 2) (vr 0) (vr 1) ⟨false, false, false⟩) [0x80000001, 33] (.v 0 2) = some 3 := by decide +kernel
theorem test_sar_width : regAfter (.sar pT (.vec 2) (vr 0) (vr 1) ⟨false, false, false⟩) [0x80000000, 40] (.v 0 2) = some 0xFFFFFFFF := by
  decide +kernel
theorem test_clz_zero : regAfter (.clz pT (.vec 2) (vr 0) ⟨false, false, false⟩) [0] (.v 0 2) = some 32 := by decide +kernel
/-- R305. -/
theorem test_iadd64_carry : regAfter (.iadd64 pT (.vec 4) (vr 0) (vr 2) false) [0xFFFFFFFC, 5, 4, 0] (.v 0 5) = some 6 := by decide +kernel
/-- R306. -/
theorem test_cvtw_sat : regAfter (.cvtw pT (.vec 2) (vr 0) ⟨true, true, false, false, 3⟩) [0xFFFFFFFB, 0xFFFFFFFF] (.v 0 2) = some 0 := by
  decide +kernel
theorem test_cvtw_flag : flagsAfter (.cvtw pT (.vec 2) (vr 0) ⟨true, true, false, false, 3⟩) [0xFFFFFFFB, 0xFFFFFFFF] = some 8 := by
  decide +kernel
/-- R320. -/
theorem test_hadd2 : regAfter (.hadd2 pT (.vec 2) (vr 0) (vr 1) ⟨false, .rne⟩) [0x7BFF3C00, 0x00103C00] (.v 0 2) = some 0x7BFF4000 := by
  decide +kernel
/-- R246: a predicate that fails in both fibres leaves the destination. -/
theorem test_inactive : regAfter (.iadd ⟨true, 7⟩ (.vec 2) (vr 0) (vr 1) ⟨false, false, false⟩) [1, 2, 9] (.v 0 2) = some 9 := by
  decide +kernel
/-- R190: NOP moves the pc on by one word. -/
theorem test_nop_pc : (match exec (.nop pT) (state (team (gang []))) with
    | .next t => (t.gang 1 0).map (fun g => g.frags.map (·.pc)) | _ => none) = some [0x3008] := by decide +kernel
/-- R389, R474: TRAP starts the handler at `tvec` and keeps the pc. -/
theorem test_trap : (match exec (.trap pT 0x123) (state (team (gang []))) with
    | .next t => (t.gang 1 0).map (fun g => (g.tpc, (g.frags.map (·.pc)), g.handler.isSome)) | _ => none) = some (0x3000, [0x6000], true) := by
  decide +kernel
/-- R391: TEAMKILL ends the team. -/
theorem test_teamkill : (match exec (.teamkill pT) (state (team (gang []))) with
    | .next t => some t.teams.length | _ => none) = some 0 := by decide +kernel

/-! ### Fetching, deciding and running -/

/-- A step runs the placed instruction: MOVI of a literal pair would need more words, so IADD of two inline constants (R250). -/
theorem test_step_runs : (match step (State.reset.withFetchWord 64 0x081C089001080000) with
    | .next t => (t.gang 1 0).map (fun g => g.frags.map (·.pc)) | _ => none) = some [0x3008] := by decide +kernel


/-! ### States and operands that meet the hypotheses of the statements -/

/-- A record of two gangs with 256 registers, 3 KiB of scratchpad, a stash entry, two tiles, an accumulator, and format slots 0
(f32 to f8e4), 1 (f32 to f16 with an e8m0 scale), 2 (f16 times f16), 3 (slot 0 with random bits), 4 (f64 to f32), 5 (f16 with an e8m0 scale to f32) and 6 (illegal). -/
def rec0 : BitVec 1536 := BitVec.ofNat 1536 (0x3000 + 0x30000 * 2 ^ 320 + 0x110000 * 2 ^ 352 + 0x1100 * 2 ^ 384 + 0x4030000 * 2 ^ 416 + 0x900 * 2 ^ 448 + 0x100100 * 2 ^ 480 + 0xF00 * 2 ^ 512
  + 2 ^ 620 + 12 * 2 ^ 624 + 63 * 2 ^ 636 + 2 ^ 642 + 2 ^ 650 + 2 ^ 656 + 2 ^ 662)
def tm (g : Gang) (f : Team → Team := id) : Team := f { team g with lrec := rec0 }
/-- The page 0x3000 of the context is mapped. -/
def st (g : Gang) (f : Team → Team := id) : State :=
  { state (tm g f) with
    cores := [(0, { tlb := [{ ctx := 0, lv := 1, pn := 1, leaf := .normal 12288 1 true true }] })] }
def fr0 : Frag := { pc := 0x3000, mask := 3 }
def is (g : Gang) (f : Team → Team := id) (fr : Frag := fr0) : Iss := ⟨1, 0, tm g f, g, fr⟩
/-- A gang whose only fragment is another one. -/
def withFrag (g : Gang) (fr : Frag) : Gang := { g with frags := [fr] }
def gz : Gang := gang [0, 0, 0, 0] [0, 0, 0, 0]
/-- v0:v1 names scratchpad byte 0, s0:s1 the page at 0x3000. -/
def gm : Gang := gang [0, 0x10000000, 7, 0] [0x3000, 0, 1, 0]
def pF : Pred := ⟨true, 7⟩
def im0 : IntMod := ⟨false, false, false⟩
def mo (n : BitVec 2) : MemMod := ⟨0, 0, 0, n, false, false⟩

def Res.fine {α : Type} (r : Res α) : Bool := match r with | .ok _ _ => true | _ => false
theorem fine_ok {α : Type} (r : Res α) (h : Res.fine r = true) : ∃ a s, r = .ok a s := by
  cases r with
  | ok a s => exact ⟨a, s, rfl⟩
  | wait s => exact absurd h (by simp [Res.fine])
  | trap t s => exact absurd h (by simp [Res.fine])
def readyAns (r : HomeAns) : Bool := match r with | .ready _ => true | _ => false
theorem ready_ans (r : HomeAns) (h : readyAns r = true) : ∃ s, r = .ready s := by
  cases r with
  | ready s => exact ⟨s, rfl⟩
  | wait s => exact absurd h (by simp [readyAns])
  | failed s => exact absurd h (by simp [readyAns])
def someOf {α : Type} (o : Option α) : Prop := ∃ a, o = some a
theorem some_of {α : Type} (o : Option α) (h : o.isSome = true) : someOf o := by
  cases o with
  | some a => exact ⟨a, rfl⟩
  | none => exact absurd h (by simp)

/-- A slice instruction whose fragment issues and whose registers are ready. -/
def goes (f : Instr → Option Slice) (i : Instr) : Prop := ∃ x, f i = some x ∧ Issues (st gm) (is gm) ∧ x.Go (is gm)
theorem goes_of (f : Instr → Option Slice) (i : Instr)
    (h : (match f i with | some x => decide (Issues (st gm) (is gm) ∧ x.Go (is gm)) | none => false) = true) : goes f i := by
  unfold goes
  cases hx : f i with
  | none => rw [hx] at h; exact absurd h (by simp)
  | some x => rw [hx] at h; exact ⟨x, rfl, of_decide_eq_true h⟩

theorem witness_ArithmeticGroupResultAndFrame : goes arithSlice (.iadd pT (.vec 2) (vr 0) (vr 1) im0) := goes_of _ _ (by decide +kernel)
theorem witness_BitwiseShiftCountResultAndFrame : goes bitsSlice (.shl pT (.vec 2) (vr 0) (vr 1) ⟨true, false, false⟩) :=
  goes_of _ _ (by decide +kernel)
theorem witness_ThreeSourceAndFieldResultAndFrame : goes wideSlice (.imadw pT (.vec 2) (vr 0) (vr 1) im0) := goes_of _ _ (by decide +kernel)
theorem witness_MoveAddressWidthResultAndFrame : goes moveSlice (.sel pT (.vec 2) (vr 0) (vr 1) ⟨false, 1⟩ false) :=
  goes_of _ _ (by decide +kernel)
theorem witness_PredicateInstructionsResultAndFrame : goes predSlice (.pset pT (.pred 2) (vr 0) (vr 1) .f32 .lt) ∧
    (Issues (st gm) (is gm) ∧ OpsReady (is gm) [opA (vr 0)] (active (is gm) pT) []) ∧
    CmpTy.isInt .i64 = true ∧ (active (is gm) pT).head? = some 0 ∧ (Fmt.f32.value 0x7FC00000).isNan = true ∧ (Fmt.f32.value 0x7F800001).isNan = true ∧
    OpsReady (is gm) [opA (vr 0) (CmpTy.wide .i64) (CmpTy.oty .i64), opB (vr 2) (CmpTy.wide .i64) (CmpTy.oty .i64)] (active (is gm) pT) [] :=
  ⟨goes_of _ _ (by decide +kernel), by decide +kernel⟩
theorem witness_CrossFibreResultAndFrame : goes crossSlice (.vote pT (.scal 4) (vr 0) .ballot) ∧
    (shflSlice pT (.vec 2) (.vec 0 0 false) (vr 1) true 3 .down).Go (is gm) ∧
    (active (is gm) pT).head? = some 0 ∧ Ready gm ((active (is gm) pT).flatMap ((shflSlice pT (.vec 2) (.vec 0 5 false) (vr 1) false 3 .idx).needs (is gm))) [] :=
  ⟨goes_of _ _ (by decide +kernel), by decide +kernel⟩
theorem witness_FloatInstructionsResultAndFrame : goes floatSlice (.ffma pT (.vec 2) (vr 0) (vr 1) (vr 3)) := goes_of _ _ (by decide +kernel)
theorem witness_NarrowInstructionsResultAndFrame : goes narrowSlice (.dp4i8 pT (.vec 2) (vr 0) (vr 1) false true) :=
  goes_of _ _ (by decide +kernel)

/-- An exact value, one beyond the largest, and one of which the neighbours straddle. -/
theorem witness_RoundingIsToNearestOrDirected : (0 : Rat) < 5 ∧ (5 : Rat) ≤ Fmt.maxFin .f4e2 ∧ 2 * Fmt.maxFin .f4e2 ≤ (12 : Rat) ∧
    (Fmt.round .f4e2 .rne false (.fin true 5)).flags &&& fOF = 0 ∧ (Fmt.round .f4e2 .rup false (.fin false 12)).flags &&& fOF = fOF := by
  and_intros <;> decide +kernel
/-- The last element index of a word, the first beyond it, and a slot that is no conversion. -/
theorem witness_ConvertThroughSlotResultAndTraps :
    Issues (st gm) (is gm) ∧ (active (is gm) pT).head? = some 0 ∧ cvtFmts ((tm gm).slot 0) = some (.f32, .f8e4) ∧
      (0 < perWord .f32 ∧ 3 < perWord .f8e4) ∧ perWord .f8e4 ≤ 4 ∧ cvtFmts ((tm gm).slot 6) = none ∧
      OpsReady (is gm) (cvtfOps ((tm gm).slot 0) .f32 (.vec 2) (vr 0) (vr 1)) (active (is gm) pT) [.v 0 2, .v 1 2] ∧
      OpsReady (is gm) [opA (vr 0), opD (.vec 2)] (active (is gm) pT) [] ∧
      slotRnd ((tm gm).slot 0) ≠ 4 ∧ (slotRnd ((tm gm).slot 3) = 4 ∧ (Dst.scal 4).isScalar = true ∧ (vr 1).isVec = true) ∧
      (cvtFmts ((tm gm).slot 4)).isSome = true ∧ (slotA ((tm gm).slot 4) == 9 && oddReg (vr 1).regNo) = true ∧
      OpsReady (is gm) [opA (vr 1), opD (.vec 2)] (active (is gm) pT) [] := by decide +kernel
/-- Runs that end at v63, runs that pass it, and a slot outside R325. -/
theorem witness_PackUnpackRuns :
    Issues (st gm) (is gm) ∧ (active (is gm) pT).head? = some 0 ∧ packElem ((tm gm).slot 1) false = some (.flt .f16) ∧
      48 + (packRuns ((tm gm).slot 1) (.flt .f16) false).1 = 64 ∧ 55 + (packRuns ((tm gm).slot 1) (.flt .f16) false).2 = 64 ∧
      64 < 49 + (packRuns ((tm gm).slot 1) (.flt .f16) false).1 ∧ packElem ((tm gm).slot 5) true = some (.flt .f16) ∧
      55 + (packRuns ((tm gm).slot 5) (.flt .f16) true).1 = 64 ∧ 48 + (packRuns ((tm gm).slot 5) (.flt .f16) true).2 = 64 ∧
      64 < 49 + (packRuns ((tm gm).slot 5) (.flt .f16) true).2 ∧ packElem ((tm gm).slot 6) true = none ∧
      (∀ n ∈ [9, 15, 16], ∀ m ∈ [9, 15, 16], Ready gm ((active (is gm) pT).flatMap (fun f =>
        (runOf 256 gm (.vec 48 0 false) n f).map (fun x => ⟨f, 0, false, x⟩))) ((active (is gm) pT).flatMap (dstRegs 256 gm (.vec 48) m))) ∧ packElem ((tm gm).slot 6) false = none ∧
      Ready gm ((active (is gm) pT).flatMap (fun f => (runOf 256 gm (.vec 48 0 false) 16 f).map (fun x => ⟨f, 0, false, x⟩)))
        ((active (is gm) pT).flatMap (dstRegs 256 gm (.vec 55) 9)) := by decide +kernel
def h0 : PHalf := ⟨.mov, 7, false, 4, .vec 1 0 false⟩
def h1 : PHalf := ⟨.iadd, 7, true, 3, .scal 2 false⟩
theorem witness_PairOfHalvesRunsBoth : Issues (st gm) (is gm) ∧ WF (.pFormPair h0 h1) = true ∧
    Ready gm ([h0, h1].flatMap (fun h => (halfFibs (is gm) h).flatMap (needsOf 256 gm (halfOps h))))
      ([h0, h1].flatMap (fun h => (halfFibs (is gm) h).flatMap (dstRegs 256 gm h.dst 1))) := by decide +kernel
/-- v0 of fibre 1 is EMPTY; or FAILED. -/
def gFe (e : Fe) : Gang := { gz with fibres := [(0, { live := true }), (1, { live := true, regs := [(0, { fe := e })] })] }
theorem witness_RegisterStatesGateIssue :
    (∃ x, sliceForm (.imul pT (.vec 2) (vr 0) (vr 1)) = some x ∧ Issues (st (gFe .empty)) (is (gFe .empty)) ∧
      (∃ n ∈ (x.lanes (is (gFe .empty))).flatMap (x.needs (is (gFe .empty))), ((gFe .empty).reg n.ref).fe = .empty) ∧
      ∀ n ∈ (x.lanes (is (gFe .empty))).flatMap (x.needs (is (gFe .empty))),
        ((gFe .empty).reg n.ref).fe = .full ∨ (((gFe .empty).reg n.ref).fe = .empty ∧ n.ea = false)) ∧
    (∃ x, sliceForm (.imul pT (.vec 2) (vr 0) (vr 1)) = some x ∧ Issues (st (gFe (.failed 3 9))) (is (gFe (.failed 3 9))) ∧
      ((x.lanes (is (gFe (.failed 3 9)))).flatMap (x.needs (is (gFe (.failed 3 9))))).find?
        (fun n => Fe.isFailed ((gFe (.failed 3 9)).reg n.ref).fe) = some ⟨1, 0, false, .v 1 0⟩ ∧
      ((gFe (.failed 3 9)).reg (.v 1 0)).fe = .failed 3 9) :=
  ⟨⟨_, rfl, by decide +kernel⟩, ⟨_, rfl, by decide +kernel⟩⟩
/-- A source with the trap action, and instructions that are no slices. -/
theorem witness_RegisterStatesGateIssue_more : Issues (st (gFe .empty)) (is (gFe .empty)) ∧
    (gateOf (is (gFe .empty)) (.semwait pT (.vec 0 0 true) (vr 2) 0)).isSome ∧
    (∃ n ∈ needsOf 256 (gFe .empty) [opA (.vec 0 0 true)] 1, n.ea = true ∧ ((gFe .empty).reg n.ref).fe = .empty) ∧
    (crossSlice (.vote pT (.scal 4) (vr 0) .any)).isSome ∧
    (let x := shflSlice pT (.vec 2) (.vec 1 0 false) (.const 1) 0 0 .idx
     (∀ f ∈ x.lanes (is gm), ∀ n ∈ needsOf (tm gm).S gm [opB (.const 1)] f, (gm.reg n.ref).fe = .full) ∧ x.lanes (is gm) ≠ []) ∧
    (gateOf (is gm) (.ld pT (.vec 2) (vr 0) (.const 0) (mo 2))).isSome ∧ (gateOf (is gm) (.red pT (vr 0) (vr 2) ⟨0, 0, .add, .n32⟩)).isSome := by and_intros <;> decide +kernel
/-- An aligned and a misaligned target. -/
theorem witness_BranchSendsActiveFibres : Issues (st gm) (is gm) ∧ active (is gm) pT ≠ [] ∧ active (is gm) pF = [] ∧
    (active (is gm) pT).head? = some 0 ∧ OpsReady (is gm) [opA (.scal 0 false) true] [0] [] ∧
    (valueOf (is gm) (opA (.scal 0 false) true) 0).toNat % 8 = 0 ∧ (valueOf (is gm) (opA (.const 3) true) 0).toNat % 8 ≠ 0 := by decide +kernel
/-- Frame code 0 with 64 registers of the window, and the greatest frame that needs no spill; a return without a frame, and one that
cannot retreat. -/
theorem witness_CallAndReturnMoveTheWindow : (Issues (st gm) (is gm) ∧ active (is gm) pT ≠ [] ∧
    Ready gm [] ((active (is gm) pT).flatMap (linkRegs (is gm) (4 * 16))) ∧ OpsReady (is gm) [opA (.scal 0 false) true] [0] [] ∧
    (∀ f ∈ active (is gm) pT, (gm.fib f).wb + 4 * 16 + 64 ≤ (gm.fib f).lo + (tm gm).S) ∧
    OpsReady (is gm) [opA (.scal 0 false) true] (active (is gm) pT) [] ∧
    (∀ f ∈ active (is gm) pT, ¬ ((valueOf (is gm) (opA (.scal 0 false) true) f).toNat % 8 ≠ 0 ∨ (gm.fib f).wb < 4 * 0)) ∧
    (∀ f ∈ active (is gm) pT, (gm.fib f).lo ≤ (gm.fib f).wb - 4 * 0) ∧ (gm.fib 0).wb < 4 * 1) ∧
    ∃ u s, moveWindow (st gm) 1 0 (active (is gm) pT) true 64 false = .ok u s :=
  ⟨by decide +kernel, fine_ok _ (by decide +kernel)⟩
/-- A team of 64 registers and private words at 0x3000: a move of its window spills, and one back fills. -/
def t64 (t : Team) : Team := { t with lrec := BitVec.ofNat 1536 (0x3000 * 2 ^ 128 + 192 * 2 ^ 256 + 63 * 2 ^ 636) }
def wordAt (s : State) (up : Bool) : Option (LineKey × Nat) :=
  match (windowWord s 1 (tm gm t64) 0 0 up).1 with | .ok x => some x | .error _ => none
theorem witness_CallAndReturnMoveTheWindow_spill : (tm gm t64).S = 64 ∧ (st gm t64).eccSound ∧ wordAt (st gm t64) true = some (.dev 64, 0) ∧
    wordAt (st gm t64) false = some (.dev 64, 0) ∧ WayFree (st gm t64) (.dev 64) ∧ Definite (st gm t64) (.dev 64) 0 4 ∧
    (windowWord { st gm t64 with cores := [(0, { tlb := [{ ctx := 0, lv := 1, pn := 1, leaf := .normal 12288 1 false true }] })] } 1 (tm gm t64) 0 0 true).1 =
      .error true ∧
    ((windowRegs (gFe (.failed 3 9)) 64 [1] true 4).find? (fun e => (((gFe (.failed 3 9)).reg (.v e.1 (e.2 % 64))).fe).isFailed) = some (1, 0)) ∧
    ((gFe .empty).reg (.v 1 0)).fe = .empty ∧ (windowRegs (gFe .empty) 64 [1] true 4).contains (1, 0) = true := by and_intros <;> decide +kernel
/-- Fibre 0 alone has p1. -/
def gp : Gang := { gz with fibres := [(0, { live := true, preds := 2 }), (1, { live := true })] }
def gh : Gang := { gz with handler := some ⟨fr0, [], [], 3⟩ }
theorem witness_ExitForkFend : Issues (st gz) (is gz) ∧ (active (is gz) pT).head? = some 0 ∧ (∀ g ∈ gz.liveFibres, g ∈ active (is gz) pT) ∧
    Issues (st gp) (is gp) ∧ (active (is gp) ⟨false, 1⟩).head? = some 0 ∧ (∃ g ∈ gp.liveFibres, g ∉ active (is gp) ⟨false, 1⟩) ∧
    OpsReady (is gz) [opA (.scal 0 false) true] [0] [.s 4, .s 5] ∧ Issues (st gh) (is gh) ∧ gh.handler.isSome := by decide +kernel
theorem witness_InstructionsThatOnlyAdvance : Issues (st gz) (is gz) ∧ active (is gz) pF = [] := by decide +kernel
theorem witness_TrapsAreTakenWithTheirRegisters : Issues (st gz) (is gz) ∧ (active (is gz) pT).head? = some 0 ∧
    (st gz).team 1 = some (tm gz) ∧ (st gz).gang 1 0 = some gz ∧ (tm gz).tvec ≠ 0 ∧
    gz.handler = none ∧ gz.ra = none ∧ ({ cause := 0x14 } : TrapInfo).fails = false ∧
    (∀ n ∈ Frag.fibres fr0, (gz.fib n).wb + 128 ≤ (gz.fib n).lo + (tm gz).S) := by decide +kernel
/-- In a handler: alone, and beside another fragment of it; window positions at their least. -/
def gt1 : Gang := { gh with fibres := [(0, { live := true, wb := 64 }), (1, { live := true, wb := 64 })] }
/-- It resumes at the mapped page, where a `.skip` reads the instruction's words. -/
def gt3 : Gang := { gt1 with tres := 0x3000 }
def skipAns : Option Nat :=
  let s0 := (st gt3).modFrag (fun f => { f with atTret := true, tretSkip := true })
  match fetchInstr s0 0 0 false 0x3000 with
  | (.words ws, s1) => if s1.team 1 = s0.team 1 then some ws.length else none
  | _ => none
def gt2 : Gang := { gh with frags := [{ pc := 0x3000, mask := 1 }, { pc := 0x3010, mask := 2 }] }
theorem witness_TrapReturnResumes : (Issues (st gz) (is gz) ∧ gz.handler = none) ∧
    (Issues (st gt2) (is gt2 id { pc := 0x3000, mask := 1 }) ∧
      ∃ x ∈ gt2.frags, x.held = false ∧ x.mask.getLsbD (st gt2).sched.cur.lead = false ∧ x.atTret = false) ∧
    (Issues (st gt1) (is gt1) ∧ gt1.handler = some ⟨fr0, [], [], 3⟩ ∧
      (∀ x ∈ gt1.frags, x.held = false ↔ x.mask.getLsbD (st gt1).sched.cur.lead = true) ∧
      ∀ n ∈ fr0.fibres, (gt1.fib n).lo ≤ (gt1.fib n).wb - 64 ∧ 64 ≤ (gt1.fib n).wb) ∧
    (Issues (st gt3) (is gt3) ∧ gt3.handler = some ⟨fr0, [], [], 3⟩ ∧ skipAns = some 1) := by decide +kernel
theorem witness_TeamsEndByTrapOrKill : (st gh).team 1 = some (tm gh) ∧ (st gh).gang 1 0 = some gh ∧ gh.handler = some ⟨fr0, [], [], 3⟩ ∧
    (tm gz (fun t => { t with tvec := 0 })).tvec = 0 ∧ ({ cause := 0x15, fails := true } : TrapInfo).fails = true ∧ gz.handler = none ∧ Issues (st gz) (is gz) ∧ (active (is gz) pT).head? = some 0 := by
  decide +kernel
/-- A trap that waits for its spill, and an ended team that holds a stash line. -/
theorem witness_TrapsAndTeamEnds_more : ({ gz with entry := some (3, { cause := 0x14 }) } : Gang).entry = some (fr0.mask, { cause := 0x14 }) ∧
    (∃ t, State.team { st gz (fun t => { t with ended := true, gangs := [], stash := [(0, ⟨0x3000, 0, 0, []⟩)] }) with sched := {} } 1 = some t ∧
      t.ended = true ∧ t.stash ≠ []) ∧
    teamIdle { st gz (fun t => { t with ended := true, gangs := [], stash := [(0, ⟨0x3000, 0, 0, []⟩)] }) with sched := {} } 1 = true :=
  ⟨by decide +kernel, ⟨_, rfl, by decide +kernel, by decide +kernel⟩, by decide +kernel⟩
theorem witness_SpecialRegisterReadAndWrite : Issues (st gm) (is gm) ∧ active (is gm) pT ≠ [] ∧
    Ready gm [] ((active (is gm) pT).flatMap (dstRegs 256 gm (.vec 2) 2)) ∧ Ready gm [] ((active (is gm) pT).flatMap (dstRegs 256 gm (.vec 3) 1)) ∧
    OpsReady (is gm) [opA (.scal 0 false) true] [0] [] ∧ (valueOf (is gm) (opA (.scal 0 false) true) 0).toNat = 0x3000 ∧
    OpsReady (is gm) [opA (.scal 0 false)] [0] [] := by decide +kernel

/-! ### Memory instructions and the steps that complete them -/

def ls {α : Type} (r : Res (List α)) : List α := match r with | .ok a _ => a | _ => []
/-- The accesses of the active fibres at the address in v0 and v1. -/
def accs0 (i : Iss) (f : Form) (a b : Src) : List Acc := (active i pT).map (accessOf i f a b)
/-- What resolving gives. -/
def res0 (k : AK) (n : Nat) (f : Form) (a b : Src) : Res (List (Acc × Target)) := resolveAll (st gm) (is gm) k n n (accs0 (is gm) f a b)

theorem witness_LoadIssuesAndEmptiesDestinations :
    Issues (st gm) (is gm) ∧ active (is gm) pT ≠ [] ∧ orderOk [1] (mo 2).ord (mo 2).sco = true ∧ accFibs (active (is gm) pT) (.vec 2) = active (is gm) pT ∧
    OpsReady (is gm) (addrOps .pair (vr 0) (.const 0)) (active (is gm) pT) ((active (is gm) pT).flatMap (dstRegs 256 gm (.vec 2) 1)) ∧
    OpsReady (is gm) (addrOps .spad (vr 0) (.const 0)) (active (is gm) pT) ((active (is gm) pT).flatMap (dstRegs 256 gm (.vec 2) 1)) ∧
    (res0 .load 4 .pair (vr 0) (.const 0) = .ok (ls (res0 .load 4 .pair (vr 0) (.const 0))) (st gm) ∧
      spadsReady (st gm) (is gm) 4 0 true (ls (res0 .load 4 .pair (vr 0) (.const 0))) = .ok () (st gm)) ∧
    (res0 .load 4 .pair (.scal 0 false) (.const 0) = .ok (ls (res0 .load 4 .pair (.scal 0 false) (.const 0))) (st gm)) ∧
    (res0 .load 4 .spad (vr 0) (.const 0) = .ok (ls (res0 .load 4 .spad (vr 0) (.const 0))) (st gm)) ∧
    genTouchGate (st gm) (is gm) ((ls (res0 .load 4 .pair (vr 0) (.const 0))).map (fun e => (e.1.fib, e.2))) 4 0 = .ok () (st gm) ∧
    memOpen (st gm) 1 0 = true ∧ storeOverlap (st gm) (is gm) ((ls (res0 .load 4 .pair (vr 0) (.const 0))).map (·.2)) = false := by and_intros <;> decide +kernel

/-- A load of fibre 0 into v2: its part has a value, failed, or waits for the line of device address 0x3000. -/
def ld0 (p : LoadPart) : PendLoad := ⟨9, 0, 0, 1, 0, 0x3000, .vec 2, false, 4, false, 0, none, false, false, false, [p], {}⟩
def lp0 : LoadPart := { fib := 0, pos := 2, ga := 0x3000, tgt := .dev 0x3000 }
def lp1 : LoadPart := { lp0 with sent := some 4 }
def stL (p : LoadPart) : State := (st gm).modPend (fun x => { x with loads := [ld0 p] })
theorem witness_LoadReplyWritesDestinations :
    (∀ p ∈ [lp0, { lp0 with val := some 5 }, { lp0 with val := some 0, st := .failed 1 18 7 }],
      (stL p).pend.loads.find? (fun x => x.id == 9) = some (ld0 p) ∧ (stL p).gang 1 0 = some gm ∧ gm.ra = none ∧
      ([p].map (·.fib)).Nodup ∧ (mapGet p.fib gm.fibres).isSome) ∧
    (unsentAtom (stL lp0) 1 0 9 (.dev 64) = false ∧ unsentLoad (stL lp0) 1 0 9 (.dev 64) = false ∧
      coreEarlier (stL lp0).fresh.2 0 (stL lp0).fresh.1 (.dev 64) = false) ∧
    (coreEarlier (stL lp1) 0 4 (.dev 64) = false ∧ l1Bytes (stL lp1) 0 (.dev 64) 0 4 = none ∧ (stL lp1).eccSound ∧ WayFree (stL lp1) (.dev 64)) ∧
    ∃ s, homeReady (stL lp1) (.dev 64) 0 4 false true false 9 = .ready s := by
  refine ⟨by decide +kernel, by decide +kernel, by decide +kernel, ready_ans _ (by decide +kernel)⟩

def sc0 (f : Form) (a b : Src) : Res (List (Acc × Where)) := storeChecks (st gm) (is gm) 4 (accs0 (is gm) f a b)
theorem witness_StoreIssuesAndWritesScratchpad :
    orderOk [2] (mo 2).ord (mo 2).sco = true ∧ Issues (st gm) (is gm) ∧ active (is gm) pT ≠ [] ∧
    OpsReady (is gm) (addrOps .pair (vr 0) (.const 0) ++ [opD (.vec 2) false]) (active (is gm) pT) [] ∧
    OpsReady (is gm) (addrOps .spad (vr 0) (.const 0) ++ [opD (.vec 2) false]) (active (is gm) pT) [] ∧
    sc0 .pair (vr 0) (.const 0) = .ok (ls (sc0 .pair (vr 0) (.const 0))) (st gm) ∧
    sc0 .pair (.scal 0 false) (.const 0) = .ok (ls (sc0 .pair (.scal 0 false) (.const 0))) (st gm) ∧
    sc0 .spad (vr 0) (.const 0) = .ok (ls (sc0 .spad (vr 0) (.const 0))) (st gm) ∧ (ls (sc0 .pair (.scal 0 false) (.const 0))).length = 2 ∧
    memOpen (st gm) 1 0 = true ∧ sbufRoom ((st gm).core 0) 1 = true ∧ releaseReady (st gm) 0 1 0 1 3 = true ∧
    spadsReady (st gm) (is gm) 4 1 true [(⟨0, 0, 0⟩, .spad 1 0), (⟨1, 0, 0⟩, .spad 1 3068)] = .ok () (st gm) := by and_intros <;> decide +kernel

/-- A store of fibre 0 to 0x3000, in core 0's buffer; or faulted; or in the store-fault queue. -/
def sb0 (c : Option Nat) : StoreEnt :=
  { id := 9, ctx := 0, team := 1, gang := 0, ipc := 0x3000, n := 4, rel := none, hint := 0, fibs := [⟨0, 0x3000, 0x3000, 7⟩], cause := c }
def stS (c : Option Nat) : State := (st gm).modCore 0 (fun x => { x with sbuf := [sb0 c] })
/-- It has left for its home. -/
def sb1 : StoreEnt := { sb0 none with sent := some 10, tgts := [(⟨0, 0x3000, 0x3000, 7⟩, .dev 0x3000)] }
def stS1 : State := (st gm).modCore 0 (fun x => { x with sbuf := [sb1] })
def stQ : State := { st { gm with stPending := true } with cores := [(0, { sfq := [⟨1, 0, 2 ^ 128⟩] })] }
def landOf (s : State) (va : Nat) (k : AK) : Except Nat Target := landing s 0 va k (rightOf s 1 0 9) (.normal 12288 1 true true)
theorem witness_BufferedStoresPerformOrFault :
    (State.core (stS none) 0).sbuf.find? (fun e => e.id == 9 && e.cause.isNone) = some (sb0 none) ∧
    translate (stS none) 0 0 1 = .hit (.normal 12288 1 true true) 1 ∧ landOf (stS none) 0x3000 .store = .ok (.dev 0x3000) ∧
    storeHeld (stS none) 0 (sb0 none) [.dev 64] false = false ∧
    ((State.core stS1 0).sbuf.find? (fun e => e.id == 9 && e.cause.isNone) = some sb1 ∧ coreEarlier stS1 0 10 (.dev 64) = false ∧
      WayFree stS1 (.dev 64) ∧ Definite stS1 (.dev 64) 0 4 ∧ stS1.eccSound) ∧
    (State.core (stS (some 4)) 0).sbuf.find? (fun e => e.id == 9 && e.cause.isSome) = some (sb0 (some 4)) ∧
    (stQ.gang 1 0 = some { gm with stPending := true } ∧ gm.frags.find? (fun f => !f.held) = some fr0 ∧
      fr0.atBoundary stQ = true ∧ gangRecs stQ 1 0 = [⟨1, 0, 2 ^ 128⟩]) ∧
    ∃ s, homeReady stS1 (.dev 64) 0 4 true (takesWay stS1 (.dev 64) 0) false 9 = .ready s := by
  refine ⟨by decide +kernel, by decide +kernel, by decide +kernel, by decide +kernel, by decide +kernel, by decide +kernel, by decide +kernel,
    ready_ans _ (by decide +kernel)⟩
def pf0 : PendPref := { id := 9, core := 0, ctx := 0, key := .dev 64, l2 := true }
def stPf : State := (st gm).modPend (fun x => { x with prefs := [pf0] })
theorem witness_PrefetchOnlyFillsCaches : (stPf.pend.prefs.find? (fun y => y.id == 9) = some pf0 ∧ coreEarlier stPf 0 9 (.dev 64) = false ∧
    WayFree stPf (.dev 64) ∧ readyAns (homeReady stPf (.dev 64) 0 192 false true true 9) = true) ∧ Issues (st gm) (is gm) ∧
    OpsReady (is gm) (addrOps .pair (.scal 0 false) (.const 0)) (active (is gm) pT) [] ∧ memOpen (st gm) 1 0 = true ∧
    missing ((active (is gm) pT).map (fun f => (accessOf (is gm) .pair (.scal 0 false) (.const 0) f,
      resolve (st gm) (is gm) .pref 1 1 (accessOf (is gm) .pair (.scal 0 false) (.const 0) f)))) = [] := by and_intros <;> decide +kernel

def aR : Instr := .red pT (vr 0) (vr 2) ⟨0, 0, .add, .n32⟩
def aB : Instr := .boinit pT (vr 0) (vr 2) 0 0
/-- The form's access, by the state of `gm`. -/
def atomGo (x : AtomForm) : Bool :=
  let i := is gm
  let r := resolveAll (st gm) i x.kind x.act.bytes x.al (x.accs i)
  let ts := (ls r)
  x.legal && decide (OpsReady i x.ops (x.fibres i) (x.dsts i)) && decide (r = .ok ts (st gm)) && !ts.isEmpty &&
    memOpen (st gm) 1 0 && !storeOverlap (st gm) i (ts.map (·.2)) && decide (spadsReady (st gm) i x.act.bytes 2 true ts = .ok () (st gm))
theorem witness_AtomicsIssueOneRequestPerWord : ((atomForm aR).any atomGo = true ∧ (atomForm aB).any atomGo = true) ∧ Issues (st gm) (is gm) ∧
    active (is gm) pT ≠ [] ∧ releaseReady (st gm) 0 1 0 3 3 = true := by and_intros <;> decide +kernel
/-- An atomic addition of fibre 0 to the last word of a line, on its way. -/
def at0 : PendAtom := { id := 9, core := 0, ctx := 0, team := 1, gang := 0, ipc := 0x3000, dst := some (.vec 2), act := .op .add .n32
                        tgt := .dev 12476, fibs := [⟨0, 2, 12476, 5, 0, none⟩], rel := none, acq := none, sc := 0 }
def at1 : PendAtom := { at0 with sent := some 10 }
def stA1 : State := (st gm).modPend (fun x => { x with atoms := [at1] })
def stA : State := (st gm).modPend (fun x => { x with atoms := [at0] })
theorem witness_AtomicReplyPerformsAndReturns : (stA.pend.atoms.find? (fun x => x.id == 9) = some at0 ∧ stA.gang 1 0 = some gm ∧
    (∀ x ∈ at0.fibs, (mapGet x.fib gm.fibres).isSome) ∧ unsentAtom stA 1 0 9 (.dev 64) = false) ∧
    (stA1.pend.atoms.find? (fun x => x.id == 9) = some at1 ∧ stA1.eccSound ∧ 188 + at0.act.bytes = 192 ∧
      coreEarlier stA1 0 10 (.dev 64) = false ∧ WayFree stA1 (.dev 64) ∧ Definite stA1 (.dev 64) 188 4) ∧
    ∃ s, homeReady stA1 (.dev 64) 188 4 true true false 9 = .ready s := ⟨by decide +kernel, by decide +kernel, ready_ans _ (by decide +kernel)⟩

def stO : State := { st gm with seq := { queue := [.atom 9, .fence 1 0 0] } }
def stB : State := { stA with seq := { queue := [.atom 9, .fence 1 0 0] } }
def frS (n : Nat) : Frag := { fr0 with sc := n }
theorem witness_FencesDrainsAndCounters : Issues (st gm) (is gm) ∧ (active (is gm) pT).head? = some 0 ∧
    releaseReady (st gm) 0 1 0 4 3 = true ∧ readsDone (st gm) 1 0 = true ∧ gangOpen (st gm) 1 0 = true ∧
    Issues (st (withFrag gm (frS 2))) (is (withFrag gm (frS 2)) id (frS 2)) ∧
    stB.seq.holder = none ∧ (∃ a ∈ stB.pend.atoms, a.id = 9) ∧ (∃ e ∈ ((stS none).core 0).sbuf, e.team = 1 ∧ e.gang = 0) ∧
    (∀ e ∈ (stS1.core 0).sbuf, ¬ (e.team = 1 ∧ e.gang = 0 ∧ e.sent = none)) ∧ ({ fr0 with inval := true } : Frag).inval = true ∧
    Issues (stS none) (is gm) ∧ gm.cnt .copy ≤ 0 ∧ 0 < ({ gm with ops := [(.copy, [(4, false, 1)])] } : Gang).cnt .copy := by and_intros <;> decide +kernel

def atBar (g : Gang) : Gang := { g with frags := [{ fr0 with st := .parked, wait := .bar 3 }] }
def gb (n : Nat) (m : BitVec 64) : Frag := { pc := BitVec.ofNat 64 n, mask := m, st := .waitgang, wait := .gbar }
theorem witness_BarriersWaitForAll : Issues (st gm) (is gm) ∧ gm.handler = none ∧ (tm gm).place.isTwill = false ∧
    (Issues (st gm (fun t => { t with place := .twill 5 })) (is gm (fun t => { t with place := .twill 5 })) ∧ (Place.twill 5).isTwill = true) ∧
    [gb 64 1, gb 64 2].all (fun (x : Frag) => x.st == .waitgang && x.wait == .gbar && x.pc == (gb 64 1).pc) = true ∧
    (releaseReady (st gm) 0 1 0 1 3 = true ∧ releaseReady (st gm) 0 1 0 2 3 = true) ∧
    (State.team (st (atBar gm)) 1 = some (tm (atBar gm)) ∧ fragsOf (st (atBar gm)) [1] ≠ [] ∧ (∀ f ∈ fragsOf (st (atBar gm)) [1], f.wait = .bar 3)) ∧
    (∃ f ∈ fragsOf (st gm) [1], f.wait ≠ .bar 3) ∧ (st gm).gang 1 0 = some gm ∧ gm.ra = none := by and_intros <;> decide +kernel

def bw : Res (List (Acc × Target)) := resolveAll (st gm) (is gm) .atom 16 16 ((active (is gm) pT).map (fun f => { fib := f, ga := valueOf (is gm) (opA (vr 0) true) f }))
def sw : Res (List (Acc × Target)) := resolveAll (st gm) (is gm) .atom 8 8 [{ fib := 0, ga := valueOf (is gm) (opA (vr 0) true) 0 }]
theorem witness_ObjectWaitsGoOnWhenReached : Issues (st gm) (is gm) ∧ (active (is gm) pT).head? = some 0 ∧
    OpsReady (is gm) [opA (vr 0) true] (active (is gm) pT) [] ∧ OpsReady (is gm) [opA (vr 0) true, opB (vr 2) true] [0] [] ∧
    bw = .ok (ls bw) (st gm) ∧ storeOverlap (st gm) (is gm) ((ls bw).map (·.2)) = false ∧
    spadsReady (st gm) (is gm) 16 2 false (ls bw) = .ok () (st gm) ∧ (peekAll (st gm) (is gm) 16 (ls bw)).1 = some [(0, 0), (1, 0)] ∧
    sw = .ok (ls sw) (st gm) ∧ (peekAll (st gm) (is gm) 8 (ls sw)).1 = some [(0, 0)] := by and_intros <;> decide +kernel

/-! ### Stash entries, tiles and generators -/

/-- s0:s1 names 0x3000, s2:s3 the whole description of a stash entry of one line at scratchpad offset 0. -/
def gs : Gang := gang [0, 0x10000000, 7, 0] [0x3000, 0, 1, 0]
def e0 (l : List (Nat × StashLine)) : Stash := ⟨0x3000, 0, 0, l⟩
def tS (l : List (Nat × StashLine)) (t : Team) : Team := { t with stash := [(0, e0 l)] }
def fl0 : StashLine := { st := .filling, team := 1 }
/-- The line is owned at its home. -/
def fl1 : StashLine := { fl0 with owned := true, key := .dev 64, pa := 0x3000 }
def cl0 : StashLine := { st := .modified, key := .dev 64, pa := 0x3000 }
def stFill : State := st gs (tS [(0, fl0)])
def stRec : State := { st gs (tS [(0, cl0)]) with mem := { l2 := [(.dev 64, { valid := 15, owner := some (0, 1), recalled := true })] } }
theorem witness_StashEntriesAndLines :
    (Issues (st gs) (is gs) ∧ (active (is gs) pT).head? = some 0 ∧ OpsReady (is gs) [opA (.scal 0 false) true, opB (.scal 2 false) true] [0] [] ∧
      (valueOf (is gs) (opB (.scal 2 false) true) 0).getLsbD 0 = true ∧ 0 < (tm gs).stashes ∧ stashUnmap (st gs) 1 0 = st gs ∧
      stashLegal (st gs) (tm gs) 0 0x3000 0 0 = true) ∧
    (Issues (st gs (tS [(0, cl0)])) (is gs (tS [(0, cl0)])) ∧ mapGet 0 (tm gs (tS [(0, cl0)])).stash = some (e0 [(0, cl0)]) ∧
      OpsReady (is gs) [opB (.const 0), opC (.const 1)] [0] []) ∧
    (stFill.team 1 = some (tm gs (tS [(0, fl0)])) ∧ stashLine (e0 [(0, fl0)]) 0 = some fl0 ∧ stFill.xl.recs = [] ∧
      stFill.gang 1 0 = some gs ∧ (st gs (tS [(0, fl1)])).team 1 = some (tm gs (tS [(0, fl1)])) ∧ stashLine (e0 [(0, fl1)]) 0 = some fl1 ∧
      (st gs (tS [(0, fl1)])).eccSound ∧ translate stFill 0 0 1 = .hit (.normal 12288 1 true true) 1 ∧
      landing stFill 0 0x3000 .stash (fun _ _ => false) (.normal 12288 1 true true) = .ok (.dev 0x3000)) ∧
    (∃ s, homeReady stFill (.dev 64) 0 192 true = .ready s) ∧
    (stRec.team 1 = some (tm gs (tS [(0, cl0)])) ∧ stashLine (e0 [(0, cl0)]) 0 = some cl0 ∧ stRec.eccSound ∧ (stRec.line (.dev 64)).any (·.recalled) = true ∧
      Definite stRec (.dev 64) 0 192 ∧ stashWaits stRec 1 0 (· == 0) = false) := by
  refine ⟨by decide +kernel, by decide +kernel, by decide +kernel, ready_ans _ (by decide +kernel), by decide +kernel⟩

def tT (x : TileSt) (t : Team) : Team := { t with tiles := [(1, { st := x, nl := 1 })] }
theorem witness_TileTable : (Issues (st gs) (is gs) ∧ (active (is gs) pT).head? = some 0 ∧ OpsReady (is gs) [opA (.scal 3 false), opB (.const 0)] [0] [] ∧
      0 < (tm gs).tileCount ∧ tileLegal (tm gs) 0 0 0 = true) ∧
    (∀ x ∈ [TileSt.empty, .filling, .ready, .draining], Issues (st gs (tT x)) (is gs (tT x)) ∧ OpsReady (is gs) [opA (.scal 2 false)] [0] [] ∧
      (loWord (valueOf (is gs) (opA (.scal 2 false)) 0)).toNat = 1 ∧ 1 < (tm gs).tileCount ∧ ((tm gs (tT x)).tile 1).st = x ∧
      tileInUse (st gs (tT x)) 1 1 = false) ∧
    Ready gs [] ((accFibs (active (is gs) pT) (.vec 2)).flatMap (dstRegs 256 gs (.vec 2) 1)) := by and_intros <;> decide +kernel

/-- A page range of context 0 with one page, served by stage 0 of pipeline 0, and its block 0. -/
def rg0 : Range :=
  { owner := 0, base := 0x3000, attached := [], npg := 0, page := false, frames := [], freeFrames := [], mdep := 1, pol := 1, pipe := 0, stage := 0, skey := 0 }
def mg0 : Merge := { slice := 0, ent := 0, rn := 5, bix := 0, dep := 0, frec := 7, waiters := [(.load 9, 0)], taken := none }
def feltOf (x : FillSt) (m : List Merge) : Felt := { ranges := [(5, rg0)], blocks := [((5, 0), { st := x, cause := 0x12, code := 7 })], merges := m }
def gq (nb : Bool) : Gang := { gm with procq := [(16, 0, nb)] }
def gen0 (t : Team) : Team := { t with generator := true, pipe := some (0, 0) }
def stG (nb : Bool) (l : List Merge) : State := { st (gq nb) gen0 with felt := feltOf .filling l }
def rt0 : Right := ⟨5, 0, 0, [], 0⟩
def gr : Gang := { gm with rights := [(0, rt0)] }
theorem witness_GeneratorInstructions : (Issues (st gm gen0) (is gm gen0) ∧ (active (is gm gen0) pT).head? = some 0 ∧
      Ready gm [] (((List.range 16).map (fun k => RegRef.s (16 + k))) ++ [.s 15])) ∧
    ((stG false [mg0]).team 1 = some (tm (gq false) gen0) ∧ (stG false [mg0]).gang 1 0 = some (gq false) ∧
      sortBy recordLt (stageRecords (stG false [mg0]) 0 0 0) = [mg0]) ∧
    (stageRecords (stG false []) 0 0 0 = [] ∧ stageRecords (stG true []) 0 0 0 = [] ∧ (stG true []).gang 1 0 = some (gq true)) ∧
    (Issues (st gr gen0) (is gr gen0) ∧ OpsReady (is gr) [opA (.const 0), opB (vr 2)] [0] [] ∧ mapGet 0 gr.rights = some rt0 ∧
      mapGet 3 gr.rights = none ∧ OpsReady (is gr) [opA (.const 3)] [0] []) := by and_intros <;> decide +kernel

def frel : Frag := { fr0 with wait := .release 5 }
def stR : State := { st gm with felt := { ranges := [(5, { rg0 with releasing := true, relId := 5 })], blocks := [((5, 0), { st := .filled })] } }
theorem witness_ProceduralRanges : (Issues (st gm) (is gm) ∧ (active (is gm) pT).head? = some 0 ∧ OpsReady (is gm) [opA (.const 0)] [0] [.s 2] ∧
      fr0.wait = .none ∧ 64 ≤ (tm gm).spsz) ∧
    (Issues (st (withFrag gm frel)) (is (withFrag gm frel) id frel) ∧ frel.wait = .release 5) ∧
    (mapGet 5 stR.felt.ranges = some { rg0 with releasing := true, relId := 5 } ∧ (∀ e ∈ stR.felt.blocks, e.1.1 = 5 → e.2.st ≠ .filling)) ∧
    (OpsReady (is gm) [opA (.const 5), opB (.scal 0 false) true] [0] [.s 2] ∧ heldBase (st gm) 0 5 = none ∧
      (heldBase { st gm with felt := feltOf .filled [] } 0 5).isSome ∧ ((feltOf .filled []).blocks.map (·.1)).Nodup) := by
  and_intros <;> decide +kernel

def tc0 (b : Option Nat) : Touch := ⟨9, .load 9, 0, 5, 0, none, b⟩
def pb0 (f : Option (Nat × Nat)) : PubMsg := ⟨9, 0, 1, 0, 5, 0, f, 3, (0, 0)⟩
def stT (x : FillSt) (m : List Merge) : State :=
  { stL lp0 with felt := if x = .unfilled then { feltOf x m with blocks := [] } else feltOf x m
                 pend := { (stL lp0).pend with touches := [tc0 none], pubs := [pb0 none, { pb0 (some (0x12, 7)) with id := 10 }]
                                               replays := [⟨9, .load 9, 5, 0, none, [], 0⟩] }
                 mem := { l2 := [(.proc 5 0 0, { valid := 15 })] } }
def cmT : Cmd := { id := 9, ctx := 0, team := 1, gang := 0, core := 0, ipc := 0x3000, cls := .copy, kind := .accz 0, guard := none, scope := 1, st := .running }
def stTc : State := { stT .filled [] with cmds := [cmT] }
/-- 208 merge entries hold every place of their slice. -/
def full : List Merge := (List.range 208).map (fun n => { mg0 with slice := blockSlice 5 0, ent := n, bix := n + 1 })
theorem witness_TouchesFillsAndReplays :
    (∀ x ∈ [FillSt.unfilled, .filling, .filled, .faulted], (stT x [mg0]).pend.touches.find? (fun t => t.id == 9 && t.refusedAt.isNone) = some (tc0 none) ∧
      (heldBase (stT x [mg0]) 0 5).isSome ∧ mapGet 5 (stT x [mg0]).felt.ranges = some rg0 ∧ toucherGang (stT x [mg0]) (.load 9) = some (1, 0) ∧
      (stT x [mg0]).gang 1 0 = some gm ∧ gm.holdsRight 5 0 = false ∧ fillState (stT x [mg0]) 5 0 = x) ∧
    ((startFill (stT .unfilled []) (tc0 none) rg0 0 [(5, 0)] 0).isSome ∧ startFill (stT .unfilled full) (tc0 none) rg0 0 [(5, 0)] 0 = none) ∧
    ((stT .filling [mg0]).pend.pubs.find? (fun m => m.id == 9 && m.fail.isNone) = some (pb0 none) ∧ releaseReady (stT .filling [mg0]) 0 1 0 3 3 = true ∧
      (blockGet 5 0 (stT .filling [mg0])).isSome ∧ ((stT .filling [mg0]).line (.proc 5 0 0)).isSome ∧
      (stT .filling [mg0]).pend.pubs.find? (fun m => m.id == 10) = some { pb0 (some (0x12, 7)) with id := 10 }) ∧
    ((stT .filled []).pend.replays.find? (fun r => r.id == 9) = some ⟨9, .load 9, 5, 0, none, [], 0⟩ ∧
      toucherAgent (stT .filled []) (.load 9) = some (tm gm).place.agent ∧ toucherAgent (stT .filled []) (.probe 1 0 0) = some (tm gm).place.agent ∧
      (toucherAgent stTc (.cmd 9 0)).isSome = true) := by and_intros <;> decide +kernel

/-! ### Engines, matrices and units -/

/-- 64 bytes from 0x3000 to the scratchpad at 64. -/
def req0 : BitVec 512 := BitVec.ofNat 512 (0x3000 + 0x1000000000000040 * 2 ^ 64 + 64 * 2 ^ 128)
def tC (t : Team) : Team := { t with spad := memPutBytes [] 0 (leBytes 64 req0.toNat) }
/-- Shape records without substitution: a tile of slot 0; A and B of slot 2. -/
def sh (n : Nat) : Shape := ⟨0, 16 + 16 * 2 ^ 20, 64, BitVec.ofNat 62 n⟩
def shD : Shape := sh (2 ^ 43)
def bx (r : Shape) : Box := (boxOf gm r).getD default
def shA : Shape := sh (2 ^ 43 + 2 * 2 ^ 45)
def shB : Shape := sh (2 ^ 43 + 2 ^ 41 + 2 * 2 ^ 45)
def cm0 (k : CmdKind) (c : CmdSt) : Cmd := { id := 9, ctx := 0, team := 1, gang := 0, core := 0, ipc := 0x3000, cls := .copy, kind := k, guard := none, scope := 1, st := c }
def tN (n : Nat) (t : Team) : Team := { t with tiles := [], lrec := rec0 + BitVec.ofNat 1536 (n * 2 ^ 620) }
theorem witness_EngineInstructionsIssueCommands : (Issues (st gm tC) (is gm tC) ∧ (active (is gm tC) pT).head? = some 0 ∧ OpsReady (is gm tC) [opA (.const 0)] [0] [] ∧
      spadReady (st gm tC) 1 0 64 3 false (1, 0, 0x3000) = .ok () (st gm tC) ∧ BitVec.ofNat 512 (leNat (spadRead (st gm tC) 1 0 64)) = req0 ∧
      reqBad (st gm tC) 1 (tm gm tC) req0 = false ∧ (rangeCheck (st gm tC) 1 (tm gm tC) .copyR (reqSrc req0) (reqSrcLen (tm gm tC) req0)).isOk = true ∧
      (rangeCheck (st gm tC) 1 (tm gm tC) .copyW (reqDst req0) (reqDstLen (tm gm tC) req0)).isOk = true ∧ gm.cnt .copy < 63) ∧
    (Ready gm [] ((accFibs (active (is gm) pT) (.vec 2)).flatMap (dstRegs 256 gm (.vec 2) 1))) ∧
    (OpsReady (is gm) [opA (.const 3)] [0] [] ∧ (loWord (valueOf (is gm) (opA (.const 3)) 0)).toNat = 3 ∧ (tm gm).G = 2 ∧
      2 ^ 16 ≤ (loWord (valueOf (is gm) (opA (.lit 0 (2 ^ 20))) 0)).toNat ∧ gm.latch = none) ∧
    (0 < (tm gm).nacc ∧ accBusy (st gm) 1 0 3 = false ∧
      accBusy { st gm with cmds := [{ cm0 (.accz 0) .queued with id := 2 }] } 1 0 3 = true) ∧
    (boxOf gm shD = some (bx shD) ∧ Ready gm ((shapeRegs shD).map (fun x => (⟨0, 3, false, x⟩ : Need))) [] ∧ accBoxOk (tm gm) (bx shD) 0 false false = true ∧
      accBoxOk (tm gm) (bx shD) 0 true true = true ∧ getCmd (st gm) 9 = none) := by and_intros <;> decide +kernel

/-- Gangs 0 and 1 of a set; gang 1 waits at its latch, or both do. -/
def mt (sp : Bool) : Instr :=
  if sp then .mtilesp pT (.file 0) 0 0 (.const 0) 0 false false 0 false shA shB else .mtile pT (.file 0) 0 0 (.const 0) 0 false false 0 false shA shB
def la (sp : Bool) : Latch := ⟨3, 0, mt sp, bx shA, bx shB, 0, 0x3000, false⟩
def gl (l : Option Latch) : Gang := { gm with gset := 3, latch := l }
def t2 (l : Option Latch) (t : Team) : Team := { t with gangs := t.gangs ++ [(1, gl l)] }
theorem witness_MatrixTileMeetsAtLatch : ∀ sp ∈ [false, true],
    (Issues (st (gl none) (t2 none)) (is (gl none) (t2 none)) ∧ (active (is (gl none)) pT).head? = some 0 ∧
      Ready (gl none) (needsOf 256 (gl none) [opB (.const 0) true] 0 ++ (shapeRegs shA ++ shapeRegs shB).map (fun r => (⟨0, 3, false, r⟩ : Need))) [] ∧
      boxOf (gl none) shA = some (bx shA) ∧ boxOf (gl none) shB = some (bx shB) ∧ fileIdx (.file 0) < (tm gm).nacc ∧
      matEntry ((tm gm).slot (bx shA).slot) = some (true, true) ∧ mtileOk (tm gm) sp (bx shA) (bx shB) 0 0 0 0 false = true ∧
      (List.range 16).filter (fun k => (gl none).gset.getLsbD k) = [0, 1] ∧ ∀ k ∈ [0, 1], ((st (gl none) (t2 none)).gang 1 k).isSome) ∧
    (Issues (st (gl (la sp)) (t2 (la sp))) (is (gl (la sp)) (t2 (la sp))) ∧ fr0.mask.getLsbD (la sp).lead = true ∧ (la sp).broken = false ∧
      ∀ k ∈ [0, 1], (st (gl (la sp)) (t2 (la sp))).gang 1 k = some (gl (la sp)) ∧ (gl (la sp)).cnt .matrix < 63) := by decide +kernel

/-- A gang without fill rights passes the gate of its engine touches; a broken latch; a READY tile that an ACCLD reads; a stash fill that has left. -/
theorem witness_EngineTileStash_more : engineGate (st gm) (is gm) 0 .copyR [] = .ok () (st gm) ∧
    ({ la false with broken := true } : Latch).broken = true ∧
    (let s : State := { st gs (tT .ready) with cmds := [cm0 (.accld 0 { bx shA with sp := 1 } 1) .running] }
     tileInUse s 1 1 = true ∧ ((tm gs (tT .ready)).tile 1).st = .ready) ∧
    (let x : StashLine := { fl0 with sent := some 4, key := .dev 64, pa := 0x3000 }
     let s := st gs (tS [(0, x)])
     stashLine (e0 [(0, x)]) 0 = some x ∧ coreEarlier s 0 4 (.dev 64) = false ∧ readyAns (homeReady s (.dev 64) 0 192 true) = true) ∧
    stashWaits stFill 1 0 (fun _ => true) = true := by and_intros <;> decide +kernel

def mm (r : BitVec 6) : Src := .vec r 0 false
theorem witness_MatrixMultiplyWritesItsElements : (Issues (st gm) (is gm) ∧ gm.frags.length = 1 ∧ (active (is gm) pT).head? = some 0 ∧
      bitsOf (valueOf (is gm) (opC (.lit 0 (2 * 2 ^ 48 + 2 ^ 48 - 1)) true) 0) 50 48 = 2 ∧
      bitsOf (valueOf (is gm) (opC (.lit 0 (2 * 2 ^ 48 + 2 ^ 48 - 1)) true) 0) 63 51 = 0 ∧ matEntry ((tm gm).slot 2) = some (true, true) ∧
      slotSfmt ((tm gm).slot 2) = 0 ∧ OpsReady (is gm) [opC (.lit 0 (2 * 2 ^ 48 + 2 ^ 48 - 1)) true] [0] []) ∧
    (∀ sp ∈ [false, true], (∀ r ∈ (mmaRuns sp false 4 8).sa.toList ++ (mmaRuns sp false 4 8).sb.toList, r < 64) ∧
      Ready gm (mmaNeeds (tm gm) gm sp ((tm gm).slot 2) 60 (mmaRuns sp false 4 8) false false
        (needsOf 256 gm [opC (.lit 0 (2 * 2 ^ 48 + 2 ^ 48 - 1)) true] 0)) []) ∧ 4 % 2 = 0 ∧ 8 % 2 = 0 ∧
    gm.ra = none ∧ 60 % 4 = 0 ∧ 60 < 64 := by and_intros <;> decide +kernel

def isDone (r : StepAns) : Bool := match r with | .done _ => true | _ => false
def isCred (r : CreditAns) : Bool := match r with | .done _ => true | _ => false
def isUnm (r : StepAns) : Bool := match r with | .unmapped _ _ _ => true | _ => false
def isCause (r : StepAns) : Bool := match r with | .cause _ _ => true | _ => false
/-- A copy from an address, with its segments; no walk has failed, or that of the page 0x6000 has. -/
def cpy (a : Nat) (c : CmdSt) : Cmd := cm0 (.copy (BitVec.ofNat 512 (a + 0x1000000000000040 * 2 ^ 64 + 64 * 2 ^ 128))) c
def stC (c : Cmd) : State := { st gm with cmds := [c], xl := { faults := [⟨0, 0, 2, 4, false, false⟩, ⟨0, 0, 3, 7, false, false⟩] } }
def seg0 (c : Cmd) : Seg := ((openSegs c (tm gm)).head?.map (·.1)).getD ⟨0, true, 0, []⟩
def seg1 (c : Cmd) : Seg := ((openSegs c (tm gm))[1]?.map (·.1)).getD ⟨0, false, 0, []⟩
def doneOf (a : Nat) : Cmd := { cpy a .running with segsDone := [0, 1] }
theorem witness_EngineCommandsRunToCompletion :
    (queueHead (stC (cpy 0x3000 .queued)) 1 0 .copy = some (cpy 0x3000 .queued) ∧ (cpy 0x3000 .queued).gangs = [0]) ∧
    ((stC (cpy 0x3000 .queued)).team 1 = some (tm gm) ∧ (cpy 0x3000 .queued).guard = none ∧
      releaseReady (stC (cpy 0x3000 .queued)) 0 1 0 1 9 = true ∧ overfills (cpy 0x3000 .queued) (tm gm) = false ∧
      (startTiles (stC (cpy 0x3000 .queued)) (cpy 0x3000 .queued) (tm gm)).isSome ∧
      ({ cpy 0x3000 .queued with guard := some 2 }.guard.map (fun g => mapGetD Guard.unresolved g (tm gm).guards)) = some .unresolved) ∧
    (getCmd (stC (cpy 0x3000 .running)) 9 = some (cpy 0x3000 .running) ∧ (openSegs (cpy 0x3000 .running) (tm gm)).length = 2 ∧
      (seg0 (cpy 0x3000 .running)).write = false ∧ (seg1 (cpy 0x3000 .running)).write = true ∧
      readable (cpy 0x3000 .running) (tm gm) = true ∧ writable { cpy 0x3000 .running with segsDone := [0] } (tm gm) (seg1 (cpy 0x3000 .running)) = true ∧
      writable (cpy 0x3000 .running) (tm gm) (seg1 (cpy 0x3000 .running)) = false ∧
      isDone (probeSeg (stC (cpy 0x3000 .running)) (cpy 0x3000 .running) (tm gm) (seg1 (cpy 0x3000 .running))) = true ∧
      (cpy 0x3000 .running).redo = [] ∧ sourceChanged (stC (doneOf 0x3000)) (doneOf 0x3000) (tm gm) = false ∧
      isDone (readSeg (stC (cpy 0x3000 .running)) (cpy 0x3000 .running) (tm gm) 0 (seg0 (cpy 0x3000 .running))) = true ∧
      isDone (writeSeg (stC { cpy 0x3000 .running with segsDone := [0] }) { cpy 0x3000 .running with segsDone := [0] } (tm gm) 1
        (seg1 (cpy 0x3000 .running))) = true ∧
      isUnm (readSeg (stC (cpy 0x6000 .running)) (cpy 0x6000 .running) (tm gm) 0 (seg0 (cpy 0x6000 .running))) = true ∧
      isCause (readSeg (stC (cpy 0x9000 .running)) (cpy 0x9000 .running) (tm gm) 0 (seg0 (cpy 0x9000 .running))) = true) ∧
    (getCmd (stC (doneOf 0x3000)) 9 = some (doneOf 0x3000) ∧ (doneOf 0x3000).st = .running ∧
      (∀ x ∈ (segsOf (tm gm) (doneOf 0x3000).kind).zipIdx, x.2 ∈ (doneOf 0x3000).segsDone) ∧ (segsOf (tm gm) (doneOf 0x3000).kind).length ∉ (doneOf 0x3000).abandoned ∧
      isCred (creditCopy (stC (doneOf 0x3000)) (doneOf 0x3000) (tm gm) (BitVec.ofNat 512 (0x3000 + 0x1000000000000040 * 2 ^ 64 + 64 * 2 ^ 128)) false) = true ∧
      segsOf (tm gm) (.mtile false 0 false (bx shA) (bx shB) 0 0 0 [0]) ≠ [] ∧ segsOf (tm gm) (.drain 0 false false (bx shD)) ≠ []) := by
  and_intros <;> decide +kernel

/-- Headers at 0x3000: of a texture, a raster target, a structure (two lines long), or of no kind. -/
def hdr (n : Nat) : Nat := match n with | 1 => 1 + 0x6000 * 2 ^ 192 | 4 => 4 + 0x6000 * 2 ^ 128 + 0x6000 * 2 ^ 192 | 3 => 3 + 384 * 2 ^ 144 + 192 * 2 ^ 184 | _ => 0
def smp (k : SampKind) (ctl : Quad) (w : Option (Nat × Nat × Nat)) : PendSample :=
  { id := 9, core := 0, ctx := 0, team := 1, gang := 0, ipc := 0x3000, kind := k, ctl, nc := 0, cull := .none
    fibs := [{ fib := 0, hdr := 0x3000, src := [], pos := 8, writes := w }] }
def stH (n : Nat) (g : Gang) (x : PendSample) : State := { st g with
  mem := { dram := memPutBytes [] 0x3000 (leBytes 192 (hdr n)) }, pend := { samples := [x] }
  cores := [(0, { tlb := [{ ctx := 0, lv := 1, pn := 1, leaf := .normal 12288 1 true true }, { ctx := 0, lv := 1, pn := 2, leaf := .normal 0x6000 1 true true }] })] }
def trav0 (sus : Bool) : Trav := ⟨0x3000, 8, 0x3000, [0, 0, 0, 0x3F800000, 0, 0, 0x40000000, 0x3F800000], false, false, .none, sus, false, [], none, 0, none,
  none, 0, 0, false, 0, false, false, 8⟩
def gtr (sus : Bool) : Gang := { gm with fibres := gm.fibres.map (fun e => if e.1 = 0 then (0, { e.2 with trav := some (trav0 sus) }) else e) }
def fw0 : Frag := { fr0 with wait := .cmd 9 }
def hc (ctl : Src) : Res (List (Acc × Target)) :=
  headerChecks (st gm) (is gm) ((active (is gm) pT).map (fun f => { fib := f, ga := valueOf (is gm) (opA ctl true) f }))
/-- A held operation whose results are kept: fibre 0 is done. -/
def hs0 (k : SampKind) (d : Bool) : PendSample := { smp k 0 none with held := true, fibs := [{ fib := 0, hdr := 0x3000, src := [], pos := 8, done := d }] }
def hcR : Res (List (Acc × Target)) :=
  headerChecks (st gr gen0) (is gr gen0) ((active (is gr gen0) pT).map (fun f => { fib := f, ga := valueOf (is gr gen0) (opA (.scal 0 false) true) f }))
/-- The gang of a fill right, a permuted source run, and held operations that are done and not done. -/
theorem witness_UnitInstructionsIssue_held : (gr.rights ≠ [] ∧ Issues (st gr gen0) (is gr gen0) ∧ hcR = .ok (ls hcR) (st gr gen0) ∧
      genTouchGate (st gr gen0) (is gr gen0) ((ls hcR).map (fun e => (e.1.fib, e.2))) 0 0 = .ok () (st gr gen0) ∧ gangOpen (st gr gen0) 1 0 = true) ∧
    (runPermuted (.vec 8 5 false) = true ∧ (∀ n ∈ [2, 4, 8, 10], Ready gm ((active (is gm) pT).flatMap (fun f =>
      needsOf 256 gm [opA (.scal 0 false) true] f ++ runNeeds (is gm) (.vec 8 5 false) n f)) ((active (is gm) pT).flatMap (dstRegs 256 gm (.vec 20) 6)))) ∧
    (∀ d ∈ [false, true], Issues (stH 1 (withFrag gm fw0) (hs0 .fetch d)) (is (withFrag gm fw0) id fw0) ∧
      (stH 1 (withFrag gm fw0) (hs0 .fetch d)).pend.samples.find? (fun x => x.id == 9) = some (hs0 .fetch d) ∧ (hs0 .fetch d).genErr = none ∧
      (hs0 .fetch d).fibs.all (·.done) = d) := by and_intros <;> decide +kernel
theorem witness_UnitInstructionsIssue :
    (Issues (st gm) (is gm) ∧ (active (is gm) pT).head? = some 0 ∧ OpsReady (is gm) [opC (.const 0) true] [0] [] ∧
      (∀ k ∈ [SampKind.sample, .fetch], (ctlOf 0).legal k = true) ∧ (ctlOf 0x200).legal .sampleg = true ∧ (ctlOf 0x100).legal .nsample = true ∧
      dstFirst (.vec 63) + (ctlOf 0).nc + 1 = 64 ∧ vecFirst (vr 60) + (ctlOf 0).coords .fetch = 64) ∧
    hc (.scal 0 false) = .ok (ls (hc (.scal 0 false))) (st gm) ∧
    (genTouchGate (st gm) (is gm) ((ls (hc (.scal 0 false))).map (fun e => (e.1.fib, e.2))) 0 0 = .ok () (st gm) ∧ gangOpen (st gm) 1 0 = true) ∧
    (∀ n ∈ [2, 4, 8, 10], Ready gm ((active (is gm) pT).flatMap (fun f => needsOf 256 gm [opA (.scal 0 false) true] f ++ runNeeds (is gm) (vr 8) n f))
      ((active (is gm) pT).flatMap (dstRegs 256 gm (.vec 20) 6))) ∧
    (Issues (st (gtr true)) (is (gtr true)) ∧ (∀ f ∈ active (is (gtr true)) pT, ∀ v, ((gtr true).fib f).trav = some v → v.suspended = true) ∧
      (active (is (gtr true)) pT).filter (fun f => match ((gtr true).fib f).trav with
        | some v => v.suspended && v.pos == ((is (gtr true)).gang.fib f).wb + dstFirst (.vec 8) | none => false) = [0]) ∧
    (Issues (stH 1 (withFrag gm fw0) { smp .wpin 0 none with answer := some true }) (is (withFrag gm fw0) id fw0) ∧ fw0.wait = .cmd 9) := by
  constructor; · decide +kernel
  constructor; · decide +kernel
  constructor; · decide +kernel
  constructor; · decide +kernel
  constructor
  · refine ⟨by decide +kernel, ?_, by decide +kernel⟩
    intro f hf v hv
    have : ∀ f ∈ active (is (gtr true)) pT, (((gtr true).fib f).trav.all (·.suspended)) = true := by decide +kernel
    have h := this f hf
    rw [hv] at h
    exact h
  · decide +kernel
/-- What a fibre's operation answers. -/
def opAns (n : Nat) (k : SampKind) (ctl : Quad) : Nat :=
  let x := smp k ctl none
  match sampleOp x { fib := 0, hdr := 0x3000, src := [0, 0, 0, 0], pos := 8 } 0 { s := stH n gm x, team := tm gm, x, fib := 0 } with
  | .ok (.regs _ _ _, _) => 1 | .ok (.badHeader, _) => 2 | .ok (.pin _, _) => 3 | .error _ => 4
def rasAns (n : Nat) : Bool :=
  let x := smp .rastq 0 none
  match rasterOp x { fib := 0, hdr := 0x3000, src := List.replicate 10 0, pos := 8 } { s := stH n gm x, team := tm gm, x, fib := 0 } with
  | .ok (some _, _) => true | _ => false
def travAns (n : Nat) : Nat :=
  let x := smp .rayx 0 none
  match travLeg (trav0 false) { s := stH n (gtr false) x, team := tm (gtr false), x, fib := 0 } with
  | .ok (.run _ _, _) => 1 | .ok (.badHeader, _) => 2 | _ => 3
theorem witness_UnitResultsReachTheirRuns : (opAns 1 .fetch 0 = 1 ∧ opAns 0 .fetch 0 = 2 ∧ rasAns 4 = true ∧ travAns 3 = 1 ∧ travAns 0 = 2) ∧
    ((stH 1 gm (smp .fetch 0 none)).pend.samples.find? (fun x => x.id == 9 && x.kind != .rayx && x.kind != .rastq) = some (smp .fetch 0 none) ∧
      (stH 1 gm (smp .fetch 0 none)).team 1 = some (tm gm) ∧ gm.ra = none ∧ (mapGet 0 gm.fibres).isSome) ∧
    ((stH 4 gm (smp .rastq 0 (some (3, 4, 1)))).pend.atoms = [] ∧
      (stH 3 (gtr false) (smp .rayx 0 none)).pend.samples.find? (fun x => x.kind == .rayx && x.team == 1 && x.gang == 0 &&
        x.fibs.any (fun f => f.fib == 0 && !f.done)) = some (smp .rayx 0 none) ∧
      travOf (stH 3 (gtr false) (smp .rayx 0 none)) (smp .rayx 0 none) 0 = some (trav0 false)) := by and_intros <;> decide +kernel
def fi0 : Frag := { fr0 with wait := .inv 9 }
def g2f : Gang := { gm with frags := [{ fr0 with mask := 1 }, { fr0 with mask := 2, pc := 0x3010 }] }
def gR : Gang := { gm with fibres := gm.fibres.map (fun e => (e.1, { e.2 with lo := 0 })), frags := [{ fr0 with wait := .repack }] }
theorem witness_WeightCacheAndRepack : (Issues (st gm) (is gm) ∧ (active (is gm) pT).head? = some 0 ∧ OpsReady (is gm) [opA (.scal 0 false) true] [0] [] ∧
      fr0.wait = .none) ∧
    (Issues (st (withFrag gm fi0)) (is (withFrag gm fi0) id fi0) ∧ fi0.wait = .inv 9) ∧
    (Issues (st g2f) (is g2f id { fr0 with mask := 1 }) ∧ g2f.frags.length ≠ 1) ∧
    (releaseReady (st gm) 0 1 0 1 3 = true ∧ (st gR).team 1 = some (tm gR) ∧ (∀ e ∈ repackGroup (tm gR) 0, arrivedRepack e.2 = true) ∧
      (∀ e ∈ repackGroup (tm gR) 0, ∀ b ∈ e.2.fibres, ∀ r ∈ b.2.regs, r.2.fe ≠ .empty ∧ r.2.bad = false) ∧
      (∀ e ∈ repackGroup (tm gR) 0, e.2.ra = none) ∧ repackSteps 256 (repackGroup (tm gR) 0) = [] ∧ ∃ e ∈ repackGroup (tm gm (t2 none)) 0, arrivedRepack e.2 = false) := by and_intros <;> decide +kernel

/-! ### Mailboxes, pipelines, launches and queues -/

def stM (bind : Quad) (m : Mailbox) : State := { st gm with sys := { mbBindNow := [(3, bind)], mbox := [(3, m)] } }
theorem witness_MailboxesAndBindings : (Issues (stM 0 {}) (is gm) ∧ Issues (stM 0x100 {}) (is gm) ∧ (stM 0x100 {}).running = true ∧
      mailbox (stM 0x100 { inq := [([1], (1, 1))] }) 3 = { inq := [([1], (1, 1))] } ∧ (active (is gm) pT).head? = some 0 ∧
      (stM 0x100 { outq := [([1], (1, 0x1000))] }).running = true ∧
      mailbox (stM 0x100 { outq := [([1], (1, 0x1000))] }) 3 = { outq := [([1], (1, 0x1000))] }) ∧
    (Ready gm [] (sRegs 16 16) ∧ Ready gm ((sRegs 16 16).map (fun r => (⟨0, 0, false, r⟩ : Need))) []) ∧
    (mailboxCtx (stM 0 {}) 3 = none ∧ mailboxCtx (stM 0x100 {}) 3 = some 0 ∧ (tm gm).ctx = 0 ∧ releaseReady (stM 0x100 {}) 0 1 0 4 3 = true) := by
  and_intros <;> decide +kernel

def stg (n : Nat) (srt : Bool) : Stage := ⟨0, 0, srt, false, 3, List.replicate n (5, (0, 0)), 0, 7, 0, false, none⟩
def pip (n : Nat) (srt rel : Bool) : Pipeline := ⟨0, 0, 0, 0, 1, 1, 0, 0, [stg n srt], rel, 9⟩
def stP (n : Nat) (srt rel : Bool) : State := { st gm with pipes := [pip n srt rel] }
def frl : Frag := { fr0 with wait := .release 9 }
theorem witness_PipelinesLaunchesAndQueues :
    (Issues (st gm) (is gm) ∧ (active (is gm) pT).head? = some 0 ∧ OpsReady (is gm) [opA (.const 0)] [0] [.s 2] ∧
      16 * (descStages (memNat (tm gm).spad 0 16) + 1) ≤ (tm gm).spsz ∧ releaseReady (st gm) 0 1 0 3 3 = true ∧
      spadReady (st gm) 1 0 (16 * (descStages (memNat (tm gm).spad 0 16) + 1)) 0 false (1, 0, 0x3000) = .ok () (st gm) ∧ fr0.wait = .none ∧
      Issues (st (withFrag gm frl)) (is (withFrag gm frl) id frl) ∧ frl.wait = .release 9) ∧
    (stP 0 false true).pipes.find? (fun p => p.ctx == 0 && p.h == 0 && p.releasing) = some (pip 0 false true) ∧
    (OpsReady (is gm) [opA (.scal 0 false) true] [0] [.s 2] ∧ (valueOf (is gm) (opA (.scal 0 false) true) 0).toNat % 192 = 0 ∧
      canonGlobal (valueOf (is gm) (opA (.scal 0 false) true) 0) = true ∧ ((st gm).ctx 0).queue.length < 64) ∧
    (∀ n ∈ [2, 3], ∀ r ∈ [false, true], Issues (stP n r false) (is gm) ∧ stageOf (stP n r false) 0 0 0 true = some (stg n r) ∧
      stageOf (stP n r false) 0 0 0 false = some (stg n r)) ∧
    (OpsReady (is gm) [opB (.const 0)] [0] [] ∧ runAligned (.vec 16 0 false) = true ∧ 2 + 2 ≤ (stg 2 false).qd + 1 ∧ (stg 3 false).qd + 1 < 3 + 2 ∧
      Ready gm ((active (is gm) pT).flatMap (fun f => (runOf 256 gm (.vec 16 0 false) 16 f).map (fun r => (⟨f, 0, false, r⟩ : Need)))) [] ∧
      Ready gm [] ((active (is gm) pT).map (dstRegs 256 gm (.vec 16) 16)).flatten ∧ (takeRecords (stg 2 false) 2).1.length = 2 ∧
      (takeRecords (stg 1 true) 2).1.length < 2) := by and_intros <;> decide +kernel

/-! ### Translation -/

def inv0 (w : Option (Nat × Nat × Nat)) : TlbInv := ⟨9, 0, true, 0, 0, w⟩
/-- A walk of context 0 that reads the entry at 0x200, which holds e, at a level. -/
def wk (lv : Nat) (x : WalkSt) (a : Bool := false) : Walk := ⟨9, 0, [(0, a)], 0, lv, 0x200, x⟩
def stW (e lv : Nat) (x : WalkSt) : State := { mem := { dram := memPutBytes [] 0x200 (leBytes 8 e) }, xl := { walks := [wk lv x] } }
def entOf (e lv : Nat) : Option EntAns :=
  match homeReady (stW e lv .reading) (.dev 2) 128 8 false with
  | .ready u =>
      let v := homeFill (eccEvents u (some 0) (.dev 2) 128 8 0) (.dev 2) 128 8
      some (entryAns (BitVec.ofNat 64 (leNat (homeRead v (.dev 2) 128 8))) lv)
  | _ => none
def stF (n : Nat) (h : Option Nat) : State := { stW 0x40 1 (.firstTouch 0x40) with
  sys := { fzBase := 0x3000, fzSize := BitVec.ofNat 64 n, fzTail := 1 }, xl := { walks := [wk 1 (.firstTouch 0x40)], hold := h } }
/-- The entry's line can be written, the hold slot is then as given, and the ring's line can be read after it. -/
def thenRing (s : State) (h : Option Nat) : Bool :=
  match homeReady s (.dev 2) 128 8 true with
  | .ready u => u.xl.hold == h && readyAns (homeReady u (.dev 64) 0 4 false)
  | _ => false
theorem witness_TranslationWalksAndInvalidations :
    (Issues (st gm) (is gm) ∧ (active (is gm) pT).head? = some 0 ∧ OpsReady (is gm) [opA (.scal 0 false) true, opB (.const 1)] [0] [] ∧
      OpsReady (is gm) [opA (.scal 0 false) true, opB (.const 0)] [0] [] ∧ OpsReady (is gm) [opA (vr 0) true, opB (.const 1)] [0] [] ∧
      OpsReady (is gm) [opA (.const 0) true, opB (.const 0)] [0] [] ∧ releaseReady (st gm) 0 1 0 3 3 = true ∧
      canonGlobal (valueOf (is gm) (opA (.scal 0 false) true) 0) = true ∧ canonGlobal (valueOf (is gm) (opA (vr 0) true) 0) = false ∧
      (loWord (valueOf (is gm) (opB (.const 1)) 0)).toNat ≠ 0 ∧ (loWord (valueOf (is gm) (opB (.const 0)) 0)).toNat = 0) ∧
    (Issues (st (withFrag gm fi0)) (is (withFrag gm fi0) id fi0) ∧ fi0.wait = .inv 9) ∧
    (∀ w ∈ [none, some (1, 0, 0)], ({ invs := [inv0 w] } : Xl).invs.find? (fun v => v.id == 9) = some (inv0 w) ∧
      accessesDone (st gm) (inv0 w) = true ∧ coveredStash (st gm) (inv0 w) = []) ∧
    (entOf 0 1 = some .unmapped ∧ entOf 0x81 1 = some .malformed ∧ entOf 0x40 1 = some .firstTouch ∧ entOf 0x3001 6 = some (.node 0x600) ∧
      entOf 0x33 4 = some (.leaf (.normal 0 4 true true)) ∧
      (stW 0 6 .reading).xl.walks.find? (fun w => w.id == 9 && w.st == .reading) = some (wk 6 .reading)) ∧
    (ringCount (stF 0 none).sys = 0 ∧ ringCount (stF 256 none).sys ≠ 0 ∧ (stF 256 none).xl.hold = none ∧ (stF 256 (some 4)).xl.hold = some 4 ∧
      thenRing (stF 256 none) none = true ∧ thenRing (stF 256 (some 4)) (some 4) = true ∧
      (stF 256 none).running = true) ∧
    (∀ a ∈ [false, true], (wk 1 .reading a).cores ≠ [] ∧ (∀ c ∈ (wk 1 .reading a).cores, c.2 = a) ∧ ((wk 1 .reading a).cores.map (·.1)).count 0 = 1) := by and_intros <;> decide +kernel

def ra0 (n : Nat) : RunAhead := ⟨[], [], fr0, 0, [], 0, [], 0x3000, 0x6000, 0, n⟩
def fr1 (who : RecFor) (wr : Bool) : FaultRec := ⟨9, who, 0x3000, 0x6000, 0, 0, 0, 0, 0, 0, false, [], wr, 0⟩
def stX (who : RecFor) (wr : Bool) : State := { st { gm with heldFor := some 9 } with sys := { fqBase := 0x6000, fqSize := 64, fqTail := 63 }, xl := { recs := [fr1 who wr] } }
/-- A reply leaves teams and transactions as they are. -/
theorem takeReply_keeps {s : State} {tag : Nat} {e : FaultRec × State} (h : takeReply s tag = some e) : e.2.teams = s.teams ∧ e.2.pend = s.pend := by
  unfold takeReply at h
  split at h
  · exact absurd h (by simp)
  · obtain ⟨r, -, rfl⟩ := Option.map_eq_some_iff.mp h
    constructor <;> simp [apAgent]
theorem witness_FaultRecordsAndReplies : (∀ n ∈ [0, 1], (st { gm with ra := some (ra0 n) }).gang 1 0 = some { gm with ra := some (ra0 n) }) ∧
    ((stX (.gang 1 0) false).xl.recs.find? (fun r => !r.written) = some (fr1 (.gang 1 0) false) ∧ legalSize 64 64 4096 = true ∧
      ((stX (.gang 1 0) false).sys.fqTail - (stX (.gang 1 0) false).sys.fqHead).toNat = 63) ∧
    (∀ w ∈ [RecFor.gang 1 0, .cmd 9, .sample 9, .stash 1 0 0 1 0], (takeReply (stX w true) 9).isSome = true ∧
      ((stX w true).gang 1 0).bind (·.heldFor) = some 9 ∧ (stX w true).pend.loads = []) ∧
    (st gs (tS [(0, fl0)])).team 1 = some (tm gs (tS [(0, fl0)])) ∧ stashLine (e0 [(0, fl0)]) 0 = some fl0 ∧
    (paReady (stX (.gang 1 0) false) (0x6000 + 192 * 63) 192 true).1 = true := by and_intros <;> decide +kernel

/-! ### Home slices, the host and peer parts -/

def stE (k : LineKey) (l : L2Line) (x : Felt := {}) : State := { st gm with mem := { l2 := [(k, l)] }, felt := x }
def pageFelt : Felt := { ranges := [(5, { rg0 with page := true })], blocks := [((5, 0), { st := .filled, frame := some 7 })] }
theorem witness_EvictionsAndWriteBacks :
    (∀ k ∈ [LineKey.dev 64, .host 3, .proc 5 0 0], (stE k {}).line k = some {} ∧ heldLine (stE k {}) k {} = false) ∧
    heldLine (stE (.dev 64) { owner := some (0, 1) }) (.dev 64) { owner := some (0, 1) } = true ∧
    (isPageRange (stE (.proc 5 0 0) {} (feltOf .filled [])) 5 = false ∧ isPageRange (stE (.proc 5 0 0) {} pageFelt) 5 = true ∧
      (backAddr (stE (.proc 5 0 0) {} pageFelt) (.proc 5 0 0)).isSome ∧ heldLine (stE (.proc 5 0 0) {} pageFelt) (.proc 5 0 0) {} = false) ∧
    ((stE (.dev 64) { wb := some (15, []) }).line (.dev 64) = some { wb := some (15, []) } ∧ (backAddr (stE (.dev 64) {}) (.dev 64)).isSome) ∧
    ((st gm).eccSound ∧ (15 : BitVec 4).getLsbD 3 = true ∧ Memory.wf (st gm).mem.dram = true) := by and_intros <;> decide +kernel

def hl (x : Gran) : L2Line := { gran := [(0, x)] }
def stY (w : Gran) : State := { stE (.host 3) (hl .m) with mem := { l2 := [(.host 3, hl .m)], cxl := [{ g := 3, want := w, pref := w == .s, port := some 0, keys := [3] }] } }
theorem witness_HostCacheAndMemory : (∀ w ∈ [Gran.i, .s, .e], (stY w).mem.cxl.find? (fun e => e.g == 3 && e.port.isSome) = some { g := 3, want := w, pref := w == .s, port := some 0, keys := [3] } ∧
      (stY w).hostLinked = true ∧ ({ st gm with sys := { state := 3 } } : State).hostLinked = false) ∧
    (linesWith (stY .s) 3 = [(.host 3, 0, hl .m)] ∧ (hl .m).granOf 0 = .m ∧ Memory.wf (stY .s).mem.host = true) ∧
    (reservedBase - 64 + 64 ≤ reservedBase ∧ reservedBase < barBase ∧ mapGetD 0 1 (stY .s).sys.cxlPort ≠ 0 ∧ (homesReady (st gm) (outChunks 0x3000 64) false).1 = true ∧
      (homesReady (st gm) (outChunks (reservedBase - 64) 64) false).1 = true ∧ reservedBase < reservedBase - 63 + 64) := by
  and_intros <;> decide +kernel

def pin0 (k : PeerKind) : PeerIn := ⟨1, k, 12284, [1, 2, 3, 4], 4, .add, .n32⟩
/-- A window of one page at 0 that admits part 1 alone. -/
def stV : State := { st gm with sys := { sgExp := [(1, BitVec.ofNat 64 (2 ^ 63 + 2 ^ 28 + 7 * 2 ^ 25 + 1))] } }
def pp0 (w : PeerFor) (k : PeerKind) : PendPeer :=
  { id := 9, who := w, ctx := 0, core := 0, part := 1, pa := 0x3000, ga := 0x3000, link := 0, kind := k, n := 4, bytes := [] }
def stU (p : PendPeer) : State := { stA with cmds := [cpy 0x3000 .running], pend := { stA.pend with loads := [ld0 { lp0 with st := .waiting }], peers := [p] } }
theorem witness_ProcessorsAndPeers : ((st gm).running = true ∧ stV.linked = true ∧ ({ st gm with sys := { state := 3 } } : State).linked = false ∧ regBase + 0x10858 < regBase + regSpan ∧ (homesReady (st gm) (outChunks 0x3000 8) false).1 = true ∧
      (homesReady (st gm) (outChunks 0x3000 8) true).1 = true) ∧
    (∀ k ∈ [PeerKind.read, .write, .atomic], peerSize (pin0 k) = 4 ∧ (∃ i < 16, windowAdmits stV i (pin0 k) 4 = true) ∧
      (∀ i < 16, windowAdmits stV i { pin0 k with src := 2 } 4 = false) ∧ (∀ i < 16, windowAdmits stV i { pin0 k with pa := 12285 } 4 = false) ∧
      (homesReady stV (outChunks 12284 4) (k != .read)).1 = true) ∧
    (∀ p ∈ [pp0 (.load 9 0) .read, pp0 (.atom 9) .atomic, pp0 (.store 0 1 0 4 8) .write, pp0 (.cmd 9 0) .read],
      (stU p).pend.peers.find? (fun p => p.id == 9) = some p ∧ p.link ≠ 12) ∧
    ((stU (pp0 (.load 9 0) .read)).pend.loads.find? (fun (l : PendLoad) => l.id == 9) = some (ld0 { lp0 with st := .waiting }) ∧
      (stU (pp0 (.atom 9) .atomic)).pend.atoms.find? (fun a => a.id == 9) = some at0 ∧
      getCmd (stU (pp0 (.cmd 9 0) .read)) 9 = some (cpy 0x3000 .running)) := by and_intros <;> decide +kernel

/-! ### The launch unit, pre-emption and contexts -/

/-- Page tables of context 0 that map every low address to itself, and a launch record of one team at 0xC00. -/
def pgt : Memory := [(0x200, 0x01), (0x201, 0x20), (0x400, 1), (0x401, 0x30), (0x600, 0x33)]
def lrec0 : BitVec 1536 := BitVec.ofNat 1536 (192 * 2 ^ 256 + 12 * 2 ^ 624 + 2 ^ 642)
def lc0 : Launch := ⟨7, 0, 0, lrec0 + BitVec.ofNat 1536 (0x240 * 2 ^ 960 + 5 * 2 ^ 1024), 1, 1, 0, 0, 1, 1, 0, .bound, 0, [], none, false, [], []⟩
def stK (addr v : Nat) (l : Launch) : State := { st gm with
  sys := { xlRoot := [(0, 0x1001)], cpRec := [(0, BitVec.ofNat 64 addr)], twBindNow := [(5, 0x300)] }
  mem := { dram := memPutBytes (memPutBytes pgt 0xC00 (leBytes 192 lrec0.toNat)) 0x240 (leBytes 8 v) }
  ctxs := [(0, { queue := [(0, addr)] })], launches := [(7, l)]
  cores := [unitCore 1, unitCore 8].map (fun n => (n, { tlb := [{ ctx := 0, lv := 1, pn := 0, leaf := .normal 0 1 true true }] })) }
def recOk (r : RecAns) : Nat := match r with | .ok _ _ _ => 1 | .reject _ _ _ _ => 2 | .wait _ => 3
def cntOk (r : CountAns) : Bool := match r with | .ok _ _ _ => true | _ => false
def readOf (r : LRead) : Option Nat := match r with | .bytes b _ => some (leNat b) | _ => none
def lr0 : Launch := { lc0 with st := .running, lrec := lrec0 }
def notYet (b : List Nat) (t : Team) : Team := { t with started := false, bindings := b, gangs := [] }
theorem witness_LaunchUnitSteps :
    (∀ a ∈ [0xC00, 0xC01], (stK a 0 lr0).running = true ∧ ((stK a 0 lr0).ctx? 0).map (·.queue) = some [(0, a)] ∧ exhausted (stK a 0 lr0) 0 = false ∧
      ∀ l ∈ (stK a 0 lr0).launches, ¬ (l.2.ctx = 0 ∧ l.2.st = .bound)) ∧
    (recOk (readRecord (stK 0xC01 0 lr0) 0 0xC01 .grid) = 2 ∧ recOk (readRecord (stK 0xC00 0 lr0) 0 0xC00 .grid) = 1 ∧
      recF lrec0 1023 960 = 0 ∧ cntOk (bindCounts (stK 0xC00 0 lr0) 0 1 lrec0) = true) ∧
    (∀ v ∈ [4, 5], (stK 0xC00 v lc0).launches.find? (fun l => l.2.ctx == 0 && l.2.st == .bound) = some (7, lc0) ∧
      readOf (launchRead (stK 0xC00 v lc0) 0 (recF lc0.lrec 1023 960) 8 8) = some v ∧ recF lc0.lrec 1087 1024 = 5 ∧
      cntOk (bindCounts (stK 0xC00 v lc0) 0 8 lc0.lrec) = true) ∧
    ((bestOffer 0 [.grid lr0]).isSome = true) ∧
    (∀ b ∈ [[], [0]], (st gm (notYet b)).team 1 = some (tm gm (notYet b)) ∧ (notYet b (tm gm)).started = false ∧ (notYet b (tm gm)).ended = false) ∧
    (([cm0 (.binding 0 0) .complete].find? (fun c => c.team == 1 && c.st == CmdSt.complete && (match c.kind with | .binding _ _ => true | _ => false))).isSome) ∧
    (mapGet 7 (stK 0xC00 0 lr0).launches = some lr0 ∧ lr0.stage = none ∧ lr0.live = [] ∧ storesDone (stK 0xC00 0 lr0) lr0 = true ∧ recF lr0.lrec 1279 1216 = 0 ∧
      (signalCsem (stK 0xC00 0 lr0) lr0 0x240).1 = true ∧ (signalCsem { stK 0xC00 0 lr0 with cores := [] } lr0 0x240).1 = false) := by and_intros <;> decide +kernel

def rq0 (e : Option (List Nat)) : SaveReq := { ctx := 0, weaves := [2], restoreEntries := e }
def wv0 : Weave := { ctx := 0, launch := 7, w := 1, h := 1, x0 := 0, y0 := 0, teams := [1], saving := true }
def stZ (base size : Nat) (t : Team → Team := id) : State := { stK 0xC00 0 lr0 with
  teams := [(1, tm gm t)], weaves := [(2, wv0)], saveReqs := [rq0 none], sys := { save := [(0, BitVec.ofNat 64 base)] }
  mem := { dram := memPutBytes [] 0x30000 (leBytes 8 size) } }
def sv0 : Saved := ⟨0, 3, 2304, 192, { wv0 with saving := false }, [(1, { tm gm with launch := 7 })], [], [], [], [], 0, false⟩
/-- The image of `sv0` names the device's version and the weave. -/
def stJ : State := { stK 0xC00 0 { lr0 with live := [2] } with
  teams := [], weaves := [], saved := [sv0], saveReqs := [rq0 (some [3])]
  sys := { save := [(0, 0x30000)] }
  mem := { dram := memPutBytes [] (0x30000 + 192 + 24) (leBytes 8 (2 ^ 63 + 2304))
    ++ (List.range 8).map (fun n => (0x30900 + n, Config.imageVersion.extractLsb' (8 * n) 8)) ++ [(0x30908, 2)] } }
theorem leNat_bytes (v : Quad) : leNat ((List.range 8).map (fun n => v.extractLsb' (8 * n) 8)) = v.toNat := by
  have h := v.isLt
  simp only [List.range, List.range.loop, List.map, leNat, BitVec.extractLsb'_toNat, Nat.shiftRight_eq_div_pow]
  omega
theorem stJ_version : paRead stJ 0x30900 8 = (List.range 8).map (fun n => Config.imageVersion.extractLsb' (8 * n) 8) := by rfl
theorem stJ_saved : savedAt stJ 0 3 = some sv0 := by
  have h : paNat stJ (saveBase stJ 0 + dirQuad stJ 0 3 % 2 ^ 48) 8 = Config.imageVersion.toNat := by
    have e : saveBase stJ 0 + dirQuad stJ 0 3 % 2 ^ 48 = 0x30900 := by decide +kernel
    rw [e]; exact (congrArg leNat stJ_version).trans (leNat_bytes _)
  have d : dirValid stJ 0 3 = true := by decide +kernel
  have i : paNat stJ (saveBase stJ 0 + dirQuad stJ 0 3 % 2 ^ 48 + 8) 8 = 2 := by decide +kernel
  have f : stJ.saved.find? (fun y => y.ctx == 0 && y.id == 2) = some sv0 := by decide +kernel
  simp only [savedAt, d, h, i, f, Bool.not_true, Bool.false_eq_true, if_false, if_true]
theorem witness_SavesEnergyAndContexts :
    (mapGet 2 (stZ 0 0).weaves = some wv0 ∧ (rq0 none).weaves.contains 2 = true ∧ calm (stZ 0 0) wv0 = true ∧ settled (stZ 0 0) wv0 = true ∧
      calm { stZ 0 0 with cmds := [cpy 0x3000 .running] } wv0 = false ∧
      settled { stZ 0 0 with cmds := [cpy 0x3000 .running] } wv0 = false ∧ imagePlace (stZ 0 0) 0 (weaveImage (stZ 0 0) wv0) = none ∧
      imagePlace (stZ 0x30000 0x100000) 0 (weaveImage (stZ 0x30000 0x100000) wv0) = some (0, 2304)) ∧
    (savedAt stJ 0 3 = some sv0 ∧ dirValid stJ 0 3 = true ∧ exhausted stJ 0 = false ∧ (restorePlace stJ sv0).isSome) ∧
    ((stJ.running = true ∧ saveBase stJ 0 ≠ 0 ∧ (State.reset).saveReqs = []) ∧ ((stK 0xC00 0 lr0).ctx? 1 = none ∧ State.reset.ctx? 0 = none)) ∧
    (recOk (readRecord { stK 0xC00 0 lr0 with ctxs := [] } 0 0xC00 .control) = 1 ∧ freeTwill (stK 0xC00 0 lr0) 0 true = some 5) := by
  refine ⟨?_, ⟨stJ_saved, by decide +kernel, by decide +kernel, by decide +kernel⟩, ?_, ?_⟩ <;> and_intros <;> decide +kernel

/-! ### Start, registers, encoding and steps -/

/-- Whether an image is good is decided by the opaque digests and signatures of the configuration: both answers are met by case. -/
theorem witness_StartsAndAttestation : (State.reset.sys.state = 0 ∧ State.reset.running = true ∧ State.reset.sys.attest = none) ∧
    (∀ img, imageOk img = true ∨ imageOk img = false) ∧
    (∀ c ∈ [false, true], ∀ n ∈ [2, 5, 6, 8], ({ start := some ⟨c, n, none⟩ } : Sys).start = some ⟨c, n, none⟩) ∧
    (0x3000 % 192 = 0 ∧ 0x3000 < memTop ∧ reachesReserved 0x3000 4084 = false ∧ reachesReserved (memTop - 192) 4084 = true) :=
  ⟨by decide +kernel, fun img => by cases imageOk img <;> simp, by decide +kernel, by decide +kernel⟩
theorem witness_RegistersAndPower : State.reset.running = true ∧ ({ State.reset with sys := { state := 2 } } : State).running = false ∧
    (State.cluster State.reset 63).pass = 1 := by decide +kernel
theorem witness_DecodeOfEncodeIsTheInstruction : WF (.iadd pT (.vec 63) (.vec 63 19 true) (.scal 63 false) im0) = true ∧
    poolOk .main (toRaw (.iadd pT (.vec 63) (.vec 63 19 true) (.scal 63 false) im0)).op.toNat = true := by decide +kernel

def stN (w : Nat) : State := State.reset.withFetchWord 64 w
/-- The pool, words and pc that an issue turn fetches: the words decode, or decode to none. -/
def turnOf (w : Nat) : Option (Bool × Bool) :=
  let s := stN w
  match s.sched.agenda with
  | .issue tid gid lead :: rest =>
      let u := { s with sched := { s.sched with now := s.sched.now + 1, cur := {}, agenda := rest } }
      let v := { u with sched := { u.sched with cur := ⟨tid, gid, lead⟩ } }
      v.iss.bind (fun i =>
        match issuables u, fetchInstr v i.team.ctx i.team.place.core i.gang.ra.isSome i.frag.pc.toNat with
        | [c], (.words ws, _) => some (issuable v tid i.team gid i.gang i.frag && i.gang.deliver.isNone && i.gang.entry.isNone
              && !stfaultReady v i.gang && i.frag.wait != .regang && c.tid == tid && c.gid == gid && c.lead == lead
              && (candFrag u c).any (fun f => f.mask.getLsbD c.lead),
            match decode i.team.place.pool ws with | .ok _ => true | .error _ => false)
        | _, _ => none)
  | _ => none
/-- Two gangs of one quad, both at their next instruction. -/
def stQ2 : State := st gm (fun t => { t with gangs := t.gangs ++ [(4, gm)] })
theorem witness_StepRunsTheDecodedInstruction : (turnOf 0x081C089001080000 = some (true, true) ∧ turnOf 0xFFFFFFFFFFFFFFFF = some (true, false)) ∧
    (0x3000 < globalTop ∧ translate (st gm) 0 0 (0x3000 / 12288) false = .hit (.normal 12288 1 true true) 1 ∧
      landing (st gm) 0 0x3000 .fetch (fun _ _ => false) (.normal 12288 1 true true) = .ok (.dev 0x3000) ∧
      readyAns (homeReady (st gm) (.dev 64) 0 8 false) = true) ∧
    ((issuables stQ2).length = 2 ∧ (∀ e ∈ issuables stQ2, (attempt stQ2 e).isNone) ∧ ∀ c ∈ issuables stQ2, (frontOf stQ2 c).admits stQ2 c = true) ∧
    (isAgent .faultRecordWrite = true ∧ (candidates (st gm)).length ≠ 0 ∧ (candidates State.reset).length = 0) := by and_intros <;> decide +kernel
theorem witness_EveryStepKeepsMemoriesCanonical : State.reset.allWf = true ∧ goesOn (step State.reset) = true ∧ (stN 0x081C089001080000).allWf = true := by
  and_intros <;> decide +kernel

end Sys2Proof.Tests
end

/-! ### Integer results as their rules write them (R300 to R303), and the slice instructions over operands -/

namespace Sys2Proof.Machine

/-! A slice instruction that runs as arithmetic on values has its slice's effect, once its lane function is the slice's. -/

section
variable {ins : Instr} {p : Pred} {d : Dst} {wide : Bool} {a b c : Opnd}

theorem runsAs_of1 {f g : Quad → Lane} (hexec : ∀ s, exec ins s = alu1 s p d wide a f) (hfg : ∀ x, f x = g x) :
    RunsAs ins (.of1 p d wide a g) := by
  obtain rfl : f = g := funext hfg
  intro s i hi hgo
  rw [hexec]
  exact alu_effect hi p d wide [a] _ hgo

theorem runsAs_of2 {f g : Quad → Quad → Lane} (hexec : ∀ s, exec ins s = alu2 s p d wide a b f)
    (hfg : ∀ x y, f x y = g x y) : RunsAs ins (.of2 p d wide a b g) := by
  obtain rfl : f = g := funext₂ hfg
  intro s i hi hgo
  rw [hexec]
  exact alu_effect hi p d wide [a, b] _ hgo

theorem runsAs_of3 {f g : Quad → Quad → Quad → Lane} (hexec : ∀ s, exec ins s = alu3 s p d wide a b c f)
    (hfg : ∀ x y z, f x y z = g x y z) : RunsAs ins (.of3 p d wide a b c g) := by
  obtain rfl : f = g := funext₃ hfg
  intro s i hi hgo
  rw [hexec]
  exact alu_effect hi p d wide [a, b, c] _ hgo
end

/-! The arithmetic group (R300). -/

theorem IntMod.width_pos (m : IntMod) : 0 < IntMod.width m := by unfold IntMod.width; split <;> decide
theorem IntMod.width_le (m : IntMod) : IntMod.width m ≤ 64 := by unfold IntMod.width; split <;> decide

/-- The extension of the arithmetic group's operands. -/
theorem extOf_width (m : IntMod) (x : Quad) : extOf m.u (IntMod.width m) x = extBits m.u (if m.q then 64 else 32) x :=
  extOf_eq_extBits m.u _ (IntMod.width_pos m) x

theorem iaddL_eq (m : IntMod) (x y : Quad) :
    iaddL m x y = arithResult m (extBits m.u (if m.q then 64 else 32) x + extBits m.u (if m.q then 64 else 32) y) := by
  simp only [iaddL, extOf_width, arith_eq_arithResult]

theorem isubL_eq (m : IntMod) (x y : Quad) :
    isubL m x y = arithResult m (extBits m.u (if m.q then 64 else 32) x - extBits m.u (if m.q then 64 else 32) y) := by
  simp only [isubL, extOf_width, arith_eq_arithResult]

theorem iminL_eq (m : IntMod) (x y : Quad) :
    iminL m x y = arithResult m (min (extBits m.u (if m.q then 64 else 32) x) (extBits m.u (if m.q then 64 else 32) y)) := by
  simp only [iminL, extOf_width, arith_eq_arithResult]

theorem imaxL_eq (m : IntMod) (x y : Quad) :
    imaxL m x y = arithResult m (max (extBits m.u (if m.q then 64 else 32) x) (extBits m.u (if m.q then 64 else 32) y)) := by
  simp only [imaxL, extOf_width, arith_eq_arithResult]

theorem imulL_eq (x y : Quad) : imulL x y = modulo 32 (extBits false 32 x * extBits false 32 y) := by
  rw [imulL, wrap_eq_modulo 32 (by decide), sextNat_eq_extBits 32 (by decide), sextNat_eq_extBits 32 (by decide)]

theorem imulhL_eq (m : IntMod) (x y : Quad) :
    imulhL m x y = modulo 32 (extBits m.u 32 x * extBits m.u 32 y / 2 ^ 32) := by
  rw [imulhL, wrap_eq_modulo 32 (by decide), fdiv_pow, extOf_eq_extBits _ 32 (by decide), extOf_eq_extBits _ 32 (by decide)]
  rfl

/-- The absolute value that IABS takes (R300). -/
theorem arith_natAbs_eq (m : IntMod) (x : Quad) :
    arith m (((sextNat x.toNat 32).natAbs : Nat) : Int) = arithResult m |extBits false 32 x| := by
  rw [arith_eq_arithResult, Int.natCast_natAbs, sextNat_eq_extBits 32 (by decide)]

theorem arith_neg_eq (m : IntMod) (x : Quad) : arith m (-(sextNat x.toNat 32)) = arithResult m (-extBits false 32 x) := by
  rw [arith_eq_arithResult, sextNat_eq_extBits 32 (by decide)]

/-! The bitwise, shift and counting instructions (R301). -/

theorem number_zero : number 0 = {} := rfl

theorem shlL_eq (w : Nat) (x y : Quad) :
    shlL w x y = number (x.toNat % 2 ^ w * 2 ^ (y.toNat % 2 ^ 32) % 2 ^ w) := by
  unfold shlL
  generalize y.toNat % 2 ^ 32 = n
  dsimp only
  split
  · next h => rw [Nat.mod_eq_zero_of_dvd ((Nat.pow_dvd_pow 2 h).mul_left _), number_zero]
  · rfl

theorem shrL_eq (w : Nat) (x y : Quad) : shrL w x y = number (x.toNat % 2 ^ w / 2 ^ (y.toNat % 2 ^ 32)) := by
  unfold shrL
  generalize y.toNat % 2 ^ 32 = n
  dsimp only
  split
  · next h =>
    have hlt : x.toNat % 2 ^ w < 2 ^ n := (Nat.mod_lt _ (by positivity)).trans_le (Nat.pow_le_pow_right (by decide) h)
    rw [Nat.div_eq_of_lt hlt, number_zero]
  · rfl

/-- Once every bit of a number has been shifted out, its sign is left, whatever the count. -/
theorem ediv_two_pow_sign {x : Int} {n : Nat} (hlo : -(2 ^ n : Nat) ≤ x) (hhi : x < (2 ^ n : Nat)) :
    x / (2 ^ n : Nat) = if x < 0 then -1 else 0 := by
  split
  · next h => rw [Int.ediv_eq_iff_of_pos (by positivity)]; omega
  · next h => exact Int.ediv_eq_zero_of_lt (by omega) hhi

theorem ediv_two_pow_min {x : Int} {w n : Nat} (hlo : -(2 ^ w : Nat) ≤ x) (hhi : x < (2 ^ w : Nat)) :
    x / (2 ^ min w n : Nat) = x / (2 ^ n : Nat) := by
  rcases Nat.le_total n w with h | h
  · rw [Nat.min_eq_right h]
  · have hpow : 2 ^ w ≤ 2 ^ n := Nat.pow_le_pow_right (by decide) h
    rw [Nat.min_eq_left h, ediv_two_pow_sign hlo hhi, ediv_two_pow_sign (by omega) (by omega)]

theorem extBits_signed_bounds (w : Nat) (x : Quad) :
    -(2 ^ w : Nat) ≤ extBits false w x ∧ extBits false w x < (2 ^ w : Nat) := by
  have hpow : (2 : Int) ^ (w - 1) ≤ 2 ^ w := pow_le_pow_right₀ (by decide) (Nat.sub_le ..)
  have hlo := BitVec.le_toInt (x.setWidth w)
  have hhi := BitVec.toInt_lt (x := x.setWidth w)
  simp only [extBits, Bool.false_eq_true, if_false]
  push_cast
  omega

theorem sarL_eq (w : Nat) (hpos : 0 < w) (hle : w ≤ 64) (x y : Quad) :
    sarL w x y = modulo w (extBits false w x / (2 ^ (y.toNat % 2 ^ 32) : Nat)) := by
  obtain ⟨hlo, hhi⟩ := extBits_signed_bounds w x
  rw [sarL, wrap_eq_modulo w hle, fdiv_pow, sextNat_eq_extBits w hpos, ediv_two_pow_min hlo hhi]

theorem length_filter_eq_sum {α : Type} (q : α → Bool) (l : List α) :
    (l.filter q).length = (l.map (fun i => if q i then 1 else 0)).sum := by
  induction l with
  | nil => rfl
  | cons i l ih => cases h : q i <;> simp [h, ih, Nat.add_comm]

theorem popcount_eq_oneBits (w : Nat) (x : Quad) : popcount w x.toNat = oneBits w x := length_filter_eq_sum ..

theorem foldl_add_if_eq_sum (q : Nat → Bool) (v : Nat → Nat) (l : List Nat) (n : Nat) :
    l.foldl (fun n i => if q i then n + v i else n) n = n + (l.map (fun i => if q i then v i else 0)).sum := by
  induction l generalizing n with
  | nil => rfl
  | cons i l ih => cases h : q i <;> simp [h, ih, Nat.add_assoc]

theorem brev_eq_reversed (w : Nat) (x : Quad) : brev w x.toNat = reversed w x := by
  rw [brev, foldl_add_if_eq_sum, Nat.zero_add]
  rfl

/-! The three-source and the field instructions (R302, R303). -/

theorem byteDiff_eq_byteGap (x y : Quad) (n : Nat) : byteDiff x y n = byteGap x y n := by
  unfold byteDiff byteGap
  dsimp only
  omega

theorem isadL_eq (x y z : Quad) :
    isadL x y z = number ((z.toNat + ((List.range 4).map (byteGap x y)).sum) % 2 ^ 32) := by
  simp only [isadL, number, byteDiff_eq_byteGap, List.range_succ, List.range_zero, List.nil_append, List.cons_append,
    List.map_cons, List.map_nil, List.sum_cons, List.sum_nil, Nat.add_assoc, Nat.add_zero]

theorem imadL_eq (x y z : Quad) : bitsL 32 (x * y + z) = number ((x.toNat * y.toNat + z.toNat) % 2 ^ 32) := by
  unfold bitsL number
  rw [BitVec.toNat_add, BitVec.toNat_mul, Nat.mod_add_mod, Nat.mod_mod_of_dvd _ (by decide)]

theorem imadwL_eq (u : Bool) (x y D : Quad) :
    wrap 64 (D.toNat + extOf u 32 x * extOf u 32 y) = modulo 64 (D.toNat + extBits u 32 x * extBits u 32 y) := by
  rw [wrap_eq_modulo 64 (by decide), extOf_eq_extBits _ 32 (by decide), extOf_eq_extBits _ 32 (by decide)]

/-- A number below 2^32 is its own value modulo 2^32. -/
theorem modulo_natCast {n : Nat} (h : n < 2 ^ 32) : modulo 32 n = number n := by
  unfold modulo number
  congr 1
  apply BitVec.eq_of_toNat_eq
  rw [BitVec.toNat_setWidth, BitVec.toNat_ofInt, BitVec.toNat_ofNat]
  omega

theorem sextNat_of_lt {f len : Nat} (h : f < 2 ^ len) :
    sextNat f len = if f < 2 ^ (len - 1) then (f : Int) else (f : Int) - (2 ^ len : Nat) := by
  simp only [sextNat, Nat.mod_eq_of_lt h]

theorem bfeL_eq (u : Bool) (x y : Quad) :
    bfeL u x y = modulo 32
      (if u ∨ bfLen y = 0 ∨ extBits u 32 x / (2 ^ bfPos y : Nat) % (2 ^ bfLen y : Nat) < (2 ^ (bfLen y - 1) : Nat)
       then extBits u 32 x / (2 ^ bfPos y : Nat) % (2 ^ bfLen y : Nat)
       else extBits u 32 x / (2 ^ bfPos y : Nat) % (2 ^ bfLen y : Nat) - (2 ^ bfLen y : Nat)) := by
  have hlen : 2 ^ bfLen y ≤ 2 ^ 32 := Nat.pow_le_pow_right (by decide) (Nat.min_le_right ..)
  have hpos : (0 : Int) < (2 ^ bfLen y : Nat) := by positivity
  unfold bfeL
  rw [fdiv_pow, extOf_eq_extBits u 32 (by decide)]
  generalize hF : extBits u 32 x / (2 ^ bfPos y : Nat) % (2 ^ bfLen y : Nat) = F
  obtain ⟨f, rfl⟩ : ∃ f : Nat, F = f := Int.eq_ofNat_of_zero_le (hF ▸ Int.emod_nonneg _ hpos.ne')
  have hf : f < 2 ^ bfLen y := by exact_mod_cast hF ▸ Int.emod_lt_of_pos _ hpos
  dsimp only
  rw [hF, Int.toNat_natCast]
  by_cases hu : u = true ∨ bfLen y = 0
  · rw [if_pos hu, if_pos (hu.imp_right .inl), modulo_natCast (by omega)]
    rfl
  · rw [if_neg hu, wrap_eq_modulo 32 (by decide), sextNat_of_lt hf]
    have hiff : (u = true ∨ bfLen y = 0 ∨ (f : Int) < (2 ^ (bfLen y - 1) : Nat)) ↔ f < 2 ^ (bfLen y - 1) := by
      rw [← or_assoc, or_iff_right hu, Int.ofNat_lt]
    simp only [hiff]

theorem bfiL_eq (x y z : Quad) :
    bfiL x y z =
      { val := ((loWord z &&& ~~~BitVec.ofNat 32 ((2 ^ bfLen y - 1) * 2 ^ bfPos y))
          ||| (BitVec.ofNat 32 (x.toNat * 2 ^ bfPos y) &&& BitVec.ofNat 32 ((2 ^ bfLen y - 1) * 2 ^ bfPos y))).setWidth 64 } := by
  unfold bfiL
  generalize (2 ^ bfLen y - 1) * 2 ^ bfPos y = m
  generalize bfPos y = k
  dsimp only
  congr 1
  apply BitVec.eq_of_getLsbD_eq
  intro j hj
  simp only [loWord, BitVec.getLsbD_setWidth, BitVec.getLsbD_or, BitVec.getLsbD_and, BitVec.getLsbD_not,
    BitVec.getLsbD_extractLsb', BitVec.getLsbD_ofNat, Nat.testBit_or, Nat.testBit_and, Nat.testBit_xor,
    Nat.testBit_mod_two_pow, Nat.testBit_two_pow_sub_one, Nat.testBit_mul_two_pow, BitVec.testBit_toNat]
  by_cases h32 : j < 32
  · have hjk : j - k < 32 := by omega
    simp [h32, hjk, hj]
  · simp [h32]

/-! ### The three integer statements -/

/-- Settles O1: each instruction of the group runs as `alu`, and its lane function is R300's. -/
theorem arithmeticGroupResultAndFrame : Obligations.ArithmeticGroupResultAndFrame := by
  intro i x h
  unfold arithSlice at h
  split at h <;> cases h
  next p d a b m => exact runsAs_of2 (fun _ => rfl) (iaddL_eq m)
  next p d a b m => exact runsAs_of2 (fun _ => rfl) (isubL_eq m)
  next p d a b => exact runsAs_of2 (fun _ => rfl) imulL_eq
  next p d a b m => exact runsAs_of2 (fun _ => rfl) (imulhL_eq m)
  next p d a b m => exact runsAs_of2 (fun _ => rfl) (iminL_eq m)
  next p d a b m => exact runsAs_of2 (fun _ => rfl) (imaxL_eq m)
  next p d a m => exact runsAs_of1 (fun _ => rfl) (arith_natAbs_eq m)
  next p d a m => exact runsAs_of1 (fun _ => rfl) (arith_neg_eq m)

/-- Settles O2: each instruction runs as `alu`, and its lane function is R301's. -/
theorem bitwiseShiftCountResultAndFrame : Obligations.BitwiseShiftCountResultAndFrame := by
  intro i x h
  unfold bitsSlice at h
  dsimp only at h
  split at h <;> cases h
  next p d a b m => exact runsAs_of2 (fun _ => rfl) (fun _ _ => rfl)
  next p d a b m => exact runsAs_of2 (fun _ => rfl) (fun _ _ => rfl)
  next p d a b m => exact runsAs_of2 (fun _ => rfl) (fun _ _ => rfl)
  next p d a b m => exact runsAs_of2 (fun _ => rfl) (fun _ _ => rfl)
  next p d a m => exact runsAs_of1 (fun _ => rfl) (fun _ => rfl)
  next p d a b m => exact runsAs_of2 (fun _ => rfl) (shlL_eq _)
  next p d a b m => exact runsAs_of2 (fun _ => rfl) (shrL_eq _)
  next p d a b m => exact runsAs_of2 (fun _ => rfl) (sarL_eq _ (IntMod.width_pos m) (IntMod.width_le m))
  next p d a b m => exact runsAs_of2 (fun _ => rfl) (fun _ _ => rfl)
  next p d a m => exact runsAs_of1 (fun _ => rfl) (fun x => congrArg number (popcount_eq_oneBits _ x))
  next p d a m => exact runsAs_of1 (fun _ => rfl) (fun _ => rfl)
  next p d a m => exact runsAs_of1 (fun _ => rfl) (fun x => congrArg number (brev_eq_reversed _ x))

/-- Settles O3: each instruction runs as `alu`, and its lane function is R302's or R303's. -/
theorem threeSourceAndFieldResultAndFrame : Obligations.ThreeSourceAndFieldResultAndFrame := by
  intro i x h
  unfold wideSlice at h
  split at h <;> cases h
  next p d a b c => exact runsAs_of3 (fun _ => rfl) imadL_eq
  next p d a b m => exact runsAs_of3 (fun _ => rfl) (imadwL_eq m.u)
  next p d a b c => exact runsAs_of3 (fun _ => rfl) isadL_eq
  next p d a b c => exact runsAs_of3 (fun _ => rfl) (fun _ _ _ => rfl)
  next p d a b m => exact runsAs_of2 (fun _ => rfl) (bfeL_eq m.u)
  next p d a b c => exact runsAs_of3 (fun _ => rfl) bfiL_eq

end Sys2Proof.Machine

/-! ### Instructions over the active fibres together (R292 to R294) -/

namespace Sys2Proof.Machine

theorem allSome_map_some {α β : Type} {f : α → Option β} {g : α → β} {l : List α} (h : ∀ x ∈ l, f x = some (g x)) :
    allSome (l.map f) = some (l.map g) := by
  induction l with
  | nil => rfl
  | cons x l ih =>
      rw [List.map_cons, h x (by simp), allSome, ih fun y hy => h y (by simp [hy])]
      rfl

/-- An operand whose registers are FULL has the value that the statements read. -/
theorem opndVal_eq_valueOf {i : Iss} {o : Opnd} {f : Nat}
    (h : ∀ r ∈ regsOf i.team.S i.gang o f, (i.gang.reg r).fe = .full) :
    opndVal i.team.S i.gang o f = some (valueOf i o f) := by
  obtain ⟨q, hq⟩ := opndVal_full h
  rw [valueOf, hq, Option.getD_some]

theorem needsOf_single (S : Nat) (g : Gang) (o : Opnd) (f : Nat) :
    needsOf S g [o] f = (regsOf S g o f).map (fun r => ⟨f, o.pos, o.src.ea, r⟩) := by
  simp [needsOf]

theorem opndVal_of_needs {i : Iss} {o : Opnd} {f : Nat}
    (h : ∀ n ∈ needsOf i.team.S i.gang [o] f, (i.gang.reg n.ref).fe = .full) :
    opndVal i.team.S i.gang o f = some (valueOf i o f) :=
  opndVal_eq_valueOf fun r hr => h ⟨f, o.pos, o.src.ea, r⟩ (by rw [needsOf_single]; exact List.mem_map_of_mem hr)

/-- A register that some lane needs is FULL. -/
theorem Slice.Go.full {x : Slice} {i : Iss} (hgo : x.Go i) {f : Nat} (hf : f ∈ x.lanes i) {n : Need} (hn : n ∈ x.needs i f) :
    (i.gang.reg n.ref).fe = .full :=
  (hgo.1 n (List.mem_flatMap.mpr ⟨f, hf, hn⟩)).1

theorem Slice.exists_head_of_mem_lanes {x : Slice} {i : Iss} {f : Nat} (h : f ∈ x.lanes i) :
    ∃ e, (active i x.p).head? = some e := by
  unfold Slice.lanes at h
  cases ha : active i x.p with
  | nil => simp [ha] at h
  | cons e t => exact ⟨e, rfl⟩

/-- The lowest active fibre is computed for, even where a scalar destination takes one fibre alone (R192). -/
theorem Slice.head_mem_lanes {x : Slice} {i : Iss} {f : Nat} (h : (active i x.p).head? = some f) : f ∈ x.lanes i := by
  obtain ⟨t, ht⟩ := List.head?_eq_some_iff.mp h
  unfold Slice.lanes
  split <;> simp [ht]

/-- A slice instruction has its slice's effect where the issue asks, lane by lane, for the slice's registers and finds its values. -/
theorem runsAs_of_lanesWith {ins : Instr} {x : Slice} (hpd : x.pd.isSome → ∀ n, x.d ≠ .pred n)
    (needs : Iss → Nat → List Need) (val : Iss → Nat → Option Lane)
    (hexec : ∀ s i, Issues s i → exec ins s = finish i (lanesWith s i x.p x.d x.wide x.pd (needs i) (val i) x.words))
    (hneeds : ∀ i, x.Go i → ∀ f ∈ x.lanes i, needs i f = x.needs i f)
    (hval : ∀ i, i.gang.ra = none → x.Go i → ∀ f ∈ x.lanes i, val i f = some (x.lane i f)) : RunsAs ins x := by
  intro s i hi hgo
  let y : Slice := { x with needs }
  have hflat : (y.lanes i).flatMap (y.needs i) = (x.lanes i).flatMap (x.needs i) :=
    List.flatMap_congr (hneeds i hgo)
  have hgoy : y.Go i := ⟨hflat ▸ hgo.1, hgo.2⟩
  obtain ⟨t, hrun, heff⟩ := lanesWith_effect hi y i.team.two_le_S hgoy hpd (val i) (hval i hi.2 hgo)
  exact ⟨t, (hexec s i hi).trans (congrArg (finish i) hrun), heff⟩

/-! VOTE and RFL. -/

/-- What VOTE makes of the fibres' truth values (R292). -/
def voteOf (m : VoteMode) (l : List (Nat × Bool)) : Quad :=
  match m with
  | .any => if l.any (·.2) then 1 else 0
  | .all => if l.all (·.2) then 1 else 0
  | .ballot => maskOf ((l.filter (·.2)).map (·.1))

/-- What VOTE finds, where every active fibre's operand is known. -/
def voteVal (p : Pred) (a : Src) (m : VoteMode) (i : Iss) : Option Quad :=
  (if (unsure i p).isEmpty then
    allSome ((active i p).map (fun f => (opndVal i.team.S i.gang (opA a) f).map (fun v => (f, v != 0)))) else none).map (voteOf m)

theorem execVote_eq (p : Pred) (d : Dst) (a : Src) (m : VoteMode) (s : State) :
    exec (.vote p d a m) s = withIss s fun i =>
      lanesWith s i p d (m == .ballot) none
        (fun f => if (active i p).head? = some f then (active i p).flatMap (needsOf i.team.S i.gang [opA a]) else [])
        (fun _ => (voteVal p a m i).map (fun v => { val := v })) (wordsOf [a]) := rfl

theorem voteVal_full {p : Pred} {a : Src} {m : VoteMode} {i : Iss} (hra : i.gang.ra = none)
    (h : ∀ f ∈ active i p, opndVal i.team.S i.gang (opA a) f = some (valueOf i (opA a) f)) :
    voteVal p a m i = some (voteOf m ((active i p).map (fun f => (f, valueOf i (opA a) f != 0)))) := by
  have hall := allSome_map_some (f := fun f => (opndVal i.team.S i.gang (opA a) f).map (fun v => (f, v != 0)))
    (g := fun f => (f, valueOf i (opA a) f != 0)) (l := active i p) (fun f hf => by rw [h f hf, Option.map_some])
  rw [voteVal, unsure_none hra, if_pos List.isEmpty_nil, hall, Option.map_some]

theorem vote_runsAs (p : Pred) (d : Dst) (a : Src) (m : VoteMode) {x : Slice} (hx : crossSlice (.vote p d a m) = some x) :
    RunsAs (.vote p d a m) x := by
  cases hx
  refine runsAs_of_lanesWith (by simp) _ (fun i _ => (voteVal p a m i).map (fun v => { val := v }))
    (fun s i hi => by rw [execVote_eq, withIss_issues hi.1]) (fun _ _ _ _ => rfl) (fun i hra hgo f hf => ?_)
  obtain ⟨e, he⟩ := Slice.exists_head_of_mem_lanes hf
  have hknown : ∀ g ∈ active i p, opndVal i.team.S i.gang (opA a) g = some (valueOf i (opA a) g) := fun g hg =>
    opndVal_of_needs fun n hn => hgo.full (Slice.head_mem_lanes he) (by
      simp only [he, if_true]; exact List.mem_flatMap.mpr ⟨g, hg, hn⟩)
  rw [voteVal_full hra hknown]
  cases m <;> simp [voteOf, valueOf, List.filter_map, Function.comp_def]

/-- What RFL finds: the operand of the lowest active fibre (R293). -/
def rflVal (p : Pred) (a : Src) (q : Bool) (i : Iss) : Option Quad :=
  if (unsure i p).isEmpty then (active i p).head?.bind (opndVal i.team.S i.gang (opA a q)) else none

theorem rfl_runsAs (p : Pred) (d : Dst) (a : Src) (q : Bool) {x : Slice} (hx : crossSlice (.rfl p d a q) = some x) :
    RunsAs (.rfl p d a q) x := by
  cases hx
  refine runsAs_of_lanesWith (by simp) _ (fun i _ => (rflVal p a q i).map (fun v => { val := v }))
    (fun s i hi => withIss_issues hi.1 _) (fun _ _ _ _ => rfl) (fun i hra hgo f hf => ?_)
  obtain ⟨e, he⟩ := Slice.exists_head_of_mem_lanes hf
  have hknown : opndVal i.team.S i.gang (opA a q) e = some (valueOf i (opA a q) e) :=
    opndVal_of_needs fun n hn => hgo.full (Slice.head_mem_lanes he) (by simpa only [he, if_true] using hn)
  simp only [rflVal, unsure_none hra, List.isEmpty_nil, if_true, he, Option.bind_some, hknown, Option.map_some, Option.getD_some]

/-! SHFL. -/

/-- The fibre that SHFL reads for fibre f, where its register operand is known (R294). -/
def shflSees (i : Iss) (b : Src) (m : ShflMode) (f : Nat) : Option (Nat × Bool) :=
  (opndVal i.team.S i.gang (opB b) f).map fun B =>
    match shflFib m f B.toNat with
    | some j => if j < 64 ∧ i.frag.mask.getLsbD j then (j, true) else (f, false)
    | none => (f, false)

/-- The registers that SHFL asks for: those of its source once its index is FULL. -/
def shflNeeds (i : Iss) (a b : Src) (q : Bool) (m : ShflMode) (f : Nat) : List Need :=
  (if (needsOf i.team.S i.gang [opB b] f).all (fun n => (i.gang.reg n.ref).fe == .full) then
    match shflSees i b m f with
    | some e => (regsOf i.team.S i.gang (opA a q) e.1).map (fun r => ⟨f, 0, a.ea, r⟩)
    | none => []
  else []) ++ needsOf i.team.S i.gang [opB b] f

def shflVal (i : Iss) (a b : Src) (q : Bool) (m : ShflMode) (f : Nat) : Option Lane :=
  (shflSees i b m f).bind (fun e => (opndVal i.team.S i.gang (opA a q) e.1).map (fun v => { val := v, ok := e.2 }))

theorem execShfl_plain {s : State} {i : Iss} (hi : s.iss = some i) (p : Pred) (d : Dst) (r : BitVec 6) (ea : Bool) (b : Src) (q : Bool)
    (pd : BitVec 3) (m : ShflMode) :
    exec (.shfl p d (.vec r 0 ea) b q pd m) s = finish i (lanesWith s i p d q (if pd = 7 then none else some pd)
      (shflNeeds i (.vec r 0 ea) b q m) (shflVal i (.vec r 0 ea) b q m) (wordsOf [.vec r 0 ea, b])) := by
  refine (withIss_issues hi _).trans ?_
  cases (active i p).head? <;> rfl

theorem execShfl_permuted {s : State} {i : Iss} (hi : s.iss = some i) {p : Pred} (d : Dst) (r : BitVec 6) {c : BitVec 5} (hc : c ≠ 0)
    (ea : Bool) (b : Src) (q : Bool) (pd : BitVec 3) (m : ShflMode) {f : Nat} (hf : (active i p).head? = some f) :
    exec (.shfl p d (.vec r c ea) b q pd m) s =
      finish i ((checked s i ((active i p).flatMap (shflNeeds i (.vec r c ea) b q m)) []).bind
        (fun _ s => .trap (illopnd 5 f) s)) := by
  refine (withIss_issues hi _).trans ?_
  have hbad : (c != 0) = true := by simpa using hc
  simp only [hf, hbad]
  rfl

/-- Where the fibre that R294 computes is no negative number, R294's choice is the model's. -/
theorem pick_natCast (i : Iss) (f n : Nat) :
    (if 0 ≤ (n : Int) ∧ (n : Int) ≤ 63 ∧ i.frag.mask.getLsbD (n : Int).toNat then ((n : Int).toNat, true) else (f, false))
      = if n < 64 ∧ i.frag.mask.getLsbD n then (n, true) else (f, false) := by
  have hiff : (0 ≤ (n : Int) ∧ (n : Int) ≤ 63) ↔ n < 64 := by omega
  simp only [← and_assoc, hiff, Int.toNat_natCast]

/-- The fibre that the model names is the one that R294 names, and it lies in the fragment in the same cases. -/
theorem shflSees_eq {i : Iss} {b : Src} {m : ShflMode} {f : Nat}
    (h : opndVal i.team.S i.gang (opB b) f = some (valueOf i (opB b) f)) :
    shflSees i b m f = some (shflPick i m f (valueOf i (opB b) f).toNat) := by
  rw [shflSees, h, Option.map_some]
  generalize (valueOf i (opB b) f).toNat = B
  congr 1
  unfold shflPick
  cases m with
  | idx => exact (pick_natCast i f B).symm
  | up =>
    by_cases hle : B ≤ f
    · simp only [shflFib, if_pos hle, ← Int.ofNat_sub hle]
      exact (pick_natCast i f (f - B)).symm
    · have hneg : ¬ (0 : Int) ≤ (f : Int) - B := by omega
      simp only [shflFib, if_neg hle, hneg, false_and, if_false]
  | down => exact (pick_natCast i f (f + B)).symm
  | xor => exact (pick_natCast i f (f ^^^ B)).symm

section
variable {i : Iss} {p : Pred} {d : Dst} {a b : Src} {q : Bool} {pd : BitVec 3} {m : ShflMode} {f : Nat}

theorem shflSees_of_needs (h : ∀ n ∈ (shflSlice p d a b q pd m).needs i f, (i.gang.reg n.ref).fe = .full) :
    shflSees i b m f = some (shflPick i m f (valueOf i (opB b) f).toNat) :=
  shflSees_eq (opndVal_of_needs fun n hn => h n (List.mem_append_right _ hn))

theorem shflNeeds_eq (h : ∀ n ∈ (shflSlice p d a b q pd m).needs i f, (i.gang.reg n.ref).fe = .full) :
    shflNeeds i a b q m f = (shflSlice p d a b q pd m).needs i f := by
  have hfull : (needsOf i.team.S i.gang [opB b] f).all (fun n => (i.gang.reg n.ref).fe == .full) = true :=
    List.all_eq_true.mpr fun n hn => by simp [h n (List.mem_append_right _ hn)]
  rw [shflNeeds, if_pos hfull, shflSees_of_needs h]
  rfl

theorem shflVal_eq (h : ∀ n ∈ (shflSlice p d a b q pd m).needs i f, (i.gang.reg n.ref).fe = .full) :
    shflVal i a b q m f = some ((shflSlice p d a b q pd m).lane i f) := by
  have hval : opndVal i.team.S i.gang (opA a q) (shflPick i m f (valueOf i (opB b) f).toNat).1
      = some (valueOf i (opA a q) (shflPick i m f (valueOf i (opB b) f).toNat).1) :=
    opndVal_eq_valueOf fun r hr => h ⟨f, 0, a.ea, r⟩ (List.mem_append_left _ (List.mem_map_of_mem hr))
  rw [shflVal, shflSees_of_needs h, Option.bind_some, hval]
  rfl
end

theorem shfl_runsAs (p : Pred) (r a : BitVec 6) (ea : Bool) (b : Src) (q : Bool) (pd : BitVec 3) (m : ShflMode) :
    RunsAs (.shfl p (.vec r) (.vec a 0 ea) b q pd m) (shflSlice p (.vec r) (.vec a 0 ea) b q pd m) :=
  runsAs_of_lanesWith (fun _ _ h => Dst.noConfusion h) (fun i => shflNeeds i (.vec a 0 ea) b q m)
    (fun i => shflVal i (.vec a 0 ea) b q m) (fun _ _ hi => execShfl_plain hi.1 ..)
    (fun _ hgo _ hf => shflNeeds_eq fun _ hn => hgo.full hf hn) (fun _ _ hgo _ hf => shflVal_eq fun _ hn => hgo.full hf hn)

theorem raise_outside_runAhead (s : State) {i : Iss} (h : i.gang.ra = none) (t : TrapInfo) :
    raise s i t = takeTrap s i.tid i.gid i.frag t false := by
  simp [raise, h]

/-- A permuted source traps once SHFL's registers are ready (R290). -/
theorem shfl_permuted_traps {s : State} {i : Iss} (hi : Issues s i) {p : Pred} {d : Dst} {r : BitVec 6} {c : BitVec 5} {ea : Bool} {b : Src}
    {q : Bool} {pd : BitVec 3} {m : ShflMode} {f : Nat} (hc : c ≠ 0) (hf : (active i p).head? = some f)
    (hready : Ready i.gang ((active i p).flatMap ((shflSlice p d (.vec r c ea) b q pd m).needs i)) []) :
    exec (.shfl p d (.vec r c ea) b q pd m) s = .next (takeTrap s i.tid i.gid i.frag (illopnd 5 f) false) := by
  have hneeds : (active i p).flatMap (shflNeeds i (.vec r c ea) b q m)
      = (active i p).flatMap ((shflSlice p d (.vec r c ea) b q pd m).needs i) :=
    List.flatMap_congr fun e he => shflNeeds_eq fun n hn => (hready.1 n (List.mem_flatMap.mpr ⟨e, he, hn⟩)).1
  rw [execShfl_permuted hi.1 d r hc ea b q pd m hf, hneeds, checked_ready hi.1 hready, ← raise_outside_runAhead s hi.2]
  rfl

/-- Settles O6: VOTE and RFL from what the lowest active fibre needs, SHFL from the fibre that R294 names. -/
theorem crossFibreResultAndFrame : Obligations.CrossFibreResultAndFrame := by
  refine ⟨fun ins x h => ?_, shfl_runsAs, fun _ _ _ _ _ _ _ _ _ _ _ _ hi hc hf hready => shfl_permuted_traps hi hc hf hready⟩
  have hform := h
  unfold crossSlice at hform
  split at hform
  next p d a m => exact vote_runsAs p d a m h
  next p d a q => exact rfl_runsAs p d a q h
  next => cases hform

end Sys2Proof.Machine

/-! ### Branches and the splits of a fragment (R184, R280, R281) -/

namespace Sys2Proof.Machine

/-! Masks and the order of fragments. -/

theorem getLsbD_maskOf {l : List Nat} {n : Nat} (hn : n < 64) : (maskOf l).getLsbD n = true ↔ n ∈ l := by
  have hbit : ∀ k, (BitVec.ofNat 64 (2 ^ k)).getLsbD n = decide (n = k) := fun k => by
    rw [BitVec.getLsbD_ofNat, Nat.testBit_two_pow]; simp [hn, eq_comm]
  have hfold : ∀ m : BitVec 64, (l.foldl (fun m k => m ||| BitVec.ofNat 64 (2 ^ k)) m).getLsbD n = true
      ↔ m.getLsbD n = true ∨ n ∈ l := by
    induction l with
    | nil => simp
    | cons k l ih => intro m; rw [List.foldl_cons, ih, BitVec.getLsbD_or, hbit]; simp [or_assoc]
  simpa [maskOf] using hfold 0

theorem mem_maskList {m : BitVec 64} {n : Nat} : n ∈ maskList m ↔ n < 64 ∧ m.getLsbD n = true := by
  simp [maskList]

theorem mem_maskList_maskOf {l : List Nat} {n : Nat} : n ∈ maskList (maskOf l) ↔ n < 64 ∧ n ∈ l := by
  rw [mem_maskList]
  exact and_congr_right fun hn => getLsbD_maskOf hn

theorem Frag.lt_of_mem_fibres {x : Frag} {f : Nat} (h : f ∈ x.fibres) : f < 64 := (mem_maskList.mp h).1

theorem mem_insertBy {α : Type} (lt : α → α → Bool) (x y : α) (l : List α) : y ∈ insertBy lt x l ↔ y = x ∨ y ∈ l := by
  induction l with
  | nil => simp [insertBy]
  | cons z l ih =>
      unfold insertBy
      split
      · rw [List.mem_cons, ih, List.mem_cons]; tauto
      · rw [List.mem_cons]

theorem mem_sortBy {α : Type} (lt : α → α → Bool) (y : α) (l : List α) : y ∈ sortBy lt l ↔ y ∈ l := by
  induction l with
  | nil => rfl
  | cons x l ih => rw [sortBy, mem_insertBy, ih, List.mem_cons]

theorem mem_orderFrags {x : Frag} {fs : List Frag} : x ∈ orderFrags fs ↔ x ∈ fs := mem_sortBy ..

/-! The issuing fragment among its gang's. -/

/-- Outside run-ahead the issuing fragment is the one of its gang that holds the leading fibre. -/
theorem State.frag_of_iss {s : State} {i : Iss} (hi : Issues s i) :
    i.frag ∈ i.gang.frags ∧ i.frag.mask.getLsbD s.sched.cur.lead = true := by
  obtain ⟨h, hra⟩ := hi
  simp only [State.iss, Option.bind_eq_bind, Option.bind_eq_some_iff] at h
  obtain ⟨t, -, g, -, h⟩ := h
  split at h
  next r hr => cases h; simp [hr] at hra
  next hr =>
    obtain ⟨f, hf, h⟩ := Option.bind_eq_some_iff.mp h
    cases h
    exact ⟨List.mem_of_find?_eq_some hf, List.find?_some (p := fun x : Frag => x.mask.getLsbD _) hf⟩

/-! The split of a fragment. -/

/-- The fragments that the parts of a split become (R184). -/
def splitParts (x : Frag) (parts : List (List Nat × Quad)) : List Frag :=
  (parts.filter (fun e => !e.1.isEmpty)).map (fun e =>
    { x with mask := maskOf e.1, pc := e.2, passed := 0, young := false, oldest := false, rest := false })

/-- The gang's fragments once the issuing one has become its parts. -/
def splitFrags (s : State) (i : Iss) (parts : List (List Nat × Quad)) : List Frag :=
  orderFrags (i.gang.frags.flatMap (fun x =>
    if x.mask.getLsbD s.sched.cur.lead then splitParts i.frag parts else [x]))

theorem mem_splitParts {x y : Frag} {parts : List (List Nat × Quad)} (h : y ∈ splitParts x parts) :
    y.stack = x.stack ∧ ∃ e ∈ parts, y.pc = e.2 ∧ ∀ f, f ∈ y.fibres ↔ f < 64 ∧ f ∈ e.1 := by
  obtain ⟨e, he, rfl⟩ := List.mem_map.mp h
  exact ⟨rfl, e, (List.mem_filter.mp he).1, rfl, fun f => mem_maskList_maskOf⟩

theorem exists_mem_splitParts (x : Frag) {parts : List (List Nat × Quad)} {e : List Nat × Quad} (he : e ∈ parts) {f : Nat}
    (hf : f ∈ e.1) (h64 : f < 64) : ∃ y ∈ splitParts x parts, f ∈ y.fibres ∧ y.pc = e.2 := by
  have hne : (!e.1.isEmpty) = true := by
    cases hl : e.1 with
    | nil => simp [hl] at hf
    | cons => rfl
  exact ⟨_, List.mem_map_of_mem (List.mem_filter.mpr ⟨he, hne⟩), mem_maskList_maskOf.mpr ⟨h64, hf⟩, rfl⟩

theorem mem_splitFrags {s : State} {i : Iss} {parts : List (List Nat × Quad)} {y : Frag} :
    y ∈ splitFrags s i parts ↔ (∃ x ∈ i.gang.frags, x.mask.getLsbD s.sched.cur.lead = true ∧ y ∈ splitParts i.frag parts) ∨
      (y ∈ i.gang.frags ∧ y.mask.getLsbD s.sched.cur.lead = false) := by
  rw [splitFrags, mem_orderFrags, List.mem_flatMap]
  constructor
  · rintro ⟨x, hx, hy⟩
    split at hy
    next hl => exact .inl ⟨x, hx, hl, hy⟩
    next hl =>
      obtain rfl := List.mem_singleton.mp hy
      exact .inr ⟨hx, by simpa using hl⟩
  · rintro (⟨x, hx, hl, hy⟩ | ⟨hx, hl⟩)
    · exact ⟨x, hx, by rwa [if_pos hl]⟩
    · exact ⟨y, hx, by rw [if_neg (by simp [hl])]; exact List.mem_singleton.mpr rfl⟩

/-- A split sends every fibre of the issuing fragment to its part's address, where the parts cover the fragment (R184). -/
theorem splitFrags_sends {s : State} {i : Iss} (hi : Issues s i) {parts : List (List Nat × Quad)} {dest : Nat → Quad}
    (hcover : ∀ f ∈ i.frag.fibres, ∃ e ∈ parts, f ∈ e.1 ∧ e.2 = dest f)
    (hparts : ∀ e ∈ parts, ∀ f ∈ e.1, f ∈ i.frag.fibres ∧ e.2 = dest f) : Sends s i dest (splitFrags s i parts) := by
  obtain ⟨hmem, hlead⟩ := State.frag_of_iss hi
  refine ⟨fun f hf => ?_, fun y hy => ?_, fun x hx hl => mem_splitFrags.mpr (.inr ⟨hx, hl⟩)⟩
  · obtain ⟨e, he, hfe, hpc⟩ := hcover f hf
    obtain ⟨y, hy, hfy, hyp⟩ := exists_mem_splitParts i.frag he hfe (Frag.lt_of_mem_fibres hf)
    exact ⟨y, mem_splitFrags.mpr (.inl ⟨i.frag, hmem, hlead, hy⟩), hfy, hyp.trans hpc⟩
  · rcases mem_splitFrags.mp hy with ⟨x, -, -, hy⟩ | h
    · obtain ⟨hstack, e, he, hpc, hfib⟩ := mem_splitParts hy
      exact .inr ⟨hstack, fun f hf => (hparts e he f ((hfib f).mp hf).2).imp_right hpc.trans⟩
    · exact .inl h

/-! What an advance and a split make of the gang. -/

theorem FragsBecome.of_frags {s : State} {i : Iss} {K : Gang → Gang} {pre : List Frag}
    (hK : K i.gang = { i.gang with
      frags := if i.gang.handler.isSome || i.gang.entry.isSome then pre else settleFrags i.gang.liveFibres 130 pre }) :
    FragsBecome s (s.modGang i.tid i.gid K) i pre := by
  refine ⟨K, rfl, ?_, ?_⟩ <;> rw [hK]

theorem splitTo_fragsBecome {s : State} {i : Iss} (hi : Issues s i) (parts : List (List Nat × Quad)) (low : Nat) :
    FragsBecome s (splitTo s i parts low) i (splitFrags s i parts) := by
  obtain ⟨his, hra⟩ := hi
  obtain ⟨hteam, hgang, -, -⟩ := State.iss_spec his
  simp only [splitTo, hra, Option.isSome_none, Bool.false_eq_true, if_false, settleGang, State.modGang_modGang, hteam, hgang]
  refine FragsBecome.of_frags ?_
  simp only [hra, Option.isSome_none, Bool.false_eq_true, or_false, Gang.liveFibres, Bool.or_eq_true]
  split <;> rfl

theorem State.modGang_id (s : State) (t g : Nat) : s.modGang t g id = s := by
  simp [State.modGang, State.modTeam, mapMod]

theorem advance_fragsBecome {s : State} {i : Iss} (hi : Issues s i) (n : Nat) :
    FragsBecome s (advance s n) i (stepped s i n) := by
  obtain ⟨K, hrun, hK⟩ := advance_modGang hi.1 id hi.2 n
  rw [State.modGang_id] at hrun
  rw [hrun]
  exact FragsBecome.of_frags hK

/-! Branches. -/

/-- Where a jump over some words sends a fibre: the active ones to the target, the rest to the following instruction (R280). -/
def jumpDest (i : Iss) (p : Pred) (target : Quad) (words : Nat) (f : Nat) : Quad :=
  if f ∈ active i p then target else i.frag.pc + BitVec.ofNat 64 (8 * words)

theorem mem_rest {i : Iss} {l : List Nat} {f : Nat} : f ∈ rest i l ↔ f ∈ i.frag.fibres ∧ f ∉ l := by
  simp [rest]

theorem mem_fibres_of_mem_active {i : Iss} {p : Pred} {f : Nat} (h : f ∈ active i p) : f ∈ i.frag.fibres :=
  (List.mem_filter.mp h).1

theorem jump_sends {s : State} {i : Iss} (hi : Issues s i) (p : Pred) (target : Quad) (words : Nat) :
    Sends s i (jumpDest i p target words) (splitFrags s i
      [(active i p, target), (rest i (active i p), i.frag.pc + BitVec.ofNat 64 (8 * words))]) := by
  refine splitFrags_sends hi (fun f hf => ?_) (fun e he f hfe => ?_)
  · by_cases ha : f ∈ active i p
    · exact ⟨_, List.mem_cons_self, ha, (if_pos ha).symm⟩
    · exact ⟨_, List.mem_cons_of_mem _ List.mem_cons_self, mem_rest.mpr ⟨hf, ha⟩, (if_neg ha).symm⟩
  · simp only [List.mem_cons, List.not_mem_nil, or_false] at he
    rcases he with rfl | rfl
    · exact ⟨mem_fibres_of_mem_active hfe, (if_pos hfe).symm⟩
    · obtain ⟨hf, ha⟩ := mem_rest.mp hfe
      exact ⟨hf, (if_neg ha).symm⟩

/-- A jump with active fibres splits the fragment. -/
theorem jumpTo_eq {s : State} {i : Iss} (hra : i.gang.ra = none) {p : Pred} {f : Nat} (hf : (active i p).head? = some f)
    (target : Quad) (words : Nat) :
    jumpTo s i p target words = .ok () (splitTo s i
      [(active i p, target), (rest i (active i p), i.frag.pc + BitVec.ofNat 64 (8 * words))] f) := by
  obtain ⟨t, ht⟩ := List.head?_eq_some_iff.mp hf
  simp only [jumpTo, unsure_none hra, ht]
  rfl

/-- A jump with no active fibre acts as NOP. -/
theorem jumpTo_inactive {s : State} {i : Iss} (hra : i.gang.ra = none) {p : Pred} (h : active i p = [])
    (target : Quad) (words : Nat) : jumpTo s i p target words = .ok () (advance s words) := by
  simp only [jumpTo, unsure_none hra, h]
  rfl

theorem withTarget_inactive {s : State} {i : Iss} (hra : i.gang.ra = none) {p : Pred} (h : active i p = []) (a : Src)
    (k : Quad → State → Res Unit) : withTarget s i p a k = .ok () (advance s (wordsOf [a])) := by
  simp only [withTarget, unsure_none hra, h]
  rfl

/-- A target whose registers are ready is checked for alignment and handed on (R281). -/
theorem withTarget_ready {s : State} {i : Iss} (hi : Issues s i) {p : Pred} {a : Src} {f : Nat}
    (hf : (active i p).head? = some f) (hready : OpsReady i [opA a true] (active i p) []) (k : Quad → State → Res Unit) :
    withTarget s i p a k =
      if (valueOf i (opA a true) f).toNat % 8 = 0 then k (valueOf i (opA a true) f) s else .trap (illopnd 5 f) s := by
  obtain ⟨t, ht⟩ := List.head?_eq_some_iff.mp hf
  have hval : opndVal i.team.S i.gang (opA a true) f = some (valueOf i (opA a true) f) :=
    opndVal_of_needs fun n hn => (hready.1 n (List.mem_flatMap.mpr ⟨f, by simp [ht], hn⟩)).1
  rw [ht] at hready
  simp only [withTarget, ht, checked_ready hi.1 hready, Res.bind, hval]

/-- An instruction that jumps with active fibres splits its fragment into those and the rest, and does nothing else. -/
theorem exec_jump_splits {s : State} {i : Iss} (hi : Issues s i) {p : Pred} {ins : Instr} {target : Quad} {words f : Nat}
    (hf : (active i p).head? = some f) (hexec : exec ins s = finish i (jumpTo s i p target words)) :
    ∃ t pre, exec ins s = .next t ∧ FragsBecome s t i pre ∧ Sends s i (jumpDest i p target words) pre := by
  rw [jumpTo_eq hi.2 hf] at hexec
  exact ⟨_, _, hexec, splitTo_fragsBecome hi _ _, jump_sends hi ..⟩

/-- Settles O14: a branch is a split with the active fibres as one part and the rest as the other, or an advance. -/
theorem branchSendsActiveFibres : Obligations.BranchSendsActiveFibres := by
  intro s i p hi
  refine ⟨fun off hne => ?_, fun off h => ⟨_, ?_, advance_fragsBecome hi _⟩, fun a h => ⟨_, ?_, advance_fragsBecome hi _⟩,
    fun a f hf hready => ?_⟩
  · exact exec_jump_splits (target := relTarget i.frag.pc off) (words := 1) hi (List.head?_eq_some_head hne)
      (withIss_issues hi.1 _)
  · exact (withIss_issues hi.1 _).trans (congrArg (finish i) (jumpTo_inactive hi.2 h _ 1))
  · exact (withIss_issues hi.1 _).trans (congrArg (finish i) (withTarget_inactive hi.2 h a _))
  · have hexec : exec (.jmps p a) s = finish i _ :=
      (withIss_issues hi.1 _).trans (congrArg (finish i) (withTarget_ready hi hf hready _))
    dsimp only
    split
    next hal => exact exec_jump_splits hi hf (by rw [hexec, if_pos hal])
    next hal => rw [hexec, if_neg hal, ← raise_outside_runAhead s hi.2]; rfl

end Sys2Proof.Machine
